-- ==== Sys2Proof/Word.lean ====
section
/-! DEFINITION. The word types of GCB (00_scope.md rule R9): widths only, no behaviour. -/

namespace Sys2Proof

/-- A 32-bit transport word, register or operand (`WORD_WIDTH`, 00 R8). -/
abbrev Word := BitVec 32

/-- An unsigned 16-bit pixel (`PIXEL_BITS`, 00 R8). -/
abbrev Pixel := BitVec 16

/-- A 64-bit command word or response word (30 R90). -/
abbrev CmdWord := BitVec 64

/-- A port number, which is also a channel number (the 4-bit field `c`, 30 R91). -/
abbrev PortNo := BitVec 4

end Sys2Proof
end

