-- ==== Sys2Proof/Config.lean ====
section
/-! DEFINITION. The parameters of GCB (00_scope.md rule R8): the fixed ones as numbers, the OPEN ones as the
fields of `Config`, and the values the spec leaves unspecified as constants without a body. -/

namespace Sys2Proof

/-- `CODE_MAX`, the largest magnitude of a directly coded error or delta (00 R8). -/
def codeMax : Nat := 256

/-- `RUN_MAX`, the cap of a zero run (00 R8). -/
def runMax : Nat := 512

/-- `MAX_CODE_LEN`, the longest code the builder accepts (00 R8). -/
def maxCodeLen : Nat := 32

/-- `SYM_ESC`, the escape symbol of both tables (00 R8). -/
def symEsc : Nat := 513

/-- `SYM_RUN0`: the symbol of a zero run of length `L` is `symRun0 + L` (00 R8). -/
def symRun0 : Nat := 513

/-- The two code tables: table 0 serves the intra codec, table 1 the inter codec (41 R150). -/
inductive TableId where
  | intra
  | inter
deriving DecidableEq, Repr

/-- `N_0 = 514` and `N_1 = 1026` (00 R8). -/
def TableId.symbols : TableId → Nat
  | .intra => 514
  | .inter => 1026

/-- A code-table entry `{bits, length}` (10 R36). -/
structure CodeEntry where
  bits : Word
  length : Nat
deriving DecidableEq, Repr

/-- A decode node: a leaf with its symbol, or the indices of the children taken on a 0 and on a 1 bit (10 R37). -/
inductive Node where
  | leaf (sym : Nat)
  | node (c0 c1 : Nat)
deriving DecidableEq, Repr

/-- A code table: the encoding table in ascending symbol order and the decode tree in index order (41 R151). -/
structure CodeTable where
  enc : List CodeEntry
  tree : List Node
deriving DecidableEq, Repr

/-- The instance: the OPEN parameters of 00 R8. `State` carries it, so every statement about a state holds for
every instance. What values are legal is `LegalConfig` (Safety.lean). -/
structure Config where
  /-- `N_CH`, 1 to 16. -/
  nCh : Nat
  /-- `MAXPIX`, at least 1 and below 2^32. -/
  maxPix : Nat
  /-- `TABLE_INIT[0]`. -/
  init0 : Option CodeTable
  /-- `TABLE_INIT[1]`. -/
  init1 : Option CodeTable
deriving DecidableEq, Repr

/-- FREE VALUE (log 4): what pixel `index` of buffer `buffer` holds after reset number `epoch` and before its first
write, 93 U5: any 16-bit value, the same at every read. -/
opaque Config.freePixel (epoch buffer index : Nat) : Pixel

/-- FREE VALUE (log 5): what frequency cell `sym` of table `table` holds after reset number `epoch` and before its
first write, 93 U6: any 32-bit value, the same at every read. -/
opaque Config.freeFreq (epoch table sym : Nat) : Word

/-- FREE VALUE (log 7): the response data that stands for a word count of 2^32 or more, which the spec does not
state (30 R92, R94). -/
opaque Config.freeCount (words : Nat) : Word

end Sys2Proof
end

