-- ==== Sys2Proof/Syntax.lean ====
section
/-! DEFINITION. The instructions of GCB (00_scope.md rule R2): the 27 commands of 30_encoding.md rule R92 and the
5 stream symbol classes of rules R102 and R103, one constructor for each row of opcode_table.json. A command's
operands are the fields of the command word as they stand (30 R91), so an operand out of its legal range is a
term too: its meaning is `E_BAD_ARG` (30 R93 (c)). -/

namespace Sys2Proof

inductive Instr where
  /-- `NOP` (45 R250). -/
  | nop
  /-- `BW_WRITE c, k, v` (40 R132). -/
  | bwWrite (c : PortNo) (k : BitVec 16) (v : Word)
  /-- `BW_FLUSH c` (40 R135). -/
  | bwFlush (c : PortNo)
  /-- `BR_READ c, k` (40 R138). -/
  | brRead (c : PortNo) (k : BitVec 16)
  /-- `BR_READBIT c` (40 R141). -/
  | brReadbit (c : PortNo)
  /-- `BR_ALIGN c` (40 R140). -/
  | brAlign (c : PortNo)
  /-- `FQ_WR t, sym, f` (41 R162). -/
  | fqWr (t : BitVec 4) (sym : BitVec 16) (f : Word)
  /-- `PC_BUILD t` (41 R163). -/
  | pcBuild (t : BitVec 4)
  /-- `PC_ENCODE c, t, sym` (41 R165). -/
  | pcEncode (c : PortNo) (t : BitVec 4) (sym : BitVec 16)
  /-- `PC_DECODE c, t` (41 R167). -/
  | pcDecode (c : PortNo) (t : BitVec 4)
  /-- `PC_QBITS t, sym` (41 R168). -/
  | pcQbits (t : BitVec 4) (sym : BitVec 16)
  /-- `PC_QLEN t, sym` (41 R169). -/
  | pcQlen (t : BitVec 4) (sym : BitVec 16)
  /-- `IC_COMPRESS c, src` (42 R190). -/
  | icCompress (c : PortNo) (src : BitVec 8)
  /-- `IC_DECOMPRESS c, dst` (42 R191). -/
  | icDecompress (c : PortNo) (dst : BitVec 8)
  /-- `XC_COMPRESS c, src, ref` (43 R204). -/
  | xcCompress (c : PortNo) (src ref : BitVec 8)
  /-- `XC_DECOMPRESS c, dst, ref` (43 R206). -/
  | xcDecompress (c : PortNo) (dst ref : BitVec 8)
  /-- `FS_OPEN c, role` (44 R223): role 0 encoder, 1 decoder. -/
  | fsOpen (c : PortNo) (role : BitVec 1)
  /-- `FS_ACK c, v` (44 R224). -/
  | fsAck (c : PortNo) (v : Word)
  /-- `FS_MSG c, token` (44 R226). -/
  | fsMsg (c : PortNo) (token : BitVec 16)
  /-- `FS_SEND c` (44 R228). -/
  | fsSend (c : PortNo)
  /-- `FS_RECV c` (44 R230). -/
  | fsRecv (c : PortNo)
  /-- `FS_CLOSE c` (44 R231). -/
  | fsClose (c : PortNo)
  /-- `CSR_RD addr` (45 R252). -/
  | csrRd (addr : BitVec 16)
  /-- `CSR_WR addr, value` (45 R253). -/
  | csrWr (addr : BitVec 16) (value : Word)
  /-- `PX_WR b, index, pix` (45 R255). -/
  | pxWr (b : BitVec 8) (index : Word) (pix : Pixel)
  /-- `PX_RD b, index` (45 R256). -/
  | pxRd (b : BitVec 8) (index : Word)
  /-- `RESET` (45 R257). -/
  | reset
  /-- Stream symbol `DIRECT` of table 0 (30 R102): the symbol number, 0 to 512. -/
  | direct0 (sym : BitVec 10)
  /-- Stream symbol `ESC` of table 0 (30 R102): its immediate, the raw error (30 R106). -/
  | esc0 (raw : Pixel)
  /-- Stream symbol `DIRECT` of table 1 (30 R103): the symbol number, 0 to 512. -/
  | direct1 (sym : BitVec 10)
  /-- Stream symbol `ESC` of table 1 (30 R103): its immediate, the raw delta (30 R106). -/
  | esc1 (raw : Pixel)
  /-- Stream symbol `RUN` of table 1 (30 R103): the run length `L`, 1 to 512. -/
  | run (len : BitVec 10)
deriving DecidableEq, Repr

end Sys2Proof
end

