-- ==== Sys2Proof/WellFormed.lean ====
section
/-! DEFINITION. Which terms of `Instr` are instructions of GCB. A command is one at every value of its fields
(30_encoding.md rules R91, R93: a bad operand is a legal word with a bad argument); a stream symbol must have a
number of its class (rules R102, R103). -/

namespace Sys2Proof

/-- The symbol number of a direct symbol is 0 to `2*codeMax` = 512 (30 R102, R103). -/
def directNumberOk (sym : BitVec 10) : Bool := decide (sym.toNat ≤ 2 * codeMax)

/-- A run has length 1 to 512 (30 R103; 43 R202: a run symbol of length 0 does not exist). -/
def runLengthOk (len : BitVec 10) : Bool := decide (1 ≤ len.toNat) && decide (len.toNat ≤ runMax)

/-- The well-formed instructions. -/
def Instr.wf : Instr → Bool
  | .direct0 sym => directNumberOk sym
  | .direct1 sym => directNumberOk sym
  | .run len => runLengthOk len
  | .esc0 _ | .esc1 _ => true
  | .nop | .bwWrite _ _ _ | .bwFlush _ | .brRead _ _ | .brReadbit _ | .brAlign _ => true
  | .fqWr _ _ _ | .pcBuild _ | .pcEncode _ _ _ | .pcDecode _ _ | .pcQbits _ _ | .pcQlen _ _ => true
  | .icCompress _ _ | .icDecompress _ _ | .xcCompress _ _ _ | .xcDecompress _ _ _ => true
  | .fsOpen _ _ | .fsAck _ _ | .fsMsg _ _ | .fsSend _ | .fsRecv _ | .fsClose _ => true
  | .csrRd _ | .csrWr _ _ | .pxWr _ _ _ | .pxRd _ _ | .reset => true

/-- The instructions that are commands of 30 R92; the others are stream symbols. -/
def Instr.isCommand : Instr → Bool
  | .direct0 _ | .esc0 _ | .direct1 _ | .esc1 _ | .run _ => false
  | .nop | .bwWrite _ _ _ | .bwFlush _ | .brRead _ _ | .brReadbit _ | .brAlign _ => true
  | .fqWr _ _ _ | .pcBuild _ | .pcEncode _ _ _ | .pcDecode _ _ | .pcQbits _ _ | .pcQlen _ _ => true
  | .icCompress _ _ | .icDecompress _ _ | .xcCompress _ _ _ | .xcDecompress _ _ _ => true
  | .fsOpen _ _ | .fsAck _ _ | .fsMsg _ _ | .fsSend _ | .fsRecv _ | .fsClose _ => true
  | .csrRd _ | .csrWr _ _ | .pxWr _ _ _ | .pxRd _ _ | .reset => true

end Sys2Proof
end

