-- ==== Sys2Proof/Decode.lean ====
section
/-! DEFINITION. Decoding and encoding (30_encoding.md): the command word, part A, and the stream symbols, part B. -/

namespace Sys2Proof

/-- The five fields of format `CMD` (30 R91). -/
structure Fields where
  op : BitVec 8
  c : BitVec 4
  t : BitVec 4
  aux : BitVec 16
  val : BitVec 32
deriving DecidableEq, Repr

/-- The fields of a command word: `op[63:56] c[55:52] t[51:48] aux[47:32] val[31:0]` (30 R91). -/
def fieldsOfWord (w : CmdWord) : Fields where
  op := w.extractLsb' 56 8
  c := w.extractLsb' 52 4
  t := w.extractLsb' 48 4
  aux := w.extractLsb' 32 16
  val := w.extractLsb' 0 32

/-- The command word with the given fields (30 R91). -/
def wordOfFields (f : Fields) : CmdWord :=
  BitVec.ofNat 64 (f.op.toNat * 2 ^ 56 + f.c.toNat * 2 ^ 52 + f.t.toNat * 2 ^ 48 + f.aux.toNat * 2 ^ 32 + f.val.toNat)

/-- The 8-bit buffer number `b`, fields `c` and `t` read as one (30 R91). -/
def bufferField (c t : BitVec 4) : BitVec 8 := BitVec.ofNat 8 (c.toNat * 16 + t.toNat)

/-- Sub-field `x0 = aux[7:0]` (30 R91). -/
def auxLow (aux : BitVec 16) : BitVec 8 := aux.extractLsb' 0 8

/-- Sub-field `x1 = aux[15:8]` (30 R91). -/
def auxHigh (aux : BitVec 16) : BitVec 8 := aux.extractLsb' 8 8

/-- The `aux` field made of its two buffer numbers (30 R91). -/
def auxOf (x0 x1 : BitVec 8) : BitVec 16 := BitVec.ofNat 16 (x1.toNat * 256 + x0.toNat)

/-- A command whose must-be-zero fields are zero exactly when `zeros` holds (30 R93 (b)). -/
def commandWhen (zeros : Bool) (i : Instr) : Option Instr := if zeros then some i else none

/-- The command a word's fields name: the row of 30 R92 with this opcode, provided its must-be-zero fields are zero.
`none` is an illegal word, `E_BAD_CMD` (30 R93 (a), (b)). -/
def decodeFields (f : Fields) : Option Instr :=
  match f.op.toNat with
  | 0x00 => commandWhen (f.c = 0 && f.t = 0 && f.aux = 0 && f.val = 0) .nop
  | 0x01 => commandWhen (f.t = 0) (.bwWrite f.c f.aux f.val)
  | 0x02 => commandWhen (f.t = 0 && f.aux = 0 && f.val = 0) (.bwFlush f.c)
  | 0x11 => commandWhen (f.t = 0 && f.val = 0) (.brRead f.c f.aux)
  | 0x12 => commandWhen (f.t = 0 && f.aux = 0 && f.val = 0) (.brReadbit f.c)
  | 0x13 => commandWhen (f.t = 0 && f.aux = 0 && f.val = 0) (.brAlign f.c)
  | 0x20 => commandWhen (f.c = 0) (.fqWr f.t f.aux f.val)
  | 0x21 => commandWhen (f.c = 0 && f.aux = 0 && f.val = 0) (.pcBuild f.t)
  | 0x22 => commandWhen (f.val = 0) (.pcEncode f.c f.t f.aux)
  | 0x23 => commandWhen (f.aux = 0 && f.val = 0) (.pcDecode f.c f.t)
  | 0x24 => commandWhen (f.c = 0 && f.val = 0) (.pcQbits f.t f.aux)
  | 0x25 => commandWhen (f.c = 0 && f.val = 0) (.pcQlen f.t f.aux)
  | 0x30 => commandWhen (f.t = 0 && auxHigh f.aux = 0 && f.val = 0) (.icCompress f.c (auxLow f.aux))
  | 0x31 => commandWhen (f.t = 0 && auxHigh f.aux = 0 && f.val = 0) (.icDecompress f.c (auxLow f.aux))
  | 0x40 => commandWhen (f.t = 0 && f.val = 0) (.xcCompress f.c (auxLow f.aux) (auxHigh f.aux))
  | 0x41 => commandWhen (f.t = 0 && f.val = 0) (.xcDecompress f.c (auxLow f.aux) (auxHigh f.aux))
  | 0x50 => commandWhen (f.t = 0 && f.aux.extractLsb' 1 15 = 0 && f.val = 0) (.fsOpen f.c (f.aux.extractLsb' 0 1))
  | 0x51 => commandWhen (f.t = 0 && f.aux = 0) (.fsAck f.c f.val)
  | 0x52 => commandWhen (f.t = 0 && f.val = 0) (.fsMsg f.c f.aux)
  | 0x53 => commandWhen (f.t = 0 && f.aux = 0 && f.val = 0) (.fsSend f.c)
  | 0x54 => commandWhen (f.t = 0 && f.aux = 0 && f.val = 0) (.fsRecv f.c)
  | 0x55 => commandWhen (f.t = 0 && f.aux = 0 && f.val = 0) (.fsClose f.c)
  | 0x60 => commandWhen (f.c = 0 && f.t = 0 && f.val = 0) (.csrRd f.aux)
  | 0x61 => commandWhen (f.c = 0 && f.t = 0) (.csrWr f.aux f.val)
  | 0x62 => some (.pxWr (bufferField f.c f.t) f.val f.aux)
  | 0x63 => commandWhen (f.aux = 0) (.pxRd (bufferField f.c f.t) f.val)
  | 0x7F => commandWhen (f.c = 0 && f.t = 0 && f.aux = 0 && f.val = 0) .reset
  | _ => none

/-- Decoding a command word is total (30 R95): one command, or `none` for an illegal word (30 R93). -/
def decode (w : CmdWord) : Option Instr := decodeFields (fieldsOfWord w)

/-- The fields that encode a command (30 R92); a stream symbol has no command word. -/
def fieldsOf : Instr → Option Fields
  | .nop => some ⟨0x00, 0, 0, 0, 0⟩
  | .bwWrite c k v => some ⟨0x01, c, 0, k, v⟩
  | .bwFlush c => some ⟨0x02, c, 0, 0, 0⟩
  | .brRead c k => some ⟨0x11, c, 0, k, 0⟩
  | .brReadbit c => some ⟨0x12, c, 0, 0, 0⟩
  | .brAlign c => some ⟨0x13, c, 0, 0, 0⟩
  | .fqWr t sym f => some ⟨0x20, 0, t, sym, f⟩
  | .pcBuild t => some ⟨0x21, 0, t, 0, 0⟩
  | .pcEncode c t sym => some ⟨0x22, c, t, sym, 0⟩
  | .pcDecode c t => some ⟨0x23, c, t, 0, 0⟩
  | .pcQbits t sym => some ⟨0x24, 0, t, sym, 0⟩
  | .pcQlen t sym => some ⟨0x25, 0, t, sym, 0⟩
  | .icCompress c src => some ⟨0x30, c, 0, auxOf src 0, 0⟩
  | .icDecompress c dst => some ⟨0x31, c, 0, auxOf dst 0, 0⟩
  | .xcCompress c src ref => some ⟨0x40, c, 0, auxOf src ref, 0⟩
  | .xcDecompress c dst ref => some ⟨0x41, c, 0, auxOf dst ref, 0⟩
  | .fsOpen c role => some ⟨0x50, c, 0, role.setWidth 16, 0⟩
  | .fsAck c v => some ⟨0x51, c, 0, 0, v⟩
  | .fsMsg c token => some ⟨0x52, c, 0, token, 0⟩
  | .fsSend c => some ⟨0x53, c, 0, 0, 0⟩
  | .fsRecv c => some ⟨0x54, c, 0, 0, 0⟩
  | .fsClose c => some ⟨0x55, c, 0, 0, 0⟩
  | .csrRd addr => some ⟨0x60, 0, 0, addr, 0⟩
  | .csrWr addr value => some ⟨0x61, 0, 0, addr, value⟩
  | .pxWr b index pix => some ⟨0x62, b.extractLsb' 4 4, b.extractLsb' 0 4, pix, index⟩
  | .pxRd b index => some ⟨0x63, b.extractLsb' 4 4, b.extractLsb' 0 4, 0, index⟩
  | .reset => some ⟨0x7F, 0, 0, 0, 0⟩
  | .direct0 _ | .esc0 _ | .direct1 _ | .esc1 _ | .run _ => none

/-- The command word of a command (30 R91, R92); `none` for a stream symbol, whose bits are a property of the code
table in use (30 R109; see `encodeItem`). -/
def encode (i : Instr) : Option CmdWord := (fieldsOf i).map wordOfFields

/-- The opcode byte of a command (30 R92), which `LAST_ERR` records (10 R42). A stream symbol has none: 0. -/
def opcodeOf (i : Instr) : BitVec 8 :=
  match fieldsOf i with
  | some f => f.op
  | none => 0

/-- The opcode byte of any command word, `w[63:56]` (30 R91; 60 R274 (d): for an unknown opcode, that byte). -/
def opcodeOfWord (w : CmdWord) : BitVec 8 := (fieldsOfWord w).op

/-- The instruction the decoder reads from a row of opcode_table.json. A command is one 64-bit word, whose bit 0 is
bit 0 of the table; a row of fewer bits is a stream symbol, which is not a command word (log 10). -/
def decodeTableWord (nbits w : Nat) : Option Instr :=
  if nbits < 64 then none else decode (BitVec.ofNat 64 w)

/-! ### Stream symbols (part B) -/

/-- The low `k` bits of `v`, most significant first (20 R60). -/
def bitsOf (v : Nat) : Nat → List Bool
  | 0 => []
  | k + 1 => v.testBit k :: bitsOf v k

/-- The value of a list of bits, most significant first (20 R60). -/
def natOfBits (bits : List Bool) : Nat := bits.foldl (fun acc b => 2 * acc + b.toNat) 0

/-- The table and symbol number of a stream symbol (30 R102, R103). -/
def symbolOf : Instr → Option (TableId × Nat)
  | .direct0 sym => some (.intra, sym.toNat)
  | .esc0 _ => some (.intra, symEsc)
  | .direct1 sym => some (.inter, sym.toNat)
  | .esc1 _ => some (.inter, symEsc)
  | .run len => some (.inter, symRun0 + len.toNat)
  | .nop | .bwWrite _ _ _ | .bwFlush _ | .brRead _ _ | .brReadbit _ | .brAlign _ => none
  | .fqWr _ _ _ | .pcBuild _ | .pcEncode _ _ _ | .pcDecode _ _ | .pcQbits _ _ | .pcQlen _ _ => none
  | .icCompress _ _ | .icDecompress _ _ | .xcCompress _ _ _ | .xcDecompress _ _ _ => none
  | .fsOpen _ _ | .fsAck _ _ | .fsMsg _ _ | .fsSend _ | .fsRecv _ | .fsClose _ => none
  | .csrRd _ | .csrWr _ _ | .pxWr _ _ _ | .pxRd _ _ | .reset => none

/-- The immediate bits of a stream symbol: 16 after an escape, none otherwise (30 R106). -/
def immediateBits : Instr → List Bool
  | .esc0 raw => bitsOf raw.toNat 16
  | .esc1 raw => bitsOf raw.toNat 16
  | .direct0 _ | .direct1 _ | .run _ => []
  | .nop | .bwWrite _ _ _ | .bwFlush _ | .brRead _ _ | .brReadbit _ | .brAlign _ => []
  | .fqWr _ _ _ | .pcBuild _ | .pcEncode _ _ _ | .pcDecode _ _ | .pcQbits _ _ | .pcQlen _ _ => []
  | .icCompress _ _ | .icDecompress _ _ | .xcCompress _ _ _ | .xcDecompress _ _ _ => []
  | .fsOpen _ _ | .fsAck _ _ | .fsMsg _ _ | .fsSend _ | .fsRecv _ | .fsClose _ => []
  | .csrRd _ | .csrWr _ _ | .pxWr _ _ _ | .pxRd _ _ | .reset => []

/-- The stream symbol with number `sym` of table `t` and, if it is an escape, the raw value `raw` (30 R102, R103). -/
def itemOf (t : TableId) (sym : Nat) (raw : Pixel) : Option Instr :=
  match t with
  | .intra =>
    if sym ≤ 2 * codeMax then some (.direct0 (BitVec.ofNat 10 sym))
    else if sym = symEsc then some (.esc0 raw)
    else none
  | .inter =>
    if sym ≤ 2 * codeMax then some (.direct1 (BitVec.ofNat 10 sym))
    else if sym = symEsc then some (.esc1 raw)
    else if sym ≤ symRun0 + runMax then some (.run (BitVec.ofNat 10 (sym - symRun0)))
    else none

/-- The bits of a stream symbol under its code table: its code, first bit of the path first, then its immediate
(30 R101, R106). -/
def encodeItem (tab : CodeTable) (i : Instr) : Option (List Bool) :=
  match symbolOf i with
  | none => none
  | some (_, sym) =>
    match tab.enc[sym]? with
    | none => none
    | some e => some (bitsOf e.bits.toNat e.length ++ immediateBits i)

/-- Walk the decode tree from node `i` along a list of bits to a leaf: its symbol and the bits left over (41 R166).
`none` when the bits end before a leaf is reached. -/
def walkBits (tree : List Node) (i : Nat) (bits : List Bool) : Option (Nat × List Bool) :=
  match tree.getD i (.leaf 0), bits with
  | .leaf sym, rest => some (sym, rest)
  | .node _ _, [] => none
  | .node c0 c1, b :: rest => walkBits tree (if b then c1 else c0) rest

/-- Decode one stream symbol of table `t` from a list of bits: the code by the tree walk (41 R166), then 16 raw bits
after an escape (30 R106). -/
def decodeItem (t : TableId) (tab : CodeTable) (bits : List Bool) : Option (Instr × List Bool) :=
  match walkBits tab.tree 0 bits with
  | none => none
  | some (sym, rest) =>
    if sym = symEsc then
      if rest.length < 16 then none
      else (itemOf t sym (BitVec.ofNat 16 (natOfBits (rest.take 16)))).map fun i => (i, rest.drop 16)
    else (itemOf t sym 0).map fun i => (i, rest)

end Sys2Proof
end

