-- ==== Sys2Proof/Machine/Cells.lean ====
section
/-! DEFINITION. Sparse memories of whole cells (20_memory.md rule R64): a list of (address, cell) pairs in one
canonical form. The listed cells are exactly those written since reset; what an unlisted cell reads as is the free
value of State.pixel and State.freqCell (log 4, log 5, log 11). -/

namespace Sys2Proof.Machine

/-- The address of a cell in its space (20 R69): (buffer, index) of a pixel, (table, symbol) of a frequency. -/
abbrev Address := Nat × Nat

/-- A memory of `w`-bit cells. -/
abbrev Cells (w : Nat) := List (Address × BitVec w)

/-- The order of addresses that the canonical form follows: by buffer or table, then by index. -/
def addressLt (a b : Address) : Bool := decide (a.1 < b.1) || (decide (a.1 = b.1) && decide (a.2 < b.2))

/-- The cell listed at an address; `none` where nothing has been written since reset. -/
def Cells.get {w : Nat} : Cells w → Address → Option (BitVec w)
  | [], _ => none
  | (a, v) :: rest, b => if b = a then some v else Cells.get rest b

/-- Write one cell, keeping the list in rising order of addresses with one entry an address. -/
def Cells.put {w : Nat} : Cells w → Address → BitVec w → Cells w
  | [], b, v => [(b, v)]
  | (a, u) :: rest, b, v =>
    if b = a then (b, v) :: rest
    else if addressLt b a then (b, v) :: (a, u) :: rest
    else (a, u) :: Cells.put rest b v

/-- The first entry of a memory, if any, lies above address `a`. -/
def Cells.above {w : Nat} (a : Address) : Cells w → Bool
  | [] => true
  | (b, _) :: _ => addressLt a b

/-- The canonical form: addresses strictly rise. -/
def Cells.wf {w : Nat} : Cells w → Bool
  | [] => true
  | (a, _) :: rest => Cells.above a rest && Cells.wf rest

end Sys2Proof.Machine
end

