-- ==== Sys2Proof/Machine/Instance.lean ====
section
/-! DEFINITION. The instance whose reset state is `State.reset` (log 3). -/

namespace Sys2Proof.Machine

/-- DESIGN CHOICE (log 3): three channels, 64 pixels a buffer, no built-in tables: the instance of
95_test_vectors.md section 8.1. The parameters are OPEN (00 R8); every other definition takes them from the state. -/
def resetInstance : Config where
  nCh := 3
  maxPix := 64
  init0 := none
  init1 := none

end Sys2Proof.Machine
end

