-- ==== Sys2Proof/Machine/State.lean ====
section
/-! DEFINITION. The state of GCB (10_state.md): everything a command can read or write, as plain data. -/

namespace Sys2Proof.Machine

open Sys2Proof

/-- The status codes of 60 R271. -/
inductive Status where
  | ok
  | badCmd
  | badArg
  | badDim
  | noTable
  | codeTooLong
  | badState
  | protocol
  | transport
  | runOverrun
deriving DecidableEq, Repr

/-- The states of a channel, `CHST[c]` (10 R28). -/
inductive ChState where
  | closed
  | start
  | intra
  | inter
deriving DecidableEq, Repr

/-- The role of a channel, `CHROLE[c]` (10 R28). -/
inductive Role where
  | encoder
  | decoder
deriving DecidableEq, Repr

/-- Port `c` and channel `c`: the bit registers (10 R21, R23), the transports with their flags (10 R26, R27) and the
channel record (10 R28). -/
structure Port where
  /-- `BW[c].acc`: the valid bits right-justified (10 R21). -/
  bwAcc : Word
  /-- `BW[c].n`. -/
  bwN : Nat
  /-- `BR[c].acc`: the unconsumed bits left-justified (10 R23). -/
  brAcc : Word
  /-- `BR[c].n`. -/
  brN : Nat
  /-- `TOUT[c]`, oldest word first. -/
  tout : List Word
  /-- `TOUT_ERR[c]`. -/
  toutErr : Bool
  /-- `TIN[c]`, head first. -/
  tin : List Word
  /-- `TIN_EOS[c]`. -/
  tinEos : Bool
  /-- `CHST[c]`. -/
  chst : ChState
  /-- `CHROLE[c]`. -/
  role : Role
  /-- `CHSWAP[c]`. -/
  swap : Bool
deriving DecidableEq, Repr

/-- A port right after reset (10 R55). -/
def Port.reset : Port where
  bwAcc := 0
  bwN := 0
  brAcc := 0
  brN := 0
  tout := []
  toutErr := false
  tin := []
  tinEos := false
  chst := .closed
  role := .encoder
  swap := false

/-- Code table `t`: `ENC[t]` (10 R36), `TREE[t]` (10 R37) and `TVALID[t]` (10 R38). -/
structure Table where
  enc : List CodeEntry
  tree : List Node
  valid : Bool
deriving DecidableEq, Repr

/-- Code table `t` after reset, from `TABLE_INIT[t]` (10 R55). With no built-in table its contents are unreadable; the
empty lists are a placeholder (10 R38; log 6). -/
def Table.ofInit : Option CodeTable → Table
  | some tab => ⟨tab.enc, tab.tree, true⟩
  | none => ⟨[], [], false⟩

/-- An act of the host at the interface: presenting a command word (30 R90), appending a word to `TIN[c]`, setting
`TIN_EOS[c]`, setting `TOUT_ERR[c]` (10 R26, R27). -/
inductive HostAct where
  | command (w : CmdWord)
  | inputWord (c : PortNo) (w : Word)
  | inputEnd (c : PortNo)
  | outputError (c : PortNo)
deriving DecidableEq, Repr

/-- The cursor of a decompressor at work (10 R30), alive only inside a command (log 9). -/
structure Cursor where
  /-- The codec: table 0 intra, table 1 inter. -/
  table : TableId
  /-- The opcode byte of the command in progress, which `LAST_ERR` records if the frame fails. -/
  op : BitVec 8
  port : PortNo
  /-- Destination buffer. -/
  dst : Nat
  /-- Reference buffer (inter). -/
  ref : Nat
  /-- Grid width `w`. -/
  width : Nat
  /-- Pixels of the frame, `w*h`. -/
  count : Nat
  /-- Pixels rebuilt so far: the step of the scan (intra) or the index `i` (inter). -/
  pos : Nat
deriving DecidableEq, Repr

/-- Why the machine stops with a fault. Only a stream symbol presented outside a decompressor can do so; no
command faults (60 R274 (f): after any error the next command runs normally). -/
inductive Fault where
  /-- A stream symbol where no decompressor of its table stands at a pixel that takes one. Raised by the five symbol
  meanings. The spec gives a symbol no effect there (10 R30, 42 R188, 43 R205). Safe (log 9). -/
  | noFrame
  /-- A stream symbol whose number is outside its class (30 R102, R103). Raised by the meanings of `DIRECT` and `RUN`.
  No stream holds one (30 R107 (e)). Safe (log 9). -/
  | noSuchSymbol
deriving DecidableEq, Repr

/-- Why the model gives no next state. -/
inductive Refusal where
  /-- An instruction whose arm of `exec` has no meaning yet. Raised by no arm of this model. Safe. -/
  | notModelled (mnemonic : String)
  /-- A host act on a transport that does not exist, port `c >= N_CH` (10 R20). Raised by the step. The spec says
  nothing of such an act. Safe (log 14). -/
  | noSuchTransport
deriving DecidableEq, Repr

/-- The complete state of GCB (10 R20), the instance it is (00 R8), and the model's own fields. -/
structure State where
  /-- The OPEN parameters (00 R8, log 3). No step changes them. -/
  cfg : Config
  /-- MODEL'S OWN (log 4): the number of resets so far; it selects the free contents of unwritten cells. -/
  epoch : Nat
  /-- The ports and channels. Those with `c >= N_CH` do not exist and stay as after reset (log 15). -/
  ports : Vector Port 16
  /-- `ENC[0]`, `TREE[0]`, `TVALID[0]`. -/
  tab0 : Table
  /-- `ENC[1]`, `TREE[1]`, `TVALID[1]`. -/
  tab1 : Table
  /-- `FREQ[t][s]` (10 R35): the cells written since reset, at address (t, s). -/
  freq : Cells 32
  /-- `PB[b][i]` (10 R34): the cells written since reset, at address (b, i). -/
  pix : Cells 16
  /-- `LAST_ERR` (10 R42). -/
  lastErr : Word
  /-- `GRID_W` (10 R43). -/
  gridW : Word
  /-- `GRID_H` (10 R44). -/
  gridH : Word
  /-- `OP_W` (10 R45). -/
  opW : Word
  /-- `OP_H` (10 R46). -/
  opH : Word
  /-- `MAGIC` (10 R48). -/
  magic : Word
  /-- MODEL'S OWN (log 9): the cursor of the decompressor in progress; `none` between commands (10 R30). -/
  cursor : Option Cursor
  /-- MODEL'S OWN (log 2): the command that holds for an input word (40 R137). -/
  holding : Option Instr
  /-- MODEL'S OWN (log 1): the host's acts still to come, oldest first. -/
  host : List HostAct
  /-- MODEL'S OWN (log 8): the response word of the last command (30 R94); `none` when none has been answered since
  reset, and while a command holds. -/
  rsp : Option CmdWord
deriving DecidableEq, Repr

/-- The state of an instance after reset number `epoch` (10 R55, R311), with no host act to come. -/
def State.resetOf (cfg : Config) (epoch : Nat) : State where
  cfg := cfg
  epoch := epoch
  ports := Vector.replicate 16 Port.reset
  tab0 := Table.ofInit cfg.init0
  tab1 := Table.ofInit cfg.init1
  freq := []
  pix := []
  lastErr := 0
  gridW := 0
  gridH := 0
  opW := 0
  opH := 0
  magic := 0x12345678
  cursor := none
  holding := none
  host := []
  rsp := none

/-- GCB right after power-on reset (10 R55), for the instance of `resetInstance` (log 3). -/
def State.reset : State := State.resetOf resetInstance 0

end Sys2Proof.Machine
end

