-- ==== Sys2Proof/Machine/Ops.lean ====
section
/-! DEFINITION. The named operations over the state: ports, tables, pixels, frequencies; how a command ends (done,
an error, a hold); closing a channel; taking an error (60_exceptions.md rule R274). -/

namespace Sys2Proof.Machine

/-- The outcome of a step or of an instruction's meaning. -/
abbrev Out := Host.Outcome State Fault Refusal

/-! ### Ports, tables, cells -/

/-- The record of port and channel `c`. -/
def State.port (s : State) (c : PortNo) : Port := s.ports[c.toNat]'c.isLt

/-- Replace the record of port `c`. -/
def State.setPort (s : State) (c : PortNo) (p : Port) : State :=
  { s with ports := s.ports.set c.toNat p c.isLt }

/-- The number of table `t`, 0 or 1 (41 R150). -/
def tableNumber : TableId → Nat
  | .intra => 0
  | .inter => 1

/-- Code table `t`. -/
def State.table (s : State) : TableId → Table
  | .intra => s.tab0
  | .inter => s.tab1

/-- Replace code table `t`. -/
def State.setTable (s : State) (t : TableId) (tab : Table) : State :=
  match t with
  | .intra => { s with tab0 := tab }
  | .inter => { s with tab1 := tab }

/-- `MemRead(PB[b], i, 16)` (20 R66): the pixel last written to cell `i` of buffer `b`, or the free value that a cell
never written since reset holds (93 U5; log 4). -/
def State.pixel (s : State) (b i : Nat) : Pixel := (s.pix.get (b, i)).getD (Config.freePixel s.epoch b i)

/-- `MemWrite(PB[b], i, 16, v)` (20 R66). -/
def State.setPixel (s : State) (b i : Nat) (v : Pixel) : State := { s with pix := s.pix.put (b, i) v }

/-- `FREQ[t][sym]` (10 R35), or the free value of a cell never written since reset (93 U6; log 5). -/
def State.freqCell (s : State) (t : TableId) (sym : Nat) : Word :=
  (s.freq.get (tableNumber t, sym)).getD (Config.freeFreq s.epoch (tableNumber t) sym)

/-- `FREQ[t][sym] <- f` (41 R162). -/
def State.setFreq (s : State) (t : TableId) (sym : Nat) (f : Word) : State :=
  { s with freq := s.freq.put (tableNumber t, sym) f }

/-- `NPB = 3 + 3*N_CH` (00 R8, 10 R34). -/
def bufferCount (cfg : Config) : Nat := 3 + 3 * cfg.nCh

/-- The buffer of `CUR[k]` (10 R34). -/
def curBuffer (k : Nat) : Nat := k

/-- The buffer of `REF[c][k]`, number 3+3c+k (10 R34). -/
def refBuffer (c : PortNo) (k : Nat) : Nat := 3 + 3 * c.toNat + k

/-- `for j in 0..len-1: PB[dst][i+j] <- PB[src][i+j]`, ascending (43 R206, 44 R228). -/
def copyCells (dst src : Nat) : Nat → Nat → State → State
  | 0, _, s => s
  | len + 1, i, s => copyCells dst src len (i + 1) (s.setPixel dst i (s.pixel src i))

/-! ### How a stretch of pseudocode ends -/

/-- What a stretch of a command's pseudocode comes to (00 R11): it returns a value, it raises an error, the state
being what was written before that point (60 R274 (b)), or it holds for an input word (40 R137). -/
inductive Res (α : Type) where
  | done (a : α) (s : State)
  | raise (e : Status) (s : State)
  | hold
deriving DecidableEq, Repr

/-- Go on with the next line: an error or a hold stops the command (60 R274 (a), 40 R137). -/
def Res.bind {α β : Type} (r : Res α) (next : α → State → Res β) : Res β :=
  match r with
  | .done a s => next a s
  | .raise e s => .raise e s
  | .hold => .hold

/-- Go on with the next line, where the line before returned no value. -/
def Res.andThen {β : Type} (r : Res Unit) (next : State → Res β) : Res β := r.bind fun _ s => next s

/-- A check at the head of a command (60 R273): an error that changes nothing unless `ok` holds. -/
def check (ok : Bool) (e : Status) (s : State) : Res Unit :=
  if ok then .done () s else .raise e s

/-! ### Closing a channel -/

/-- A port with both bit registers empty and its channel `CLOSED`. -/
def closedPort (p : Port) : Port :=
  { p with bwAcc := 0, bwN := 0, brAcc := 0, brN := 0, chst := .closed }

/-- `close(c)` (44 R225). The death of port `c` at `E_TRANSPORT` has the same effect (40 R145). -/
def closeChannel (c : PortNo) (s : State) : State := s.setPort c (closedPort (s.port c))

/-! ### Responses and errors -/

/-- The numbers of 60 R271. -/
def Status.code : Status → BitVec 8
  | .ok => 0
  | .badCmd => 1
  | .badArg => 2
  | .badDim => 3
  | .noTable => 4
  | .codeTooLong => 5
  | .badState => 6
  | .protocol => 7
  | .transport => 8
  | .runOverrun => 9

/-- Format `RSP`: status in bits 63:56, bits 55:32 zero, data in bits 31:0 (30 R94). -/
def responseWord (e : Status) (data : Word) : CmdWord :=
  BitVec.ofNat 64 (e.code.toNat * 2 ^ 56 + data.toNat)

/-- `LAST_ERR` after an error: bits 7:0 the code, bits 15:8 the opcode byte (10 R42, 60 R274 (d)). -/
def lastErrWord (op : BitVec 8) (e : Status) : Word := BitVec.ofNat 32 (op.toNat * 256 + e.code.toNat)

/-- TAKING AN ERROR (60 R274): what the command wrote stays written, `LAST_ERR` is set, the response carries the code
and data 0. There is no handler and no return (60 R286): the next command the host issues is executed normally. -/
def takeError (op : BitVec 8) (e : Status) (s : State) : State :=
  { s with lastErr := lastErrWord op e, rsp := some (responseWord e 0), holding := none, cursor := none }

/-- A command completes with status `OK` and response data `data` (30 R94); `LAST_ERR` keeps its value (10 R42). -/
def succeed (data : Word) (s : State) : State :=
  { s with rsp := some (responseWord .ok data), holding := none, cursor := none }

/-- A command holds (40 R137): the state is as when it was issued, and it waits at the command port to be executed
when the host has acted on a transport (log 2). No response is given yet. -/
def waitForInput (i : Instr) (s : State) : State := { s with holding := some i, rsp := none }

/-- The state a command ends in: `before` is the state it was issued in. -/
def complete (i : Instr) (before : State) (r : Res Word) : State :=
  match r with
  | .done data s => succeed data s
  | .raise e s => takeError (opcodeOf i) e s
  | .hold => waitForInput i before

/-- The response data of a command that counts words (30 R92). A count that does not fit 32 bits is not stated by the
spec: a free value (log 7). -/
def wordCount (n : Nat) : Word := if n < 2 ^ 32 then BitVec.ofNat 32 n else Config.freeCount n

/-- The words emitted on port `c` between two states: `(length of TOUT[c]) - before` (42 R190). -/
def wordsEmitted (c : PortNo) (before after : State) : Nat := (after.port c).tout.length - (before.port c).tout.length

/-- The words removed from `TIN[c]` between two states of one command (42 R191). -/
def wordsConsumed (c : PortNo) (before after : State) : Nat := (before.port c).tin.length - (after.port c).tin.length

end Sys2Proof.Machine
end

