-- ==== Sys2Proof/Machine/Predictor.lean ====
section
/-! DEFINITION. The scan order and the predictor of the intra codec (42_intra_codec.md rules R181 to R186), over any
grid given by its cells. -/

namespace Sys2Proof.Machine

/-- Row `y` of the scan (42 R181): left to right if `y` is even, right to left if odd. -/
def scanLine (w y : Nat) : List (Nat × Nat) :=
  (List.range w).map fun j => (if y % 2 = 0 then j else w - 1 - j, y)

/-- `scan(w, h)`: the (x, y) visited, in order (42 R181). -/
def scan (w h : Nat) : List (Nat × Nat) := (List.range h).flatMap (scanLine w)

/-- The column visited at step `p` of the scan. -/
def scanColumn (w p : Nat) : Nat := if (p / w) % 2 = 0 then p % w else w - 1 - p % w

/-- The row visited at step `p` of the scan. -/
def scanRow (w p : Nat) : Nat := p / w

/-- `first(y)`, the first visited column of row `y` (42 R181). -/
def firstColumn (w y : Nat) : Nat := if y % 2 = 0 then 0 else w - 1

/-- The cell of the pixel at column `x`, row `y` of a grid of width `w` (10 R34). -/
def cellIndex (w x y : Nat) : Nat := y * w + x

/-- The cell visited at step `p` of the scan. -/
def scanCell (w p : Nat) : Nat := cellIndex w (scanColumn w p) (scanRow w p)

/-- `x - dir(y)`: the column visited just before `x` in row `y` (42 R184). -/
def previousColumn (x y : Nat) : Nat := if y % 2 = 0 then x - 1 else x + 1

/-- `paeth(a, b, c)` (42 R184): exact integer arithmetic (90 C2), ties in the order a, b, c. -/
def paeth (a b c : Pixel) : Pixel :=
  let p : Int := (a.toNat : Int) + b.toNat - c.toNat
  let da := (p - a.toNat).natAbs
  let db := (p - b.toNat).natAbs
  let dc := (p - c.toNat).natAbs
  if da ≤ db ∧ da ≤ dc then a
  else if db ≤ dc then b
  else c

/-- `pred(G, w, x, y)` for every visited position but (0, 0) (42 R186); `cell i` is cell `i` of the grid. -/
def predict (cell : Nat → Pixel) (w x y : Nat) : Pixel :=
  if y = 0 then cell (cellIndex w (x - 1) 0)
  else if x = firstColumn w y then cell (cellIndex w x (y - 1))
  else
    paeth (cell (cellIndex w (previousColumn x y) y)) (cell (cellIndex w x (y - 1)))
      (cell (cellIndex w (previousColumn x y) (y - 1)))

/-- The prediction at step `p >= 1` of the scan. -/
def predictAt (cell : Nat → Pixel) (w p : Nat) : Pixel := predict cell w (scanColumn w p) (scanRow w p)

end Sys2Proof.Machine
end

