-- ==== Sys2Proof/Machine/Operands.lean ====
section
/-! DEFINITION. The operands of a command and their legal ranges (30_encoding.md rule R93 (c)), and the addresses of
the control registers (45_system.md rule R251). -/

namespace Sys2Proof.Machine

/-- Port or channel `c` exists: `c < N_CH`. -/
def portOk (s : State) (c : PortNo) : Bool := decide (c.toNat < s.cfg.nCh)

/-- The table a `t` field names; only 0 and 1 are legal (30 R91). -/
def tableOfField (t : BitVec 4) : Option TableId :=
  if t = 0 then some .intra else if t = 1 then some .inter else none

/-- Symbol `sym` is in the alphabet of table `t`: `sym < N_t`. -/
def symbolOk (t : TableId) (sym : BitVec 16) : Bool := decide (sym.toNat < t.symbols)

/-- A bit count is 0 to 32 (60 R275). -/
def bitCountOk (k : BitVec 16) : Bool := decide (k.toNat ≤ 32)

/-- Buffer `b` exists: `b < NPB`. -/
def bufferOk (s : State) (b : BitVec 8) : Bool := decide (b.toNat < bufferCount s.cfg)

/-- Cell `index` exists: `index < MAXPIX`. -/
def indexOk (s : State) (index : Word) : Bool := decide (index.toNat < s.cfg.maxPix)

/-- The dimensions of a codec command are legal: each at least 1, the exact product at most `MAXPIX` (42 R189). -/
def opDimsOk (s : State) : Bool :=
  decide (s.opW.toNat ≠ 0) && decide (s.opH.toNat ≠ 0) && decide (s.opW.toNat * s.opH.toNat ≤ s.cfg.maxPix)

/-- The dimensions of the sequencer are legal: each at least 2, the exact product at most `MAXPIX` (44 R222). -/
def gridDimsOk (s : State) : Bool :=
  decide (2 ≤ s.gridW.toNat) && decide (2 ≤ s.gridH.toNat) && decide (s.gridW.toNat * s.gridH.toNat ≤ s.cfg.maxPix)

/-- The control registers (45 R251). -/
inductive Csr where
  | id
  | status
  | lastErr
  | gridW
  | gridH
  | opW
  | opH
  | nch
  | maxpix
  | magic
  | chstat (c : PortNo)
  | bwacc (c : PortNo)
  | bracc (c : PortNo)
deriving DecidableEq, Repr

/-- The register of the family at `base`, one for each port that exists (10 R49, R50). -/
def portCsr (s : State) (make : PortNo → Csr) (base addr : Nat) : Option Csr :=
  if base ≤ addr ∧ addr < base + s.cfg.nCh ∧ addr < base + 16 then some (make (BitVec.ofNat 4 (addr - base))) else none

/-- The register at a CSR address; any other address does not exist (45 R251). -/
def csrAt (s : State) (addr : BitVec 16) : Option Csr :=
  match addr.toNat with
  | 0x0000 => some .id
  | 0x0001 => some .status
  | 0x0002 => some .lastErr
  | 0x0003 => some .gridW
  | 0x0004 => some .gridH
  | 0x0005 => some .opW
  | 0x0006 => some .opH
  | 0x0007 => some .nch
  | 0x0008 => some .maxpix
  | 0x0009 => some .magic
  | a =>
    match portCsr s .chstat 0x10 a with
    | some r => some r
    | none =>
      match portCsr s .bwacc 0x20 a with
      | some r => some r
      | none => portCsr s .bracc 0x30 a

end Sys2Proof.Machine
end

