-- ==== Sys2Proof/Machine/BitStream.lean ====
section
/-! DEFINITION. The bit-stream writer and reader (40_bitstream.md): `emit`, `write`, `flush`, `refill`, `read`,
`align`, and the commands `BW_WRITE`, `BW_FLUSH`, `BR_READ`, `BR_READBIT`, `BR_ALIGN`. -/

namespace Sys2Proof.Machine

/-! ### Writer -/

/-- `emit(c, w)` (40 R133): a failed transport kills the port (40 R145). -/
def emit (c : PortNo) (w : Word) (s : State) : Res Unit :=
  let p := s.port c
  if p.toutErr then .raise .transport (closeChannel c s)
  else .done () (s.setPort c { p with tout := p.tout ++ [w] })

/-- `BW[c].acc <- acc ; BW[c].n <- n`. -/
def setWriter (c : PortNo) (acc n : Nat) (s : State) : State :=
  s.setPort c { s.port c with bwAcc := BitVec.ofNat 32 acc, bwN := n }

/-- `write(c, v, k)` (40 R131). -/
def write (c : PortNo) (v : Word) (k : Nat) (s : State) : Res Unit :=
  if k = 0 then .done () s
  else
    let u := v.toNat % 2 ^ k
    let acc := (s.port c).bwAcc.toNat
    let n := (s.port c).bwN
    let free := 32 - n
    if free = 0 then
      (emit c (s.port c).bwAcc s).andThen fun s => .done () (setWriter c u k s)
    else if k ≤ free then
      .done () (setWriter c (acc * 2 ^ k + u) (n + k) s)
    else
      (emit c (BitVec.ofNat 32 (acc * 2 ^ free + u / 2 ^ (k - free))) s).andThen fun s =>
        .done () (setWriter c (u % 2 ^ (k - free)) (k - free) s)

/-- `flush(c)` (40 R134). -/
def flush (c : PortNo) (s : State) : Res Unit :=
  let n := (s.port c).bwN
  if n = 0 then .done () s
  else
    (emit c (BitVec.ofNat 32 ((s.port c).bwAcc.toNat * 2 ^ (32 - n))) s).andThen fun s =>
      .done () (setWriter c 0 0 s)

/-! ### Reader -/

/-- `refill(c)` (40 R137): the head of `TIN[c]`; on an empty queue a hold, or `E_TRANSPORT` at its end, which kills
the port (40 R145). -/
def refill (c : PortNo) (s : State) : Res Unit :=
  let p := s.port c
  match p.tin with
  | [] => if p.tinEos then .raise .transport (closeChannel c s) else .hold
  | w :: rest => .done () (s.setPort c { p with brAcc := w, brN := 32, tin := rest })

/-- `BR[c].acc <- acc mod 2^32 ; BR[c].n <- n`. -/
def setReader (c : PortNo) (acc n : Nat) (s : State) : State :=
  s.setPort c { s.port c with brAcc := BitVec.ofNat 32 acc, brN := n }

/-- The body of `read(c, k)` once the register is not exhausted (40 R136). -/
def readFrom (c : PortNo) (k : Nat) (s : State) : Res Word :=
  let acc := (s.port c).brAcc.toNat
  let n := (s.port c).brN
  if k ≤ n then
    .done (BitVec.ofNat 32 (acc / 2 ^ (32 - k))) (setReader c (acc * 2 ^ k) (n - k) s)
  else
    let rhi := acc / 2 ^ (32 - n)
    let m := k - n
    (refill c s).andThen fun s =>
      let acc := (s.port c).brAcc.toNat
      .done (BitVec.ofNat 32 (rhi * 2 ^ m + acc / 2 ^ (32 - m))) (setReader c (acc * 2 ^ m) (32 - m) s)

/-- `read(c, k)` (40 R136): refill exactly when the register is exhausted, at the start or in the split case. -/
def read (c : PortNo) (k : Nat) (s : State) : Res Word :=
  if k = 0 then .done 0 s
  else if (s.port c).brN = 0 then (refill c s).andThen fun s => readFrom c k s
  else readFrom c k s

/-- `align(c)` (40 R139). -/
def align (c : PortNo) (s : State) : State := setReader c 0 0 s

/-! ### Commands -/

/-- `BW_WRITE c, k, v` (40 R132). -/
def runBwWrite (c : PortNo) (k : BitVec 16) (v : Word) (s : State) : Res Word :=
  (check (portOk s c && bitCountOk k) .badArg s).andThen fun s =>
    (write c v k.toNat s).andThen fun s => .done 0 s

def execBwWrite (c : PortNo) (k : BitVec 16) (v : Word) (s : State) : Out :=
  .next (complete (.bwWrite c k v) s (runBwWrite c k v s))

/-- `BW_FLUSH c` (40 R135). -/
def runBwFlush (c : PortNo) (s : State) : Res Word :=
  (check (portOk s c) .badArg s).andThen fun s =>
    (flush c s).andThen fun s => .done 0 s

def execBwFlush (c : PortNo) (s : State) : Out := .next (complete (.bwFlush c) s (runBwFlush c s))

/-- `BR_READ c, k` (40 R138). -/
def runBrRead (c : PortNo) (k : BitVec 16) (s : State) : Res Word :=
  (check (portOk s c && bitCountOk k) .badArg s).andThen fun s =>
    read c k.toNat s

def execBrRead (c : PortNo) (k : BitVec 16) (s : State) : Out := .next (complete (.brRead c k) s (runBrRead c k s))

/-- `BR_READBIT c`: `read(c, 1)` (40 R141). -/
def runBrReadbit (c : PortNo) (s : State) : Res Word :=
  (check (portOk s c) .badArg s).andThen fun s =>
    read c 1 s

def execBrReadbit (c : PortNo) (s : State) : Out := .next (complete (.brReadbit c) s (runBrReadbit c s))

/-- `BR_ALIGN c` (40 R140). -/
def runBrAlign (c : PortNo) (s : State) : Res Word :=
  (check (portOk s c) .badArg s).andThen fun s =>
    .done 0 (align c s)

def execBrAlign (c : PortNo) (s : State) : Out := .next (complete (.brAlign c) s (runBrAlign c s))

end Sys2Proof.Machine
end

