-- ==== Sys2Proof/Machine/PrefixCode.lean ====
section
/-! DEFINITION. The prefix-code unit (41_prefix_code.md): the builder, `encode`, `decode`, and the commands `FQ_WR`,
`PC_BUILD`, `PC_ENCODE`, `PC_DECODE`, `PC_QBITS`, `PC_QLEN`. -/

namespace Sys2Proof.Machine

/-! ### The builder -/

/-- The tree the builder makes (41 R154): a leaf with its symbol, or an interior node with child 0 and child 1. -/
inductive CodeTree where
  | leaf (sym : Nat)
  | node (child0 child1 : CodeTree)
deriving DecidableEq, Repr

/-- A node of the priority structure `Q` with its frequency and sequence number (41 R154). -/
structure QNode where
  freq : Nat
  seq : Nat
  tree : CodeTree
deriving DecidableEq, Repr

/-- `a` is extracted before `b`: the lexicographic order of (freq, seq) (41 R155). -/
def extractedBefore (a b : QNode) : Bool := a.freq.blt b.freq || (a.freq.beq b.freq && a.seq.blt b.seq)

/-- Insert a node in `Q`, kept in the order of extraction. -/
def insertQ (z : QNode) : List QNode → List QNode
  | [] => [z]
  | x :: rest => if extractedBefore z x then z :: x :: rest else x :: insertQ z rest

/-- `Q` with the leaves of the (symbol, frequency) pairs, numbered from `j` (41 R154). -/
def leavesQ (j : Nat) : List (Nat × Nat) → List QNode
  | [] => []
  | (sym, f) :: rest => insertQ ⟨f, j, .leaf sym⟩ (leavesQ (j + 1) rest)

/-- Merge the first two nodes extracted until one is left; the first extracted becomes child 0 (41 R154, R155).
`rounds` bounds the merges: N - 1 are made. -/
def mergeQ : (rounds next : Nat) → List QNode → List QNode
  | rounds + 1, next, x :: y :: rest =>
    mergeQ rounds (next + 1) (insertQ ⟨x.freq + y.freq, next, .node x.tree y.tree⟩ rest)
  | _, _, q => q

/-- `Build-tree(pairs)` (41 R154); `none` for the empty list, which is no input (41 R153). -/
def buildTree (pairs : List (Nat × Nat)) : Option CodeTree :=
  (mergeQ pairs.length pairs.length (leavesQ 0 pairs)).head?.map QNode.tree

/-- For each leaf its symbol, the bits of its path (first branch most significant) and the path length. This is the
value that the walk from leaf to root of 41 R157 accumulates. -/
def CodeTree.codes (bits length : Nat) : CodeTree → List (Nat × Nat × Nat)
  | .leaf sym => [(sym, bits, length)]
  | .node x y => CodeTree.codes (2 * bits) (length + 1) x ++ CodeTree.codes (2 * bits + 1) (length + 1) y

/-- The longest path to a leaf. -/
def CodeTree.depth : CodeTree → Nat
  | .leaf _ => 0
  | .node x y => max x.depth y.depth + 1

/-- The number of nodes. -/
def CodeTree.size : CodeTree → Nat
  | .leaf _ => 1
  | .node x y => x.size + y.size + 1

/-- `Export-tree` (41 R160): the nodes root-first, child-0 subtree before child-1 subtree, the root at index `i`. -/
def CodeTree.layout (i : Nat) : CodeTree → List Node
  | .leaf sym => [.leaf sym]
  | .node x y => .node (i + 1) (i + 1 + x.size) :: (x.layout (i + 1) ++ y.layout (i + 1 + x.size))

/-- `ENC[sym]` from the exported codes (41 R157). -/
def entryFor (codes : List (Nat × Nat × Nat)) (sym : Nat) : CodeEntry :=
  match codes.find? fun code => code.1 == sym with
  | some (_, bits, length) => ⟨BitVec.ofNat 32 bits, length⟩
  | none => ⟨0, 0⟩

/-- The code table of a tree over the symbols 0 to `n - 1` (41 R157, R160). -/
def CodeTree.toTable (n : Nat) (tree : CodeTree) : CodeTable :=
  let codes := tree.codes 0 0
  ⟨(List.range n).map (entryFor codes), tree.layout 0⟩

/-- `Build` over the symbols 0, 1, ... with the given frequencies (41 R153 to R160); `none` when a code would be longer
than `MAX_CODE_LEN` (41 R159). -/
def build (freqs : List Nat) : Option CodeTable :=
  match buildTree ((List.range freqs.length).zip freqs) with
  | some tree => if maxCodeLen < tree.depth then none else some (tree.toTable freqs.length)
  | none => none

/-- The largest length in an encoding table (41 R163). -/
def longestCode (enc : List CodeEntry) : Nat := enc.foldl (fun m e => max m e.length) 0

/-! ### Encoding and decoding a symbol -/

/-- `ENC[t][sym]` (10 R36). -/
def codeEntry (s : State) (t : TableId) (sym : Nat) : CodeEntry := (s.table t).enc.getD sym ⟨0, 0⟩

/-- `encode(c, t, sym)` (41 R165). -/
def encodeSymbol (c : PortNo) (t : TableId) (sym : Nat) (s : State) : Res Unit :=
  write c (codeEntry s t sym).bits (codeEntry s t sym).length s

/-- The bits that port `c` can read before it must hold or fail: each step of a tree walk reads one. -/
def bitsAtHand (s : State) (c : PortNo) : Nat := (s.port c).brN + 32 * (s.port c).tin.length

/-- The tree walk of `decode` from node `i` (41 R166). `fuel` exceeds the bits at hand, so the walk meets a leaf, a
hold or the end of the input before it runs out (log 12). -/
def walk (c : PortNo) (tree : List Node) : (fuel i : Nat) → State → Res Nat
  | 0, _, _ => .hold
  | fuel + 1, i, s =>
    match tree.getD i (.leaf 0) with
    | .leaf sym => .done sym s
    | .node c0 c1 => (read c 1 s).bind fun b s => walk c tree fuel (if b = 0 then c0 else c1) s

/-- `decode(c, t)` (41 R166). -/
def decodeSymbol (c : PortNo) (t : TableId) (s : State) : Res Nat :=
  walk c (s.table t).tree (bitsAtHand s c + 1) 0 s

/-! ### Commands -/

/-- Go on with the table a `t` field names, or `E_BAD_ARG` (30 R93 (c)). -/
def withTable {α : Type} (t : BitVec 4) (s : State) (rest : TableId → Res α) : Res α :=
  match tableOfField t with
  | some tab => rest tab
  | none => .raise .badArg s

/-- `FQ_WR t, sym, f` (41 R162). -/
def runFqWr (t : BitVec 4) (sym : BitVec 16) (f : Word) (s : State) : Res Word :=
  withTable t s fun tab => (check (symbolOk tab sym) .badArg s).andThen fun s =>
    .done 0 (s.setFreq tab sym.toNat f)

def execFqWr (t : BitVec 4) (sym : BitVec 16) (f : Word) (s : State) : Out :=
  .next (complete (.fqWr t sym f) s (runFqWr t sym f s))

/-- The frequencies of table `t` in ascending symbol order (41 R163). -/
def frequencies (s : State) (t : TableId) : List Nat := (List.range t.symbols).map fun sym => (s.freqCell t sym).toNat

/-- `PC_BUILD t` (41 R163). -/
def runPcBuild (t : BitVec 4) (s : State) : Res Word :=
  withTable t s fun tab =>
    match build (frequencies s tab) with
    | some table =>
      .done (BitVec.ofNat 32 (longestCode table.enc)) (s.setTable tab ⟨table.enc, table.tree, true⟩)
    | none => .raise .codeTooLong s

def execPcBuild (t : BitVec 4) (s : State) : Out := .next (complete (.pcBuild t) s (runPcBuild t s))

/-- `PC_ENCODE c, t, sym` (41 R165). -/
def runPcEncode (c : PortNo) (t : BitVec 4) (sym : BitVec 16) (s : State) : Res Word :=
  (check (portOk s c) .badArg s).andThen fun s => withTable t s fun tab =>
    (check (symbolOk tab sym) .badArg s).andThen fun s =>
      (check (s.table tab).valid .noTable s).andThen fun s =>
        (encodeSymbol c tab sym.toNat s).andThen fun s => .done 0 s

def execPcEncode (c : PortNo) (t : BitVec 4) (sym : BitVec 16) (s : State) : Out :=
  .next (complete (.pcEncode c t sym) s (runPcEncode c t sym s))

/-- `PC_DECODE c, t` (41 R167). -/
def runPcDecode (c : PortNo) (t : BitVec 4) (s : State) : Res Word :=
  (check (portOk s c) .badArg s).andThen fun s => withTable t s fun tab =>
    (check (s.table tab).valid .noTable s).andThen fun s =>
      (decodeSymbol c tab s).bind fun sym s => .done (BitVec.ofNat 32 sym) s

def execPcDecode (c : PortNo) (t : BitVec 4) (s : State) : Out :=
  .next (complete (.pcDecode c t) s (runPcDecode c t s))

/-- `PC_QBITS t, sym` (41 R168). -/
def runPcQbits (t : BitVec 4) (sym : BitVec 16) (s : State) : Res Word :=
  withTable t s fun tab =>
    (check (symbolOk tab sym) .badArg s).andThen fun s =>
      (check (s.table tab).valid .noTable s).andThen fun s => .done (codeEntry s tab sym.toNat).bits s

def execPcQbits (t : BitVec 4) (sym : BitVec 16) (s : State) : Out :=
  .next (complete (.pcQbits t sym) s (runPcQbits t sym s))

/-- `PC_QLEN t, sym` (41 R169). -/
def runPcQlen (t : BitVec 4) (sym : BitVec 16) (s : State) : Res Word :=
  withTable t s fun tab =>
    (check (symbolOk tab sym) .badArg s).andThen fun s =>
      (check (s.table tab).valid .noTable s).andThen fun s =>
        .done (BitVec.ofNat 32 (codeEntry s tab sym.toNat).length) s

def execPcQlen (t : BitVec 4) (sym : BitVec 16) (s : State) : Out :=
  .next (complete (.pcQlen t sym) s (runPcQlen t sym s))

end Sys2Proof.Machine
end

