-- ==== Sys2Proof/Machine/Symbols.lean ====
section
/-! DEFINITION. The stream symbols (30_encoding.md rules R102, R103) and the decompressor they drive (42 R188, R191,
43 R205, R206). A decompress command puts its cursor in the state, and until the frame is complete it decodes a
symbol and lets it act there (10 R30, log 9). -/

namespace Sys2Proof.Machine

/-! ### What a symbol does at the cursor -/

/-- The cursor one pixel further on. -/
def nextPixel (cu : Cursor) : Cursor := { cu with pos := cu.pos + 1 }

/-- Write pixel `v` into cell `i` of the destination and advance by one. -/
def placePixel (cu : Cursor) (i : Nat) (v : Pixel) (s : State) : State :=
  { s.setPixel cu.dst i v with cursor := some (nextPixel cu) }

/-- The first pixel of an intra frame, received raw (42 R182). -/
def placeRaw (cu : Cursor) (v : Pixel) (s : State) : State := placePixel cu (scanCell cu.width cu.pos) v s

/-- `get-pixel` (42 R188): the prediction over the pixels rebuilt so far plus the error, modulo 65536. -/
def placePredicted (cu : Cursor) (e : Pixel) (s : State) : State :=
  placePixel cu (scanCell cu.width cu.pos) (predictAt (s.pixel cu.dst) cu.width cu.pos + e) s

/-- `out[i] <- u16(ref[i] + delta)` (43 R205). -/
def placeDelta (cu : Cursor) (e : Pixel) (s : State) : State :=
  placePixel cu cu.pos (s.pixel cu.ref cu.pos + e) s

/-- The error or delta of a direct symbol, `sym - 256` modulo 65536 (30 R102, R103). -/
def directValue (sym : BitVec 10) : Pixel := BitVec.ofInt 16 ((sym.toNat : Int) - codeMax)

/-- A run of `len` pixels stays within the frame (43 R205). -/
def runFits (cu : Cursor) (len : BitVec 10) : Bool := decide (cu.pos + len.toNat ≤ cu.count)

/-- Copy the reference pixels under the run, ascending, and advance by its length (43 R205, R206). -/
def placeRun (cu : Cursor) (len : BitVec 10) (s : State) : State :=
  { copyCells cu.dst cu.ref len.toNat cu.pos s with cursor := some { cu with pos := cu.pos + len.toNat } }

/-- The opcode byte of `FS_RECV` (30 R92). -/
def opFsRecv : BitVec 8 := 0x54

/-- The state in which `E_RUN_OVERRUN` is raised: no cell of the run written and no `align` (43 R207); `FS_RECV`
closes its channel (44 R232, 60 R271). -/
def runPastEnd (cu : Cursor) (s : State) : State := if cu.op = opFsRecv then closeChannel cu.port s else s

/-! ### The symbols as instructions -/

/-- The cursor of a decompressor of table `t` that stands at a pixel which takes a symbol: inside the frame, and past
the raw first pixel of an intra frame (30 R104, R105). -/
def symbolCursor (t : TableId) (s : State) : Option Cursor :=
  match s.cursor with
  | some cu => if cu.table = t ∧ cu.pos < cu.count ∧ (t = .intra → 0 < cu.pos) then some cu else none
  | none => none

/-- `DIRECT` of table 0 (30 R102, 42 R188). -/
def execDirect0 (sym : BitVec 10) (s : State) : Out :=
  match symbolCursor .intra s with
  | none => .fault .noFrame
  | some cu => if directNumberOk sym then .next (placePredicted cu (directValue sym) s) else .fault .noSuchSymbol

/-- `ESC` of table 0 (30 R102, 42 R188). -/
def execEsc0 (raw : Pixel) (s : State) : Out :=
  match symbolCursor .intra s with
  | none => .fault .noFrame
  | some cu => .next (placePredicted cu raw s)

/-- `DIRECT` of table 1 (30 R103, 43 R205). -/
def execDirect1 (sym : BitVec 10) (s : State) : Out :=
  match symbolCursor .inter s with
  | none => .fault .noFrame
  | some cu => if directNumberOk sym then .next (placeDelta cu (directValue sym) s) else .fault .noSuchSymbol

/-- `ESC` of table 1 (30 R103, 43 R205). -/
def execEsc1 (raw : Pixel) (s : State) : Out :=
  match symbolCursor .inter s with
  | none => .fault .noFrame
  | some cu => .next (placeDelta cu raw s)

/-- `RUN` of table 1 (30 R103, 43 R205). A run past the end of the frame ends the command in progress with
`E_RUN_OVERRUN` (43 R207). -/
def execRun (len : BitVec 10) (s : State) : Out :=
  match symbolCursor .inter s with
  | none => .fault .noFrame
  | some cu =>
    if !runLengthOk len then .fault .noSuchSymbol
    else if runFits cu len then .next (placeRun cu len s)
    else .next (takeError cu.op .runOverrun (runPastEnd cu s))

/-! ### The decompressor -/

/-- One item of an intra frame at the cursor (42 R191): the raw first pixel, or a symbol with, after an escape, its
16 raw bits. -/
def intraItem (cu : Cursor) (s : State) : Res Unit :=
  if cu.pos = 0 then
    (read cu.port 16 s).bind fun v s => .done () (placeRaw cu (v.setWidth 16) s)
  else
    (decodeSymbol cu.port .intra s).bind fun sym s =>
      if sym ≤ 2 * codeMax then .done () (placePredicted cu (directValue (BitVec.ofNat 10 sym)) s)
      else (read cu.port 16 s).bind fun raw s => .done () (placePredicted cu (raw.setWidth 16) s)

/-- One item of an inter frame at the cursor (43 R205, R206). -/
def interItem (cu : Cursor) (s : State) : Res Unit :=
  (decodeSymbol cu.port .inter s).bind fun sym s =>
    if sym ≤ 2 * codeMax then .done () (placeDelta cu (directValue (BitVec.ofNat 10 sym)) s)
    else if sym = symEsc then
      (read cu.port 16 s).bind fun raw s => .done () (placeDelta cu (raw.setWidth 16) s)
    else if runFits cu (BitVec.ofNat 10 (sym - symRun0)) then
      .done () (placeRun cu (BitVec.ofNat 10 (sym - symRun0)) s)
    else .raise .runOverrun (runPastEnd cu s)

/-- One item of the frame at the cursor. -/
def frameItem (cu : Cursor) (s : State) : Res Unit :=
  match cu.table with
  | .intra => intraItem cu s
  | .inter => interItem cu s

/-- Items until the frame is complete. Every item advances the cursor, so `count` rounds are enough. -/
def frameItems : (rounds : Nat) → State → Res Unit
  | 0, s => .done () s
  | rounds + 1, s =>
    match s.cursor with
    | none => .done () s
    | some cu => if cu.pos < cu.count then (frameItem cu s).andThen (frameItems rounds) else .done () s

/-- Decompress one frame: the items, then `align` (42 R191, 43 R206). -/
def decompressFrame (cu : Cursor) (s : State) : Res Unit :=
  (frameItems cu.count { s with cursor := some cu }).andThen fun s =>
    .done () { align cu.port s with cursor := none }

end Sys2Proof.Machine
end

