-- ==== Sys2Proof/Machine/Intra.lean ====
section
/-! DEFINITION. The intra-frame codec (42_intra_codec.md): `put-error`, the compressor, and the commands
`IC_COMPRESS`, `IC_DECOMPRESS`. -/

namespace Sys2Proof.Machine

/-- `put-error` (42 R187, 43 R203) of an error or delta `e`, already modulo 65536: a direct symbol if its signed
reading is -256 to 256, else the escape and the raw 16 bits. -/
def putError (c : PortNo) (t : TableId) (e : Pixel) (s : State) : Res Unit :=
  if -(codeMax : Int) ≤ e.toInt ∧ e.toInt ≤ codeMax then encodeSymbol c t (e.toInt + codeMax).toNat s
  else (encodeSymbol c t symEsc s).andThen (write c (e.setWidth 32) 16)

/-- Step `p` of the scan of the compressor (42 R190): the first pixel raw, every other as its prediction error. -/
def intraPut (c : PortNo) (b w p : Nat) (s : State) : Res Unit :=
  if p = 0 then write c ((s.pixel b (scanCell w 0)).setWidth 32) 16 s
  else putError c .intra (s.pixel b (scanCell w p) - predictAt (s.pixel b) w p) s

/-- Steps `p`, `p + 1`, ... of the scan, `left` of them. -/
def intraPuts (c : PortNo) (b w : Nat) : (left p : Nat) → State → Res Unit
  | 0, _, s => .done () s
  | left + 1, p, s => (intraPut c b w p s).andThen (intraPuts c b w left (p + 1))

/-- `intra-compress(c, b, w, h)` (44 R227). -/
def intraCompress (c : PortNo) (b w h : Nat) (s : State) : Res Unit :=
  (intraPuts c b w (w * h) 0 s).andThen (flush c)

/-- The cursor at the start of an intra frame. -/
def intraCursor (op : BitVec 8) (c : PortNo) (b w h : Nat) : Cursor where
  table := .intra
  op := op
  port := c
  dst := b
  ref := b
  width := w
  count := w * h
  pos := 0

/-- `intra-decompress(c, b, w, h)` (44 R227), for the command with opcode byte `op`. -/
def intraDecompress (op : BitVec 8) (c : PortNo) (b w h : Nat) (s : State) : Res Unit :=
  decompressFrame (intraCursor op c b w h) s

/-- The checks of 42 R189, in order. -/
def intraChecks (c : PortNo) (b : BitVec 8) (s : State) : Res Unit :=
  (check (portOk s c && bufferOk s b) .badArg s).andThen fun s =>
    (check s.tab0.valid .noTable s).andThen fun s => check (opDimsOk s) .badDim s

/-- `IC_COMPRESS c, src` (42 R190). -/
def runIcCompress (c : PortNo) (src : BitVec 8) (s : State) : Res Word :=
  (intraChecks c src s).andThen fun s =>
    (intraCompress c src.toNat s.opW.toNat s.opH.toNat s).andThen fun s' => .done (wordCount (wordsEmitted c s s')) s'

def execIcCompress (c : PortNo) (src : BitVec 8) (s : State) : Out :=
  .next (complete (.icCompress c src) s (runIcCompress c src s))

/-- `IC_DECOMPRESS c, dst` (42 R191). -/
def runIcDecompress (c : PortNo) (dst : BitVec 8) (s : State) : Res Word :=
  (intraChecks c dst s).andThen fun s =>
    (intraDecompress (opcodeOf (.icDecompress c dst)) c dst.toNat s.opW.toNat s.opH.toNat s).andThen fun s' =>
      .done (wordCount (wordsConsumed c s s')) s'

def execIcDecompress (c : PortNo) (dst : BitVec 8) (s : State) : Out :=
  .next (complete (.icDecompress c dst) s (runIcDecompress c dst s))

end Sys2Proof.Machine
end

