-- ==== Sys2Proof/Machine/Inter.lean ====
section
/-! DEFINITION. The inter-frame codec (43_inter_codec.md): the zero-run coder and the commands `XC_COMPRESS`,
`XC_DECOMPRESS`. -/

namespace Sys2Proof.Machine

/-- `RUN(run)` if `run > 0`, else nothing (43 R202). -/
def emitRun (c : PortNo) (run : Nat) (s : State) : Res Unit :=
  if run = 0 then .done () s else encodeSymbol c .inter (symRun0 + run) s

/-- The loop of 43 R202 from pixel `i` with `run` zero deltas pending, `left` pixels to go; with none left the
trailing run goes out (70 R323). -/
def interPuts (c : PortNo) (src ref : Nat) : (left i run : Nat) → State → Res Unit
  | 0, _, run, s => emitRun c run s
  | left + 1, i, run, s =>
    let e := s.pixel src i - s.pixel ref i
    if e = 0 then
      if run + 1 = runMax then
        (encodeSymbol c .inter (symRun0 + runMax) s).andThen (interPuts c src ref left (i + 1) 0)
      else interPuts c src ref left (i + 1) (run + 1) s
    else
      (emitRun c run s).andThen fun s =>
        (putError c .inter e s).andThen (interPuts c src ref left (i + 1) 0)

/-- `inter-compress(c, b, r, n)` (44 R227). -/
def interCompress (c : PortNo) (b r n : Nat) (s : State) : Res Unit :=
  (interPuts c b r n 0 0 s).andThen (flush c)

/-- The cursor at the start of an inter frame of `n` pixels. -/
def interCursor (op : BitVec 8) (c : PortNo) (b r n : Nat) : Cursor where
  table := .inter
  op := op
  port := c
  dst := b
  ref := r
  width := n
  count := n
  pos := 0

/-- `inter-decompress(c, b, r, n)` (44 R227), for the command with opcode byte `op`. -/
def interDecompress (op : BitVec 8) (c : PortNo) (b r n : Nat) (s : State) : Res Unit :=
  decompressFrame (interCursor op c b r n) s

/-- The checks of 43 R204, in order. -/
def interChecks (c : PortNo) (b r : BitVec 8) (s : State) : Res Unit :=
  (check (portOk s c && bufferOk s b && bufferOk s r) .badArg s).andThen fun s =>
    (check s.tab1.valid .noTable s).andThen fun s => check (opDimsOk s) .badDim s

/-- `XC_COMPRESS c, src, ref` (43 R204). -/
def runXcCompress (c : PortNo) (src ref : BitVec 8) (s : State) : Res Word :=
  (interChecks c src ref s).andThen fun s =>
    (interCompress c src.toNat ref.toNat (s.opW.toNat * s.opH.toNat) s).andThen fun s' =>
      .done (wordCount (wordsEmitted c s s')) s'

def execXcCompress (c : PortNo) (src ref : BitVec 8) (s : State) : Out :=
  .next (complete (.xcCompress c src ref) s (runXcCompress c src ref s))

/-- `XC_DECOMPRESS c, dst, ref` (43 R206). -/
def runXcDecompress (c : PortNo) (dst ref : BitVec 8) (s : State) : Res Word :=
  (interChecks c dst ref s).andThen fun s =>
    (interDecompress (opcodeOf (.xcDecompress c dst ref)) c dst.toNat ref.toNat (s.opW.toNat * s.opH.toNat) s).andThen
      fun s' => .done (wordCount (wordsConsumed c s s')) s'

def execXcDecompress (c : PortNo) (dst ref : BitVec 8) (s : State) : Out :=
  .next (complete (.xcDecompress c dst ref) s (runXcDecompress c dst ref s))

end Sys2Proof.Machine
end

