-- ==== Sys2Proof/Machine/Sequencer.lean ====
section
/-! DEFINITION. The frame sequencer (44_frame_sequencer.md): `FS_OPEN`, `FS_ACK`, `FS_MSG`, `FS_SEND`, `FS_RECV`,
`FS_CLOSE`. -/

namespace Sys2Proof.Machine

/-- `CHST[c] <- st`. -/
def setChannelState (c : PortNo) (st : ChState) (s : State) : State := s.setPort c { s.port c with chst := st }

/-- The role a role bit names (44 R223). -/
def roleOfBit (bit : BitVec 1) : Role := if bit = 0 then .encoder else .decoder

/-- Port `c` after `FS_OPEN c, role` (44 R223): `TOUT[c]` keeps its words. -/
def openedPort (role : Role) (p : Port) : Port :=
  { p with
    chst := .start, role := role, swap := false
    bwAcc := 0, bwN := 0, brAcc := 0, brN := 0
    tin := [], tinEos := false, toutErr := false }

/-- `FS_OPEN c, role` (44 R223). -/
def runFsOpen (c : PortNo) (role : BitVec 1) (s : State) : Res Word :=
  (check (portOk s c) .badArg s).andThen fun s =>
    (check (decide ((s.port c).chst = .closed)) .badState s).andThen fun s =>
      .done 0 (s.setPort c (openedPort (roleOfBit role) (s.port c)))

def execFsOpen (c : PortNo) (role : BitVec 1) (s : State) : Out :=
  .next (complete (.fsOpen c role) s (runFsOpen c role s))

/-- `bswap32(x)` (44 R224). -/
def bswap32 (x : Word) : Word :=
  BitVec.ofNat 32
    ((x.extractLsb' 0 8).toNat * 2 ^ 24 + (x.extractLsb' 8 8).toNat * 2 ^ 16 + (x.extractLsb' 16 8).toNat * 2 ^ 8
      + (x.extractLsb' 24 8).toNat)

/-- Channel `c` acknowledged: `CHSWAP[c] <- swap ; CHST[c] <- INTRA` (44 R224). -/
def acknowledge (c : PortNo) (swap : Bool) (s : State) : State :=
  s.setPort c { s.port c with swap := swap, chst := .intra }

/-- `FS_ACK c, v` (44 R224): the native-order test comes first. -/
def runFsAck (c : PortNo) (v : Word) (s : State) : Res Word :=
  (check (portOk s c) .badArg s).andThen fun s =>
    (check (decide ((s.port c).chst = .start)) .badState s).andThen fun s =>
      if v = s.magic then .done 0 (acknowledge c false s)
      else if v = bswap32 s.magic then .done 0 (acknowledge c true s)
      else .raise .protocol (closeChannel c s)

def execFsAck (c : PortNo) (v : Word) (s : State) : Out := .next (complete (.fsAck c v) s (runFsAck c v s))

/-- Channel `c` is in `INTRA` or `INTER`. -/
def streaming (p : Port) : Bool := decide (p.chst = .intra) || decide (p.chst = .inter)

/-- `FS_MSG c, token` (44 R226). -/
def runFsMsg (c : PortNo) (token : BitVec 16) (s : State) : Res Word :=
  (check (portOk s c) .badArg s).andThen fun s =>
    (check (decide ((s.port c).role = .encoder) && streaming (s.port c)) .badState s).andThen fun s =>
      if token = 0 then .done 0 s else .raise .protocol (closeChannel c s)

def execFsMsg (c : PortNo) (token : BitVec 16) (s : State) : Out :=
  .next (complete (.fsMsg c token) s (runFsMsg c token s))

/-- Width of plane `k` of a triplet (44 R222). -/
def planeWidth (s : State) (k : Nat) : Nat := if k = 0 then s.gridW.toNat - 1 else s.gridW.toNat

/-- Height of plane `k` of a triplet (44 R222). -/
def planeHeight (s : State) (k : Nat) : Nat := if k = 0 then s.gridH.toNat - 1 else s.gridH.toNat

/-- Pixels of plane `k` of a triplet (44 R222). -/
def planePixels (s : State) (k : Nat) : Nat := planeWidth s k * planeHeight s k

/-- The table a streaming channel needs is valid: table 0 in `INTRA`, table 1 in `INTER` (60 R276). -/
def neededTableValid (s : State) (c : PortNo) : Bool :=
  match (s.port c).chst with
  | .intra => s.tab0.valid
  | .inter => s.tab1.valid
  | .closed | .start => true

/-- Compress plane `k` of the current triplet on channel `c`: intra in `INTRA`, else inter against `REF[c][k]`
(44 R228). -/
def sendPlane (c : PortNo) (k : Nat) (s : State) : Res Unit :=
  if (s.port c).chst = .intra then intraCompress c (curBuffer k) (planeWidth s k) (planeHeight s k) s
  else interCompress c (curBuffer k) (refBuffer c k) (planePixels s k) s

/-- `REF[c][k][i] <- CUR[k][i]` for all cells of plane `k` (44 R228). -/
def updateReference (c : PortNo) (k : Nat) (s : State) : State :=
  copyCells (refBuffer c k) (curBuffer k) (planePixels s k) 0 s

/-- The three frames of a triplet, in fixed order (44 R222). -/
def forPlanes (frame : Nat → State → Res Unit) (s : State) : Res Unit :=
  (frame 0 s).andThen fun s => (frame 1 s).andThen fun s => frame 2 s

/-- `FS_SEND c` (44 R228). Any `emit` that fails has closed the channel (44 R232). -/
def runFsSend (c : PortNo) (s : State) : Res Word :=
  (check (portOk s c) .badArg s).andThen fun s =>
    (check (decide ((s.port c).role = .encoder) && decide ((s.port c).chst ≠ .closed)) .badState s).andThen fun s =>
      if (s.port c).chst = .start then .done 0 s
      else
        (check (neededTableValid s c) .noTable s).andThen fun s => (check (gridDimsOk s) .badDim s).andThen fun s =>
          (forPlanes (sendPlane c) s).andThen fun s' =>
            .done (wordCount (wordsEmitted c s s'))
              (setChannelState c .inter (updateReference c 2 (updateReference c 1 (updateReference c 0 s'))))

def execFsSend (c : PortNo) (s : State) : Out := .next (complete (.fsSend c) s (runFsSend c s))

/-- Decompress plane `k` on channel `c` into `REF[c][k]`: intra in `INTRA`, else inter in place (44 R230). -/
def recvPlane (c : PortNo) (k : Nat) (s : State) : Res Unit :=
  if (s.port c).chst = .intra then
    intraDecompress opFsRecv c (refBuffer c k) (planeWidth s k) (planeHeight s k) s
  else interDecompress opFsRecv c (refBuffer c k) (refBuffer c k) (planePixels s k) s

/-- `FS_RECV c` (44 R230). A `refill` that fails and a run past the end have closed the channel (44 R232). -/
def runFsRecv (c : PortNo) (s : State) : Res Word :=
  (check (portOk s c) .badArg s).andThen fun s =>
    (check (decide ((s.port c).role = .decoder) && streaming (s.port c)) .badState s).andThen fun s =>
      (check (neededTableValid s c) .noTable s).andThen fun s => (check (gridDimsOk s) .badDim s).andThen fun s =>
        (forPlanes (recvPlane c) s).andThen fun s' =>
          .done (wordCount (wordsConsumed c s s')) (setChannelState c .inter s')

def execFsRecv (c : PortNo) (s : State) : Out := .next (complete (.fsRecv c) s (runFsRecv c s))

/-- `FS_CLOSE c` (44 R231): also when already `CLOSED`. -/
def runFsClose (c : PortNo) (s : State) : Res Word :=
  (check (portOk s c) .badArg s).andThen fun s =>
    .done 0 (closeChannel c s)

def execFsClose (c : PortNo) (s : State) : Out := .next (complete (.fsClose c) s (runFsClose c s))

end Sys2Proof.Machine
end

