-- ==== Sys2Proof/Machine/Flags.lean ====
section
/-! DEFINITION. The status flags (10_state.md rule R32) as the read-only registers `STATUS` (R41) and `CHSTAT[c]`
(R50) show them. GCB has no arithmetic condition codes. -/

namespace Sys2Proof.Machine

/-- `STATUS`: bit 0 `TVALID[0]`, bit 1 `TVALID[1]` (10 R41). -/
def statusWord (s : State) : Word := BitVec.ofNat 32 (s.tab0.valid.toNat + 2 * s.tab1.valid.toNat)

/-- The 2-bit code of `CHST[c]` (10 R28). -/
def ChState.code : ChState → Nat
  | .closed => 0
  | .start => 1
  | .intra => 2
  | .inter => 3

/-- The 1-bit code of `CHROLE[c]` (10 R28). -/
def Role.code : Role → Nat
  | .encoder => 0
  | .decoder => 1

/-- `CHSTAT[c]` from the record of port `c` (10 R50). `WN` and `RN` are 6-bit fields (log 13). -/
def chstatWord (p : Port) : Word :=
  BitVec.ofNat 32
    (p.chst.code + 4 * p.role.code + 8 * p.swap.toNat + 16 * p.toutErr.toNat + 32 * p.tinEos.toNat
      + 2 ^ 8 * (p.bwN % 64) + 2 ^ 16 * (p.brN % 64))

end Sys2Proof.Machine
end

