-- ==== Sys2Proof/Machine/System.lean ====
section
/-! DEFINITION. The system commands (45_system.md): `NOP`, `CSR_RD`, `CSR_WR`, `PX_WR`, `PX_RD`, `RESET`. -/

namespace Sys2Proof.Machine

/-- `NOP` (45 R250). -/
def execNop (s : State) : Out := .next (complete .nop s (.done 0 s))

/-- The 32-bit value of a control register (45 R252). -/
def readCsr (s : State) : Csr → Word
  | .id => 0x47434231
  | .status => statusWord s
  | .lastErr => s.lastErr
  | .gridW => s.gridW
  | .gridH => s.gridH
  | .opW => s.opW
  | .opH => s.opH
  | .nch => BitVec.ofNat 32 s.cfg.nCh
  | .maxpix => BitVec.ofNat 32 s.cfg.maxPix
  | .magic => s.magic
  | .chstat c => chstatWord (s.port c)
  | .bwacc c => (s.port c).bwAcc
  | .bracc c => (s.port c).brAcc

/-- A write to a control register; `none` for a read-only one (45 R253). -/
def writeCsr (value : Word) (s : State) : Csr → Option State
  | .lastErr => some { s with lastErr := 0 }
  | .gridW => some { s with gridW := value }
  | .gridH => some { s with gridH := value }
  | .opW => some { s with opW := value }
  | .opH => some { s with opH := value }
  | .magic => some { s with magic := value }
  | .id | .status | .nch | .maxpix | .chstat _ | .bwacc _ | .bracc _ => none

/-- `CSR_RD addr` (45 R252). -/
def runCsrRd (addr : BitVec 16) (s : State) : Res Word :=
  match csrAt s addr with
  | some r => .done (readCsr s r) s
  | none => .raise .badArg s

def execCsrRd (addr : BitVec 16) (s : State) : Out := .next (complete (.csrRd addr) s (runCsrRd addr s))

/-- `CSR_WR addr, value` (45 R253). -/
def runCsrWr (addr : BitVec 16) (value : Word) (s : State) : Res Word :=
  match (csrAt s addr).bind (writeCsr value s) with
  | some s' => .done 0 s'
  | none => .raise .badArg s

def execCsrWr (addr : BitVec 16) (value : Word) (s : State) : Out :=
  .next (complete (.csrWr addr value) s (runCsrWr addr value s))

/-- `PX_WR b, index, pix` (45 R255). -/
def runPxWr (b : BitVec 8) (index : Word) (pix : Pixel) (s : State) : Res Word :=
  (check (bufferOk s b && indexOk s index) .badArg s).andThen fun s =>
    .done 0 (s.setPixel b.toNat index.toNat pix)

def execPxWr (b : BitVec 8) (index : Word) (pix : Pixel) (s : State) : Out :=
  .next (complete (.pxWr b index pix) s (runPxWr b index pix s))

/-- `PX_RD b, index` (45 R256). -/
def runPxRd (b : BitVec 8) (index : Word) (s : State) : Res Word :=
  (check (bufferOk s b && indexOk s index) .badArg s).andThen fun s =>
    .done ((s.pixel b.toNat index.toNat).setWidth 32) s

def execPxRd (b : BitVec 8) (index : Word) (s : State) : Out :=
  .next (complete (.pxRd b index) s (runPxRd b index s))

/-- Every piece of state at its reset value (45 R257, 70 R310). The host's acts still to come are not GCB's state, and
the unspecified cells are unspecified again (log 4). -/
def resetState (s : State) : State := { State.resetOf s.cfg (s.epoch + 1) with host := s.host }

/-- `RESET` (45 R257). -/
def execReset (s : State) : Out := .next (complete .reset s (.done 0 (resetState s)))

end Sys2Proof.Machine
end

