-- ==== Sys2Proof/Machine/Dispatch.lean ====
section
/-! DEFINITION. The meaning of every instruction, one arm per constructor of `Instr`. -/

namespace Sys2Proof.Machine

def exec (i : Instr) (s : State) : Host.Outcome State Fault Refusal :=
  match i with
  | .nop => Sys2Proof.Machine.execNop s
  | .bwWrite c k v => Sys2Proof.Machine.execBwWrite c k v s
  | .bwFlush c => Sys2Proof.Machine.execBwFlush c s
  | .brRead c k => Sys2Proof.Machine.execBrRead c k s
  | .brReadbit c => Sys2Proof.Machine.execBrReadbit c s
  | .brAlign c => Sys2Proof.Machine.execBrAlign c s
  | .fqWr t sym f => Sys2Proof.Machine.execFqWr t sym f s
  | .pcBuild t => Sys2Proof.Machine.execPcBuild t s
  | .pcEncode c t sym => Sys2Proof.Machine.execPcEncode c t sym s
  | .pcDecode c t => Sys2Proof.Machine.execPcDecode c t s
  | .pcQbits t sym => Sys2Proof.Machine.execPcQbits t sym s
  | .pcQlen t sym => Sys2Proof.Machine.execPcQlen t sym s
  | .icCompress c src => Sys2Proof.Machine.execIcCompress c src s
  | .icDecompress c dst => Sys2Proof.Machine.execIcDecompress c dst s
  | .xcCompress c src ref => Sys2Proof.Machine.execXcCompress c src ref s
  | .xcDecompress c dst ref => Sys2Proof.Machine.execXcDecompress c dst ref s
  | .fsOpen c role => Sys2Proof.Machine.execFsOpen c role s
  | .fsAck c v => Sys2Proof.Machine.execFsAck c v s
  | .fsMsg c token => Sys2Proof.Machine.execFsMsg c token s
  | .fsSend c => Sys2Proof.Machine.execFsSend c s
  | .fsRecv c => Sys2Proof.Machine.execFsRecv c s
  | .fsClose c => Sys2Proof.Machine.execFsClose c s
  | .csrRd addr => Sys2Proof.Machine.execCsrRd addr s
  | .csrWr addr value => Sys2Proof.Machine.execCsrWr addr value s
  | .pxWr b index pix => Sys2Proof.Machine.execPxWr b index pix s
  | .pxRd b index => Sys2Proof.Machine.execPxRd b index s
  | .reset => Sys2Proof.Machine.execReset s
  | .direct0 sym => Sys2Proof.Machine.execDirect0 sym s
  | .esc0 raw => Sys2Proof.Machine.execEsc0 raw s
  | .direct1 sym => Sys2Proof.Machine.execDirect1 sym s
  | .esc1 raw => Sys2Proof.Machine.execEsc1 raw s
  | .run len => Sys2Proof.Machine.execRun len s

end Sys2Proof.Machine
end

