-- ==== Sys2Proof/Machine/Interface.lean ====
section
/-! DEFINITION. The host interface (30_encoding.md rule R90, 10_state.md rules R26, R27): taking a command word from
the command port, an act of the host on a transport, and what a holding command does with it (40 R137). -/

namespace Sys2Proof.Machine

/-- A command word at the command port (30 R90, 60 R273 (1), (2)): the command it names is executed; an illegal word
fails with `E_BAD_CMD` and changes nothing else (30 R93). -/
def issue (w : CmdWord) (s : State) : Out :=
  match decode w with
  | some i => exec i s
  | none => .next (takeError (opcodeOfWord w) .badCmd s)

/-- An act of the host on the transports of port `c` (10 R26, R27); a port at or beyond `N_CH` has none (log 14). -/
def onTransport (c : PortNo) (act : Port → Port) (s : State) : Out :=
  if portOk s c then .next (s.setPort c (act (s.port c))) else .refused .noSuchTransport

/-- A word appended at the tail of `TIN[c]` (10 R27). -/
def appendInput (w : Word) (p : Port) : Port := { p with tin := p.tin ++ [w] }

/-- `TIN_EOS[c]` set (10 R27). -/
def endInput (p : Port) : Port := { p with tinEos := true }

/-- `TOUT_ERR[c]` set (10 R26). -/
def failOutput (p : Port) : Port := { p with toutErr := true }

/-- An act of the host between commands. -/
def takeAct (act : HostAct) (s : State) : Out :=
  match act with
  | .command w => issue w s
  | .inputWord c w => onTransport c (appendInput w) s
  | .inputEnd c => onTransport c endInput s
  | .outputError c => onTransport c failOutput s

/-- Execute a held command again, after an act that may let it go on (40 R137; log 2). -/
def resume (i : Instr) (r : Out) : Out :=
  match r with
  | .next s => exec i s
  | .fault f => .fault f
  | .refused f => .refused f

/-- The next act of the host while command `i` holds: an act on a transport, after which the command is tried again.
The host presents no further command before it has the response (40 R137), so one that lies ahead stays there. -/
def takeActHolding (i : Instr) (act : HostAct) (before after : State) : Out :=
  match act with
  | .command _ => .next before
  | .inputWord c w => resume i (onTransport c (appendInput w) after)
  | .inputEnd c => resume i (onTransport c endInput after)
  | .outputError c => resume i (onTransport c failOutput after)

/-- One step: the next act of the host. With none to come GCB is idle, or waits (60 R294). -/
def hostStep (s : State) : Out :=
  match s.host with
  | [] => .next s
  | act :: rest =>
    match s.holding with
    | none => takeAct act { s with host := rest }
    | some i => takeActHolding i act s { s with host := rest }

/-- The bytes of a word on a byte transport, most significant first (20 R61). -/
def wordBytes (w : Word) : List (BitVec 8) :=
  [w.extractLsb' 24 8, w.extractLsb' 16 8, w.extractLsb' 8 8, w.extractLsb' 0 8]

/-- The bytes of `TOUT[c]` in stream order (20 R61). -/
def outputBytes (s : State) (c : PortNo) : List (BitVec 8) := (s.port c).tout.flatMap wordBytes

/-- A word of `TIN[c]` assembled from four consecutive bytes of the transport (20 R61). -/
def wordOfBytes (b0 b1 b2 b3 : BitVec 8) : Word :=
  BitVec.ofNat 32 (b0.toNat * 2 ^ 24 + b1.toNat * 2 ^ 16 + b2.toNat * 2 ^ 8 + b3.toNat)

/-- `BROADCAST` (30 R97): `FS_SEND c` for each channel of the host's active list, in its order. -/
def broadcast (channels : List PortNo) : List HostAct :=
  channels.filterMap fun c => (encode (.fsSend c)).map .command

/-- `LOADGRID b, w, h, [p0, p1, ...]` (30 R97): `PX_WR b, i, p_i` for i from 0, over the w*h pixels given. -/
def loadGrid (b : BitVec 8) (pixels : List Pixel) : List HostAct :=
  pixels.zipIdx.filterMap fun (p, i) => (encode (.pxWr b (BitVec.ofNat 32 i) p)).map .command

end Sys2Proof.Machine
end

