-- ==== Sys2Proof/Machine/Step.lean ====
section
/-! DEFINITION. One step of GCB, and the state in which the host has presented a given command word. -/

namespace Sys2Proof.Machine

/-- One step: GCB takes the next act of the host, which may be a command word (log 1). -/
def step (s : State) : Host.Outcome State Fault Refusal := hostStep s

/-- `s` with the command word `w` presented next at the command port, and no command holding that port. -/
def State.withFetchWord (s : State) (_nbits w : Nat) : State :=
  { s with host := .command (BitVec.ofNat 64 w) :: s.host, holding := none }

end Sys2Proof.Machine
end

