-- ==== Sys2Proof/Safety.lean ====
section
/-! DEFINITION. The terms in which claims about GCB are stated: well-formed tables (41 R152), legal instances (00 R8),
the invariant of a state, the bits on a port (20 R60), the items of a frame (30 R104, R105), and how a command ends
(30 R94, 60 R274). Nothing of the machine uses these. -/

namespace Sys2Proof.Machine

/-! ### Well-formed tables -/

/-- The index reached from index `i` along a list of branches, `false` for child 0 (41 R152 (c)). -/
def follow (tree : List Node) : Nat → List Bool → Option Nat
  | i, [] => some i
  | i, b :: rest =>
    match tree[i]? with
    | some (.node c0 c1) => follow tree (if b then c1 else c0) rest
    | some (.leaf _) => none
    | none => none

/-- Index `j` is a child of index `i`. -/
def IsChild (tree : List Node) (i j : Nat) : Prop :=
  ∃ c0 c1, tree[i]? = some (Node.node c0 c1) ∧ (j = c0 ∨ j = c1)

/-- `WF(ENC, TREE, N)`, clause by clause (41 R152). -/
structure TableWF (tab : CodeTable) (n : Nat) : Prop where
  /-- A table has at least one symbol (41 R153). -/
  someSymbol : 1 ≤ n
  /-- `ENC` has an entry for each symbol (41 R151). -/
  entries : tab.enc.length = n
  /-- (a) -/
  nodes : tab.tree.length = 2 * n - 1
  /-- (b) -/
  children : ∀ i c0 c1 : Nat, tab.tree[i]? = some (Node.node c0 c1) →
    1 ≤ c0 ∧ c0 ≤ 2 * n - 2 ∧ 1 ≤ c1 ∧ c1 ≤ 2 * n - 2 ∧ c0 ≠ c1
  /-- (c) one parent; that index 0 is the child of none is clause (b). -/
  oneParent : ∀ j, 1 ≤ j → j ≤ 2 * n - 2 → ∃ i, IsChild tab.tree i j ∧ ∀ i', IsChild tab.tree i' j → i' = i
  /-- (c) every index is reached from the root. -/
  reached : ∀ j, j ≤ 2 * n - 2 → ∃ path, follow tab.tree 0 path = some j
  /-- (d) every symbol has exactly one leaf. -/
  oneLeaf : ∀ sym, sym < n →
    ∃ i : Nat, tab.tree[i]? = some (Node.leaf sym) ∧ ∀ i' : Nat, tab.tree[i']? = some (Node.leaf sym) → i' = i
  /-- (d) no other leaf. -/
  leafSymbols : ∀ i sym : Nat, tab.tree[i]? = some (Node.leaf sym) → sym < n
  /-- (e) -/
  codes : ∀ (path : List Bool) (i sym : Nat), follow tab.tree 0 path = some i → tab.tree[i]? = some (Node.leaf sym) →
    ∃ e, tab.enc[sym]? = some e ∧ e.length = path.length ∧ path.length ≤ 32 ∧ e.bits.toNat = natOfBits path

/-- The contents of a table register as a code table. -/
def Table.contents (tab : Table) : CodeTable := ⟨tab.enc, tab.tree⟩

/-- `TVALID[t] = 1` and table `t` is well-formed for its alphabet. -/
def State.TableReady (s : State) (t : TableId) : Prop :=
  (s.table t).valid = true ∧ TableWF (s.table t).contents t.symbols

/-! ### Legal instances and the invariant -/

/-- The legal values of the OPEN parameters (00 R8). -/
structure LegalConfig (cfg : Config) : Prop where
  channels : 1 ≤ cfg.nCh ∧ cfg.nCh ≤ 16
  pixels : 1 ≤ cfg.maxPix ∧ cfg.maxPix < 2 ^ 32
  init0 : ∀ tab, cfg.init0 = some tab → TableWF tab TableId.intra.symbols
  init1 : ∀ tab, cfg.init1 = some tab → TableWF tab TableId.inter.symbols

/-- The invariants of the bit registers of a port (10 R22, R23). -/
structure Port.Inv (p : Port) : Prop where
  writerCount : p.bwN ≤ 32
  writerBits : p.bwAcc.toNat < 2 ^ p.bwN
  readerCount : p.brN ≤ 32
  readerBits : p.brAcc.toNat % 2 ^ (32 - p.brN) = 0

/-- What every state between two commands satisfies. -/
structure State.Inv (s : State) : Prop where
  legal : LegalConfig s.cfg
  /-- 10 R22, R23. -/
  ports : ∀ c, (s.port c).Inv
  /-- A port at or beyond `N_CH` does not exist (10 R20). -/
  absent : ∀ c : PortNo, s.cfg.nCh ≤ c.toNat → s.port c = Port.reset
  /-- The canonical form of the pixel memory. -/
  pixelForm : s.pix.wf = true
  /-- Only cells that exist are ever written (20 R66). -/
  pixelRange : ∀ entry ∈ s.pix, entry.1.1 < bufferCount s.cfg ∧ entry.1.2 < s.cfg.maxPix
  /-- The canonical form of the frequency memory. -/
  freqForm : s.freq.wf = true
  /-- Only cells that exist are ever written (10 R35). -/
  freqRange : ∀ entry ∈ s.freq, ∃ t : TableId, entry.1.1 = tableNumber t ∧ entry.1.2 < t.symbols
  /-- The length of an entry is 0 to 32 (10 R36). -/
  lengths : ∀ t, ∀ e ∈ (s.table t).enc, e.length ≤ 32
  /-- `TVALID[t] = 1` says that table `t` is well-formed (10 R38). -/
  tables : ∀ t, (s.table t).valid = true → TableWF (s.table t).contents t.symbols
  /-- Bits 31 to 16 of `LAST_ERR` read 0 and its low byte is a status code (10 R42, 60 R271). -/
  lastErr : s.lastErr.toNat < 2 ^ 16 ∧ s.lastErr.toNat % 256 ≤ 9
  /-- No cursor survives a command (10 R20, R30). -/
  noCursor : s.cursor = none
  /-- What holds is a command. -/
  holder : ∀ i, s.holding = some i → i.isCommand = true

/-! ### The bits on a port -/

/-- The bits of a transport word in stream order (20 R60). -/
def wordBits (w : Word) : List Bool := bitsOf w.toNat 32

/-- The bits appended on a port and not yet on its transport, oldest first (10 R21). -/
def Port.pendingBits (p : Port) : List Bool := bitsOf p.bwAcc.toNat p.bwN

/-- All bits ever appended on a port and not discarded: those on the transport, then the pending ones. -/
def Port.outBits (p : Port) : List Bool := p.tout.flatMap wordBits ++ p.pendingBits

/-- The bits fetched and not yet consumed (10 R23). -/
def Port.fetchedBits (p : Port) : List Bool := (wordBits p.brAcc).take p.brN

/-- All bits the port can read before it must hold or fail. -/
def Port.inBits (p : Port) : List Bool := p.fetchedBits ++ p.tin.flatMap wordBits

/-- A list of bits followed by zeros up to the next word boundary (20 R65). -/
def padToWord (bits : List Bool) : List Bool := bits ++ List.replicate ((32 - bits.length % 32) % 32) false

/-- The words a reader holding `held` bits removes from its transport to read `bits` bits (40 R136). -/
def wordsToRead (held bits : Nat) : Nat := (bits - held + 31) / 32

/-- From `p` to `q` the port appended `bits` (40 R131): the writer register and the transport apart, nothing changed,
and the transport kept its words. -/
structure Port.Appends (p q : Port) (bits : List Bool) : Prop where
  same : q = { p with bwAcc := q.bwAcc, bwN := q.bwN, tout := q.tout }
  out : q.outBits = p.outBits ++ bits
  kept : p.tout <+: q.tout

/-- From `p` to `q` the port consumed `k` bits (40 R136): the reader register and the transport apart, nothing
changed, and no word was fetched before a bit of it was needed. -/
structure Port.Consumes (p q : Port) (k : Nat) : Prop where
  same : q = { p with brAcc := q.brAcc, brN := q.brN, tin := q.tin }
  bits : q.inBits = p.inBits.drop k
  lazy : q.tin = p.tin.drop (wordsToRead p.brN k)

/-- Port `c` dead (40 R145), or its channel closed (44 R225): both registers empty, `CHST` `CLOSED`, the rest of the
port as in `p`. -/
def Port.Dead (p q : Port) : Prop :=
  q = { p with bwAcc := 0, bwN := 0, brAcc := 0, brN := 0, chst := .closed }

/-! ### The items of a frame -/

/-- The code of a symbol as it stands on the stream (30 R101). -/
def symbolCode (tab : CodeTable) (sym : Nat) : List Bool :=
  match tab.enc[sym]? with
  | some e => bitsOf e.bits.toNat e.length
  | none => []

/-- The bits of an item under a table (30 R101, R106). -/
def itemBits (tab : CodeTable) (i : Instr) : List Bool := (encodeItem tab i).getD []

/-- The bits of a sequence of items. -/
def itemsBits (tab : CodeTable) (items : List Instr) : List Bool := items.flatMap (itemBits tab)

/-- The direct symbol of table `t` with a given number. -/
def directItem (t : TableId) (sym : BitVec 10) : Instr :=
  match t with
  | .intra => .direct0 sym
  | .inter => .direct1 sym

/-- The escape of table `t` with a given raw value. -/
def escapeItem (t : TableId) (raw : Pixel) : Instr :=
  match t with
  | .intra => .esc0 raw
  | .inter => .esc1 raw

/-- The item of an error or delta `e` (42 R187, 43 R203): direct when its signed reading is -256 to 256. -/
def errorItem (t : TableId) (e : Pixel) : Instr :=
  if -256 ≤ e.toInt ∧ e.toInt ≤ 256 then directItem t (BitVec.ofNat 10 (e.toInt + 256).toNat) else escapeItem t e

/-- The items of an intra frame after its raw first pixel (30 R104): the prediction errors of the grid `g` of width `w`
and height `h` in scan order. -/
def intraItems (g : Nat → Pixel) (w h : Nat) : List Instr :=
  (scan w h).tail.map fun xy => errorItem .intra (g (cellIndex w xy.1 xy.2) - predict g w xy.1 xy.2)

/-- The bits of an intra frame before its padding (30 R104). -/
def intraFrame (tab : CodeTable) (g : Nat → Pixel) (w h : Nat) : List Bool :=
  bitsOf (g 0).toNat 16 ++ itemsBits tab (intraItems g w h)

/-- A symbol of table 0 with a number of its class (30 R102). -/
def isIntraItem : Instr → Bool
  | .direct0 sym => directNumberOk sym
  | .esc0 _ => true
  | .direct1 _ | .esc1 _ | .run _ => false
  | .nop | .bwWrite _ _ _ | .bwFlush _ | .brRead _ _ | .brReadbit _ | .brAlign _ => false
  | .fqWr _ _ _ | .pcBuild _ | .pcEncode _ _ _ | .pcDecode _ _ | .pcQbits _ _ | .pcQlen _ _ => false
  | .icCompress _ _ | .icDecompress _ _ | .xcCompress _ _ _ | .xcDecompress _ _ _ => false
  | .fsOpen _ _ | .fsAck _ _ | .fsMsg _ _ | .fsSend _ | .fsRecv _ | .fsClose _ => false
  | .csrRd _ | .csrWr _ _ | .pxWr _ _ _ | .pxRd _ _ | .reset => false

/-- The prediction error that an item of an intra frame carries, modulo 65536 (30 R102, R106). -/
def intraValue : Instr → Pixel
  | .direct0 sym => BitVec.ofInt 16 ((sym.toNat : Int) - 256)
  | .esc0 raw => raw
  | .direct1 _ | .esc1 _ | .run _ => 0
  | .nop | .bwWrite _ _ _ | .bwFlush _ | .brRead _ _ | .brReadbit _ | .brAlign _ => 0
  | .fqWr _ _ _ | .pcBuild _ | .pcEncode _ _ _ | .pcDecode _ _ | .pcQbits _ _ | .pcQlen _ _ => 0
  | .icCompress _ _ | .icDecompress _ _ | .xcCompress _ _ _ | .xcDecompress _ _ _ => 0
  | .fsOpen _ _ | .fsAck _ _ | .fsMsg _ _ | .fsSend _ | .fsRecv _ | .fsClose _ => 0
  | .csrRd _ | .csrWr _ _ | .pxWr _ _ _ | .pxRd _ _ | .reset => 0

/-- The bits of an intra frame with a given raw first pixel and given items, before its padding (30 R104). -/
def intraBits (tab : CodeTable) (raw : Pixel) (items : List Instr) : List Bool :=
  bitsOf raw.toNat 16 ++ itemsBits tab items

/-- The `w` by `h` grid `g` is what the raw first pixel and the items rebuild: every other pixel is its
prediction from the rebuilt pixels plus the error of its item, modulo 65536 (42 R188, R191). -/
structure IntraRebuilds (g : Nat → Pixel) (w h : Nat) (raw : Pixel) (items : List Instr) : Prop where
  first : g 0 = raw
  count : items.length + 1 = w * h
  others : ∀ p item, items[p]? = some item → ∀ xy, (scan w h)[p + 1]? = some xy →
    g (cellIndex w xy.1 xy.2) = predict g w xy.1 xy.2 + intraValue item

/-- The run item of length `L`. -/
def runItem (length : Nat) : Instr := .run (BitVec.ofNat 10 length)

/-- The items that end a pending run (43 R202). -/
def pendingRun (run : Nat) : List Instr := if run = 0 then [] else [runItem run]

/-- The items of the deltas of an inter frame when `run` zero deltas are pending (43 R202). -/
def interItems (run : Nat) : List Pixel → List Instr
  | [] => pendingRun run
  | e :: rest =>
    if e = 0 then
      if run + 1 = 512 then runItem 512 :: interItems 0 rest else interItems (run + 1) rest
    else pendingRun run ++ errorItem .inter e :: interItems 0 rest

/-- The deltas of the new grid against the reference grid, `n` pixels (43 R201). -/
def deltas (new ref : Nat → Pixel) (n : Nat) : List Pixel := (List.range n).map fun i => new i - ref i

/-- The bits of an inter frame before its padding (30 R105). -/
def interFrame (tab : CodeTable) (new ref : Nat → Pixel) (n : Nat) : List Bool :=
  itemsBits tab (interItems 0 (deltas new ref n))

/-- A symbol of table 1 with a number of its class (30 R103). -/
def isInterItem : Instr → Bool
  | .direct1 sym => directNumberOk sym
  | .esc1 _ => true
  | .run len => runLengthOk len
  | .direct0 _ | .esc0 _ => false
  | .nop | .bwWrite _ _ _ | .bwFlush _ | .brRead _ _ | .brReadbit _ | .brAlign _ => false
  | .fqWr _ _ _ | .pcBuild _ | .pcEncode _ _ _ | .pcDecode _ _ | .pcQbits _ _ | .pcQlen _ _ => false
  | .icCompress _ _ | .icDecompress _ _ | .xcCompress _ _ _ | .xcDecompress _ _ _ => false
  | .fsOpen _ _ | .fsAck _ _ | .fsMsg _ _ | .fsSend _ | .fsRecv _ | .fsClose _ => false
  | .csrRd _ | .csrWr _ _ | .pxWr _ _ _ | .pxRd _ _ | .reset => false

/-- The pixels that an item of an inter frame rebuilds from index `i` on (43 R205). -/
def interPixels (ref : Nat → Pixel) (i : Nat) : Instr → List Pixel
  | .direct1 sym => [ref i + BitVec.ofInt 16 ((sym.toNat : Int) - 256)]
  | .esc1 raw => [ref i + raw]
  | .run len => (List.range len.toNat).map fun j => ref (i + j)
  | .direct0 _ | .esc0 _ => []
  | .nop | .bwWrite _ _ _ | .bwFlush _ | .brRead _ _ | .brReadbit _ | .brAlign _ => []
  | .fqWr _ _ _ | .pcBuild _ | .pcEncode _ _ _ | .pcDecode _ _ | .pcQbits _ _ | .pcQlen _ _ => []
  | .icCompress _ _ | .icDecompress _ _ | .xcCompress _ _ _ | .xcDecompress _ _ _ => []
  | .fsOpen _ _ | .fsAck _ _ | .fsMsg _ _ | .fsSend _ | .fsRecv _ | .fsClose _ => []
  | .csrRd _ | .csrWr _ _ | .pxWr _ _ _ | .pxRd _ _ | .reset => []

/-- The pixels that a sequence of inter items rebuilds from index `i` on (43 R205). -/
def interRebuilt (ref : Nat → Pixel) (i : Nat) : List Instr → List Pixel
  | [] => []
  | item :: rest =>
    interPixels ref i item ++ interRebuilt ref (i + (interPixels ref i item).length) rest

/-! ### Frames that do not end -/

/-- The bits at hand stop inside an intra frame of `count` pixels: inside its raw first pixel (`none`), or after that
pixel and some items, before the next item is whole. -/
def IntraStops (tab : CodeTable) (count : Nat) (bits : List Bool) : Option (Pixel × List Instr) → Prop
  | none => bits.length < 16
  | some (raw, items) =>
    (∀ item ∈ items, isIntraItem item = true) ∧ items.length + 1 < count ∧
    ∃ short, bits = intraBits tab raw items ++ short ∧ ∀ item, isIntraItem item = true → ¬ itemBits tab item <+: short

/-- From grid `f`, what has come of an intra frame has made grid `g`: nothing, or the raw first pixel and a pixel for
each item (42 R188, R191), with every cell not yet visited as before. -/
def IntraStarts (f g : Nat → Pixel) (w h : Nat) : Option (Pixel × List Instr) → Prop
  | none => g = f
  | some (raw, items) =>
    g 0 = raw ∧
    (∀ p item, items[p]? = some item → ∀ xy, (scan w h)[p + 1]? = some xy →
      g (cellIndex w xy.1 xy.2) = predict g w xy.1 xy.2 + intraValue item) ∧
    ∀ x, (∀ p xy, p ≤ items.length → (scan w h)[p]? = some xy → x ≠ cellIndex w xy.1 xy.2) → g x = f x

/-- The bits at hand stop inside an inter frame of `count` pixels, after some items and before the next one is whole. -/
def InterStops (tab : CodeTable) (ref : Nat → Pixel) (count : Nat) (bits : List Bool) (items : List Instr) : Prop :=
  (∀ item ∈ items, isInterItem item = true) ∧ (interRebuilt ref 0 items).length < count ∧
  ∃ short, bits = itemsBits tab items ++ short ∧ ∀ item, isInterItem item = true → ¬ itemBits tab item <+: short

/-- In an inter frame of `count` pixels some items are followed by a run that passes the end (43 R207), and that by
`rest`. -/
def InterOverruns (tab : CodeTable) (ref : Nat → Pixel) (count : Nat) (bits : List Bool) (items : List Instr)
    (rest : List Bool) : Prop :=
  (∀ item ∈ items, isInterItem item = true) ∧ (interRebuilt ref 0 items).length < count ∧
  ∃ len : BitVec 10, 1 ≤ len.toNat ∧ len.toNat ≤ 512 ∧ count < (interRebuilt ref 0 items).length + len.toNat ∧
    bits = itemsBits tab (items ++ [.run len]) ++ rest

/-! ### How a command ends -/

/-- Bits 63:56 of a response word (30 R94). -/
def statusField (r : CmdWord) : BitVec 8 := r.extractLsb' 56 8

/-- Bits 55:32 of a response word (30 R94). -/
def reservedField (r : CmdWord) : BitVec 24 := r.extractLsb' 32 24

/-- Bits 31:0 of a response word (30 R94). -/
def dataField (r : CmdWord) : Word := r.extractLsb' 0 32

/-- The last response carries status `e` and data `data`, and its bits 55:32 are zero (30 R94). -/
def State.Answers (s : State) (e : Status) (data : Word) : Prop :=
  ∃ r, s.rsp = some r ∧ statusField r = e.code ∧ reservedField r = 0 ∧ dataField r = data

/-- Nothing is in progress: no command holds and no decompressor has a cursor. -/
def State.Idle (s : State) : Prop := s.holding = none ∧ s.cursor = none

/-- From `s` a command ended `OK` with response data `data`, and left `LAST_ERR` alone (10 R42). -/
def EndsOk (s t : State) (data : Word) : Prop :=
  t.Answers .ok data ∧ t.lastErr = s.lastErr ∧ t.Idle

/-- A command with opcode byte `op` ended with error `e`: response data 0, and `LAST_ERR` holds the code and the
opcode byte (60 R274 (d), (e)). -/
def EndsWith (op : BitVec 8) (e : Status) (t : State) : Prop :=
  t.Answers e 0 ∧ t.lastErr.toNat = op.toNat * 256 + e.code.toNat ∧ t.Idle

/-- `s` and `t` agree on every piece of GCB's state but `LAST_ERR`. -/
def SameState (s t : State) : Prop :=
  t = { s with lastErr := t.lastErr, rsp := t.rsp, holding := t.holding, cursor := t.cursor }

/-- `s` and `t` agree on every piece of GCB's state but `LAST_ERR` and port `c`. -/
def SameButPort (c : PortNo) (s t : State) : Prop :=
  t = { s.setPort c (t.port c) with
        lastErr := t.lastErr, rsp := t.rsp, holding := t.holding, cursor := t.cursor }

/-- `s` and `t` agree on every piece of GCB's state but `LAST_ERR`, port `c` and the pixels. -/
def SameButPortPixels (c : PortNo) (s t : State) : Prop :=
  t = { s.setPort c (t.port c) with
        pix := t.pix, lastErr := t.lastErr, rsp := t.rsp, holding := t.holding, cursor := t.cursor }

/-- `s` and `t` agree on every piece of GCB's state but `LAST_ERR` and the pixels. -/
def SameButPixels (s t : State) : Prop :=
  t = { s with pix := t.pix, lastErr := t.lastErr, rsp := t.rsp, holding := t.holding, cursor := t.cursor }

/-- `s` and `t` agree on every piece of GCB's state but `LAST_ERR` and the frequencies. -/
def SameButFreq (s t : State) : Prop :=
  t = { s with freq := t.freq, lastErr := t.lastErr, rsp := t.rsp, holding := t.holding, cursor := t.cursor }

/-- `s` and `t` agree on every piece of GCB's state but `LAST_ERR` and table `tab`. -/
def SameButTable (tab : TableId) (s t : State) : Prop :=
  t = { s.setTable tab (t.table tab) with
        lastErr := t.lastErr, rsp := t.rsp, holding := t.holding, cursor := t.cursor }

/-- A command that fails a check (60 R273): error `e`, and no state changes but `LAST_ERR`. -/
def Rejects (i : Instr) (s : State) (e : Status) : Prop :=
  ∃ t, exec i s = .next t ∧ EndsWith (opcodeOf i) e t ∧ SameState s t

/-- The port or channel a command names (30 R92). -/
def portOf : Instr → Option PortNo
  | .bwWrite c _ _ | .bwFlush c | .brRead c _ | .brReadbit c | .brAlign c => some c
  | .pcEncode c _ _ | .pcDecode c _ => some c
  | .icCompress c _ | .icDecompress c _ | .xcCompress c _ _ | .xcDecompress c _ _ => some c
  | .fsOpen c _ | .fsAck c _ | .fsMsg c _ | .fsSend c | .fsRecv c | .fsClose c => some c
  | .nop | .fqWr _ _ _ | .pcBuild _ | .pcQbits _ _ | .pcQlen _ _ => none
  | .csrRd _ | .csrWr _ _ | .pxWr _ _ _ | .pxRd _ _ | .reset => none
  | .direct0 _ | .esc0 _ | .direct1 _ | .esc1 _ | .run _ => none

/-- The statuses with which a command can end (60 R272); `E_BAD_CMD` is found before a command is known. -/
def statusesOf : Instr → List Status
  | .nop | .reset => [.ok]
  | .bwWrite _ _ _ | .bwFlush _ | .brRead _ _ | .brReadbit _ => [.ok, .badArg, .transport]
  | .brAlign _ | .fqWr _ _ _ | .fsClose _ => [.ok, .badArg]
  | .csrRd _ | .csrWr _ _ | .pxWr _ _ _ | .pxRd _ _ => [.ok, .badArg]
  | .pcBuild _ => [.ok, .badArg, .codeTooLong]
  | .pcEncode _ _ _ | .pcDecode _ _ => [.ok, .badArg, .noTable, .transport]
  | .pcQbits _ _ | .pcQlen _ _ => [.ok, .badArg, .noTable]
  | .icCompress _ _ | .xcCompress _ _ _ | .icDecompress _ _ => [.ok, .badArg, .badDim, .noTable, .transport]
  | .xcDecompress _ _ _ => [.ok, .badArg, .badDim, .noTable, .transport, .runOverrun]
  | .fsOpen _ _ => [.ok, .badArg, .badState]
  | .fsAck _ _ | .fsMsg _ _ => [.ok, .badArg, .badState, .protocol]
  | .fsSend _ => [.ok, .badArg, .badDim, .noTable, .badState, .transport]
  | .fsRecv _ => [.ok, .badArg, .badDim, .noTable, .badState, .transport, .runOverrun]
  | .direct0 _ | .esc0 _ | .direct1 _ | .esc1 _ | .run _ => []

/-- The cells (buffer, index) that a command may write (20 R69; 42 R191, 43 R206, 44 R228, R230, 45 R255): the
destination's cells below the pixel count, a triplet's cells of the channel's own references, one pixel. -/
def mayWrite (s : State) (b x : Nat) : Instr → Prop
  | .pxWr buffer index _ => b = buffer.toNat ∧ x = index.toNat
  | .icDecompress _ dst | .xcDecompress _ dst _ => b = dst.toNat ∧ x < s.opW.toNat * s.opH.toNat
  | .fsSend c | .fsRecv c =>
    (b = 3 + 3 * c.toNat ∧ x < (s.gridW.toNat - 1) * (s.gridH.toNat - 1)) ∨
    ((b = 4 + 3 * c.toNat ∨ b = 5 + 3 * c.toNat) ∧ x < s.gridW.toNat * s.gridH.toNat)
  | .nop | .bwWrite _ _ _ | .bwFlush _ | .brRead _ _ | .brReadbit _ | .brAlign _ => False
  | .fqWr _ _ _ | .pcBuild _ | .pcEncode _ _ _ | .pcDecode _ _ | .pcQbits _ _ | .pcQlen _ _ => False
  | .icCompress _ _ | .xcCompress _ _ _ => False
  | .fsOpen _ _ | .fsAck _ _ | .fsMsg _ _ | .fsClose _ => False
  | .csrRd _ | .csrWr _ _ | .pxRd _ _ | .reset => False
  | .direct0 _ | .esc0 _ | .direct1 _ | .esc1 _ | .run _ => False

/-- Command `i` on port `c` meets a failed output transport (40 R133, R145): `E_TRANSPORT`, port `c` dead, and nothing
else changes. -/
def FailsOutput (i : Instr) (c : PortNo) (s : State) : Prop :=
  ∃ t, exec i s = .next t ∧ EndsWith (opcodeOf i) .transport t ∧ SameButPort c s t ∧ (s.port c).Dead (t.port c)

/-- Command `i` waits (40 R137, 60 R285): no response yet, and no state changes (log 2). -/
def Waits (i : Instr) (s t : State) : Prop := t = { s with holding := some i, rsp := none }

/-- Command `i` on port `c`, which writes no pixel, needs more input than there is (40 R137, R145): at the end of the
input `E_TRANSPORT` with every word consumed and the port dead, else it waits. -/
def LacksInput (i : Instr) (c : PortNo) (s : State) : Prop :=
  ∃ t, exec i s = .next t ∧
    if (s.port c).tinEos then
      EndsWith (opcodeOf i) .transport t ∧ SameButPort c s t ∧ Port.Dead { s.port c with tin := [] } (t.port c)
    else Waits i s t

/-- The response data `data` counts `n` words, where 32 bits can (30 R92; log 7). -/
def Counts (data : Word) (n : Nat) : Prop := n < 2 ^ 32 → data.toNat = n

/-! ### Reset -/

/-- Every piece of state at its reset value (10 R55); the cells listed in a memory are those written since reset, so
none is. -/
structure IsReset (s : State) : Prop where
  writers : ∀ c, (s.port c).bwAcc = 0 ∧ (s.port c).bwN = 0
  readers : ∀ c, (s.port c).brAcc = 0 ∧ (s.port c).brN = 0
  outputs : ∀ c, (s.port c).tout = [] ∧ (s.port c).toutErr = false
  inputs : ∀ c, (s.port c).tin = [] ∧ (s.port c).tinEos = false
  channels : ∀ c, (s.port c).chst = .closed ∧ (s.port c).role = .encoder ∧ (s.port c).swap = false
  builtIn0 : ∀ tab, s.cfg.init0 = some tab → s.tab0 = ⟨tab.enc, tab.tree, true⟩
  builtIn1 : ∀ tab, s.cfg.init1 = some tab → s.tab1 = ⟨tab.enc, tab.tree, true⟩
  noTable0 : s.cfg.init0 = none → s.tab0.valid = false
  noTable1 : s.cfg.init1 = none → s.tab1.valid = false
  cells : s.pix = [] ∧ s.freq = []
  lastErr : s.lastErr = 0
  dims : s.gridW = 0 ∧ s.gridH = 0 ∧ s.opW = 0 ∧ s.opH = 0
  magic : s.magic = 0x12345678

/-! ### Control registers -/

/-- The addresses of the control registers that exist and their values (45 R251, R252). -/
def csrValues (s : State) : List (Nat × Word) :=
  [(0x0000, 0x47434231), (0x0001, statusWord s), (0x0002, s.lastErr), (0x0003, s.gridW), (0x0004, s.gridH),
    (0x0005, s.opW), (0x0006, s.opH), (0x0007, BitVec.ofNat 32 s.cfg.nCh), (0x0008, BitVec.ofNat 32 s.cfg.maxPix),
    (0x0009, s.magic)]
  ++ (List.range s.cfg.nCh).map (fun c => (0x0010 + c, chstatWord (s.port (BitVec.ofNat 4 c))))
  ++ (List.range s.cfg.nCh).map (fun c => (0x0020 + c, (s.port (BitVec.ofNat 4 c)).bwAcc))
  ++ (List.range s.cfg.nCh).map (fun c => (0x0030 + c, (s.port (BitVec.ofNat 4 c)).brAcc))

/-! ### The rows of the opcode table -/

/-- The command rows of opcode_table.json: mnemonic, match, mask (30 R95, R109). -/
def opcodeRows : List (String × CmdWord × CmdWord) :=
  [("NOP", 0x0000000000000000, 0xffffffffffffffff), ("BW_WRITE", 0x0100000000000000, 0xff0f000000000000),
    ("BW_FLUSH", 0x0200000000000000, 0xff0fffffffffffff), ("BR_READ", 0x1100000000000000, 0xff0f0000ffffffff),
    ("BR_READBIT", 0x1200000000000000, 0xff0fffffffffffff), ("BR_ALIGN", 0x1300000000000000, 0xff0fffffffffffff),
    ("FQ_WR", 0x2000000000000000, 0xfff0000000000000), ("PC_BUILD", 0x2100000000000000, 0xfff0ffffffffffff),
    ("PC_ENCODE", 0x2200000000000000, 0xff000000ffffffff), ("PC_DECODE", 0x2300000000000000, 0xff00ffffffffffff),
    ("PC_QBITS", 0x2400000000000000, 0xfff00000ffffffff), ("PC_QLEN", 0x2500000000000000, 0xfff00000ffffffff)]
  ++ [("IC_COMPRESS", 0x3000000000000000, 0xff0fff00ffffffff), ("IC_DECOMPRESS", 0x3100000000000000, 0xff0fff00ffffffff),
    ("XC_COMPRESS", 0x4000000000000000, 0xff0f0000ffffffff), ("XC_DECOMPRESS", 0x4100000000000000, 0xff0f0000ffffffff),
    ("FS_OPEN", 0x5000000000000000, 0xff0ffffeffffffff), ("FS_ACK", 0x5100000000000000, 0xff0fffff00000000),
    ("FS_MSG", 0x5200000000000000, 0xff0f0000ffffffff), ("FS_SEND", 0x5300000000000000, 0xff0fffffffffffff),
    ("FS_RECV", 0x5400000000000000, 0xff0fffffffffffff), ("FS_CLOSE", 0x5500000000000000, 0xff0fffffffffffff),
    ("CSR_RD", 0x6000000000000000, 0xffff0000ffffffff), ("CSR_WR", 0x6100000000000000, 0xffff000000000000),
    ("PX_WR", 0x6200000000000000, 0xff00000000000000), ("PX_RD", 0x6300000000000000, 0xff00ffff00000000),
    ("RESET", 0x7f00000000000000, 0xffffffffffffffff)]

/-- The mnemonic of a command (30 R92); a stream symbol class has none there. -/
def mnemonicOf : Instr → String
  | .nop => "NOP" | .bwWrite _ _ _ => "BW_WRITE" | .bwFlush _ => "BW_FLUSH" | .brRead _ _ => "BR_READ"
  | .brReadbit _ => "BR_READBIT" | .brAlign _ => "BR_ALIGN" | .fqWr _ _ _ => "FQ_WR" | .pcBuild _ => "PC_BUILD"
  | .pcEncode _ _ _ => "PC_ENCODE" | .pcDecode _ _ => "PC_DECODE" | .pcQbits _ _ => "PC_QBITS"
  | .pcQlen _ _ => "PC_QLEN" | .icCompress _ _ => "IC_COMPRESS" | .icDecompress _ _ => "IC_DECOMPRESS"
  | .xcCompress _ _ _ => "XC_COMPRESS" | .xcDecompress _ _ _ => "XC_DECOMPRESS" | .fsOpen _ _ => "FS_OPEN"
  | .fsAck _ _ => "FS_ACK" | .fsMsg _ _ => "FS_MSG" | .fsSend _ => "FS_SEND" | .fsRecv _ => "FS_RECV"
  | .fsClose _ => "FS_CLOSE" | .csrRd _ => "CSR_RD" | .csrWr _ _ => "CSR_WR" | .pxWr _ _ _ => "PX_WR"
  | .pxRd _ _ => "PX_RD" | .reset => "RESET"
  | .direct0 _ | .esc0 _ | .direct1 _ | .esc1 _ | .run _ => ""

/-! ### The builder, as a relation (41 R154, R155) -/

/-- `x` is the node of `q` that is extracted next: its pair (freq, seq) is the smallest in lexicographic order. -/
def IsMin (x : QNode) (q : List QNode) : Prop :=
  x ∈ q ∧ ∀ y ∈ q, x.freq < y.freq ∨ (x.freq = y.freq ∧ x.seq ≤ y.seq)

/-- `Build-tree` can end with tree `tree` when `Q` holds the nodes `q` and the next interior node gets number `next`. The
order of the list `q` means nothing. -/
inductive BuildsTree : (next : Nat) → (q : List QNode) → (tree : CodeTree) → Prop where
  | root (next : Nat) (z : QNode) : BuildsTree next [z] z.tree
  | merge (next : Nat) (q : List QNode) (x y : QNode) (tree : CodeTree) :
    IsMin x q → IsMin y (q.erase x) →
    BuildsTree (next + 1) (⟨x.freq + y.freq, next, .node x.tree y.tree⟩ :: (q.erase x).erase y) tree →
    BuildsTree next q tree

/-- The leaves of `Build-tree`: leaf `j` has the `j`-th symbol and frequency and sequence number `j`. -/
def leafNodes (pairs : List (Nat × Nat)) : List QNode := pairs.zipIdx.map fun p => ⟨p.1.2, p.2, .leaf p.1.1⟩

/-- The subtree at the end of a path of branches. -/
def CodeTree.subtree : CodeTree → List Bool → Option CodeTree
  | tree, [] => some tree
  | .leaf _, _ :: _ => none
  | .node x y, b :: rest => if b then y.subtree rest else x.subtree rest

/-- The symbols on the leaves of a tree. -/
def CodeTree.leafSymbols : CodeTree → List Nat
  | .leaf sym => [sym]
  | .node x y => x.leafSymbols ++ y.leafSymbols

/-- The pairs that `PC_BUILD` builds from (41 R163). -/
def freqPairs (s : State) (t : TableId) : List (Nat × Nat) :=
  (List.range t.symbols).map fun sym => (sym, (s.freqCell t sym).toNat)

/-! ### Sequences of commands -/

/-- Execute commands in order, each of which must end `OK`: their response data and the state they leave. -/
def runAll : List Instr → State → Option (List Word × State)
  | [], s => some ([], s)
  | i :: rest, s =>
    match exec i s with
    | .next t =>
      match t.rsp with
      | some r => if statusField r = 0 then (runAll rest t).map fun d => (dataField r :: d.1, d.2) else none
      | none => none
    | .fault _ => none
    | .refused _ => none

/-- An element of a stream written by hand: raw bits, a coded symbol, or a flush. -/
inductive StreamItem where
  | bits (k : BitVec 16) (v : Word)
  | symbol (t : BitVec 4) (sym : BitVec 16)
  | flush
deriving DecidableEq, Repr

/-- The command that writes an element on port `c`. -/
def StreamItem.writeOn (c : PortNo) : StreamItem → Instr
  | .bits k v => .bwWrite c k v
  | .symbol t sym => .pcEncode c t sym
  | .flush => .bwFlush c

/-- The command that reads an element back on port `c`: a read of the same width, a decode under the same table, an
align for a flush (40 R143). -/
def StreamItem.readOn (c : PortNo) : StreamItem → Instr
  | .bits k _ => .brRead c k
  | .symbol t _ => .pcDecode c t
  | .flush => .brAlign c

/-- What the reader gets for an element. -/
def StreamItem.value : StreamItem → Word
  | .bits k v => BitVec.ofNat 32 (v.toNat % 2 ^ k.toNat)
  | .symbol _ sym => sym.setWidth 32
  | .flush => 0

/-- The element can be written in state `s`: a width of 0 to 32 (40 R132), a symbol of the alphabet of a table that is
ready (41 R165). -/
def StreamItem.Legal (s : State) : StreamItem → Prop
  | .bits k _ => k.toNat ≤ 32
  | .symbol t sym => ∃ tab, tableNumber tab = t.toNat ∧ sym.toNat < tab.symbols ∧ s.TableReady tab
  | .flush => True

/-- The width of raw bits; the other elements are counted as 0. -/
def StreamItem.width : StreamItem → Nat
  | .bits k _ => k.toNat
  | .symbol _ _ => 0
  | .flush => 0

/-- The element is raw bits. -/
def StreamItem.isBits : StreamItem → Bool
  | .bits _ _ => true
  | .symbol _ _ => false
  | .flush => false

/-! ### The checks at the head of a command -/

/-- The first check of a command that fails (60 R273 (3) to (6)), if one does. -/
def firstOf : List (Bool × Status) → Option Status
  | [] => none
  | (ok, e) :: rest => if ok then firstOf rest else some e

/-- Port or channel `c` exists. -/
def portExists (s : State) (c : PortNo) : Bool := decide (c.toNat < s.cfg.nCh)

/-- Table number `t` is 0 or 1. -/
def tableExists (t : BitVec 4) : Bool := decide (t.toNat ≤ 1)

/-- Symbol `sym` is in the alphabet of table number `t`: 514 or 1026 symbols (00 R8). -/
def symbolExists (t : BitVec 4) (sym : BitVec 16) : Bool := decide (sym.toNat < if t = 0 then 514 else 1026)

/-- Table number `t` is valid. -/
def tableValid (s : State) (t : BitVec 4) : Bool := if t = 0 then s.tab0.valid else s.tab1.valid

/-- Buffer `b` exists. -/
def bufferExists (s : State) (b : BitVec 8) : Bool := decide (b.toNat < 3 + 3 * s.cfg.nCh)

/-- The dimensions of a codec command are legal (42 R189, 60 R277). -/
def codecDims (s : State) : Bool :=
  decide (1 ≤ s.opW.toNat ∧ 1 ≤ s.opH.toNat ∧ s.opW.toNat * s.opH.toNat ≤ s.cfg.maxPix)

/-- The dimensions of the sequencer are legal (44 R222, 60 R277). -/
def tripletDims (s : State) : Bool :=
  decide (2 ≤ s.gridW.toNat ∧ 2 ≤ s.gridH.toNat ∧ s.gridW.toNat * s.gridH.toNat ≤ s.cfg.maxPix)

/-- Channel `c` is in `INTRA` or `INTER`. -/
def isStreaming (s : State) (c : PortNo) : Bool := (s.port c).chst == .intra || (s.port c).chst == .inter

/-- The table that a streaming channel uses next is valid (60 R276). -/
def streamTable (s : State) (c : PortNo) : Bool := if (s.port c).chst = .intra then s.tab0.valid else s.tab1.valid

/-- Pixel `index` of buffer `b` exists. -/
def pixelExists (s : State) (b : BitVec 8) (index : Word) : Bool :=
  bufferExists s b && decide (index.toNat < s.cfg.maxPix)

/-- The first failing check of each command, in the order of 60 R273. -/
def firstFailure (s : State) : Instr → Option Status
  | .nop | .reset => none
  | .bwWrite c k _ | .brRead c k => firstOf [(portExists s c, .badArg), (decide (k.toNat ≤ 32), .badArg)]
  | .bwFlush c | .brReadbit c | .brAlign c | .fsClose c => firstOf [(portExists s c, .badArg)]
  | .fqWr t sym _ => firstOf [(tableExists t, .badArg), (symbolExists t sym, .badArg)]
  | .pcBuild t => firstOf [(tableExists t, .badArg)]
  | .pcEncode c t sym =>
    firstOf [(portExists s c, .badArg), (tableExists t, .badArg), (symbolExists t sym, .badArg),
      (tableValid s t, .noTable)]
  | .pcDecode c t => firstOf [(portExists s c, .badArg), (tableExists t, .badArg), (tableValid s t, .noTable)]
  | .pcQbits t sym | .pcQlen t sym =>
    firstOf [(tableExists t, .badArg), (symbolExists t sym, .badArg), (tableValid s t, .noTable)]
  | .icCompress c b | .icDecompress c b =>
    firstOf [(portExists s c, .badArg), (bufferExists s b, .badArg), (s.tab0.valid, .noTable), (codecDims s, .badDim)]
  | .xcCompress c b r | .xcDecompress c b r =>
    firstOf [(portExists s c, .badArg), (bufferExists s b, .badArg), (bufferExists s r, .badArg),
      (s.tab1.valid, .noTable), (codecDims s, .badDim)]
  | .fsOpen c _ => firstOf [(portExists s c, .badArg), ((s.port c).chst == .closed, .badState)]
  | .fsAck c _ => firstOf [(portExists s c, .badArg), ((s.port c).chst == .start, .badState)]
  | .fsMsg c _ =>
    firstOf [(portExists s c, .badArg), ((s.port c).role == .encoder && isStreaming s c, .badState)]
  | .fsSend c =>
    firstOf [(portExists s c, .badArg), ((s.port c).role == .encoder && (s.port c).chst != .closed, .badState),
      ((s.port c).chst == .start || streamTable s c, .noTable), ((s.port c).chst == .start || tripletDims s, .badDim)]
  | .fsRecv c =>
    firstOf [(portExists s c, .badArg), ((s.port c).role == .decoder && isStreaming s c, .badState),
      (streamTable s c, .noTable), (tripletDims s, .badDim)]
  | .csrRd addr => firstOf [((csrValues s).any (fun row => row.1 == addr.toNat), .badArg)]
  | .csrWr addr _ => firstOf [([2, 3, 4, 5, 6, 9].contains addr.toNat, .badArg)]
  | .pxWr b index _ | .pxRd b index => firstOf [(pixelExists s b index, .badArg)]
  | .direct0 _ | .esc0 _ | .direct1 _ | .esc1 _ | .run _ => none

/-! ### Channels -/

/-- The moves of a channel that 44 R234 allows: one forward step or none, or to `CLOSED`. -/
def channelMove (a b : ChState) : Prop :=
  b = a ∨ b = .closed ∨ (a = .closed ∧ b = .start) ∨ (a = .start ∧ b = .intra) ∨ (a = .intra ∧ b = .inter)

/-- What an input of `bits` still holds after `align`, when the last bit consumed is the one before them (40 R139): the
bits up to the next word boundary are gone. -/
def afterAlign (bits : List Bool) : List Bool := bits.drop (bits.length % 32)

/-- Width of plane `k` of a triplet (44 R222). -/
def planeW (s : State) (k : Nat) : Nat := if k = 0 then s.gridW.toNat - 1 else s.gridW.toNat

/-- Height of plane `k` of a triplet (44 R222). -/
def planeH (s : State) (k : Nat) : Nat := if k = 0 then s.gridH.toNat - 1 else s.gridH.toNat

/-- The buffer of `REF[c][k]` (10 R34). -/
def refOf (c : PortNo) (k : Nat) : Nat := 3 + 3 * c.toNat + k

/-- `FS_RECV c` has ended with error `e`: `close(c)` performed (44 R225, R232), the words `left` still in `TIN[c]`, and,
pixels apart, nothing else changed. -/
def ReceiveFails (c : PortNo) (s t : State) (e : Status) (left : List Word) : Prop :=
  EndsWith 0x54 e t ∧ SameButPortPixels c s t ∧ Port.Dead { s.port c with tin := left } (t.port c)

end Sys2Proof.Machine
end

