-- ==== Sys2Proof/Certificates/Slice0/Obligations.lean ====
section
/-! DEFINITION. The statements for the provers. Each docstring names the rule of spec/ it formalises; a statement about
a choice of the model names the entry of notes/assumptions. -/

open Sys2Proof Sys2Proof.Machine

/-! ### System commands -/

/-- 45 R250. -/
def Obligations.NopDoesNothing : Prop :=
  decode 0 = some .nop ∧
  (∀ s, ∃ t, exec .nop s = .next t ∧ EndsOk s t 0 ∧ SameState s t) ∧
  ∀ (w : CmdWord) (s : State), opcodeOfWord w = 0 → w ≠ 0 →
    ∃ t, issue w s = .next t ∧ EndsWith 0 .badCmd t ∧ SameState s t

/-- 45 R252: every register of the table returns its value, every other address is rejected. -/
def Obligations.CsrReadReturnsTheRegister : Prop :=
  ∀ (s : State) (addr : BitVec 16), s.cfg.nCh ≤ 16 →
    (∀ v, (addr.toNat, v) ∈ csrValues s →
      ∃ t, exec (.csrRd addr) s = .next t ∧ EndsOk s t v ∧ SameState s t) ∧
    ((∀ v, (addr.toNat, v) ∉ csrValues s) → Rejects (.csrRd addr) s .badArg)

/-- 10 R50, R41: the fields of `CHSTAT[c]` and of `STATUS`. -/
def Obligations.StatusRegistersShowTheFlags : Prop :=
  (∀ (s : State) (c : PortNo), c.toNat < s.cfg.nCh → (s.port c).Inv →
    ∃ t v, exec (.csrRd (BitVec.ofNat 16 (0x10 + c.toNat))) s = .next t ∧ EndsOk s t v ∧ SameState s t ∧
      v.extractLsb' 0 2 = (match (s.port c).chst with | .closed => 0 | .start => 1 | .intra => 2 | .inter => 3) ∧
      v.getLsbD 2 = decide ((s.port c).role = .decoder) ∧ v.getLsbD 3 = (s.port c).swap ∧
      v.getLsbD 4 = (s.port c).toutErr ∧ v.getLsbD 5 = (s.port c).tinEos ∧ v.extractLsb' 6 2 = 0 ∧
      (v.extractLsb' 8 6).toNat = (s.port c).bwN ∧ v.extractLsb' 14 2 = 0 ∧
      (v.extractLsb' 16 6).toNat = (s.port c).brN ∧ v.extractLsb' 22 10 = 0 ∧ (IsReset s → v = 0)) ∧
  ∀ s : State, ∃ t v, exec (.csrRd 1) s = .next t ∧ EndsOk s t v ∧ SameState s t ∧
    v.getLsbD 0 = s.tab0.valid ∧ v.getLsbD 1 = s.tab1.valid ∧ v.extractLsb' 2 30 = 0 ∧
    (IsReset s → v.getLsbD 0 = s.cfg.init0.isSome ∧ v.getLsbD 1 = s.cfg.init1.isSome)

/-- 45 R253. -/
def Obligations.CsrWriteStoresOrIsRejected : Prop :=
  ∀ (s : State) (addr : BitVec 16) (value : Word),
    (addr = 2 → ∃ t, exec (.csrWr addr value) s = .next t ∧ t.Answers .ok 0 ∧ t.Idle ∧ t.lastErr = 0 ∧ SameState s t) ∧
    (addr = 3 → ∃ t, exec (.csrWr addr value) s = .next t ∧ EndsOk s t 0 ∧ SameState { s with gridW := value } t) ∧
    (addr = 4 → ∃ t, exec (.csrWr addr value) s = .next t ∧ EndsOk s t 0 ∧ SameState { s with gridH := value } t) ∧
    (addr = 5 → ∃ t, exec (.csrWr addr value) s = .next t ∧ EndsOk s t 0 ∧ SameState { s with opW := value } t) ∧
    (addr = 6 → ∃ t, exec (.csrWr addr value) s = .next t ∧ EndsOk s t 0 ∧ SameState { s with opH := value } t) ∧
    (addr = 9 → ∃ t, exec (.csrWr addr value) s = .next t ∧ EndsOk s t 0 ∧ SameState { s with magic := value } t) ∧
    (addr.toNat ∉ [2, 3, 4, 5, 6, 9] → Rejects (.csrWr addr value) s .badArg)

/-- 45 R255, R256. -/
def Obligations.PixelCommandsReachOneCell : Prop :=
  ∀ (s : State) (b : BitVec 8) (index : Word) (pix : Pixel),
    (b.toNat < 3 + 3 * s.cfg.nCh ∧ index.toNat < s.cfg.maxPix →
      (∃ t, exec (.pxWr b index pix) s = .next t ∧ EndsOk s t 0 ∧ SameButPixels s t ∧
        ∀ b' x, t.pixel b' x = if b' = b.toNat ∧ x = index.toNat then pix else s.pixel b' x) ∧
      ∃ t v, exec (.pxRd b index) s = .next t ∧ EndsOk s t v ∧ SameState s t ∧
        v.toNat = (s.pixel b.toNat index.toNat).toNat) ∧
    (3 + 3 * s.cfg.nCh ≤ b.toNat ∨ s.cfg.maxPix ≤ index.toNat →
      Rejects (.pxWr b index pix) s .badArg ∧ Rejects (.pxRd b index) s .badArg)

/-- 45 R257, 10 R55, with the power-on state (70 R310). -/
def Obligations.ResetRestoresEveryValue : Prop :=
  (∀ s, ∃ t, exec .reset s = .next t ∧ t.Answers .ok 0 ∧ t.Idle ∧ IsReset t ∧ t.cfg = s.cfg ∧ t.host = s.host) ∧
  (∀ cfg epoch, IsReset (State.resetOf cfg epoch) ∧ (State.resetOf cfg epoch).cfg = cfg ∧
    (State.resetOf cfg epoch).Idle) ∧
  ∀ (w : CmdWord) (s : State), opcodeOfWord w = 0x7F → w ≠ 0x7F00000000000000 →
    ∃ t, issue w s = .next t ∧ EndsWith 0x7F .badCmd t ∧ SameState s t

/-! ### Bit streams -/

/-- 40 R131, R132. The lengths fix `BW[c].n`: at most one word is emitted, and only when the bits do not fit. -/
def Obligations.WriteAppendsTheLowBits : Prop :=
  ∀ (s : State) (c : PortNo) (k : BitVec 16) (v : Word),
    (∀ e, firstFailure s (.bwWrite c k v) = some e → Rejects (.bwWrite c k v) s e) ∧
    (firstFailure s (.bwWrite c k v) = none → (s.port c).Inv →
      ((s.port c).toutErr = false ∨ (s.port c).bwN + k.toNat ≤ 32 →
        ∃ t, exec (.bwWrite c k v) s = .next t ∧ EndsOk s t 0 ∧ SameButPort c s t ∧
          (s.port c).Appends (t.port c) (bitsOf v.toNat k.toNat) ∧ (t.port c).Inv ∧
          (t.port c).tout.length = (s.port c).tout.length + if 32 < (s.port c).bwN + k.toNat then 1 else 0) ∧
      ((s.port c).toutErr = true ∧ 32 < (s.port c).bwN + k.toNat → FailsOutput (.bwWrite c k v) c s))

/-- 40 R134, R135. -/
def Obligations.FlushPadsToAWord : Prop :=
  ∀ (s : State) (c : PortNo),
    (∀ e, firstFailure s (.bwFlush c) = some e → Rejects (.bwFlush c) s e) ∧
    (firstFailure s (.bwFlush c) = none → (s.port c).Inv →
      ((s.port c).toutErr = false ∨ (s.port c).bwN = 0 →
        ∃ t, exec (.bwFlush c) s = .next t ∧ EndsOk s t 0 ∧ SameButPort c s t ∧
          t.port c = { s.port c with bwAcc := 0, bwN := 0, tout := (t.port c).tout } ∧
          (t.port c).outBits = padToWord (s.port c).outBits ∧ (s.port c).tout <+: (t.port c).tout) ∧
      ((s.port c).toutErr = true ∧ (s.port c).bwN ≠ 0 → FailsOutput (.bwFlush c) c s))

/-- 40 R136, R138: the next `k` bits, right-justified; words are fetched exactly when needed. -/
def Obligations.ReadReturnsTheNextBits : Prop :=
  ∀ (s : State) (c : PortNo) (k : BitVec 16),
    (∀ e, firstFailure s (.brRead c k) = some e → Rejects (.brRead c k) s e) ∧
    (firstFailure s (.brRead c k) = none → (s.port c).Inv →
      (k.toNat ≤ (s.port c).inBits.length →
        ∃ t v, exec (.brRead c k) s = .next t ∧ EndsOk s t v ∧ SameButPort c s t ∧
          v.toNat = natOfBits ((s.port c).inBits.take k.toNat) ∧ (s.port c).Consumes (t.port c) k.toNat ∧
          (t.port c).Inv) ∧
      ((s.port c).inBits.length < k.toNat → LacksInput (.brRead c k) c s))

/-- 40 R141: a bit by itself, and `BR_READBIT c` against `BR_READ c, 1` in every state. -/
def Obligations.ReadBitIsAReadOfOneBit : Prop :=
  (∀ (s : State) (c : PortNo) (b : Bool) (rest : List Bool), firstFailure s (.brReadbit c) = none → (s.port c).Inv →
    (s.port c).inBits = b :: rest →
      ∃ t, exec (.brReadbit c) s = .next t ∧ EndsOk s t (if b then 1 else 0) ∧ SameButPort c s t ∧
        (s.port c).Consumes (t.port c) 1) ∧
  ∀ (s : State) (c : PortNo), ∃ t u, exec (.brReadbit c) s = .next t ∧ exec (.brRead c 1) s = .next u ∧
    t = { u with lastErr := t.lastErr, holding := t.holding } ∧ t.rsp = u.rsp ∧ (t.holding = none ↔ u.holding = none)

/-- 40 R139, R140. -/
def Obligations.AlignDropsTheHeldBits : Prop :=
  ∀ (s : State) (c : PortNo),
    (∀ e, firstFailure s (.brAlign c) = some e → Rejects (.brAlign c) s e) ∧
    (firstFailure s (.brAlign c) = none →
      ∃ t, exec (.brAlign c) s = .next t ∧ EndsOk s t 0 ∧ SameButPort c s t ∧
        t.port c = { s.port c with brAcc := 0, brN := 0 })

/-- 40 R142 and R143, 41 R170: what is written on one port, in any mixture of raw bits, coded symbols and flushes, is
read back on another. -/
def Obligations.WhatIsWrittenIsReadBack : Prop :=
  ∀ (s : State) (c : PortNo) (items : List StreamItem), c.toNat < s.cfg.nCh → (s.port c).Inv → (s.port c).bwN = 0 →
    (s.port c).toutErr = false → (∀ item ∈ items, item.Legal s) →
    ∃ (t : State) (done : List Word) (words : List Word),
      runAll ((items ++ [StreamItem.flush]).map (StreamItem.writeOn c)) s = some (done, t) ∧
      (t.port c).tout = (s.port c).tout ++ words ∧
      ((∀ item ∈ items, item.isBits = true) → words.length = ((items.map StreamItem.width).sum + 31) / 32) ∧
      ∀ (s' : State) (c' : PortNo) (rest : List Word), c'.toNat < s'.cfg.nCh → (s'.port c').Inv →
        (s'.port c').brN = 0 → (s'.port c').tin = words ++ rest → (∀ tab, s'.table tab = s.table tab) →
        ∃ u, runAll (items.map (StreamItem.readOn c')) s' = some (items.map StreamItem.value, u)

/-- 20 R61: bytes of a word most significant first, bit `7 - (q mod 8)` of byte `q div 8`; words of `TIN[c]` are
assembled the same way. -/
def Obligations.TransportBytesAreMostSignificantFirst : Prop :=
  (∀ (s : State) (c : PortNo) (j : Nat) (w : Word), (s.port c).tout[j]? = some w →
    (outputBytes s c)[4 * j]? = some (w.extractLsb' 24 8) ∧ (outputBytes s c)[4 * j + 1]? = some (w.extractLsb' 16 8) ∧
    (outputBytes s c)[4 * j + 2]? = some (w.extractLsb' 8 8) ∧ (outputBytes s c)[4 * j + 3]? = some (w.extractLsb' 0 8)) ∧
  (∀ (s : State) (c : PortNo) (q : Nat), q < 32 * (s.port c).tout.length →
    ((s.port c).tout.flatMap wordBits)[q]? = (outputBytes s c)[q / 8]?.map fun byte => byte.getLsbD (7 - q % 8)) ∧
  ∀ w : Word, wordOfBytes (w.extractLsb' 24 8) (w.extractLsb' 16 8) (w.extractLsb' 8 8) (w.extractLsb' 0 8) = w

/-! ### Prefix codes -/

/-- 41 R162. -/
def Obligations.FrequencyWriteSetsOneCell : Prop :=
  ∀ (s : State) (t : BitVec 4) (sym : BitVec 16) (f : Word),
    (∀ e, firstFailure s (.fqWr t sym f) = some e → Rejects (.fqWr t sym f) s e) ∧
    ∀ tab, tableNumber tab = t.toNat → sym.toNat < tab.symbols →
      ∃ u, exec (.fqWr t sym f) s = .next u ∧ EndsOk s u 0 ∧ SameButFreq s u ∧
        ∀ tab' x, u.freqCell tab' x = if tab' = tab ∧ x = sym.toNat then f else s.freqCell tab' x

/-- 41 R154, R155: the tree is the one that the extraction rule makes, and there is no other. -/
def Obligations.TreeFollowsTheExtractionOrder : Prop :=
  ∀ pairs : List (Nat × Nat), pairs ≠ [] →
    ∃ tree, buildTree pairs = some tree ∧ tree.size = 2 * pairs.length - 1 ∧
      tree.leafSymbols.Perm (pairs.map Prod.fst) ∧
      ∀ tree', BuildsTree pairs.length (leafNodes pairs) tree' ↔ tree' = tree

/-- 41 R157, R160: the code of a leaf is its path, and the nodes stand root-first, child 0 before child 1. -/
def Obligations.ExportedTablesFollowTheTree : Prop :=
  ∀ (n : Nat) (tree : CodeTree), tree.leafSymbols.Perm (List.range n) → tree.depth ≤ 32 →
    (tree.toTable n).tree.length = tree.size ∧
    ∀ path sub, tree.subtree path = some sub →
      ∃ i, follow (tree.toTable n).tree 0 path = some i ∧
        match sub with
        | .leaf sym => (tree.toTable n).tree[i]? = some (.leaf sym) ∧
            (tree.toTable n).enc[sym]? = some ⟨BitVec.ofNat 32 (natOfBits path), path.length⟩
        | .node x _ => (tree.toTable n).tree[i]? = some (.node (i + 1) (i + 1 + x.size))

/-- 41 R161 but for minimality: a built table is well-formed, no code is a prefix of another, and the bits of a leaf walk
back to its symbol. -/
def Obligations.BuiltTablesAreWellFormed : Prop :=
  (∀ (freqs : List Nat) (tab : CodeTable), build freqs = some tab → TableWF tab freqs.length) ∧
  ∀ (tab : CodeTable) (n : Nat), TableWF tab n →
    (∀ a b, a < n → b < n → a ≠ b → ¬ symbolCode tab a <+: symbolCode tab b) ∧
    ∀ sym rest, sym < n → walkBits tab.tree 0 (symbolCode tab sym ++ rest) = some (sym, rest)

/-- 41 R159, 60 R278: building fails exactly when a path is longer than 32; 33 symbols never fail, 34 can. -/
def Obligations.OnlyLongCodesFailToBuild : Prop :=
  (∀ (freqs : List Nat) (tree : CodeTree), buildTree ((List.range freqs.length).zip freqs) = some tree →
    (build freqs = none ↔ ∃ path sym, tree.subtree path = some (.leaf sym) ∧ 32 < path.length)) ∧
  (∀ freqs : List Nat, freqs ≠ [] → freqs.length ≤ 33 → build freqs ≠ none) ∧
  build ((List.range 34).map fun j => Nat.fib (j + 1)) = none ∧
  (build ((List.range 33).map fun j => Nat.fib (j + 1))).map (fun tab => longestCode tab.enc) = some 32 ∧
  ∀ (s : State) (t : BitVec 4) (tab : TableId), tableNumber tab = t.toNat →
    build ((freqPairs s tab).map Prod.snd) = none → Rejects (.pcBuild t) s .codeTooLong

/-- 41 R163. -/
def Obligations.BuildLoadsTheTable : Prop :=
  ∀ (s : State) (t : BitVec 4),
    (∀ e, firstFailure s (.pcBuild t) = some e → Rejects (.pcBuild t) s e) ∧
    ∀ (tab : TableId) (tree : CodeTree), tableNumber tab = t.toNat →
      BuildsTree tab.symbols (leafNodes (freqPairs s tab)) tree →
      ((∀ path sym, tree.subtree path = some (.leaf sym) → path.length ≤ 32) →
        ∃ u data, exec (.pcBuild t) s = .next u ∧ EndsOk s u data ∧ SameButTable tab s u ∧
          u.table tab = ⟨(tree.toTable tab.symbols).enc, (tree.toTable tab.symbols).tree, true⟩ ∧
          (∃ path sym, tree.subtree path = some (.leaf sym) ∧ path.length = data.toNat) ∧
          ∀ path sym, tree.subtree path = some (.leaf sym) → path.length ≤ data.toNat) ∧
      ((∃ path sym, tree.subtree path = some (.leaf sym) ∧ 32 < path.length) → Rejects (.pcBuild t) s .codeTooLong)

/-- 41 R165. -/
def Obligations.EncodeAppendsTheCode : Prop :=
  ∀ (s : State) (c : PortNo) (t : BitVec 4) (sym : BitVec 16),
    (∀ e, firstFailure s (.pcEncode c t sym) = some e → Rejects (.pcEncode c t sym) s e) ∧
    ∀ tab code, firstFailure s (.pcEncode c t sym) = none → tableNumber tab = t.toNat → s.TableReady tab →
      (s.port c).Inv → code = symbolCode (s.table tab).contents sym.toNat →
      ((s.port c).toutErr = false ∨ (s.port c).bwN + code.length ≤ 32 →
        ∃ u, exec (.pcEncode c t sym) s = .next u ∧ EndsOk s u 0 ∧ SameButPort c s u ∧
          (s.port c).Appends (u.port c) code ∧ (u.port c).Inv) ∧
      ((s.port c).toutErr = true ∧ 32 < (s.port c).bwN + code.length → FailsOutput (.pcEncode c t sym) c s)

/-- 41 R166, R167: the symbol whose code comes next; with no whole code at hand, the end of the input or a wait. That the
whole state while it waits is the one at issue, though bits of a code were read before, is the model's choice (log 2). -/
def Obligations.DecodeReturnsTheNextSymbol : Prop :=
  ∀ (s : State) (c : PortNo) (t : BitVec 4),
    (∀ e, firstFailure s (.pcDecode c t) = some e → Rejects (.pcDecode c t) s e) ∧
    ∀ tab, firstFailure s (.pcDecode c t) = none → tableNumber tab = t.toNat → s.TableReady tab → (s.port c).Inv →
      (∀ sym rest, sym < tab.symbols → (s.port c).inBits = symbolCode (s.table tab).contents sym ++ rest →
        ∃ u, exec (.pcDecode c t) s = .next u ∧ EndsOk s u (BitVec.ofNat 32 sym) ∧ SameButPort c s u ∧
          (s.port c).Consumes (u.port c) (symbolCode (s.table tab).contents sym).length ∧ (u.port c).Inv) ∧
      ((∀ sym, sym < tab.symbols → ¬ symbolCode (s.table tab).contents sym <+: (s.port c).inBits) →
        LacksInput (.pcDecode c t) c s)

/-- 41 R168, R169. -/
def Obligations.QueriesReturnTheEntry : Prop :=
  ∀ (s : State) (t : BitVec 4) (sym : BitVec 16),
    (∀ e, firstFailure s (.pcQbits t sym) = some e → Rejects (.pcQbits t sym) s e ∧ Rejects (.pcQlen t sym) s e) ∧
    ∀ tab entry, firstFailure s (.pcQbits t sym) = none → tableNumber tab = t.toNat →
      (s.table tab).enc[sym.toNat]? = some entry → entry.length ≤ 32 →
      (∃ u, exec (.pcQbits t sym) s = .next u ∧ EndsOk s u entry.bits ∧ SameState s u) ∧
      ∃ u v, exec (.pcQlen t sym) s = .next u ∧ EndsOk s u v ∧ SameState s u ∧ v.toNat = entry.length

/-! ### The intra codec -/

/-- 42 R181. -/
def Obligations.ScanIsSerpentine : Prop :=
  ∀ w h : Nat,
    (scan w h).Nodup ∧ (∀ x y, (x, y) ∈ scan w h ↔ x < w ∧ y < h) ∧
    (∀ y j, y < h → j < w → (scan w h)[y * w + j]? = some (if y % 2 = 0 then j else w - 1 - j, y)) ∧
    ∀ y, 1 ≤ y → y < h → 1 ≤ w →
      (scan w h)[y * w]? = some (if y % 2 = 0 then 0 else w - 1, y) ∧
      (scan w h)[y * w - 1]? = some (if y % 2 = 0 then 0 else w - 1, y - 1)

/-- 42 R183 to R186: the three cases of the prediction, its exact integer choice, and that it reads only pixels visited
before. -/
def Obligations.PredictionFollowsTheScan : Prop :=
  (∀ (g : Nat → Pixel) (w x : Nat), 1 ≤ x → predict g w x 0 = g (x - 1)) ∧
  (∀ (g : Nat → Pixel) (w y first : Nat), 1 ≤ y → first = (if y % 2 = 0 then 0 else w - 1) →
    predict g w first y = g ((y - 1) * w + first)) ∧
  (∀ (g : Nat → Pixel) (w x y before : Nat) (a b c : Pixel) (p : Int), 1 ≤ y → x < w →
    x ≠ (if y % 2 = 0 then 0 else w - 1) → before = (if y % 2 = 0 then x - 1 else x + 1) →
    a = g (y * w + before) → b = g ((y - 1) * w + x) → c = g ((y - 1) * w + before) →
    p = (a.toNat : Int) + b.toNat - c.toNat →
    (|p - a.toNat| ≤ |p - b.toNat| ∧ |p - a.toNat| ≤ |p - c.toNat| → predict g w x y = a) ∧
    (|p - b.toNat| < |p - a.toNat| ∧ |p - b.toNat| ≤ |p - c.toNat| → predict g w x y = b) ∧
    (|p - c.toNat| < |p - a.toNat| ∧ |p - c.toNat| < |p - b.toNat| → predict g w x y = c)) ∧
  ∀ (f g : Nat → Pixel) (w h q : Nat) (xy : Nat × Nat), 0 < q → (scan w h)[q]? = some xy →
    (∀ (r : Nat) (uv : Nat × Nat), r < q → (scan w h)[r]? = some uv → f (uv.2 * w + uv.1) = g (uv.2 * w + uv.1)) →
    predict f w xy.1 xy.2 = predict g w xy.1 xy.2

/-- 42 R190 (with R182, R187 in `intraFrame`). -/
def Obligations.IntraCompressEmitsTheFrame : Prop :=
  ∀ (s : State) (c : PortNo) (src : BitVec 8),
    (∀ e, firstFailure s (.icCompress c src) = some e → Rejects (.icCompress c src) s e) ∧
    (firstFailure s (.icCompress c src) = none → s.TableReady .intra → (s.port c).Inv →
      ((s.port c).toutErr = false →
        ∃ t data, exec (.icCompress c src) s = .next t ∧ EndsOk s t data ∧ SameButPort c s t ∧
          t.port c = { s.port c with bwAcc := 0, bwN := 0, tout := (t.port c).tout } ∧
          (s.port c).tout <+: (t.port c).tout ∧
          Counts data ((t.port c).tout.length - (s.port c).tout.length) ∧
          (t.port c).outBits = padToWord ((s.port c).outBits ++
            intraFrame (s.table .intra).contents (s.pixel src.toNat) s.opW.toNat s.opH.toNat)) ∧
      ((s.port c).toutErr = true → FailsOutput (.icCompress c src) c s))

/-- 42 R191, for every sequence of items that a stream can hold, an encoder's or not (30 R107). -/
def Obligations.IntraDecompressRebuildsTheGrid : Prop :=
  ∀ (s : State) (c : PortNo) (dst : BitVec 8),
    (∀ e, firstFailure s (.icDecompress c dst) = some e → Rejects (.icDecompress c dst) s e) ∧
    ∀ (raw : Pixel) (items : List Instr) (bits rest : List Bool),
      firstFailure s (.icDecompress c dst) = none → s.TableReady .intra → (s.port c).Inv →
      (∀ item ∈ items, isIntraItem item = true) → items.length + 1 = s.opW.toNat * s.opH.toNat →
      bits = intraBits (s.table .intra).contents raw items → (s.port c).inBits = bits ++ rest →
      ∃ t data, exec (.icDecompress c dst) s = .next t ∧ EndsOk s t data ∧ SameButPortPixels c s t ∧
        t.port c = { s.port c with
          brAcc := 0, brN := 0, tin := (s.port c).tin.drop (wordsToRead (s.port c).brN bits.length) } ∧
        Counts data (wordsToRead (s.port c).brN bits.length) ∧
        IntraRebuilds (t.pixel dst.toNat) s.opW.toNat s.opH.toNat raw items ∧
        ∀ b x, ¬ (b = dst.toNat ∧ x < s.opW.toNat * s.opH.toNat) → t.pixel b x = s.pixel b x

/-- 42 R192. -/
def Obligations.IntraRoundTrip : Prop :=
  ∀ (s t s' : State) (c c' : PortNo) (src dst : BitVec 8) (data : Word) (words rest : List Word),
    (s.port c).Inv → (s.port c).bwN = 0 → s.TableReady .intra →
    exec (.icCompress c src) s = .next t → EndsOk s t data → (t.port c).tout = (s.port c).tout ++ words →
    (s'.port c').Inv → (s'.port c').brN = 0 → (s'.port c').tin = words ++ rest →
    s'.opW = s.opW → s'.opH = s.opH → s'.tab0 = s.tab0 → firstFailure s' (.icDecompress c' dst) = none →
    ∃ t' data', exec (.icDecompress c' dst) s' = .next t' ∧ EndsOk s' t' data' ∧ Counts data' words.length ∧
      (t'.port c').tin = rest ∧
      ∀ i, i < s.opW.toNat * s.opH.toNat → t'.pixel dst.toNat i = s.pixel src.toNat i

/-! ### The inter codec -/

/-- 43 R204 (with R201, R202, R203 in `interFrame`). -/
def Obligations.InterCompressEmitsTheFrame : Prop :=
  ∀ (s : State) (c : PortNo) (src ref : BitVec 8),
    (∀ e, firstFailure s (.xcCompress c src ref) = some e → Rejects (.xcCompress c src ref) s e) ∧
    (firstFailure s (.xcCompress c src ref) = none → s.TableReady .inter → (s.port c).Inv →
      ((s.port c).toutErr = false →
        ∃ t data, exec (.xcCompress c src ref) s = .next t ∧ EndsOk s t data ∧ SameButPort c s t ∧
          t.port c = { s.port c with bwAcc := 0, bwN := 0, tout := (t.port c).tout } ∧
          (s.port c).tout <+: (t.port c).tout ∧
          Counts data ((t.port c).tout.length - (s.port c).tout.length) ∧
          (t.port c).outBits = padToWord ((s.port c).outBits ++
            interFrame (s.table .inter).contents (s.pixel src.toNat) (s.pixel ref.toNat)
              (s.opW.toNat * s.opH.toNat))) ∧
      ((s.port c).toutErr = true → FailsOutput (.xcCompress c src ref) c s))

/-- 43 R205, R206, R207, for every sequence of items that a stream can hold, with `dst = ref` or not (20 R79). -/
def Obligations.InterDecompressRebuildsTheGrid : Prop :=
  ∀ (s : State) (c : PortNo) (dst ref : BitVec 8),
    (∀ e, firstFailure s (.xcDecompress c dst ref) = some e → Rejects (.xcDecompress c dst ref) s e) ∧
    ∀ (items : List Instr) (bits rest : List Bool) (out : List Pixel),
      firstFailure s (.xcDecompress c dst ref) = none → s.TableReady .inter → (s.port c).Inv →
      (∀ item ∈ items, isInterItem item = true) → out = interRebuilt (s.pixel ref.toNat) 0 items →
      (out.length = s.opW.toNat * s.opH.toNat → bits = itemsBits (s.table .inter).contents items →
        (s.port c).inBits = bits ++ rest →
        ∃ t data, exec (.xcDecompress c dst ref) s = .next t ∧ EndsOk s t data ∧ SameButPortPixels c s t ∧
          t.port c = { s.port c with
            brAcc := 0, brN := 0, tin := (s.port c).tin.drop (wordsToRead (s.port c).brN bits.length) } ∧
          Counts data (wordsToRead (s.port c).brN bits.length) ∧
          ∀ b x, t.pixel b x = if b = dst.toNat then out[x]?.getD (s.pixel b x) else s.pixel b x) ∧
      ∀ len : BitVec 10, 1 ≤ len.toNat → len.toNat ≤ 512 → out.length < s.opW.toNat * s.opH.toNat →
        s.opW.toNat * s.opH.toNat < out.length + len.toNat →
        bits = itemsBits (s.table .inter).contents (items ++ [.run len]) → (s.port c).inBits = bits ++ rest →
        ∃ t, exec (.xcDecompress c dst ref) s = .next t ∧ EndsWith 0x41 .runOverrun t ∧ SameButPortPixels c s t ∧
          (s.port c).Consumes (t.port c) bits.length ∧
          ∀ b x, t.pixel b x = if b = dst.toNat then out[x]?.getD (s.pixel b x) else s.pixel b x

/-- 43 R208. -/
def Obligations.InterRoundTrip : Prop :=
  ∀ (s t s' : State) (c c' : PortNo) (src ref dst ref' : BitVec 8) (data : Word) (words rest : List Word),
    (s.port c).Inv → (s.port c).bwN = 0 → s.TableReady .inter →
    exec (.xcCompress c src ref) s = .next t → EndsOk s t data → (t.port c).tout = (s.port c).tout ++ words →
    (s'.port c').Inv → (s'.port c').brN = 0 → (s'.port c').tin = words ++ rest →
    s'.opW.toNat * s'.opH.toNat = s.opW.toNat * s.opH.toNat → s'.tab1 = s.tab1 →
    (∀ i, i < s.opW.toNat * s.opH.toNat → s'.pixel ref'.toNat i = s.pixel ref.toNat i) →
    firstFailure s' (.xcDecompress c' dst ref') = none →
    ∃ t' data', exec (.xcDecompress c' dst ref') s' = .next t' ∧ EndsOk s' t' data' ∧ Counts data' words.length ∧
      (t'.port c').tin = rest ∧
      ∀ i, i < s.opW.toNat * s.opH.toNat → t'.pixel dst.toNat i = s.pixel src.toNat i

/-- 43 R209, R202: the shape of the items of a compressed inter frame, and the symbols of a stretch of zeros. -/
def Obligations.InterItemsHaveTheCanonicalShape : Prop :=
  (∀ (new ref : Nat → Pixel) (n : Nat) (items : List Instr), items = interItems 0 (deltas new ref n) →
    (∀ item ∈ items, isInterItem item = true ∧ item ≠ .direct1 256 ∧
      ∀ raw, item = .esc1 raw → raw.toInt < -256 ∨ 256 < raw.toInt) ∧
    (∀ (j : Nat) (a b : BitVec 10), items[j]? = some (.run a) → items[j + 1]? = some (.run b) → a.toNat = 512) ∧
    interRebuilt ref 0 items = (List.range n).map new) ∧
  ∀ z : Nat, interItems 0 (List.replicate z 0) =
    List.replicate (z / 512) (runItem 512) ++ if z % 512 = 0 then [] else [runItem (z % 512)]

/-! ### The end of the input, and the stream symbols -/

/-- 42 R191, 43 R206, 40 R145, 60 R274 (b): a decompressor whose input ends inside the frame, wherever in it, keeps the
pixels written so far and kills its port; one whose input may go on waits (the model's choice, log 2). -/
def Obligations.DecompressorsStopWhereTheInputStops : Prop :=
  (∀ (s : State) (c : PortNo) (dst ref : BitVec 8) (items : List Instr),
    firstFailure s (.xcDecompress c dst ref) = none → s.TableReady .inter → (s.port c).Inv →
    InterStops (s.table .inter).contents (s.pixel ref.toNat) (s.opW.toNat * s.opH.toNat) (s.port c).inBits items →
    ∃ t, exec (.xcDecompress c dst ref) s = .next t ∧
      if (s.port c).tinEos then
        EndsWith 0x41 .transport t ∧ SameButPortPixels c s t ∧ Port.Dead { s.port c with tin := [] } (t.port c) ∧
          ∀ b x, t.pixel b x =
            if b = dst.toNat then (interRebuilt (s.pixel ref.toNat) 0 items)[x]?.getD (s.pixel b x) else s.pixel b x
      else Waits (.xcDecompress c dst ref) s t) ∧
  ∀ (s : State) (c : PortNo) (dst : BitVec 8) (got : Option (Pixel × List Instr)),
    firstFailure s (.icDecompress c dst) = none → s.TableReady .intra → (s.port c).Inv →
    IntraStops (s.table .intra).contents (s.opW.toNat * s.opH.toNat) (s.port c).inBits got →
    ∃ t, exec (.icDecompress c dst) s = .next t ∧
      if (s.port c).tinEos then
        EndsWith 0x31 .transport t ∧ SameButPortPixels c s t ∧ Port.Dead { s.port c with tin := [] } (t.port c) ∧
          IntraStarts (s.pixel dst.toNat) (t.pixel dst.toNat) s.opW.toNat s.opH.toNat got ∧
          ∀ b x, b ≠ dst.toNat → t.pixel b x = s.pixel b x
      else Waits (.icDecompress c dst) s t

/-- Log 9 (the model's choice: a stream symbol is an instruction that acts at the cursor), with the action 42 R188 and
43 R205 give each symbol. -/
def Obligations.SymbolsActAtTheCursor : Prop :=
  (∀ (s : State) (cu : Cursor) (i : Instr), s.cursor = some cu → cu.table = .intra → 0 < cu.pos → cu.pos < cu.count →
    isIntraItem i = true →
    ∃ t, exec i s = .next t ∧ SameButPixels s t ∧ t.lastErr = s.lastErr ∧ t.rsp = s.rsp ∧ t.holding = s.holding ∧
      t.cursor = some { cu with pos := cu.pos + 1 } ∧
      ∀ b x, t.pixel b x = if b = cu.dst ∧ x = scanCell cu.width cu.pos then
        predictAt (s.pixel cu.dst) cu.width cu.pos + intraValue i else s.pixel b x) ∧
  ∀ (s : State) (cu : Cursor) (i : Instr) (out : List Pixel), s.cursor = some cu → cu.table = .inter →
    cu.pos < cu.count → isInterItem i = true → out = interPixels (s.pixel cu.ref) cu.pos i →
    cu.pos + out.length ≤ cu.count →
    ∃ t, exec i s = .next t ∧ SameButPixels s t ∧ t.lastErr = s.lastErr ∧ t.rsp = s.rsp ∧ t.holding = s.holding ∧
      t.cursor = some { cu with pos := cu.pos + out.length } ∧
      ∀ b x, t.pixel b x =
        if b = cu.dst ∧ cu.pos ≤ x then out[x - cu.pos]?.getD (s.pixel b x) else s.pixel b x

/-- Log 9 (the model's choice): where a stream symbol stops, and that a run past the end ends the command in progress
(43 R207, 44 R232). -/
def Obligations.SymbolsStopOutsideAFrame : Prop :=
  (∀ (s : State) (i : Instr) (tab : TableId) (sym : Nat), symbolOf i = some (tab, sym) →
    (∀ cu, s.cursor = some cu → cu.table ≠ tab ∨ cu.count ≤ cu.pos ∨ (tab = .intra ∧ cu.pos = 0)) →
    exec i s = .fault .noFrame) ∧
  (∀ (s : State) (i : Instr) (tab : TableId) (sym : Nat) (cu : Cursor), symbolOf i = some (tab, sym) → i.wf = false →
    s.cursor = some cu → cu.table = tab → cu.pos < cu.count → 0 < cu.pos → exec i s = .fault .noSuchSymbol) ∧
  ∀ (s : State) (len : BitVec 10) (cu : Cursor), s.cursor = some cu → cu.table = .inter → cu.pos < cu.count →
    1 ≤ len.toNat → len.toNat ≤ 512 → cu.count < cu.pos + len.toNat →
    ∃ t, exec (.run len) s = .next t ∧ EndsWith cu.op .runOverrun t ∧ SameButPort cu.port s t ∧
      if cu.op = 0x54 then (s.port cu.port).Dead (t.port cu.port) else t.port cu.port = s.port cu.port

/-- Log 9 (the model's choice): each symbol that a decompressor decodes is executed as the instruction it is. -/
def Obligations.DecompressorsExecuteTheirSymbols : Prop :=
  ∀ (s : State) (cu : Cursor) (i : Instr) (sym : Nat) (rest : List Bool), s.cursor = some cu → cu.pos < cu.count →
    (cu.table = .intra → 0 < cu.pos) → symbolOf i = some (cu.table, sym) → i.wf = true →
    (∀ len, i = .run len → cu.pos + len.toNat ≤ cu.count) → s.TableReady cu.table → (s.port cu.port).Inv →
    (s.port cu.port).inBits = itemBits (s.table cu.table).contents i ++ rest →
    ∃ q t, frameItem cu s = .done () t ∧ exec i (s.setPort cu.port q) = .next t ∧
      (s.port cu.port).Consumes q (itemBits (s.table cu.table).contents i).length

/-! ### The frame sequencer -/

/-- 44 R223. -/
def Obligations.OpenStartsAChannel : Prop :=
  ∀ (s : State) (c : PortNo) (role : BitVec 1),
    (∀ e, firstFailure s (.fsOpen c role) = some e → Rejects (.fsOpen c role) s e) ∧
    (c.toNat < s.cfg.nCh → (s.port c).chst = .closed →
      ∃ t, exec (.fsOpen c role) s = .next t ∧ EndsOk s t 0 ∧ SameButPort c s t ∧
        t.port c = { s.port c with
          chst := .start, role := if role = 0 then .encoder else .decoder, swap := false
          bwAcc := 0, bwN := 0, brAcc := 0, brN := 0, tin := [], tinEos := false, toutErr := false })

/-- 44 R224. -/
def Obligations.AcknowledgeComparesTheMagic : Prop :=
  ∀ (s : State) (c : PortNo) (v swapped : Word),
    (∀ e, firstFailure s (.fsAck c v) = some e → Rejects (.fsAck c v) s e) ∧
    (c.toNat < s.cfg.nCh → (s.port c).chst = .start →
      swapped = s.magic.extractLsb' 0 8 ++ s.magic.extractLsb' 8 8 ++ s.magic.extractLsb' 16 8 ++
        s.magic.extractLsb' 24 8 →
      (v = s.magic → ∃ t, exec (.fsAck c v) s = .next t ∧ EndsOk s t 0 ∧ SameButPort c s t ∧
        t.port c = { s.port c with swap := false, chst := .intra }) ∧
      (v ≠ s.magic ∧ v = swapped → ∃ t, exec (.fsAck c v) s = .next t ∧ EndsOk s t 0 ∧ SameButPort c s t ∧
        t.port c = { s.port c with swap := true, chst := .intra }) ∧
      (v ≠ s.magic ∧ v ≠ swapped → ∃ t, exec (.fsAck c v) s = .next t ∧ EndsWith 0x51 .protocol t ∧
        SameButPort c s t ∧ (s.port c).Dead (t.port c)))

/-- 44 R226. -/
def Obligations.MessageTokensOtherThanZeroClose : Prop :=
  ∀ (s : State) (c : PortNo) (token : BitVec 16),
    (∀ e, firstFailure s (.fsMsg c token) = some e → Rejects (.fsMsg c token) s e) ∧
    (c.toNat < s.cfg.nCh → (s.port c).role = .encoder → (s.port c).chst = .intra ∨ (s.port c).chst = .inter →
      (token = 0 → ∃ t, exec (.fsMsg c token) s = .next t ∧ EndsOk s t 0 ∧ SameState s t) ∧
      (token ≠ 0 → ∃ t, exec (.fsMsg c token) s = .next t ∧ EndsWith 0x52 .protocol t ∧ SameButPort c s t ∧
        (s.port c).Dead (t.port c)))

/-- 44 R228, with the geometry of R222. `frame k` is the frame of plane `k`: intra on the first cycle, inter later. -/
def Obligations.SendEmitsATriplet : Prop :=
  ∀ (s : State) (c : PortNo),
    (∀ e, firstFailure s (.fsSend c) = some e → Rejects (.fsSend c) s e) ∧
    (firstFailure s (.fsSend c) = none → (s.port c).chst = .start →
      ∃ t, exec (.fsSend c) s = .next t ∧ EndsOk s t 0 ∧ SameState s t) ∧
    ∀ frame : Nat → List Bool, firstFailure s (.fsSend c) = none → (s.port c).Inv →
      (((s.port c).chst = .intra ∧ s.TableReady .intra ∧
          ∀ k, frame k = intraFrame (s.table .intra).contents (s.pixel k) (planeW s k) (planeH s k)) ∨
        ((s.port c).chst = .inter ∧ s.TableReady .inter ∧
          ∀ k, frame k = interFrame (s.table .inter).contents (s.pixel k) (s.pixel (refOf c k))
            (planeW s k * planeH s k))) →
      ((s.port c).toutErr = false →
        ∃ t data, exec (.fsSend c) s = .next t ∧ EndsOk s t data ∧ SameButPortPixels c s t ∧
          t.port c = { s.port c with bwAcc := 0, bwN := 0, tout := (t.port c).tout, chst := .inter } ∧
          (s.port c).tout <+: (t.port c).tout ∧
          Counts data ((t.port c).tout.length - (s.port c).tout.length) ∧
          (t.port c).outBits =
            padToWord (padToWord (padToWord ((s.port c).outBits ++ frame 0) ++ frame 1) ++ frame 2) ∧
          ∀ b x, t.pixel b x =
            if b = refOf c 0 ∧ x < planeW s 0 * planeH s 0 then s.pixel 0 x
            else if b = refOf c 1 ∧ x < planeW s 1 * planeH s 1 then s.pixel 1 x
            else if b = refOf c 2 ∧ x < planeW s 2 * planeH s 2 then s.pixel 2 x
            else s.pixel b x) ∧
      ((s.port c).toutErr = true → FailsOutput (.fsSend c) c s)

/-- 44 R230, with the geometry of R222: three frames of any items, each followed by its padding. -/
def Obligations.ReceiveRebuildsATriplet : Prop :=
  ∀ (s : State) (c : PortNo),
    (∀ e, firstFailure s (.fsRecv c) = some e → Rejects (.fsRecv c) s e) ∧
    ∀ (raw : Nat → Pixel) (items : Nat → List Instr) (frame rest : Nat → List Bool),
      firstFailure s (.fsRecv c) = none → (s.port c).Inv →
      (s.port c).inBits = frame 0 ++ rest 0 → afterAlign (rest 0) = frame 1 ++ rest 1 →
      afterAlign (rest 1) = frame 2 ++ rest 2 →
      (((s.port c).chst = .intra ∧ s.TableReady .intra ∧ ∀ k, k < 3 →
          (∀ item ∈ items k, isIntraItem item = true) ∧ (items k).length + 1 = planeW s k * planeH s k ∧
          frame k = intraBits (s.table .intra).contents (raw k) (items k)) ∨
        ((s.port c).chst = .inter ∧ s.TableReady .inter ∧ ∀ k, k < 3 →
          (∀ item ∈ items k, isInterItem item = true) ∧
          (interRebuilt (s.pixel (refOf c k)) 0 (items k)).length = planeW s k * planeH s k ∧
          frame k = itemsBits (s.table .inter).contents (items k))) →
      ∃ t data, exec (.fsRecv c) s = .next t ∧ EndsOk s t data ∧ SameButPortPixels c s t ∧
        t.port c = { s.port c with brAcc := 0, brN := 0, tin := (t.port c).tin, chst := .inter } ∧
        (t.port c).tin <:+ (s.port c).tin ∧ (t.port c).tin.flatMap wordBits = afterAlign (rest 2) ∧
        Counts data ((s.port c).tin.length - (t.port c).tin.length) ∧
        (∀ k, k < 3 → ((s.port c).chst = .intra →
            IntraRebuilds (t.pixel (refOf c k)) (planeW s k) (planeH s k) (raw k) (items k)) ∧
          ((s.port c).chst = .inter → ∀ x, x < planeW s k * planeH s k →
            some (t.pixel (refOf c k) x) = (interRebuilt (s.pixel (refOf c k)) 0 (items k))[x]?)) ∧
        ∀ b x, (∀ k, k < 3 → ¬ (b = refOf c k ∧ x < planeW s k * planeH s k)) → t.pixel b x = s.pixel b x

/-- 44 R231 (and `close(c)` of 44 R225). -/
def Obligations.CloseEmptiesTheRegisters : Prop :=
  ∀ (s : State) (c : PortNo),
    (∀ e, firstFailure s (.fsClose c) = some e → Rejects (.fsClose c) s e) ∧
    (c.toNat < s.cfg.nCh →
      ∃ t, exec (.fsClose c) s = .next t ∧ EndsOk s t 0 ∧ SameButPort c s t ∧ (s.port c).Dead (t.port c))

/-- 44 R230 (its law, one cycle of it), 20 R78: what one channel sends another receives, and both keep the same
references. -/
def Obligations.TripletRoundTrip : Prop :=
  ∀ (s t s' : State) (c c' : PortNo) (data : Word) (words rest : List Word),
    (s.port c).Inv → (s.port c).bwN = 0 → (s.port c).chst = .intra ∧ s.TableReady .intra ∨
      (s.port c).chst = .inter ∧ s.TableReady .inter →
    exec (.fsSend c) s = .next t → EndsOk s t data → (t.port c).tout = (s.port c).tout ++ words →
    (s'.port c').Inv → (s'.port c').brN = 0 → (s'.port c').tin = words ++ rest →
    (s'.port c').chst = (s.port c).chst → s'.gridW = s.gridW → s'.gridH = s.gridH → (∀ tab, s'.table tab = s.table tab) →
    ((s.port c).chst = .inter → ∀ k x, k < 3 → x < planeW s k * planeH s k →
      s'.pixel (refOf c' k) x = s.pixel (refOf c k) x) →
    firstFailure s' (.fsRecv c') = none →
    ∃ t' data', exec (.fsRecv c') s' = .next t' ∧ EndsOk s' t' data' ∧ (t'.port c').tin = rest ∧
      (t'.port c').brN = 0 ∧ (t.port c).bwN = 0 ∧ (t'.port c').chst = .inter ∧ (t.port c).chst = .inter ∧
      ∀ k x, k < 3 → x < planeW s k * planeH s k →
        t'.pixel (refOf c' k) x = s.pixel k x ∧ t.pixel (refOf c k) x = s.pixel k x

/-! ### Rules about every command -/

/-- 60 R273 (3) to (6), with the lists of 42 R189 and the dimensions of 60 R277. -/
def Obligations.ChecksComeFirst : Prop :=
  ∀ (i : Instr) (s : State), i.isCommand = true →
    (s.cfg.nCh ≤ 16 → ∀ e, firstFailure s i = some e → Rejects i s e) ∧
    (s.Inv → firstFailure s i = none → ∀ t e, exec i s = .next t →
      e ∈ [Status.badArg, .badState, .noTable, .badDim] → ¬ t.Answers e 0)

/-- 60 R272: a command that answers does so with a status of its row, with data 0 for an error (R274 (e)). That every
command gives a next state at once, and that one that waits leaves the whole state as it was at issue, is the model's
choice (log 2). -/
def Obligations.CommandsEndWithTheirStatuses : Prop :=
  ∀ (i : Instr) (s : State), i.isCommand = true → s.Inv →
    ∃ t, exec i s = .next t ∧ (Waits i s t ∨ ∃ e data, e ∈ statusesOf i ∧ t.Answers e data ∧ (e ≠ .ok → data = 0))

/-- 40 R145, 44 R232: the errors that kill a port, and what stays. -/
def Obligations.FailuresKillOnlyTheirPort : Prop :=
  ∀ (i : Instr) (s t : State) (c : PortNo) (e : Status), i.isCommand = true → s.Inv → portOf i = some c →
    exec i s = .next t → t.Answers e 0 →
    (e = .transport ∨ e = .protocol ∨ (e = .runOverrun ∧ i = .fsRecv c)) →
    (t.port c).bwAcc = 0 ∧ (t.port c).bwN = 0 ∧ (t.port c).brAcc = 0 ∧ (t.port c).brN = 0 ∧
      (t.port c).chst = .closed ∧ (s.port c).tout <+: (t.port c).tout ∧ (t.port c).tin <:+ (s.port c).tin ∧
      ∀ d, d ≠ c → t.port d = s.port d

/-- 44 R233, 10 R24: a command that names port `c` neither reads nor writes any part of another port or channel. -/
def Obligations.PortsAreIsolated : Prop :=
  ∀ (i : Instr) (s t : State) (c d : PortNo) (p : Port), portOf i = some c → d ≠ c → exec i s = .next t →
    t.port d = s.port d ∧ exec i (s.setPort d p) = .next (t.setPort d p)

/-- 20 R73, 10 R26, R27: words are only appended to `TOUT[c]` and only taken from the head of `TIN[c]`, and no command
sets a transport flag. -/
def Obligations.TransportsKeepTheirOrder : Prop :=
  ∀ (i : Instr) (s t : State) (c : PortNo), i.isCommand = true → s.Inv → exec i s = .next t → i ≠ .reset →
    (s.port c).tout <+: (t.port c).tout ∧
    ((∀ role, i ≠ .fsOpen c role) → (t.port c).tin <:+ (s.port c).tin ∧
      (t.port c).toutErr = (s.port c).toutErr ∧ (t.port c).tinEos = (s.port c).tinEos)

/-- 44 R234, R225: the moves of a channel, and that only a triplet takes it from `INTRA` to `INTER`. -/
def Obligations.ChannelsMoveForwardOrClose : Prop :=
  ∀ (i : Instr) (s t : State) (c : PortNo), i.isCommand = true → s.Inv → exec i s = .next t →
    channelMove (s.port c).chst (t.port c).chst ∧
    ((s.port c).chst = .intra → (t.port c).chst = .inter → i = .fsSend c ∨ i = .fsRecv c)

/-- 10 R42. -/
def Obligations.LastErrRecordsTheLastError : Prop :=
  (∀ (i : Instr) (s t : State) (e : Status) (data : Word), i.isCommand = true → s.Inv → exec i s = .next t →
    t.Answers e data →
    (e = .ok → i ≠ .reset → (∀ value, i ≠ .csrWr 2 value) → t.lastErr = s.lastErr) ∧
    (e = .ok → (i = .reset ∨ ∃ value, i = .csrWr 2 value) → t.lastErr = 0) ∧
    (e ≠ .ok → t.lastErr.extractLsb' 0 8 = e.code ∧ t.lastErr.extractLsb' 8 8 = opcodeOf i ∧
      t.lastErr.extractLsb' 16 16 = 0)) ∧
  ∀ (w : CmdWord) (s t : State), decode w = none → issue w s = .next t →
    t.lastErr.extractLsb' 0 8 = 1 ∧ t.lastErr.extractLsb' 8 8 = w.extractLsb' 56 8 ∧ t.lastErr.extractLsb' 16 16 = 0

/-- 70 R312, 20 R77, R78, 10 R34, R35, R38: which command can change which piece of state outside the ports. -/
def Obligations.OnlyTheNamedCommandsChangeState : Prop :=
  ∀ (i : Instr) (s t : State), i.isCommand = true → s.Inv → exec i s = .next t → i ≠ .reset →
    t.cfg = s.cfg ∧ t.host = s.host ∧ t.epoch = s.epoch ∧
    (∀ tab, (∀ n : BitVec 4, n.toNat = tableNumber tab → i ≠ .pcBuild n) → t.table tab = s.table tab) ∧
    ((∀ n sym f, i ≠ .fqWr n sym f) → t.freq = s.freq) ∧
    ((∀ addr value, i ≠ .csrWr addr value) →
      t.gridW = s.gridW ∧ t.gridH = s.gridH ∧ t.opW = s.opW ∧ t.opH = s.opH ∧ t.magic = s.magic) ∧
    ∀ b x, ¬ mayWrite s b x i → t.pixel b x = s.pixel b x

/-- Log 2 (the model's choice: a held command is executed again when the host has acted), with 60 R285 and 40 R137: a
hold changes no state, no other command runs, and each act on a transport that exists reaches it (others: log 14). -/
def Obligations.HoldsWaitForTheHost : Prop :=
  (∀ (i j : Instr) (s t : State), i.isCommand = true → exec i s = .next t → t.holding = some j → Waits i s t) ∧
  ∀ (s : State) (i : Instr), s.holding = some i →
    (s.host = [] → step s = .next s) ∧
    (∀ w rest, s.host = .command w :: rest → step s = .next s) ∧
    ∀ (c : PortNo) (rest : List HostAct),
      (c.toNat < s.cfg.nCh →
        (∀ w, s.host = .inputWord c w :: rest →
          step s = exec i ({ s with host := rest }.setPort c { s.port c with tin := (s.port c).tin ++ [w] })) ∧
        (s.host = .inputEnd c :: rest →
          step s = exec i ({ s with host := rest }.setPort c { s.port c with tinEos := true })) ∧
        (s.host = .outputError c :: rest →
          step s = exec i ({ s with host := rest }.setPort c { s.port c with toutErr := true }))) ∧
      (s.cfg.nCh ≤ c.toNat →
        (∃ w, s.host = .inputWord c w :: rest) ∨ s.host = .inputEnd c :: rest ∨ s.host = .outputError c :: rest →
        step s = .refused .noSuchTransport)

/-! ### Encoding and the step -/

/-- 30 R91, R92, R95: the command words and the commands correspond one to one. -/
def Obligations.CommandWordsRoundTrip : Prop :=
  (∀ i : Instr, i.isCommand = true → ∃ w, encode i = some w ∧ decode w = some i) ∧
  (∀ (w : CmdWord) (i : Instr), decode w = some i → encode i = some w ∧ i.isCommand = true ∧ opcodeOf i = opcodeOfWord w)

/-- 30 R93 (a) and (b), R95: a word is the command of the one row of opcode_table.json that matches it, or illegal. -/
def Obligations.WordsMatchTheOpcodeTable : Prop :=
  (∀ (w : CmdWord) (i : Instr), decode w = some i →
    ∀ row ∈ opcodeRows, (w &&& row.2.2 = row.2.1 ↔ row.1 = mnemonicOf i)) ∧
  (∀ w : CmdWord, decode w = none ↔ ∀ row ∈ opcodeRows, w &&& row.2.2 ≠ row.2.1) ∧
  ∀ (w : CmdWord) (s : State), decode w = none →
    ∃ t, issue w s = .next t ∧ EndsWith (opcodeOfWord w) .badCmd t ∧ SameState s t

/-- 30 R101, R102, R103, R106, R107 (d), (e): under a well-formed table the bits of a stream symbol decode to it, whatever
bits decode are those of a symbol with a number of its class, and 48 bits always hold one. -/
def Obligations.StreamSymbolsRoundTrip : Prop :=
  ∀ (tab : TableId) (code : CodeTable), TableWF code tab.symbols →
    (∀ (i : Instr) (sym : Nat) (rest : List Bool), symbolOf i = some (tab, sym) → i.wf = true →
      decodeItem tab code (itemBits code i ++ rest) = some (i, rest)) ∧
    (∀ (i : Instr) (bits rest : List Bool), decodeItem tab code bits = some (i, rest) →
      i.wf = true ∧ (∃ sym, symbolOf i = some (tab, sym)) ∧ bits = itemBits code i ++ rest) ∧
    ∀ bits : List Bool, 48 ≤ bits.length → decodeItem tab code bits ≠ none

/-- 30 R91, R92, R96, 45 R253, R255: command words written out from the encoding decode to the commands they stand for. -/
def Obligations.WrittenOutWordsDecode : Prop :=
  decode 0x0100000300000005 = some (.bwWrite 0 3 5) ∧ decode 0x1120000D00000000 = some (.brRead 2 13) ∧
  decode 0x2001010000010000 = some (.fqWr 1 256 65536) ∧ decode 0x2211020100000000 = some (.pcEncode 1 1 513) ∧
  decode 0x3010000200000000 = some (.icCompress 1 2) ∧ decode 0x4120090600000000 = some (.xcDecompress 2 6 9) ∧
  decode 0x5010000100000000 = some (.fsOpen 1 1) ∧ decode 0x5100000078563412 = some (.fsAck 0 0x78563412) ∧
  decode 0x6100000500000004 = some (.csrWr 5 4) ∧ decode 0x6200001400000005 = some (.pxWr 0 5 20) ∧
  decode 0x630B000000000007 = some (.pxRd 11 7) ∧ decode 0x7F00000000000000 = some .reset ∧
  decode 0x0300000000000000 = none ∧ decode 0x5000000200000000 = none

/-- Log 1 (the model's choice: a step takes the next act of the host), with 30 R90, R93, 00 R7, 10 R26, R27: while no
command holds, a step executes the command word presented next, or fails with an illegal word (60 R274), or lets the host
act on a transport. An act on a transport that does not exist is refused (the model's choice, log 14), and with no act to
come nothing happens. -/
def Obligations.StepExecutesTheCommandWord : Prop :=
  ∀ s : State, s.holding = none →
    (s.host = [] → step s = .next s) ∧
    ∀ rest : List HostAct,
      (∀ w i, s.host = .command w :: rest → decode w = some i → step s = exec i { s with host := rest }) ∧
      (∀ w, s.host = .command w :: rest → decode w = none →
        ∃ t, step s = .next t ∧ EndsWith (opcodeOfWord w) .badCmd t ∧ SameState { s with host := rest } t) ∧
      ∀ c : PortNo,
        (c.toNat < s.cfg.nCh →
          (∀ w, s.host = .inputWord c w :: rest →
            step s = .next ({ s with host := rest }.setPort c { s.port c with tin := (s.port c).tin ++ [w] })) ∧
          (s.host = .inputEnd c :: rest →
            step s = .next ({ s with host := rest }.setPort c { s.port c with tinEos := true })) ∧
          (s.host = .outputError c :: rest →
            step s = .next ({ s with host := rest }.setPort c { s.port c with toutErr := true }))) ∧
        (s.cfg.nCh ≤ c.toNat →
          (∃ w, s.host = .inputWord c w :: rest) ∨ s.host = .inputEnd c :: rest ∨ s.host = .outputError c :: rest →
          step s = .refused .noSuchTransport)

/-! ### The invariant -/

/-- The invariant of a state (10 R22, R23, R34 to R38, R42; 20 R66; 41 R152) survives every step. -/
def Obligations.EveryStepKeepsTheInvariant : Prop :=
  ∀ s t : State, s.Inv → step s = .next t → t.Inv

/-- The state after reset satisfies the invariant, for every legal instance and for the one of `State.reset` (log 3). -/
def Obligations.ResetSatisfiesTheInvariant : Prop :=
  (∀ (cfg : Config) (epoch : Nat), LegalConfig cfg → (State.resetOf cfg epoch).Inv) ∧ State.reset.Inv

/-! ### A triplet that does not end -/

/-- 44 R230, R232, 42 R191, 40 R145, 60 R274 (b): the input of a first triplet stops in plane `k`. The planes before it are
rebuilt, so is what has come of plane `k`, and the channel is closed; where the input may go on `FS_RECV` waits (the
model's choice, log 2). -/
def Obligations.FirstTripletStopsWhereTheInputStops : Prop :=
  ∀ (s : State) (c : PortNo) (k : Nat) (raw : Nat → Pixel) (items : Nat → List Instr) (input rest : Nat → List Bool)
    (got : Option (Pixel × List Instr)),
    firstFailure s (.fsRecv c) = none → (s.port c).Inv → (s.port c).chst = .intra → s.TableReady .intra → k < 3 →
    input 0 = (s.port c).inBits →
    (∀ j, j < k → (∀ item ∈ items j, isIntraItem item = true) ∧ (items j).length + 1 = planeW s j * planeH s j ∧
      input j = intraBits (s.table .intra).contents (raw j) (items j) ++ rest j ∧ input (j + 1) = afterAlign (rest j)) →
    IntraStops (s.table .intra).contents (planeW s k * planeH s k) (input k) got →
    ∃ t, exec (.fsRecv c) s = .next t ∧
      if (s.port c).tinEos then
        ReceiveFails c s t .transport [] ∧
          (∀ j, j < k → IntraRebuilds (t.pixel (refOf c j)) (planeW s j) (planeH s j) (raw j) (items j)) ∧
          IntraStarts (s.pixel (refOf c k)) (t.pixel (refOf c k)) (planeW s k) (planeH s k) got ∧
          ∀ b x, b ≠ refOf c k → (∀ j, j < k → ¬ (b = refOf c j ∧ x < planeW s j * planeH s j)) →
            t.pixel b x = s.pixel b x
      else Waits (.fsRecv c) s t

/-- 44 R230, R232, 43 R206, R207, 40 R145, 60 R274 (b): a later triplet fails in plane `k`, where the input stops or a run
passes the end of the plane. The planes before it and the pixels before that point are rebuilt in place, and the channel
is closed; where the input may go on `FS_RECV` waits (the model's choice, log 2). -/
def Obligations.LaterTripletStopsWhereItFails : Prop :=
  ∀ (s : State) (c : PortNo) (k : Nat) (items : Nat → List Instr) (input rest : Nat → List Bool)
    (rebuilt : Nat → List Pixel),
    firstFailure s (.fsRecv c) = none → (s.port c).Inv → (s.port c).chst = .inter → s.TableReady .inter → k < 3 →
    input 0 = (s.port c).inBits → (∀ j, rebuilt j = interRebuilt (s.pixel (refOf c j)) 0 (items j)) →
    (∀ j, j < k → (∀ item ∈ items j, isInterItem item = true) ∧ (rebuilt j).length = planeW s j * planeH s j ∧
      input j = itemsBits (s.table .inter).contents (items j) ++ rest j ∧ input (j + 1) = afterAlign (rest j)) →
    (InterStops (s.table .inter).contents (s.pixel (refOf c k)) (planeW s k * planeH s k) (input k) (items k) →
      ∃ t, exec (.fsRecv c) s = .next t ∧
        if (s.port c).tinEos then
          ReceiveFails c s t .transport [] ∧
            (∀ j x, j ≤ k → t.pixel (refOf c j) x = (rebuilt j)[x]?.getD (s.pixel (refOf c j) x)) ∧
            ∀ b x, (∀ j, j ≤ k → b ≠ refOf c j) → t.pixel b x = s.pixel b x
        else Waits (.fsRecv c) s t) ∧
    ∀ left, InterOverruns (s.table .inter).contents (s.pixel (refOf c k)) (planeW s k * planeH s k) (input k) (items k)
        left →
      ∃ t words, exec (.fsRecv c) s = .next t ∧ ReceiveFails c s t .runOverrun words ∧ words <:+ (s.port c).tin ∧
        words.flatMap wordBits = afterAlign left ∧
        (∀ j x, j ≤ k → t.pixel (refOf c j) x = (rebuilt j)[x]?.getD (s.pixel (refOf c j) x)) ∧
        ∀ b x, (∀ j, j ≤ k → b ≠ refOf c j) → t.pixel b x = s.pixel b x
end

