-- ==== Sys2Proof/Laws/State.lean ====
section
/-! SUPPORT. What each update of the state does to each field, true by unfolding. -/

namespace Sys2Proof.Machine

/-! ### Ports -/

@[simp] theorem port_setPort_self (s : State) (c : PortNo) (p : Port) : (s.setPort c p).port c = p := by
  simp [State.port, State.setPort]

theorem port_setPort_ne {c d : PortNo} (s : State) (p : Port) (h : d ≠ c) : (s.setPort c p).port d = s.port d := by
  have : c.toNat ≠ d.toNat := fun e => h (BitVec.eq_of_toNat_eq e.symm)
  simp [State.port, State.setPort, this]

@[simp] theorem setPort_setPort (s : State) (c : PortNo) (p q : Port) :
    (s.setPort c p).setPort c q = s.setPort c q := by
  simp [State.setPort, Vector.set_set]

@[simp] theorem setPort_port (s : State) (c : PortNo) : s.setPort c (s.port c) = s := by
  simp [State.port, State.setPort, Vector.set_getElem_self]

/-- The port after any update that leaves the ports alone. -/
theorem port_congr {s t : State} (h : t.ports = s.ports) (c : PortNo) : t.port c = s.port c := by
  simp [State.port, h]

section setPort
variable (s : State) (c : PortNo) (p : Port)
@[simp] theorem setPort_cfg : (s.setPort c p).cfg = s.cfg := rfl
@[simp] theorem setPort_epoch : (s.setPort c p).epoch = s.epoch := rfl
@[simp] theorem setPort_tab0 : (s.setPort c p).tab0 = s.tab0 := rfl
@[simp] theorem setPort_tab1 : (s.setPort c p).tab1 = s.tab1 := rfl
@[simp] theorem setPort_table (t : TableId) : (s.setPort c p).table t = s.table t := by cases t <;> rfl
@[simp] theorem setPort_freq : (s.setPort c p).freq = s.freq := rfl
@[simp] theorem setPort_pix : (s.setPort c p).pix = s.pix := rfl
@[simp] theorem setPort_pixel : (s.setPort c p).pixel = s.pixel := rfl
@[simp] theorem setPort_freqCell (t : TableId) (i : Nat) : (s.setPort c p).freqCell t i = s.freqCell t i := rfl
@[simp] theorem setPort_lastErr : (s.setPort c p).lastErr = s.lastErr := rfl
@[simp] theorem setPort_gridW : (s.setPort c p).gridW = s.gridW := rfl
@[simp] theorem setPort_gridH : (s.setPort c p).gridH = s.gridH := rfl
@[simp] theorem setPort_opW : (s.setPort c p).opW = s.opW := rfl
@[simp] theorem setPort_opH : (s.setPort c p).opH = s.opH := rfl
@[simp] theorem setPort_magic : (s.setPort c p).magic = s.magic := rfl
@[simp] theorem setPort_cursor : (s.setPort c p).cursor = s.cursor := rfl
@[simp] theorem setPort_holding : (s.setPort c p).holding = s.holding := rfl
@[simp] theorem setPort_host : (s.setPort c p).host = s.host := rfl
@[simp] theorem setPort_rsp : (s.setPort c p).rsp = s.rsp := rfl
end setPort

/-! ### Pixels -/

section setPixel
variable (s : State) (b i : Nat) (v : Pixel)
@[simp] theorem setPixel_cfg : (s.setPixel b i v).cfg = s.cfg := rfl
@[simp] theorem setPixel_epoch : (s.setPixel b i v).epoch = s.epoch := rfl
@[simp] theorem setPixel_port (c : PortNo) : (s.setPixel b i v).port c = s.port c := rfl
@[simp] theorem setPixel_tab0 : (s.setPixel b i v).tab0 = s.tab0 := rfl
@[simp] theorem setPixel_tab1 : (s.setPixel b i v).tab1 = s.tab1 := rfl
@[simp] theorem setPixel_table (t : TableId) : (s.setPixel b i v).table t = s.table t := by cases t <;> rfl
@[simp] theorem setPixel_freq : (s.setPixel b i v).freq = s.freq := rfl
@[simp] theorem setPixel_lastErr : (s.setPixel b i v).lastErr = s.lastErr := rfl
@[simp] theorem setPixel_gridW : (s.setPixel b i v).gridW = s.gridW := rfl
@[simp] theorem setPixel_gridH : (s.setPixel b i v).gridH = s.gridH := rfl
@[simp] theorem setPixel_opW : (s.setPixel b i v).opW = s.opW := rfl
@[simp] theorem setPixel_opH : (s.setPixel b i v).opH = s.opH := rfl
@[simp] theorem setPixel_magic : (s.setPixel b i v).magic = s.magic := rfl
@[simp] theorem setPixel_cursor : (s.setPixel b i v).cursor = s.cursor := rfl
@[simp] theorem setPixel_holding : (s.setPixel b i v).holding = s.holding := rfl
@[simp] theorem setPixel_host : (s.setPixel b i v).host = s.host := rfl
@[simp] theorem setPixel_rsp : (s.setPixel b i v).rsp = s.rsp := rfl
end setPixel

/-- A pixel write and a port write commute. -/
theorem setPixel_setPort (s : State) (b i : Nat) (v : Pixel) (c : PortNo) (p : Port) :
    (s.setPort c p).setPixel b i v = (s.setPixel b i v).setPort c p := rfl

/-! ### Tables and frequencies -/

@[simp] theorem setTable_self (s : State) (t : TableId) (tab : Table) : (s.setTable t tab).table t = tab := by
  cases t <;> rfl

theorem setTable_ne {t u : TableId} (s : State) (tab : Table) (h : u ≠ t) :
    (s.setTable t tab).table u = s.table u := by
  cases t <;> cases u <;> first | rfl | exact absurd rfl h

section setTable
variable (s : State) (t : TableId) (tab : Table)
@[simp] theorem setTable_cfg : (s.setTable t tab).cfg = s.cfg := by cases t <;> rfl
@[simp] theorem setTable_epoch : (s.setTable t tab).epoch = s.epoch := by cases t <;> rfl
@[simp] theorem setTable_ports : (s.setTable t tab).ports = s.ports := by cases t <;> rfl
@[simp] theorem setTable_port (c : PortNo) : (s.setTable t tab).port c = s.port c := by cases t <;> rfl
@[simp] theorem setTable_pix : (s.setTable t tab).pix = s.pix := by cases t <;> rfl
@[simp] theorem setTable_freq : (s.setTable t tab).freq = s.freq := by cases t <;> rfl
@[simp] theorem setTable_lastErr : (s.setTable t tab).lastErr = s.lastErr := by cases t <;> rfl
@[simp] theorem setTable_gridW : (s.setTable t tab).gridW = s.gridW := by cases t <;> rfl
@[simp] theorem setTable_gridH : (s.setTable t tab).gridH = s.gridH := by cases t <;> rfl
@[simp] theorem setTable_opW : (s.setTable t tab).opW = s.opW := by cases t <;> rfl
@[simp] theorem setTable_opH : (s.setTable t tab).opH = s.opH := by cases t <;> rfl
@[simp] theorem setTable_magic : (s.setTable t tab).magic = s.magic := by cases t <;> rfl
@[simp] theorem setTable_cursor : (s.setTable t tab).cursor = s.cursor := by cases t <;> rfl
@[simp] theorem setTable_holding : (s.setTable t tab).holding = s.holding := by cases t <;> rfl
@[simp] theorem setTable_host : (s.setTable t tab).host = s.host := by cases t <;> rfl
@[simp] theorem setTable_rsp : (s.setTable t tab).rsp = s.rsp := by cases t <;> rfl
end setTable

section setFreq
variable (s : State) (t : TableId) (sym : Nat) (f : Word)
@[simp] theorem setFreq_cfg : (s.setFreq t sym f).cfg = s.cfg := rfl
@[simp] theorem setFreq_epoch : (s.setFreq t sym f).epoch = s.epoch := rfl
@[simp] theorem setFreq_port (c : PortNo) : (s.setFreq t sym f).port c = s.port c := rfl
@[simp] theorem setFreq_table (u : TableId) : (s.setFreq t sym f).table u = s.table u := by cases u <;> rfl
@[simp] theorem setFreq_pix : (s.setFreq t sym f).pix = s.pix := rfl
@[simp] theorem setFreq_lastErr : (s.setFreq t sym f).lastErr = s.lastErr := rfl
@[simp] theorem setFreq_magic : (s.setFreq t sym f).magic = s.magic := rfl
end setFreq

/-! ### Ends of a command -/

section ends
variable (s : State) (data : Word) (op : BitVec 8) (e : Status) (i : Instr)
@[simp] theorem succeed_port (c : PortNo) : (succeed data s).port c = s.port c := rfl
@[simp] theorem succeed_pixel (b x : Nat) : (succeed data s).pixel b x = s.pixel b x := rfl
@[simp] theorem succeed_table (t : TableId) : (succeed data s).table t = s.table t := by cases t <;> rfl
@[simp] theorem succeed_rsp : (succeed data s).rsp = some (responseWord .ok data) := rfl
@[simp] theorem succeed_lastErr : (succeed data s).lastErr = s.lastErr := rfl
@[simp] theorem succeed_holding : (succeed data s).holding = none := rfl
@[simp] theorem succeed_cursor : (succeed data s).cursor = none := rfl
@[simp] theorem takeError_port (c : PortNo) : (takeError op e s).port c = s.port c := rfl
@[simp] theorem takeError_pixel (b x : Nat) : (takeError op e s).pixel b x = s.pixel b x := rfl
@[simp] theorem takeError_table (t : TableId) : (takeError op e s).table t = s.table t := by cases t <;> rfl
@[simp] theorem takeError_rsp : (takeError op e s).rsp = some (responseWord e 0) := rfl
@[simp] theorem takeError_lastErr : (takeError op e s).lastErr = lastErrWord op e := rfl
@[simp] theorem takeError_holding : (takeError op e s).holding = none := rfl
@[simp] theorem takeError_cursor : (takeError op e s).cursor = none := rfl
@[simp] theorem waitForInput_port (c : PortNo) : (waitForInput i s).port c = s.port c := rfl
@[simp] theorem waitForInput_rsp : (waitForInput i s).rsp = none := rfl
@[simp] theorem waitForInput_holding : (waitForInput i s).holding = some i := rfl
@[simp] theorem waitForInput_cursor : (waitForInput i s).cursor = s.cursor := rfl
end ends

@[simp] theorem complete_done (i : Instr) (s s' : State) (data : Word) :
    complete i s (.done data s') = succeed data s' := rfl
@[simp] theorem complete_raise (i : Instr) (s s' : State) (e : Status) :
    complete i s (.raise e s') = takeError (opcodeOf i) e s' := rfl
@[simp] theorem complete_hold (i : Instr) (s : State) : complete i s .hold = waitForInput i s := rfl

/-! ### Lines of pseudocode -/

@[simp] theorem bind_done {α β : Type} (a : α) (s : State) (k : α → State → Res β) : (Res.done a s).bind k = k a s := rfl
@[simp] theorem bind_raise {α β : Type} (e : Status) (s : State) (k : α → State → Res β) :
    (Res.raise e s).bind k = .raise e s := rfl
@[simp] theorem bind_hold {α β : Type} (k : α → State → Res β) : (Res.hold : Res α).bind k = .hold := rfl
@[simp] theorem andThen_done {β : Type} (s : State) (k : State → Res β) : (Res.done () s).andThen k = k s := rfl
@[simp] theorem andThen_raise {β : Type} (e : Status) (s : State) (k : State → Res β) :
    (Res.raise e s : Res Unit).andThen k = .raise e s := rfl
@[simp] theorem andThen_hold {β : Type} (k : State → Res β) : (Res.hold : Res Unit).andThen k = .hold := rfl
@[simp] theorem check_true (e : Status) (s : State) : check true e s = .done () s := rfl
@[simp] theorem check_false (e : Status) (s : State) : check false e s = .raise e s := rfl

/-- A check either lets the command go on or ends it in the state it was issued in. -/
theorem check_cases (ok : Bool) (e : Status) (s : State) :
    (ok = true ∧ check ok e s = .done () s) ∨ (ok = false ∧ check ok e s = .raise e s) := by
  cases ok <;> simp

/-- The stretch that goes on to a value: it went on, and what follows gave the value. -/
theorem bind_eq_done {α β : Type} {r : Res α} {k : α → State → Res β} {b : β} {t : State}
    (h : r.bind k = .done b t) : ∃ a s, r = .done a s ∧ k a s = .done b t := by
  cases r with
  | done a s => exact ⟨a, s, rfl, h⟩
  | raise e s => cases h
  | hold => cases h

/-! ### Reset -/

@[simp] theorem resetOf_port (cfg : Config) (epoch : Nat) (c : PortNo) : (State.resetOf cfg epoch).port c = Port.reset := by
  simp [State.port, State.resetOf]

/-- The memories of every reset state are in canonical form. -/
theorem resetOf_cells_wf (cfg : Config) (epoch : Nat) :
    (State.resetOf cfg epoch).pix.wf = true ∧ (State.resetOf cfg epoch).freq.wf = true := ⟨rfl, rfl⟩

/-- The memories of the state after reset are in canonical form. -/
theorem reset_cells_wf : State.reset.pix.wf = true ∧ State.reset.freq.wf = true := ⟨rfl, rfl⟩

end Sys2Proof.Machine
end

