-- ==== Sys2Proof/Laws/Bits.lean ====
section
/-! SUPPORT. Lists of bits, most significant first, and the numbers they stand for (20_memory.md rule R60). -/

namespace Sys2Proof.Machine

@[simp] theorem length_bitsOf (v k : Nat) : (bitsOf v k).length = k := by
  induction k with
  | zero => rfl
  | succ k ih => simp [bitsOf, ih]

/-- Only the low `k` bits count. -/
theorem bitsOf_congr {u v k : Nat} (h : u % 2 ^ k = v % 2 ^ k) : bitsOf u k = bitsOf v k := by
  induction k with
  | zero => rfl
  | succ k ih =>
    have hb : u.testBit k = v.testBit k := by
      have := congrArg (Nat.testBit · k) h
      simpa [Nat.testBit_mod_two_pow] using this
    have hm : u % 2 ^ k = v % 2 ^ k := by
      have := congrArg (· % 2 ^ k) h
      simpa [Nat.mod_mod_of_dvd _ (pow_dvd_pow 2 (Nat.le_succ k))] using this
    simp [bitsOf, hb, ih hm]

theorem bitsOf_mod (v k : Nat) : bitsOf (v % 2 ^ k) k = bitsOf v k := bitsOf_congr (by simp)

theorem bitsOf_split (v n m : Nat) : bitsOf v (n + m) = bitsOf (v / 2 ^ m) n ++ bitsOf v m := by
  induction n with
  | zero => simp [bitsOf]
  | succ n ih =>
    rw [Nat.succ_add, bitsOf, ih, bitsOf, List.cons_append, Nat.testBit_div_two_pow]

/-- `n` bits in front of `m` bits. -/
theorem bitsOf_append (a n : Nat) {b m : Nat} (hb : b < 2 ^ m) :
    bitsOf (a * 2 ^ m + b) (n + m) = bitsOf a n ++ bitsOf b m := by
  rw [bitsOf_split]
  congr 1
  · rw [Nat.add_comm, Nat.add_mul_div_right _ _ (Nat.two_pow_pos m), Nat.div_eq_of_lt hb, Nat.zero_add]
  · exact bitsOf_congr (by simp [Nat.add_mod])

theorem bitsOf_zero (k : Nat) : bitsOf 0 k = List.replicate k false := by
  induction k with
  | zero => rfl
  | succ k ih => simp [bitsOf, ih, List.replicate_succ]

theorem foldl_bits (bits : List Bool) (acc : Nat) :
    bits.foldl (fun acc b => 2 * acc + b.toNat) acc = acc * 2 ^ bits.length + natOfBits bits := by
  induction bits generalizing acc with
  | nil => simp [natOfBits]
  | cons b rest ih =>
    simp only [List.foldl_cons, natOfBits, List.length_cons, ih (2 * acc + b.toNat), ih (2 * 0 + b.toNat), pow_succ]
    ring

@[simp] theorem natOfBits_nil : natOfBits [] = 0 := rfl

theorem natOfBits_cons (b : Bool) (rest : List Bool) :
    natOfBits (b :: rest) = b.toNat * 2 ^ rest.length + natOfBits rest := by
  rw [natOfBits, List.foldl_cons, foldl_bits]; simp

theorem natOfBits_append (xs ys : List Bool) :
    natOfBits (xs ++ ys) = natOfBits xs * 2 ^ ys.length + natOfBits ys := by
  rw [natOfBits, List.foldl_append, foldl_bits]; rfl

theorem natOfBits_lt (bits : List Bool) : natOfBits bits < 2 ^ bits.length := by
  induction bits with
  | nil => simp
  | cons b rest ih =>
    rw [natOfBits_cons, List.length_cons, pow_succ]
    cases b <;> simp <;> omega

@[simp] theorem natOfBits_bitsOf (v k : Nat) : natOfBits (bitsOf v k) = v % 2 ^ k := by
  induction k with
  | zero => simp [bitsOf, Nat.mod_one]
  | succ k ih =>
    have hb : (v.testBit k).toNat = v / 2 ^ k % 2 := by
      rw [Nat.testBit_eq_decide_div_mod_eq]
      rcases Nat.mod_two_eq_zero_or_one (v / 2 ^ k) with h | h <;> simp [h]
    rw [bitsOf, natOfBits_cons, ih, length_bitsOf, Nat.mod_pow_succ, hb, Nat.add_comm, Nat.mul_comm]

theorem bitsOf_natOfBits (bits : List Bool) : bitsOf (natOfBits bits) bits.length = bits := by
  induction bits with
  | nil => rfl
  | cons b rest ih =>
    rw [natOfBits_cons, List.length_cons, Nat.add_comm rest.length 1, bitsOf_append _ _ (natOfBits_lt rest), ih]
    cases b <;> simp [bitsOf]

theorem bitsOf_injective {u v k : Nat} (hu : u < 2 ^ k) (hv : v < 2 ^ k) (h : bitsOf u k = bitsOf v k) : u = v := by
  have := congrArg natOfBits h
  simpa [Nat.mod_eq_of_lt hu, Nat.mod_eq_of_lt hv] using this

theorem take_bitsOf (v k : Nat) {n : Nat} (h : n ≤ k) : (bitsOf v k).take n = bitsOf (v / 2 ^ (k - n)) n := by
  obtain ⟨m, rfl⟩ := Nat.exists_eq_add_of_le h
  rw [bitsOf_split, Nat.add_sub_cancel_left, List.take_left' (length_bitsOf _ _)]

theorem drop_bitsOf (v k : Nat) {n : Nat} (h : n ≤ k) : (bitsOf v k).drop n = bitsOf v (k - n) := by
  obtain ⟨m, rfl⟩ := Nat.exists_eq_add_of_le h
  rw [bitsOf_split, Nat.add_sub_cancel_left, List.drop_left' (length_bitsOf _ _)]

/-! ### Words -/

@[simp] theorem length_wordBits (w : Word) : (wordBits w).length = 32 := length_bitsOf _ _

theorem wordBits_ofNat {n : Nat} (h : n < 2 ^ 32) : wordBits (BitVec.ofNat 32 n) = bitsOf n 32 := by
  rw [wordBits, BitVec.toNat_ofNat, Nat.mod_eq_of_lt h]

theorem wordBits_injective {u v : Word} (h : wordBits u = wordBits v) : u = v :=
  BitVec.eq_of_toNat_eq (bitsOf_injective u.isLt v.isLt h)

theorem length_flatMap_wordBits (ws : List Word) : (ws.flatMap wordBits).length = 32 * ws.length := by
  induction ws with
  | nil => rfl
  | cons w rest ih => simp [ih]; omega

theorem flatMap_wordBits_injective {us vs : List Word} (h : us.flatMap wordBits = vs.flatMap wordBits) : us = vs := by
  induction us generalizing vs with
  | nil =>
    cases vs with
    | nil => rfl
    | cons v vs => have := congrArg List.length h; simp at this; omega
  | cons u us ih =>
    cases vs with
    | nil => have := congrArg List.length h; simp at this
    | cons v vs =>
      simp only [List.flatMap_cons] at h
      obtain ⟨h1, h2⟩ := List.append_inj h (by simp)
      rw [wordBits_injective h1, ih h2]

end Sys2Proof.Machine
end

