-- ==== Sys2Proof/Laws/BitStream.lean ====
section
/-! SUPPORT. What `emit`, `write`, `flush`, `refill`, `read` and `align` can do, said once, in terms of the bits on the
port (40_bitstream.md rules R131 to R145). -/

namespace Sys2Proof.Machine

variable {c : PortNo} {s : State} {p q r : Port}

/-! ### The invariant of a port -/

theorem Port.reset_inv : Port.reset.Inv := ⟨by decide, by decide, by decide, by decide⟩

/-- The invariant speaks of the bit registers alone. -/
theorem Port.Inv.of_regs (h : p.Inv) (h1 : q.bwAcc = p.bwAcc) (h2 : q.bwN = p.bwN) (h3 : q.brAcc = p.brAcc)
    (h4 : q.brN = p.brN) : q.Inv :=
  ⟨h2 ▸ h.writerCount, by rw [h1, h2]; exact h.writerBits, h4 ▸ h.readerCount, by rw [h3, h4]; exact h.readerBits⟩

theorem closedPort_inv (p : Port) : (closedPort p).Inv :=
  ⟨by simp [closedPort], by simp [closedPort], by simp [closedPort], by simp [closedPort]⟩

theorem closedPort_dead (p : Port) : p.Dead (closedPort p) := rfl

theorem openedPort_inv (role : Role) (p : Port) : (openedPort role p).Inv :=
  ⟨by simp [openedPort], by simp [openedPort], by simp [openedPort], by simp [openedPort]⟩

theorem Port.Inv.noPending (h : p.Inv) (hn : p.bwN = 0) : p.bwAcc = 0 := by
  have := h.writerBits
  rw [hn, pow_zero] at this
  exact BitVec.eq_of_toNat_eq (by simpa using this)

theorem Port.Inv.noFetched (h : p.Inv) (hn : p.brN = 0) : p.brAcc = 0 := by
  have := h.readerBits
  rw [hn, Nat.sub_zero, Nat.mod_eq_of_lt p.brAcc.isLt] at this
  exact BitVec.eq_of_toNat_eq (by simpa using this)

/-! ### Bits on a port -/

@[simp] theorem length_pendingBits (p : Port) : p.pendingBits.length = p.bwN := length_bitsOf _ _

theorem length_outBits (p : Port) : p.outBits.length = 32 * p.tout.length + p.bwN := by
  rw [Port.outBits, List.length_append, length_flatMap_wordBits, length_pendingBits]

theorem Port.Inv.length_fetchedBits (h : p.Inv) : p.fetchedBits.length = p.brN := by
  simpa [Port.fetchedBits] using h.readerCount

theorem Port.Inv.length_inBits (h : p.Inv) : p.inBits.length = p.brN + 32 * p.tin.length := by
  rw [Port.inBits, List.length_append, length_flatMap_wordBits, h.length_fetchedBits]

/-! ### Appending and consuming -/

theorem Port.Appends.refl (p : Port) : p.Appends p [] := ⟨rfl, by simp, List.prefix_refl _⟩

theorem Port.Appends.trans {xs ys : List Bool} (h : p.Appends q xs) (h' : q.Appends r ys) : p.Appends r (xs ++ ys) :=
  ⟨by rw [h'.same, h.same], by rw [h'.out, h.out, List.append_assoc], h.kept.trans h'.kept⟩

theorem Port.Consumes.refl (p : Port) (h : p.Inv) : p.Consumes p 0 := by
  have := h.readerCount
  refine ⟨rfl, by simp, ?_⟩
  have : wordsToRead p.brN 0 = 0 := by unfold wordsToRead; omega
  simp [this]

theorem wordsToRead_add {n n' t k k' : Nat} (h : n' + 32 * (t - wordsToRead n k) = n + 32 * t - k)
    (hk : k ≤ n + 32 * t) : wordsToRead n k + wordsToRead n' k' = wordsToRead n (k + k') := by
  unfold wordsToRead at *
  omega

theorem Port.Consumes.trans {k k' : Nat} (hp : p.Inv) (hq : q.Inv) (h : p.Consumes q k) (h' : q.Consumes r k')
    (hk : k ≤ p.inBits.length) : p.Consumes r (k + k') := by
  refine ⟨by rw [h'.same, h.same], by rw [h'.bits, h.bits, List.drop_drop], ?_⟩
  rw [h'.lazy, h.lazy, List.drop_drop]
  congr 1
  have hl := congrArg List.length h.bits
  rw [List.length_drop, hp.length_inBits, hq.length_inBits, h.lazy, List.length_drop] at hl
  exact wordsToRead_add hl (hp.length_inBits ▸ hk)

/-- Bits shifted in below a value that fits. -/
theorem shiftIn_lt {a b n m : Nat} (ha : a < 2 ^ n) (hb : b < 2 ^ m) : a * 2 ^ m + b < 2 ^ (n + m) := by
  have : (a + 1) * 2 ^ m ≤ 2 ^ n * 2 ^ m := Nat.mul_le_mul_right _ ha
  rw [Nat.add_mul, Nat.one_mul] at this
  rw [pow_add]
  omega

/-! ### emit -/

theorem emit_done (w : Word) (h : (s.port c).toutErr = false) :
    emit c w s = .done () (s.setPort c { s.port c with tout := (s.port c).tout ++ [w] }) := by
  simp [emit, h]

theorem emit_fails (w : Word) (h : (s.port c).toutErr = true) : emit c w s = .raise .transport (closeChannel c s) := by
  simp [emit, h]

/-- The writer register right-justified with `n` valid bits, and the transport `tout`. -/
theorem appends_of {acc n : Nat} {tout : List Word} {xs : List Bool} (hn : n ≤ 32) (hacc : acc < 2 ^ n) (hp : p.Inv)
    (hb : tout.flatMap wordBits ++ bitsOf acc n = p.outBits ++ xs) (ht : p.tout <+: tout) :
    p.Appends { p with bwAcc := BitVec.ofNat 32 acc, bwN := n, tout := tout } xs ∧
    Port.Inv { p with bwAcc := BitVec.ofNat 32 acc, bwN := n, tout := tout } := by
  have hlt : acc < 2 ^ 32 := lt_of_lt_of_le hacc (Nat.pow_le_pow_right (by decide) hn)
  have hm : (BitVec.ofNat 32 acc).toNat = acc := by rw [BitVec.toNat_ofNat, Nat.mod_eq_of_lt hlt]
  refine ⟨⟨rfl, ?_, ht⟩, ⟨hn, ?_, hp.readerCount, hp.readerBits⟩⟩
  · simp only [Port.outBits, Port.pendingBits, hm]; exact hb
  · simp only [hm]; exact hacc

/-! ### write -/

/-- A `write` that needs no word to leave, or whose transport works, appends its low `k` bits; a word leaves exactly
when the register would hold more than 32 bits. -/
theorem write_done (v : Word) {k : Nat} (hp : (s.port c).Inv) (hk : k ≤ 32)
    (h : (s.port c).toutErr = false ∨ (s.port c).bwN + k ≤ 32) :
    ∃ q, write c v k s = .done () (s.setPort c q) ∧ (s.port c).Appends q (bitsOf v.toNat k) ∧ q.Inv ∧
      q.tout.length = (s.port c).tout.length + (if 32 < (s.port c).bwN + k then 1 else 0) := by
  generalize hpp : s.port c = p at *
  have hn := hp.writerCount
  have hacc := hp.writerBits
  have hu : v.toNat % 2 ^ k < 2 ^ k := Nat.mod_lt _ (Nat.two_pow_pos k)
  unfold write
  simp only [hpp]
  by_cases h0 : k = 0
  · subst h0
    refine ⟨p, by simp [← hpp], Port.Appends.refl p, hp, ?_⟩
    rw [if_neg (by omega)]; rfl
  rw [if_neg h0]
  by_cases hfull : 32 - p.bwN = 0
  · have hn32 : p.bwN = 32 := by omega
    have he : (s.port c).toutErr = false := by rcases h with h | h; exact hpp ▸ h; omega
    rw [if_pos hfull, emit_done _ he, andThen_done]
    obtain ⟨ha, hi⟩ := appends_of (p := p) (tout := p.tout ++ [p.bwAcc]) (xs := bitsOf v.toNat k) hk hu hp
      (by simp [Port.outBits, Port.pendingBits, hn32, wordBits, bitsOf_mod]) (List.prefix_append _ _)
    refine ⟨_, ?_, ha, hi, by simp [hn32]; omega⟩
    simp [setWriter, hpp]
  · rw [if_neg hfull]
    by_cases hfit : k ≤ 32 - p.bwN
    · rw [if_pos hfit]
      have hlt : p.bwAcc.toNat * 2 ^ k + v.toNat % 2 ^ k < 2 ^ (p.bwN + k) :=
        shiftIn_lt hacc hu
      obtain ⟨ha, hi⟩ := appends_of (p := p) (tout := p.tout) (xs := bitsOf v.toNat k) (by omega) hlt hp
        (by rw [bitsOf_append _ _ hu, bitsOf_mod]; simp [Port.outBits, Port.pendingBits]) (List.prefix_refl _)
      refine ⟨_, ?_, ha, hi, ?_⟩
      · simp [setWriter, hpp]
      · rw [if_neg (by omega)]; rfl
    · have he : (s.port c).toutErr = false := by rcases h with h | h; exact hpp ▸ h; omega
      rw [if_neg hfit, emit_done _ he, andThen_done]
      obtain ⟨m, hm⟩ : ∃ m, k = (32 - p.bwN) + m := ⟨k - (32 - p.bwN), by omega⟩
      have hkm : k - (32 - p.bwN) = m := by omega
      rw [hkm]
      have hlo : v.toNat % 2 ^ k % 2 ^ m < 2 ^ m := Nat.mod_lt _ (Nat.two_pow_pos m)
      have hhi : v.toNat % 2 ^ k / 2 ^ m < 2 ^ (32 - p.bwN) := by
        rw [Nat.div_lt_iff_lt_mul (Nat.two_pow_pos m), ← pow_add, ← hm]; exact hu
      have hw : p.bwAcc.toNat * 2 ^ (32 - p.bwN) + v.toNat % 2 ^ k / 2 ^ m < 2 ^ 32 := by
        have := shiftIn_lt hacc hhi
        rwa [show p.bwN + (32 - p.bwN) = 32 by omega] at this
      have hword : wordBits (BitVec.ofNat 32 (p.bwAcc.toNat * 2 ^ (32 - p.bwN) + v.toNat % 2 ^ k / 2 ^ m)) =
          bitsOf p.bwAcc.toNat p.bwN ++ bitsOf (v.toNat % 2 ^ k / 2 ^ m) (32 - p.bwN) := by
        rw [wordBits_ofNat hw, ← bitsOf_append _ _ hhi]; congr 1; omega
      have hv : bitsOf v.toNat k = bitsOf (v.toNat % 2 ^ k / 2 ^ m) (32 - p.bwN) ++ bitsOf (v.toNat % 2 ^ k % 2 ^ m) m := by
        rw [bitsOf_mod _ m, ← bitsOf_mod v.toNat k]; conv_lhs => rw [hm]
        rw [bitsOf_split, ← hm]
      obtain ⟨ha, hi⟩ := appends_of (p := p) (tout := p.tout ++ [BitVec.ofNat 32 (p.bwAcc.toNat * 2 ^ (32 - p.bwN) + v.toNat % 2 ^ k / 2 ^ m)])
        (xs := bitsOf v.toNat k) (by omega) hlo hp
        (by rw [hv]; simp [Port.outBits, Port.pendingBits, hword]) (List.prefix_append _ _)
      refine ⟨_, ?_, ha, hi, ?_⟩
      · simp [setWriter, hpp]
      · rw [if_pos (by omega)]; simp

/-- A `write` whose word cannot leave kills the port. -/
theorem write_fails (v : Word) {k : Nat} (hn : (s.port c).bwN ≤ 32) (h : (s.port c).toutErr = true)
    (hk : 32 < (s.port c).bwN + k) : write c v k s = .raise .transport (closeChannel c s) := by
  unfold write
  simp only
  rw [if_neg (by omega)]
  by_cases hfull : 32 - (s.port c).bwN = 0
  · rw [if_pos hfull, emit_fails _ h, andThen_raise]
  · rw [if_neg hfull, if_neg (by omega), emit_fails _ h, andThen_raise]

/-! ### flush -/

/-- `flush` with a working transport, or nothing pending, pads the bits of the port to a word boundary. -/
theorem flush_done (hp : (s.port c).Inv) (h : (s.port c).toutErr = false ∨ (s.port c).bwN = 0) :
    ∃ q, flush c s = .done () (s.setPort c q) ∧ q = { s.port c with bwAcc := 0, bwN := 0, tout := q.tout } ∧
      q.Inv ∧ q.outBits = padToWord (s.port c).outBits ∧ (s.port c).tout <+: q.tout := by
  generalize hpp : s.port c = p at *
  have hn := hp.writerCount
  have hacc := hp.writerBits
  unfold flush
  simp only [hpp]
  by_cases h0 : p.bwN = 0
  · have ha := hp.noPending h0
    refine ⟨p, by rw [if_pos h0, ← hpp, setPort_port], ?_, hp, ?_, List.prefix_refl _⟩
    · rw [← ha, ← h0]
    · have : (32 - p.outBits.length % 32) % 32 = 0 := by rw [length_outBits]; omega
      simp [padToWord, this]
  · have he : (s.port c).toutErr = false := by rcases h with h | h; exact hpp ▸ h; exact absurd h h0
    rw [if_neg h0, emit_done _ he, andThen_done]
    have hw : p.bwAcc.toNat * 2 ^ (32 - p.bwN) < 2 ^ 32 := by
      have : 2 ^ 32 = 2 ^ p.bwN * 2 ^ (32 - p.bwN) := by rw [← pow_add]; congr 1; omega
      rw [this]; exact Nat.mul_lt_mul_of_pos_right hacc (Nat.two_pow_pos _)
    have hword : wordBits (BitVec.ofNat 32 (p.bwAcc.toNat * 2 ^ (32 - p.bwN))) =
        bitsOf p.bwAcc.toNat p.bwN ++ List.replicate (32 - p.bwN) false := by
      have := bitsOf_append p.bwAcc.toNat p.bwN (b := 0) (m := 32 - p.bwN) (Nat.two_pow_pos _)
      rw [bitsOf_zero, Nat.add_zero] at this
      rw [wordBits_ofNat hw, ← this]; congr 1; omega
    refine ⟨{ p with bwAcc := 0, bwN := 0, tout := p.tout ++ [BitVec.ofNat 32 (p.bwAcc.toNat * 2 ^ (32 - p.bwN))] },
      by simp [setWriter, hpp], rfl, ⟨by simp, by simp, hp.readerCount, hp.readerBits⟩, ?_, List.prefix_append _ _⟩
    have hpad : (32 - p.outBits.length % 32) % 32 = 32 - p.bwN := by rw [length_outBits]; omega
    rw [padToWord, hpad]
    simp [Port.outBits, Port.pendingBits, hword, bitsOf]

/-- `flush` with bits pending and a failed transport kills the port. -/
theorem flush_fails (h : (s.port c).toutErr = true) (hn : (s.port c).bwN ≠ 0) :
    flush c s = .raise .transport (closeChannel c s) := by
  simp [flush, hn, emit_fails _ h]

/-! ### read -/

/-- `read` from a register that holds enough bits. -/
theorem readFrom_held {k : Nat} (hp : (s.port c).Inv) (hk : k ≤ (s.port c).brN) :
    ∃ q, readFrom c k s = .done (BitVec.ofNat 32 (natOfBits ((s.port c).inBits.take k))) (s.setPort c q) ∧
      (s.port c).Consumes q k ∧ q.Inv := by
  generalize hpp : s.port c = p at *
  have hn := hp.readerCount
  unfold readFrom
  simp only [hpp]
  rw [if_pos hk]
  have hres : p.brAcc.toNat / 2 ^ (32 - k) = natOfBits (p.inBits.take k) := by
    rw [Port.inBits, List.take_append_of_le_length (by rw [hp.length_fetchedBits]; exact hk), Port.fetchedBits,
      List.take_take, Nat.min_eq_left hk, wordBits, take_bitsOf _ _ (by omega), natOfBits_bitsOf, Nat.mod_eq_of_lt]
    rw [Nat.div_lt_iff_lt_mul (Nat.two_pow_pos _), ← pow_add]
    have := p.brAcc.isLt
    rwa [show k + (32 - k) = 32 by omega]
  have hbits : bitsOf (p.brAcc.toNat * 2 ^ k) 32 = (wordBits p.brAcc).drop k ++ List.replicate k false := by
    have := bitsOf_append p.brAcc.toNat (32 - k) (b := 0) (m := k) (Nat.two_pow_pos _)
    rw [bitsOf_zero, Nat.add_zero, show 32 - k + k = 32 by omega] at this
    rw [this, wordBits, drop_bitsOf _ _ (by omega)]
  refine ⟨{ p with brAcc := BitVec.ofNat 32 (p.brAcc.toNat * 2 ^ k), brN := p.brN - k }, by simp [setReader, hpp, hres],
    ⟨rfl, ?_, ?_⟩, ⟨hp.writerCount, hp.writerBits, ?_, ?_⟩⟩
  · simp only [Port.inBits, Port.fetchedBits]
    rw [List.drop_append_of_le_length (by simp; omega)]
    congr 1
    rw [wordBits, BitVec.toNat_ofNat, bitsOf_mod, hbits, List.take_append_of_le_length (by simp; omega), List.drop_take]
  · have : wordsToRead p.brN k = 0 := by unfold wordsToRead; omega
    simp [this]
  · simp; omega
  · simp only [BitVec.toNat_ofNat]
    have h1 : 2 ^ (32 - (p.brN - k)) ∣ 2 ^ 32 := Nat.pow_dvd_pow 2 (by omega)
    have h2 : 2 ^ (32 - (p.brN - k)) ∣ p.brAcc.toNat * 2 ^ k := by
      rw [show 32 - (p.brN - k) = (32 - p.brN) + k by omega, pow_add]
      exact Nat.mul_dvd_mul_right (Nat.dvd_of_mod_eq_zero hp.readerBits) _
    exact Nat.mod_eq_zero_of_dvd ((Nat.dvd_mod_iff h1).mpr h2)

/-- The port with the head of its transport fetched. -/
theorem refill_done {w : Word} {rest : List Word} (h : (s.port c).tin = w :: rest) :
    refill c s = .done () (s.setPort c { s.port c with brAcc := w, brN := 32, tin := rest }) := by
  simp [refill, h]

theorem refill_empty (h : (s.port c).tin = []) :
    refill c s = if (s.port c).tinEos then .raise .transport (closeChannel c s) else .hold := by
  simp [refill, h]

/-- `read` of at most 32 bits that are at hand: their value, right-justified, and nothing fetched too early. -/
theorem read_done {k : Nat} (hp : (s.port c).Inv) (hk : k ≤ 32) (h : k ≤ (s.port c).inBits.length) :
    ∃ q, read c k s = .done (BitVec.ofNat 32 (natOfBits ((s.port c).inBits.take k))) (s.setPort c q) ∧
      (s.port c).Consumes q k ∧ q.Inv := by
  have hn := hp.readerCount
  have hlen := hp.length_inBits
  unfold read
  by_cases h0 : k = 0
  · subst h0
    exact ⟨s.port c, by simp, Port.Consumes.refl _ hp, hp⟩
  rw [if_neg h0]
  by_cases hz : (s.port c).brN = 0
  · rw [if_pos hz]
    have hne : (s.port c).tin ≠ [] := by intro he; rw [he] at hlen; simp at hlen; omega
    obtain ⟨w, rest, ht⟩ := List.exists_cons_of_ne_nil hne
    rw [refill_done ht, andThen_done]
    set p := s.port c with hpp
    have hfull : Port.Inv { p with brAcc := w, brN := 32, tin := rest } :=
      ⟨hp.writerCount, hp.writerBits, by simp, by simp [Nat.mod_one]⟩
    have hin : Port.inBits { p with brAcc := w, brN := 32, tin := rest } = p.inBits := by
      simp [Port.inBits, Port.fetchedBits, hz, ht, List.take_of_length_le]
    obtain ⟨q, hq, hc, hi⟩ := readFrom_held (c := c) (s := s.setPort c { p with brAcc := w, brN := 32, tin := rest })
      (k := k) (by simpa using hfull) (by simpa using hk)
    simp only [port_setPort_self, setPort_setPort, hin] at hq hc
    refine ⟨q, hq, ⟨by rw [hc.same], by rw [hc.bits, hin], ?_⟩, hi⟩
    have h1 : wordsToRead 32 k = 0 := by unfold wordsToRead; omega
    have h2 : wordsToRead p.brN k = 1 := by unfold wordsToRead; omega
    rw [hc.lazy, h2, ht]
    simp [h1]
  · rw [if_neg hz]
    by_cases hkn : k ≤ (s.port c).brN
    · exact readFrom_held hp hkn
    · unfold readFrom
      simp only
      rw [if_neg hkn]
      have hne : (s.port c).tin ≠ [] := by intro he; rw [he] at hlen; simp at hlen; omega
      obtain ⟨w, rest, ht⟩ := List.exists_cons_of_ne_nil hne
      rw [refill_done ht, andThen_done]
      set p := s.port c with hpp
      have hfull : Port.Inv { p with brAcc := w, brN := 32, tin := rest } :=
        ⟨hp.writerCount, hp.writerBits, by simp, by simp [Nat.mod_one]⟩
      obtain ⟨q, hq, hc, hi⟩ := readFrom_held (c := c) (s := s.setPort c { p with brAcc := w, brN := 32, tin := rest })
        (k := k - p.brN) (by simpa using hfull) (by simp; omega)
      have hin : Port.inBits { p with brAcc := w, brN := 32, tin := rest } = wordBits w ++ rest.flatMap wordBits := by
        simp [Port.inBits, Port.fetchedBits, List.take_of_length_le]
      have hpin : p.inBits = p.fetchedBits ++ (wordBits w ++ rest.flatMap wordBits) := by
        simp [Port.inBits, ht]
      simp only [port_setPort_self, setPort_setPort, hin] at hq hc
      refine ⟨q, ?_, ⟨by rw [hc.same], ?_, ?_⟩, hi⟩
      · unfold readFrom at hq
        simp only [port_setPort_self] at hq ⊢
        rw [if_pos (by omega)] at hq
        simp only [setReader, port_setPort_self, setPort_setPort, Res.done.injEq] at hq ⊢
        refine ⟨?_, hq.2⟩
        have hr := congrArg BitVec.toNat hq.1
        have hm : k - p.brN ≤ 32 := by omega
        have htake : List.take (k - p.brN) (wordBits w ++ rest.flatMap wordBits) = (wordBits w).take (k - p.brN) :=
          List.take_append_of_le_length (by simpa using hm)
        congr 1
        rw [hpin, List.take_append, List.take_of_length_le (by rw [hp.length_fetchedBits]; omega),
          hp.length_fetchedBits, htake, natOfBits_append, List.length_take, length_wordBits, Nat.min_eq_left hm]
        congr 1
        · congr 1
          rw [Port.fetchedBits, wordBits, take_bitsOf _ _ hn, natOfBits_bitsOf, Nat.mod_eq_of_lt]
          rw [Nat.div_lt_iff_lt_mul (Nat.two_pow_pos _), ← pow_add]
          have := p.brAcc.isLt
          rwa [show p.brN + (32 - p.brN) = 32 by omega]
        · rw [wordBits, take_bitsOf _ _ hm, natOfBits_bitsOf, Nat.mod_eq_of_lt]
          rw [Nat.div_lt_iff_lt_mul (Nat.two_pow_pos _), ← pow_add]
          have := w.isLt
          rwa [show k - p.brN + (32 - (k - p.brN)) = 32 by omega]
      · rw [hc.bits, hin, hpin, List.drop_append (l₁ := p.fetchedBits), List.drop_of_length_le (l := p.fetchedBits) (by rw [hp.length_fetchedBits]; omega),
          hp.length_fetchedBits, List.nil_append]
      · have h1 : wordsToRead 32 (k - p.brN) = 0 := by unfold wordsToRead; omega
        have h2 : wordsToRead p.brN k = 1 := by unfold wordsToRead; omega
        rw [hc.lazy, h2, ht]
        simp [h1]

/-- `read` of more bits than are at hand: a hold, or at the end of the input the death of the port. -/
theorem read_short {k : Nat} (hp : (s.port c).Inv) (hk : k ≤ 32) (h : (s.port c).inBits.length < k) :
    read c k s = if (s.port c).tinEos then .raise .transport (closeChannel c s) else .hold := by
  have hlen := hp.length_inBits
  have ht : (s.port c).tin = [] := by
    cases he : (s.port c).tin with
    | nil => rfl
    | cons w rest => rw [he] at hlen; simp at hlen; omega
  unfold read
  rw [if_neg (by omega)]
  by_cases hz : (s.port c).brN = 0
  · rw [if_pos hz, refill_empty ht]
    split <;> rfl
  · rw [if_neg hz]
    unfold readFrom
    simp only
    rw [ht] at hlen
    rw [if_neg (by simp at hlen; omega), refill_empty ht]
    split <;> rfl

/-! ### align -/

/-- `align` empties the reader register and nothing else. -/
theorem align_eq (c : PortNo) (s : State) : align c s = s.setPort c { s.port c with brAcc := 0, brN := 0 } := rfl

theorem align_inv (hp : (s.port c).Inv) : Port.Inv { s.port c with brAcc := 0, brN := 0 } :=
  ⟨hp.writerCount, hp.writerBits, by simp, by simp⟩

end Sys2Proof.Machine
end

