-- ==== Sys2Proof/Laws/CodeTrees.lean ====
section
/-! SUPPORT. The table of a code tree is well-formed (41_prefix_code.md rules R152, R157, R160): once for every tree whose
leaves hold the symbols 0 to n - 1 and whose depth is at most 32. -/

namespace Sys2Proof.Machine

/-- The subtree at the end of a path, with its index in the layout that starts at `i`. -/
def CodeTree.sub : CodeTree → Nat → List Bool → Option (CodeTree × Nat)
  | T, i, [] => some (T, i)
  | .leaf _, _, _ :: _ => none
  | .node x y, i, b :: rest => if b then y.sub (i + 1 + x.size) rest else x.sub (i + 1) rest

/-- The node that a tree laid out from index `i` has there. -/
def CodeTree.top (i : Nat) : CodeTree → Node
  | .leaf sym => .leaf sym
  | .node x _ => .node (i + 1) (i + 1 + x.size)

@[simp] theorem CodeTree.sub_nil (T : CodeTree) (i : Nat) : T.sub i [] = some (T, i) := by cases T <;> rfl

theorem CodeTree.size_pos (T : CodeTree) : 1 ≤ T.size := by cases T <;> simp [CodeTree.size]

@[simp] theorem CodeTree.length_layout (T : CodeTree) (i : Nat) : (T.layout i).length = T.size := by
  induction T generalizing i with
  | leaf sym => rfl
  | node x y hx hy => simp [CodeTree.layout, CodeTree.size, hx, hy]

theorem CodeTree.sub_bounds {T T' : CodeTree} {i j : Nat} {path : List Bool} (h : T.sub i path = some (T', j)) :
    i + path.length ≤ j ∧ j + T'.size ≤ i + T.size ∧ path.length + T'.depth ≤ T.depth := by
  induction path generalizing T i with
  | nil => simp only [CodeTree.sub, Option.some.injEq, Prod.mk.injEq] at h; obtain ⟨rfl, rfl⟩ := h; simp
  | cons b rest ih =>
    cases T with
    | leaf sym => simp [CodeTree.sub] at h
    | node x y =>
      have hx := x.size_pos
      simp only [CodeTree.sub] at h
      simp only [List.length_cons, CodeTree.size, CodeTree.depth]
      split at h
      · have := ih h; omega
      · have := ih h; omega

theorem CodeTree.sub_append {T T' : CodeTree} {i j : Nat} {path : List Bool} (more : List Bool)
    (h : T.sub i path = some (T', j)) : T.sub i (path ++ more) = T'.sub j more := by
  induction path generalizing T i with
  | nil => simp only [CodeTree.sub, Option.some.injEq, Prod.mk.injEq] at h; obtain ⟨rfl, rfl⟩ := h; simp
  | cons b rest ih =>
    cases T with
    | leaf sym => simp [CodeTree.sub] at h
    | node x y =>
      simp only [CodeTree.sub, List.cons_append] at h ⊢
      split at h
      · rename_i hb; rw [if_pos hb]; exact ih h
      · rename_i hb; rw [if_neg hb]; exact ih h

/-- The node at an index is the top of the subtree laid out there. -/
theorem CodeTree.layout_get {T T' : CodeTree} {i j : Nat} {path : List Bool} (h : T.sub i path = some (T', j)) :
    (T.layout i)[j - i]? = some (T'.top j) := by
  induction path generalizing T i with
  | nil =>
    simp only [CodeTree.sub, Option.some.injEq, Prod.mk.injEq] at h
    obtain ⟨rfl, rfl⟩ := h
    cases T <;> simp [CodeTree.layout, CodeTree.top]
  | cons b rest ih =>
    cases T with
    | leaf sym => simp [CodeTree.sub] at h
    | node x y =>
      simp only [CodeTree.sub] at h
      simp only [CodeTree.layout]
      split at h
      · have hb := CodeTree.sub_bounds h
        rw [show j - i = (x.size + (j - (i + 1 + x.size))) + 1 by omega, List.getElem?_cons_succ,
          List.getElem?_append_right (by simp), CodeTree.length_layout, Nat.add_sub_cancel_left]
        exact ih h
      · have hb := CodeTree.sub_bounds h
        have hp := CodeTree.size_pos T'
        rw [show j - i = (j - (i + 1)) + 1 by omega, List.getElem?_cons_succ,
          List.getElem?_append_left (by simp; omega)]
        exact ih h

/-- Every index of the layout is the index of a subtree. -/
theorem CodeTree.exists_sub (T : CodeTree) (i j : Nat) (hi : i ≤ j) (hj : j < i + T.size) :
    ∃ path T', T.sub i path = some (T', j) := by
  induction T generalizing i with
  | leaf sym => exact ⟨[], .leaf sym, by simp [CodeTree.size] at hj; simp; omega⟩
  | node x y hx hy =>
    simp only [CodeTree.size] at hj
    by_cases h0 : j = i
    · exact ⟨[], .node x y, by simp [h0]⟩
    · by_cases h1 : j < i + 1 + x.size
      · obtain ⟨path, T', h⟩ := hx (i + 1) (by omega) h1
        exact ⟨false :: path, T', by simpa [CodeTree.sub] using h⟩
      · obtain ⟨path, T', h⟩ := hy (i + 1 + x.size) (by omega) (by omega)
        exact ⟨true :: path, T', by simpa [CodeTree.sub] using h⟩

/-- A path is determined by the index it ends at. -/
theorem CodeTree.sub_unique {T T1 T2 : CodeTree} {i j : Nat} {p1 p2 : List Bool} (h1 : T.sub i p1 = some (T1, j))
    (h2 : T.sub i p2 = some (T2, j)) : p1 = p2 := by
  induction p1 generalizing T i p2 with
  | nil =>
    simp only [CodeTree.sub, Option.some.injEq, Prod.mk.injEq] at h1
    obtain ⟨rfl, rfl⟩ := h1
    have := (CodeTree.sub_bounds h2).1
    cases p2 with
    | nil => rfl
    | cons b rest => simp at this
  | cons b rest ih =>
    cases T with
    | leaf sym => simp [CodeTree.sub] at h1
    | node x y =>
      have hs := T1.size_pos
      have hs2 := T2.size_pos
      cases p2 with
      | nil =>
        have := (CodeTree.sub_bounds h1).1
        simp only [CodeTree.sub, Option.some.injEq, Prod.mk.injEq] at h2
        simp at this; omega
      | cons b' rest' =>
        simp only [CodeTree.sub] at h1 h2
        cases b <;> cases b' <;> simp only [Bool.false_eq_true, if_false, if_true] at h1 h2
        · rw [ih h1 h2]
        · have a1 := CodeTree.sub_bounds h1; have a2 := CodeTree.sub_bounds h2; omega
        · have a1 := CodeTree.sub_bounds h1; have a2 := CodeTree.sub_bounds h2; omega
        · rw [ih h1 h2]

/-- The exported codes are the paths to the leaves (41 R157). -/
theorem CodeTree.mem_codes (T : CodeTree) (i b l sym bits length : Nat) :
    (sym, bits, length) ∈ T.codes b l ↔
      ∃ path j, T.sub i path = some (.leaf sym, j) ∧ bits = b * 2 ^ path.length + natOfBits path ∧
        length = l + path.length := by
  induction T generalizing i b l with
  | leaf s =>
    simp only [CodeTree.codes, List.mem_singleton, Prod.mk.injEq]
    constructor
    · rintro ⟨rfl, rfl, rfl⟩; exact ⟨[], i, by simp, by simp, by simp⟩
    · rintro ⟨path, j, h, hb, hl⟩
      cases path with
      | nil => simp [CodeTree.sub] at h; simp_all
      | cons b rest => simp [CodeTree.sub] at h
  | node x y hx hy =>
    rw [CodeTree.codes, List.mem_append, hx (i + 1), hy (i + 1 + x.size)]
    constructor
    · rintro (⟨path, j, h, hb, hl⟩ | ⟨path, j, h, hb, hl⟩)
      · exact ⟨false :: path, j, by simpa [CodeTree.sub] using h, by rw [hb, natOfBits_cons, List.length_cons, pow_succ]; simp; ring,
          by rw [hl, List.length_cons]; omega⟩
      · exact ⟨true :: path, j, by simpa [CodeTree.sub] using h, by rw [hb, natOfBits_cons, List.length_cons, pow_succ]; simp; ring,
          by rw [hl, List.length_cons]; omega⟩
    · rintro ⟨path, j, h, hb, hl⟩
      cases path with
      | nil => simp [CodeTree.sub] at h
      | cons d rest =>
        rw [natOfBits_cons, List.length_cons, pow_succ] at hb
        rw [List.length_cons] at hl
        simp only [CodeTree.sub] at h
        cases d
        · exact .inl ⟨rest, j, by simpa using h, by rw [hb]; simp; ring, by omega⟩
        · exact .inr ⟨rest, j, by simpa using h, by rw [hb]; simp; ring, by omega⟩

theorem CodeTree.size_eq (T : CodeTree) (b l : Nat) : T.size + 1 = 2 * (T.codes b l).length := by
  induction T generalizing b l with
  | leaf s => rfl
  | node x y hx hy =>
    have h1 := hx (2 * b) (l + 1)
    have h2 := hy (2 * b + 1) (l + 1)
    simp only [CodeTree.size, CodeTree.codes, List.length_append]; omega

/-- Following links in the layout is descending the tree. -/
theorem CodeTree.follow_layout {T T' : CodeTree} {j : Nat} {path : List Bool} (prior : List Bool)
    (hp : T.sub 0 prior = some (T', j)) (k : Nat) :
    follow (T.layout 0) j path = some k → path = [] ∧ k = j ∨ ∃ T'', T'.sub j path = some (T'', k) := by
  induction path generalizing T' j prior with
  | nil => simp [follow]; intro h; exact .inl h.symm
  | cons b rest ih =>
    intro h
    have hget := CodeTree.layout_get hp
    rw [Nat.sub_zero] at hget
    simp only [follow, hget] at h
    cases T' with
    | leaf s => simp [CodeTree.top] at h
    | node x y =>
      simp only [CodeTree.top] at h
      refine .inr ?_
      cases b
      · have hs : T.sub 0 (prior ++ [false]) = some (x, j + 1) := by
          rw [CodeTree.sub_append _ hp]; simp [CodeTree.sub]
        rcases ih _ hs (by simpa using h) with ⟨h1, h2⟩ | ⟨T'', h1⟩
        · subst h1; subst h2; exact ⟨x, by simp [CodeTree.sub]⟩
        · exact ⟨T'', by simpa [CodeTree.sub] using h1⟩
      · have hs : T.sub 0 (prior ++ [true]) = some (y, j + 1 + x.size) := by
          rw [CodeTree.sub_append _ hp]; simp [CodeTree.sub]
        rcases ih _ hs (by simpa using h) with ⟨h1, h2⟩ | ⟨T'', h1⟩
        · subst h1; subst h2; exact ⟨y, by simp [CodeTree.sub]⟩
        · exact ⟨T'', by simpa [CodeTree.sub] using h1⟩

theorem CodeTree.sub_of_follow {T : CodeTree} {path : List Bool} {k : Nat}
    (h : follow (T.layout 0) 0 path = some k) : ∃ T', T.sub 0 path = some (T', k) := by
  rcases CodeTree.follow_layout [] (T' := T) (j := 0) (T.sub_nil 0) k h with ⟨rfl, rfl⟩ | h
  · exact ⟨T, T.sub_nil 0⟩
  · exact h

theorem CodeTree.follow_of_sub {T T' T'' : CodeTree} {j k : Nat} {path : List Bool} (prior : List Bool)
    (hp : T.sub 0 prior = some (T', j)) (h : T'.sub j path = some (T'', k)) :
    follow (T.layout 0) j path = some k := by
  induction path generalizing T' j prior with
  | nil => simp only [CodeTree.sub, Option.some.injEq, Prod.mk.injEq] at h; simp [follow, h.2]
  | cons b rest ih =>
    have hget := CodeTree.layout_get hp
    rw [Nat.sub_zero] at hget
    cases T' with
    | leaf s => simp [CodeTree.sub] at h
    | node x y =>
      simp only [follow, hget, CodeTree.top]
      simp only [CodeTree.sub] at h
      cases b
      · exact ih (T' := x) (prior ++ [false]) (by rw [CodeTree.sub_append _ hp]; simp [CodeTree.sub]) (by simpa using h)
      · exact ih (T' := y) (prior ++ [true]) (by rw [CodeTree.sub_append _ hp]; simp [CodeTree.sub]) (by simpa using h)

/-- What stands at an index of the layout. -/
theorem CodeTree.of_layout_get {T : CodeTree} {j : Nat} {nd : Node} (h : (T.layout 0)[j]? = some nd) :
    ∃ path T', T.sub 0 path = some (T', j) ∧ nd = T'.top j := by
  have hj : j < T.size := by
    have := List.getElem?_eq_some_iff.mp h
    obtain ⟨hlt, _⟩ := this
    simpa using hlt
  obtain ⟨path, T', hs⟩ := T.exists_sub 0 j (by omega) (by omega)
  have := CodeTree.layout_get hs
  rw [Nat.sub_zero, h] at this
  exact ⟨path, T', hs, by simpa using this⟩

/-- A child in the layout lies one branch further on. -/
theorem CodeTree.sub_of_isChild {T : CodeTree} {i j : Nat} (h : IsChild (T.layout 0) i j) :
    ∃ path b T' T'', T.sub 0 path = some (T', i) ∧ T.sub 0 (path ++ [b]) = some (T'', j) := by
  obtain ⟨c0, c1, hget, hj⟩ := h
  obtain ⟨path, T', hs, htop⟩ := CodeTree.of_layout_get hget
  cases T' with
  | leaf s => simp [CodeTree.top] at htop
  | node x y =>
    simp only [CodeTree.top, Node.node.injEq] at htop
    rcases hj with rfl | rfl
    · exact ⟨path, false, _, x, hs, by rw [CodeTree.sub_append _ hs]; simp [CodeTree.sub, htop.1]⟩
    · exact ⟨path, true, _, y, hs, by rw [CodeTree.sub_append _ hs]; simp [CodeTree.sub, htop.2]⟩

/-- The table of a code tree is well-formed when the leaves hold the symbols 0 to n - 1 and no path is longer than 32
(41 R152). -/
theorem CodeTree.toTable_wf (T : CodeTree) (n : Nat)
    (hperm : ((T.codes 0 0).map (·.1)).Perm (List.range n)) (hdepth : T.depth ≤ 32) : TableWF (T.toTable n) n := by
  have hlen : (T.codes 0 0).length = n := by simpa using hperm.length_eq
  have hsize : T.size + 1 = 2 * n := by rw [T.size_eq 0 0, hlen]
  have hpos := T.size_pos
  have hnodup : ((T.codes 0 0).map (·.1)).Nodup := hperm.nodup_iff.mpr List.nodup_range
  have hmem : ∀ sym, sym ∈ (T.codes 0 0).map (·.1) ↔ sym < n := fun sym => by rw [hperm.mem_iff, List.mem_range]
  have huniq : ∀ {sym p1 p2 j1 j2}, T.sub 0 p1 = some (.leaf sym, j1) → T.sub 0 p2 = some (.leaf sym, j2) → p1 = p2 := by
    intro sym p1 p2 j1 j2 h1 h2
    have m1 : (sym, natOfBits p1, p1.length) ∈ T.codes 0 0 := (T.mem_codes 0 0 0 _ _ _).mpr ⟨p1, j1, h1, by simp, by simp⟩
    have m2 : (sym, natOfBits p2, p2.length) ∈ T.codes 0 0 := (T.mem_codes 0 0 0 _ _ _).mpr ⟨p2, j2, h2, by simp, by simp⟩
    have := List.inj_on_of_nodup_map hnodup m1 m2 rfl
    simp only [Prod.mk.injEq, true_and] at this
    rw [← bitsOf_natOfBits p1, ← bitsOf_natOfBits p2, this.1, this.2]
  have hleaf : ∀ {sym}, sym < n → ∃ path j, T.sub 0 path = some (.leaf sym, j) := by
    intro sym h
    obtain ⟨⟨s, b, l⟩, hm, hs⟩ := List.mem_map.mp ((hmem sym).mpr h)
    obtain ⟨path, j, hp, -⟩ := (T.mem_codes 0 0 0 _ _ _).mp hm
    simp only at hs; subst hs
    exact ⟨path, j, hp⟩
  have hget : ∀ {path T' j}, T.sub 0 path = some (T', j) → (T.layout 0)[j]? = some (T'.top j) := by
    intro path T' j h; have := CodeTree.layout_get h; rwa [Nat.sub_zero] at this
  have hleafAt : ∀ {i sym}, (T.layout 0)[i]? = some (Node.leaf sym) → ∃ path, T.sub 0 path = some (.leaf sym, i) := by
    intro i sym h
    obtain ⟨path, T', hs, htop⟩ := CodeTree.of_layout_get h
    cases T' with
    | leaf s => simp only [CodeTree.top, Node.leaf.injEq] at htop; subst htop; exact ⟨path, hs⟩
    | node x y => simp [CodeTree.top] at htop
  refine ⟨by omega, by simp [CodeTree.toTable], by simp [CodeTree.toTable]; omega, ?_, ?_, ?_, ?_, ?_, ?_⟩
  · intro i c0 c1 h
    obtain ⟨path, T', hs, htop⟩ := CodeTree.of_layout_get h
    have hb := (CodeTree.sub_bounds hs).2.1
    cases T' with
    | leaf s => simp [CodeTree.top] at htop
    | node x y =>
      simp only [CodeTree.top, Node.node.injEq] at htop
      have hx := x.size_pos
      have hy := y.size_pos
      simp only [CodeTree.size] at hb
      omega
  · intro j h1 h2
    obtain ⟨path, T', hs⟩ := T.exists_sub 0 j (by omega) (by omega)
    rcases List.eq_nil_or_concat path with rfl | ⟨init, b, rfl⟩
    · simp only [CodeTree.sub, Option.some.injEq, Prod.mk.injEq] at hs; omega
    · have hb := CodeTree.sub_bounds hs
      obtain ⟨T1, i, hi⟩ : ∃ T1 i, T.sub 0 init = some (T1, i) := by
        have key : ∀ (p : List Bool) (U : CodeTree) (k : Nat) (q : List Bool) (r : CodeTree × Nat),
            U.sub k (p ++ q) = some r → ∃ T1 i, U.sub k p = some (T1, i) := by
          intro p
          induction p with
          | nil => intro U k q r _; exact ⟨U, k, U.sub_nil k⟩
          | cons d rest ih =>
            intro U k q r h
            cases U with
            | leaf s => simp [CodeTree.sub] at h
            | node x y =>
              simp only [CodeTree.sub, List.cons_append] at h ⊢
              split at h <;> rename_i hd <;> simp only [hd] <;> exact ih _ _ _ _ h
        exact key init T 0 [b] (T', j) (by simpa using hs)
      refine ⟨i, ?_, ?_⟩
      · have hch := hs
        rw [List.concat_eq_append, CodeTree.sub_append _ hi] at hch
        cases T1 with
        | leaf s => simp [CodeTree.sub] at hch
        | node x y =>
          refine ⟨i + 1, i + 1 + x.size, hget hi, ?_⟩
          cases b <;> simp [CodeTree.sub] at hch <;> omega
      · intro i' hi'
        obtain ⟨p', b', T2, T3, h2, h3⟩ := CodeTree.sub_of_isChild hi'
        have := CodeTree.sub_unique h3 hs
        rw [List.concat_eq_append] at this
        obtain ⟨rfl, -⟩ := List.append_inj' this rfl
        rw [h2] at hi; simp only [Option.some.injEq, Prod.mk.injEq] at hi; exact hi.2
  · intro j hj
    obtain ⟨path, T', hs⟩ := T.exists_sub 0 j (by omega) (by omega)
    exact ⟨path, CodeTree.follow_of_sub [] (T.sub_nil 0) hs⟩
  · intro sym h
    obtain ⟨path, j, hp⟩ := hleaf h
    refine ⟨j, hget hp, ?_⟩
    intro i' hi'
    obtain ⟨p', hp'⟩ := hleafAt hi'
    have := huniq hp' hp
    subst this
    rw [hp'] at hp; simp only [Option.some.injEq, Prod.mk.injEq] at hp; exact hp.2
  · intro i sym h
    obtain ⟨path, hp⟩ := hleafAt h
    exact (hmem sym).mp (List.mem_map.mpr
      ⟨_, (T.mem_codes 0 0 0 sym (natOfBits path) path.length).mpr ⟨path, i, hp, by simp, by simp⟩, rfl⟩)
  · intro path i sym hf hl
    obtain ⟨T', hs⟩ := CodeTree.sub_of_follow hf
    have htop := hget hs
    simp only [CodeTree.toTable] at hl
    rw [htop] at hl
    have hT : T' = .leaf sym := by cases T' <;> simp_all [CodeTree.top]
    subst hT
    have hm : (sym, natOfBits path, path.length) ∈ T.codes 0 0 :=
      (T.mem_codes 0 0 0 _ _ _).mpr ⟨path, i, hs, by simp, by simp⟩
    have hd := (CodeTree.sub_bounds hs).2.2
    simp only [CodeTree.depth] at hd
    have hsym : sym < n := (hmem sym).mp (List.mem_map.mpr ⟨_, hm, rfl⟩)
    have hentry : entryFor (T.codes 0 0) sym = ⟨BitVec.ofNat 32 (natOfBits path), path.length⟩ := by
      unfold entryFor
      cases hfind : (T.codes 0 0).find? fun code => code.1 == sym with
      | none => have := List.find?_eq_none.mp hfind _ hm; simp at this
      | some code =>
        obtain ⟨s, b, l⟩ := code
        have h1 := List.mem_of_find?_eq_some hfind
        have h2 := List.find?_some hfind
        have h3 := List.inj_on_of_nodup_map hnodup h1 hm (by simpa using h2)
        simp only [Prod.mk.injEq] at h3
        simp [h3]
    refine ⟨entryFor (T.codes 0 0) sym, by simp [CodeTree.toTable, hsym], by simp [hentry], by omega, ?_⟩
    rw [hentry, BitVec.toNat_ofNat, Nat.mod_eq_of_lt]
    exact lt_of_lt_of_le (natOfBits_lt path) (Nat.pow_le_pow_right (by decide) (by omega))

end Sys2Proof.Machine
end

