-- ==== Sys2Proof/Laws/Builder.lean ====
section
/-! SUPPORT. The kept order of `Q` is the order of extraction, so what the builder makes is a tree that the extraction rule
allows (41_prefix_code.md rules R154, R155). -/

namespace Sys2Proof.Machine

theorem extractedBefore_iff (a b : QNode) :
    extractedBefore a b = true ↔ a.freq < b.freq ∨ (a.freq = b.freq ∧ a.seq < b.seq) := by
  simp [extractedBefore]

theorem extractedBefore_trans {a b c : QNode} (h : extractedBefore a b = true) (h' : extractedBefore b c = true) :
    extractedBefore a c = true := by
  rw [extractedBefore_iff] at *; omega

theorem insertQ_perm (z : QNode) (q : List QNode) : (insertQ z q).Perm (z :: q) := by
  induction q with
  | nil => exact List.Perm.refl _
  | cons x rest ih =>
    unfold insertQ
    split
    · exact List.Perm.refl _
    · exact (ih.cons x).trans (List.Perm.swap z x rest)

/-- `Q` in the order of extraction. -/
def OrderedQ (q : List QNode) : Prop := q.Pairwise fun a b => extractedBefore a b = true

theorem insertQ_ordered {z : QNode} {q : List QNode} (hq : OrderedQ q) (hz : ∀ x ∈ q, x.seq ≠ z.seq) :
    OrderedQ (insertQ z q) := by
  induction q with
  | nil => exact List.pairwise_singleton _ _
  | cons x rest ih =>
    obtain ⟨hx, hrest⟩ := List.pairwise_cons.mp hq
    unfold insertQ
    split
    · rename_i hlt
      refine List.pairwise_cons.mpr ⟨fun y hy => ?_, hq⟩
      rcases List.mem_cons.mp hy with rfl | hy
      · exact hlt
      · exact extractedBefore_trans hlt (hx y hy)
    · rename_i hlt
      refine List.pairwise_cons.mpr ⟨fun y hy => ?_, ih hrest fun y hy => hz y (List.mem_cons_of_mem _ hy)⟩
      rcases List.mem_cons.mp ((insertQ_perm z rest).mem_iff.mp hy) with rfl | hy
      · have hne := hz x List.mem_cons_self
        rw [Bool.not_eq_true, ← Bool.not_eq_true, extractedBefore_iff] at hlt
        rw [extractedBefore_iff]
        omega
      · exact hx y hy

theorem isMin_of_ordered {x : QNode} {rest q : List QNode} (h : OrderedQ (x :: rest)) (hq : q.Perm (x :: rest)) :
    IsMin x q := by
  refine ⟨hq.mem_iff.mpr List.mem_cons_self, fun y hy => ?_⟩
  rcases List.mem_cons.mp (hq.mem_iff.mp hy) with rfl | hy
  · exact .inr ⟨rfl, le_refl _⟩
  · have := (extractedBefore_iff x y).mp ((List.pairwise_cons.mp h).1 y hy)
    omega

theorem mergeQ_builds (rounds next : Nat) (q : List QNode) (hord : OrderedQ q) (hseq : ∀ x ∈ q, x.seq < next)
    (hne : q ≠ []) (hlen : q.length ≤ rounds + 1) :
    ∃ z, mergeQ rounds next q = [z] ∧ ∀ q', q'.Perm q → BuildsTree next q' z.tree := by
  induction rounds generalizing next q with
  | zero =>
    match q, hne, hlen with
    | [z], _, _ => exact ⟨z, rfl, fun q' hq' => by rw [List.perm_singleton.mp hq']; exact .root next z⟩
  | succ rounds ih =>
    match q, hne, hlen with
    | [z], _, _ => exact ⟨z, rfl, fun q' hq' => by rw [List.perm_singleton.mp hq']; exact .root next z⟩
    | x :: y :: rest, _, hlen =>
      have hyrest := (List.pairwise_cons.mp hord).2
      have hperm := insertQ_perm ⟨x.freq + y.freq, next, .node x.tree y.tree⟩ rest
      obtain ⟨z, hz, hbuilds⟩ := ih (next + 1) (insertQ ⟨x.freq + y.freq, next, .node x.tree y.tree⟩ rest)
        (insertQ_ordered (List.pairwise_cons.mp hyrest).2 fun w hw => by
          have := hseq w (List.mem_cons_of_mem _ (List.mem_cons_of_mem _ hw)); simp only; omega)
        (fun w hw => by
          rcases List.mem_cons.mp (hperm.mem_iff.mp hw) with rfl | hw
          · exact Nat.lt_succ_self next
          · have := hseq w (List.mem_cons_of_mem _ (List.mem_cons_of_mem _ hw)); omega)
        (fun h => by rw [h] at hperm; exact absurd hperm.length_eq (by simp))
        (by rw [hperm.length_eq]; simp only [List.length_cons] at hlen ⊢; omega)
      refine ⟨z, hz, fun q' hq' => ?_⟩
      have h1 : (q'.erase x).Perm (y :: rest) := by simpa using hq'.erase x
      have h2 : ((q'.erase x).erase y).Perm rest := by simpa using h1.erase y
      exact .merge next q' x y z.tree (isMin_of_ordered hord hq') (isMin_of_ordered hyrest h1)
        (hbuilds _ ((h2.cons _).trans hperm.symm))

theorem leavesQ_facts (pairs : List (Nat × Nat)) (j : Nat) :
    OrderedQ (leavesQ j pairs) ∧
    (leavesQ j pairs).Perm ((pairs.zipIdx j).map fun p => ⟨p.1.2, p.2, .leaf p.1.1⟩) ∧
    ∀ x ∈ leavesQ j pairs, j ≤ x.seq ∧ x.seq < j + pairs.length := by
  induction pairs generalizing j with
  | nil => exact ⟨List.Pairwise.nil, List.Perm.refl _, fun x hx => by cases hx⟩
  | cons pair rest ih =>
    obtain ⟨hord, hperm, hseq⟩ := ih (j + 1)
    have hins := insertQ_perm ⟨pair.2, j, .leaf pair.1⟩ (leavesQ (j + 1) rest)
    refine ⟨insertQ_ordered hord fun x hx => by have := hseq x hx; simp only; omega, ?_, fun x hx => ?_⟩
    · simpa [leavesQ] using hins.trans (hperm.cons _)
    · rcases List.mem_cons.mp (hins.mem_iff.mp hx) with rfl | hx
      · simp
      · have := hseq x hx; simp only [List.length_cons]; omega

/-- What the builder makes is what the extraction rule makes. -/
theorem buildTree_builds (pairs : List (Nat × Nat)) (hne : pairs ≠ []) :
    ∃ tree, buildTree pairs = some tree ∧ BuildsTree pairs.length (leafNodes pairs) tree := by
  obtain ⟨hord, hperm, hseq⟩ := leavesQ_facts pairs 0
  have hlen := hperm.length_eq
  simp only [List.length_map, List.length_zipIdx] at hlen
  obtain ⟨z, hz, hbuilds⟩ := mergeQ_builds pairs.length pairs.length (leavesQ 0 pairs) hord
    (fun x hx => by have := hseq x hx; omega)
    (fun h => by rw [h] at hlen; exact hne (List.length_eq_zero_iff.mp hlen.symm)) (by omega)
  exact ⟨z.tree, by simp [buildTree, hz], hbuilds _ hperm.symm⟩

theorem CodeTree.subtree_length_le (tree : CodeTree) {path : List Bool} {sub : CodeTree}
    (h : tree.subtree path = some sub) : path.length ≤ tree.depth := by
  induction path generalizing tree with
  | nil => exact Nat.zero_le _
  | cons b rest ih =>
    cases tree with
    | leaf sym => cases h
    | node x y =>
      simp only [CodeTree.subtree] at h
      simp only [List.length_cons, CodeTree.depth]
      cases b
      · have := ih x h; omega
      · have := ih y h; omega

theorem CodeTree.exists_deepest (tree : CodeTree) :
    ∃ path sym, tree.subtree path = some (.leaf sym) ∧ path.length = tree.depth := by
  induction tree with
  | leaf sym => exact ⟨[], sym, rfl, rfl⟩
  | node x y hx hy =>
    obtain ⟨p, s, hp, hl⟩ := hx
    obtain ⟨p', s', hp', hl'⟩ := hy
    simp only [CodeTree.depth]
    rcases Nat.le_total x.depth y.depth with hle | hle
    · exact ⟨true :: p', s', hp', by simp; omega⟩
    · exact ⟨false :: p, s, hp, by simp; omega⟩

end Sys2Proof.Machine
end

