-- ==== Sys2Proof/Laws/Cells.lean ====
section
/-! SUPPORT. Read after write in a memory of cells, and its canonical form: every memory operation keeps it. -/

namespace Sys2Proof.Machine

variable {w : Nat}

@[simp] theorem get_put_self (m : Cells w) (a : Address) (v : BitVec w) : (Cells.put m a v).get a = some v := by
  induction m with
  | nil => simp [Cells.put, Cells.get]
  | cons e rest ih =>
    simp only [Cells.put]
    split
    · simp [Cells.get]
    · split
      · simp [Cells.get]
      · rename_i h _; simp [Cells.get, h, ih]

theorem get_put_ne (m : Cells w) {a b : Address} (v : BitVec w) (h : b ≠ a) :
    (Cells.put m a v).get b = m.get b := by
  induction m with
  | nil => simp [Cells.put, Cells.get, h]
  | cons e rest ih =>
    simp only [Cells.put]
    split
    · rename_i he; subst he; simp [Cells.get, h]
    · split
      · simp [Cells.get, h]
      · simp only [Cells.get, ih]

theorem addressLt_or (a b : Address) (h : b ≠ a) (h' : addressLt b a = false) : addressLt a b = true := by
  obtain ⟨a1, a2⟩ := a
  obtain ⟨b1, b2⟩ := b
  simp only [addressLt, Bool.or_eq_false_iff, Bool.and_eq_false_iff, decide_eq_false_iff_not, Bool.or_eq_true,
    Bool.and_eq_true, decide_eq_true_eq, ne_eq, Prod.mk.injEq] at *
  omega

theorem above_put (m : Cells w) (a b : Address) (v : BitVec w) (h : Cells.above a m = true)
    (hb : addressLt a b = true) : Cells.above a (Cells.put m b v) = true := by
  cases m with
  | nil => simpa [Cells.put, Cells.above] using hb
  | cons e rest =>
    simp only [Cells.put]
    split
    · simpa [Cells.above] using hb
    · split
      · simpa [Cells.above] using hb
      · simpa [Cells.above] using h

/-- Writing a cell keeps the canonical form. -/
theorem put_wf (m : Cells w) (a : Address) (v : BitVec w) (h : m.wf = true) : (Cells.put m a v).wf = true := by
  induction m with
  | nil => simp [Cells.put, Cells.wf, Cells.above]
  | cons e rest ih =>
    obtain ⟨b, u⟩ := e
    simp only [Cells.wf, Bool.and_eq_true] at h
    simp only [Cells.put]
    split
    · rename_i he; subst he; simpa [Cells.wf] using h
    · split
      · rename_i hlt; simpa [Cells.wf, Cells.above, hlt] using h
      · rename_i hne hlt
        simp only [Cells.wf, Bool.and_eq_true]
        exact ⟨above_put rest b a v h.1 (addressLt_or b a hne (by simpa using hlt)), ih h.2⟩

/-- A write lists no other address than its own. -/
theorem mem_put {m : Cells w} {a : Address} {v : BitVec w} {x : Address × BitVec w} (h : x ∈ Cells.put m a v) :
    x = (a, v) ∨ x ∈ m := by
  induction m with
  | nil => simpa [Cells.put] using h
  | cons e rest ih =>
    simp only [Cells.put] at h
    split at h
    · simp only [List.mem_cons] at h ⊢; tauto
    · split at h
      · simpa using h
      · simp only [List.mem_cons] at h ⊢
        rcases h with h | h
        · exact .inr (.inl h)
        · rcases ih h with h | h
          · exact .inl h
          · exact .inr (.inr h)

/-! ### Pixels -/

@[simp] theorem pixel_setPixel_self (s : State) (b i : Nat) (v : Pixel) : (s.setPixel b i v).pixel b i = v := by
  simp [State.pixel, State.setPixel]

theorem pixel_setPixel_ne (s : State) {b i b' i' : Nat} (v : Pixel) (h : b' ≠ b ∨ i' ≠ i) :
    (s.setPixel b i v).pixel b' i' = s.pixel b' i' := by
  have : ((b', i') : Address) ≠ (b, i) := by simpa [Prod.ext_iff, imp_iff_not_or] using h
  simp [State.pixel, State.setPixel, get_put_ne _ _ this]

/-- Reading a pixel after a write of a pixel. -/
theorem pixel_setPixel (s : State) (b i b' i' : Nat) (v : Pixel) :
    (s.setPixel b i v).pixel b' i' = if b' = b ∧ i' = i then v else s.pixel b' i' := by
  split
  · rename_i h; obtain ⟨rfl, rfl⟩ := h; simp
  · rename_i h; exact pixel_setPixel_ne s v (by tauto)

theorem setPixel_wf (s : State) (b i : Nat) (v : Pixel) (h : s.pix.wf = true) : (s.setPixel b i v).pix.wf = true :=
  put_wf _ _ _ h

/-! ### Frequencies -/

theorem freqCell_setFreq (s : State) (t u : TableId) (sym x : Nat) (f : Word) :
    (s.setFreq t sym f).freqCell u x = if u = t ∧ x = sym then f else s.freqCell u x := by
  by_cases h : u = t ∧ x = sym
  · obtain ⟨rfl, rfl⟩ := h; simp [State.freqCell, State.setFreq]
  · have hne : ((tableNumber u, x) : Address) ≠ (tableNumber t, sym) := by
      cases t <;> cases u <;> simp_all [tableNumber]
    simp [State.freqCell, State.setFreq, get_put_ne _ _ hne, h]

theorem setFreq_wf (s : State) (t : TableId) (sym : Nat) (f : Word) (h : s.freq.wf = true) :
    (s.setFreq t sym f).freq.wf = true := put_wf _ _ _ h

/-! ### Copies -/

/-- Everything a copy of cells does: it changes no field but the pixels, and the cells of the destination it covers
take what the source held, provided the source is another buffer or the same. -/
theorem copyCells_pixel (dst src : Nat) (len i : Nat) (s : State) (b x : Nat) :
    (copyCells dst src len i s).pixel b x =
      if b = dst ∧ i ≤ x ∧ x < i + len then s.pixel src x else s.pixel b x := by
  induction len generalizing i s with
  | zero => simp [copyCells]
  | succ len ih =>
    simp only [copyCells, ih, pixel_setPixel]
    by_cases hb : b = dst
    · subst hb
      by_cases hx : x = i
      · subst hx; simp
      · simp only [hx, and_false, if_false, true_and]
        by_cases hr : i + 1 ≤ x ∧ x < i + 1 + len
        · rw [if_pos hr, if_pos (by omega)]
        · rw [if_neg hr, if_neg (by omega)]
    · simp [hb]

theorem copyCells_frame (dst src : Nat) (len i : Nat) (s : State) :
    copyCells dst src len i s = { s with pix := (copyCells dst src len i s).pix } := by
  induction len generalizing i s with
  | zero => rfl
  | succ len ih => rw [copyCells, ih]; rfl

theorem copyCells_wf (dst src : Nat) (len i : Nat) (s : State) (h : s.pix.wf = true) :
    (copyCells dst src len i s).pix.wf = true := by
  induction len generalizing i s with
  | zero => exact h
  | succ len ih => exact ih (i + 1) _ (setPixel_wf s dst i _ h)

/-- A copy lists no other new addresses than those it covers. -/
theorem mem_copyCells {dst src len i : Nat} {s : State} {x : Address × Pixel}
    (h : x ∈ (copyCells dst src len i s).pix) :
    x ∈ s.pix ∨ (x.1.1 = dst ∧ i ≤ x.1.2 ∧ x.1.2 < i + len) := by
  induction len generalizing i s with
  | zero => exact .inl h
  | succ len ih =>
    rcases ih h with h | h
    · rcases mem_put h with h | h
      · subst h; exact .inr ⟨rfl, by simp, by simp⟩
      · exact .inl h
    · exact .inr ⟨h.1, by omega, by omega⟩

end Sys2Proof.Machine
end

