-- ==== Sys2Proof/Laws/PrefixCode.lean ====
section
/-! SUPPORT. What `encode` and `decode` of a symbol can do, said once (41_prefix_code.md rules R152, R165, R166). -/

namespace Sys2Proof.Machine

variable {c : PortNo} {s : State} {tab : CodeTable} {n : Nat}

/-! ### Codes of a well-formed table -/

/-- The entry of a symbol is the path to its leaf. -/
theorem TableWF.code (h : TableWF tab n) {sym : Nat} (hs : sym < n) :
    ∃ e path i, tab.enc[sym]? = some e ∧ follow tab.tree 0 path = some i ∧ tab.tree[i]? = some (Node.leaf sym) ∧
      e.length = path.length ∧ path.length ≤ 32 ∧ symbolCode tab sym = path := by
  obtain ⟨i, hi, -⟩ := h.oneLeaf sym hs
  have hlt : i < tab.tree.length := (List.getElem?_eq_some_iff.mp hi).1
  have hlen := h.nodes
  have hpos := h.someSymbol
  obtain ⟨path, hpath⟩ := h.reached i (by omega)
  obtain ⟨e, he, hl, h32, hb⟩ := h.codes path i sym hpath hi
  refine ⟨e, path, i, he, hpath, hi, hl, h32, ?_⟩
  simp only [symbolCode, he, hb, hl, bitsOf_natOfBits]

/-- A code of a table of two or more symbols has at least one bit. -/
theorem TableWF.code_ne_nil (h : TableWF tab n) (h2 : 2 ≤ n) {sym : Nat} (hs : sym < n) : symbolCode tab sym ≠ [] := by
  obtain ⟨e, path, i, -, hf, hl, -, -, hcode⟩ := h.code hs
  rw [hcode]
  rintro rfl
  simp only [follow, Option.some.injEq] at hf
  subst hf
  obtain ⟨path', h'⟩ := h.reached 1 (by omega)
  cases path' with
  | nil => simp [follow] at h'
  | cons b rest => simp [follow, hl] at h'

theorem walkBits_follow {tree : List Node} {i j sym : Nat} {path : List Bool} (rest : List Bool)
    (hf : follow tree i path = some j) (hl : tree[j]? = some (Node.leaf sym)) :
    walkBits tree i (path ++ rest) = some (sym, rest) := by
  induction path generalizing i with
  | nil =>
    simp only [follow, Option.some.injEq] at hf; subst hf
    cases rest <;> simp [walkBits, List.getD, hl]
  | cons b bs ih =>
    simp only [follow] at hf
    split at hf
    · rename_i c0 c1 hget
      have hn : tree.getD i (.leaf 0) = .node c0 c1 := by simp [hget]
      rw [List.cons_append, walkBits.eq_def]
      simp only [hn]
      exact ih hf
    · cases hf
    · cases hf

/-- The walk over the code of a symbol ends at that symbol, whatever follows. -/
theorem TableWF.walk_code (h : TableWF tab n) {sym : Nat} (hs : sym < n) (rest : List Bool) :
    walkBits tab.tree 0 (symbolCode tab sym ++ rest) = some (sym, rest) := by
  obtain ⟨e, path, i, -, hf, hl, -, -, hcode⟩ := h.code hs
  rw [hcode]
  exact walkBits_follow rest hf hl

/-- A walk leaves a suffix of the bits. -/
theorem walkBits_suffix {tree : List Node} {i sym : Nat} {bits rest : List Bool}
    (h : walkBits tree i bits = some (sym, rest)) : ∃ path, bits = path ++ rest := by
  induction bits generalizing i with
  | nil =>
    unfold walkBits at h
    split at h
    · simp only [Option.some.injEq, Prod.mk.injEq] at h; exact ⟨[], by simp [h.2]⟩
    · cases h
    · rename_i heq; cases heq
  | cons b bs ih =>
    unfold walkBits at h
    split at h
    · simp only [Option.some.injEq, Prod.mk.injEq] at h; exact ⟨[], by simp [h.2]⟩
    · cases h
    · rename_i c0 c1 b' rest' _ heq
      obtain ⟨rfl, rfl⟩ : b = b' ∧ bs = rest' := by simpa using heq
      obtain ⟨path, hp⟩ := ih h
      exact ⟨b :: path, by simp [hp]⟩

/-- A walk in a well-formed table goes along a path to a leaf. -/
theorem TableWF.walk_path (h : TableWF tab n) {i sym : Nat} {bits rest : List Bool} (hi : i < tab.tree.length)
    (hw : walkBits tab.tree i bits = some (sym, rest)) :
    ∃ path j, bits = path ++ rest ∧ follow tab.tree i path = some j ∧ tab.tree[j]? = some (.leaf sym) := by
  induction bits generalizing i with
  | nil =>
    have hnode := List.getElem?_eq_getElem hi
    rw [walkBits.eq_def, List.getD_eq_getElem?_getD, hnode] at hw
    cases hn : tab.tree[i] with
    | leaf sym' =>
      simp only [hn, Option.getD_some, Option.some.injEq, Prod.mk.injEq] at hw
      exact ⟨[], i, hw.2, rfl, by rw [hnode, hn, hw.1]⟩
    | node c0 c1 => simp [hn] at hw
  | cons b bits ih =>
    have hnode := List.getElem?_eq_getElem hi
    rw [walkBits.eq_def, List.getD_eq_getElem?_getD, hnode] at hw
    cases hn : tab.tree[i] with
    | leaf sym' =>
      simp only [hn, Option.getD_some, Option.some.injEq, Prod.mk.injEq] at hw
      exact ⟨[], i, hw.2, rfl, by rw [hnode, hn, hw.1]⟩
    | node c0 c1 =>
      simp only [hn, Option.getD_some] at hw
      rw [hn] at hnode
      have hc := h.children i c0 c1 hnode
      obtain ⟨path, j, hb, hf, hl⟩ := ih (by rw [h.nodes]; split <;> omega) hw
      exact ⟨b :: path, j, by rw [hb]; rfl, by simp only [follow, hnode]; exact hf, hl⟩

/-- A walk from the root that ends at a symbol took the bits of its code. -/
theorem TableWF.code_of_walk (h : TableWF tab n) {sym : Nat} {bits rest : List Bool}
    (hw : walkBits tab.tree 0 bits = some (sym, rest)) : sym < n ∧ bits = symbolCode tab sym ++ rest := by
  obtain ⟨path, j, hb, hf, hl⟩ := h.walk_path (by rw [h.nodes]; have := h.someSymbol; omega) hw
  obtain ⟨e, he, hlen, -, hbits⟩ := h.codes path j sym hf hl
  refine ⟨h.leafSymbols j sym hl, ?_⟩
  rw [hb, symbolCode, he]
  show _ = bitsOf e.bits.toNat e.length ++ rest
  rw [hlen, hbits, bitsOf_natOfBits]

/-! ### encode -/

/-- `encode` with a ready table and a working transport appends the code of the symbol. -/
theorem encodeSymbol_done {t : TableId} {sym : Nat} (ht : s.TableReady t) (hs : sym < t.symbols)
    (hp : (s.port c).Inv) (he : (s.port c).toutErr = false) :
    ∃ q, encodeSymbol c t sym s = .done () (s.setPort c q) ∧
      (s.port c).Appends q (symbolCode (s.table t).contents sym) ∧ q.Inv := by
  obtain ⟨e, path, i, hget, -, -, hl, h32, hcode⟩ := ht.2.code hs
  have hentry : codeEntry s t sym = e := by
    simp only [Table.contents] at hget
    simp [codeEntry, List.getD, hget]
  obtain ⟨q, hq, ha, hi, -⟩ := write_done (c := c) (s := s) e.bits (k := e.length) hp (by omega) (.inl he)
  refine ⟨q, ?_, ?_, hi⟩
  · rw [encodeSymbol, hentry, hq]
  · simpa only [symbolCode, hget] using ha

/-! ### decode -/

/-- The tree walk, on the bits the port can read: it ends where the walk over those bits ends, or else waits, or kills
the port at the end of the input with every bit consumed. -/
theorem walk_eq (tree : List Node) (fuel i : Nat) (s : State) (hp : (s.port c).Inv)
    (hf : (s.port c).inBits.length < fuel) :
    (∀ sym rest, walkBits tree i (s.port c).inBits = some (sym, rest) →
      ∃ q, walk c tree fuel i s = .done sym (s.setPort c q) ∧
        (s.port c).Consumes q ((s.port c).inBits.length - rest.length) ∧ q.inBits = rest ∧ q.Inv) ∧
    (walkBits tree i (s.port c).inBits = none →
      walk c tree fuel i s =
        if (s.port c).tinEos then .raise .transport (s.setPort c (closedPort { s.port c with tin := [] })) else .hold) := by
  induction fuel generalizing i s with
  | zero => omega
  | succ fuel ih =>
    cases hnode : tree.getD i (.leaf 0) with
    | leaf sym0 =>
      have hw : walk c tree (fuel + 1) i s = .done sym0 s := by simp only [walk, hnode]
      have hb : walkBits tree i (s.port c).inBits = some (sym0, (s.port c).inBits) := by
        rw [walkBits.eq_def]; simp only [hnode]
      rw [hw, hb]
      refine ⟨?_, by simp⟩
      rintro sym rest h
      simp only [Option.some.injEq, Prod.mk.injEq] at h
      obtain ⟨rfl, rfl⟩ := h
      refine ⟨s.port c, by simp, ?_, rfl, hp⟩
      rw [Nat.sub_self]; exact Port.Consumes.refl _ hp
    | node c0 c1 =>
      cases hin : (s.port c).inBits with
      | nil =>
        have hb : walkBits tree i [] = none := by rw [walkBits.eq_def]; simp only [hnode]
        have hshort := read_short (c := c) (s := s) (k := 1) hp (by decide) (by rw [hin]; simp)
        have hlen := hp.length_inBits
        rw [hin] at hlen
        have ht : (s.port c).tin = [] := List.eq_nil_of_length_eq_zero (by simp at hlen; omega)
        have hclose : closeChannel c s = s.setPort c (closedPort { s.port c with tin := [] }) := by
          unfold closeChannel closedPort; rw [← ht]
        rw [hb]
        refine ⟨by simp, fun _ => ?_⟩
        simp only [walk, hnode, hshort]
        split
        · rw [bind_raise, hclose]
        · rw [bind_hold]
      | cons b bits =>
        obtain ⟨q, hq, hc, hi⟩ := read_done (c := c) (s := s) (k := 1) hp (by decide) (by rw [hin]; simp)
        have hqin : q.inBits = bits := by rw [hc.bits, hin]; rfl
        have hbit : BitVec.ofNat 32 (natOfBits ((s.port c).inBits.take 1)) = if b then 1 else 0 := by
          rw [hin]; cases b <;> rfl
        have hstep : walk c tree (fuel + 1) i s = walk c tree fuel (if b then c1 else c0) (s.setPort c q) := by
          simp only [walk, hnode, hq, bind_done, hbit]
          cases b <;> rfl
        have hb : walkBits tree i (b :: bits) = walkBits tree (if b then c1 else c0) bits := by
          rw [walkBits.eq_def]; simp only [hnode]
        have heos : q.tinEos = (s.port c).tinEos := by rw [hc.same]
        have hclosed : closedPort { q with tin := [] } = closedPort { s.port c with tin := [] } := by
          rw [hc.same]; rfl
        obtain ⟨h1, h2⟩ := ih (if b then c1 else c0) (s.setPort c q) (by simpa using hi)
          (by rw [hin] at hf; simp [hqin] at hf ⊢; omega)
        simp only [port_setPort_self, setPort_setPort, hqin] at h1 h2
        rw [hb, hstep]
        constructor
        · intro sym rest h
          obtain ⟨r, hr, hcr, hrr, hir⟩ := h1 sym rest h
          refine ⟨r, hr, ?_, hrr, hir⟩
          obtain ⟨path, hpath⟩ := walkBits_suffix h
          have := Port.Consumes.trans hp hi hc hcr (by rw [hin]; simp)
          convert this using 1
          rw [List.length_cons, hpath]; simp; omega
        · intro h
          rw [h2 h, hclosed, heos]

/-- `decode` when a whole code is at hand. -/
theorem decodeSymbol_done {t : TableId} {sym : Nat} {rest : List Bool} (hp : (s.port c).Inv)
    (h : walkBits (s.table t).tree 0 (s.port c).inBits = some (sym, rest)) :
    ∃ q, decodeSymbol c t s = .done sym (s.setPort c q) ∧
      (s.port c).Consumes q ((s.port c).inBits.length - rest.length) ∧ q.inBits = rest ∧ q.Inv :=
  (walk_eq _ _ 0 s hp (by rw [hp.length_inBits]; simp [bitsAtHand])).1 sym rest h

/-- `decode` when the bits at hand end inside a code. -/
theorem decodeSymbol_short {t : TableId} (hp : (s.port c).Inv)
    (h : walkBits (s.table t).tree 0 (s.port c).inBits = none) :
    decodeSymbol c t s =
      if (s.port c).tinEos then .raise .transport (s.setPort c (closedPort { s.port c with tin := [] })) else .hold :=
  (walk_eq _ _ 0 s hp (by rw [hp.length_inBits]; simp [bitsAtHand])).2 h

end Sys2Proof.Machine
end

