-- ==== Sys2Proof/Laws/Scan.lean ====
section
/-! SUPPORT. The boustrophedon scan and the predictor (42_intra_codec.md rules R181 to R186): the steps of the scan as
numbers, and what a prediction depends on. -/

namespace Sys2Proof.Machine

/-- The step of the scan that visits column `x` of row `y`. -/
def scanStep (w x y : Nat) : Nat := y * w + (if y % 2 = 0 then x else w - 1 - x)

theorem scanColumn_step {w x : Nat} (y : Nat) (hx : x < w) : scanColumn w (scanStep w x y) = x := by
  have hj : (if y % 2 = 0 then x else w - 1 - x) < w := by split <;> omega
  have hd : scanStep w x y / w = y := by
    rw [scanStep, Nat.mul_comm, Nat.mul_add_div (by omega), Nat.div_eq_of_lt hj, Nat.add_zero]
  have hm : scanStep w x y % w = if y % 2 = 0 then x else w - 1 - x := by
    rw [scanStep, Nat.add_comm, Nat.add_mul_mod_self_right, Nat.mod_eq_of_lt hj]
  rw [scanColumn, hd, hm]
  split <;> omega

theorem scanRow_step {w x : Nat} (y : Nat) (hx : x < w) : scanRow w (scanStep w x y) = y := by
  have hj : (if y % 2 = 0 then x else w - 1 - x) < w := by split <;> omega
  rw [scanRow, scanStep, Nat.mul_comm, Nat.mul_add_div (by omega), Nat.div_eq_of_lt hj, Nat.add_zero]

theorem scanColumn_lt {w : Nat} (p : Nat) (hw : 0 < w) : scanColumn w p < w := by
  have := Nat.mod_lt p hw
  unfold scanColumn
  split <;> omega

theorem scanStep_column_row {w : Nat} (p : Nat) (hw : 0 < w) : scanStep w (scanColumn w p) (scanRow w p) = p := by
  have hm := Nat.mod_lt p hw
  have hd := Nat.div_add_mod p w
  rw [Nat.mul_comm] at hd
  unfold scanStep scanColumn scanRow
  split <;> omega

theorem scanStep_lt {w h x y : Nat} (hx : x < w) (hy : y < h) : scanStep w x y < w * h := by
  have : (y + 1) * w ≤ h * w := Nat.mul_le_mul_right _ hy
  rw [Nat.add_mul, Nat.one_mul] at this
  rw [Nat.mul_comm w h]
  unfold scanStep
  split <;> omega

theorem scanRow_lt {w h p : Nat} (hp : p < w * h) : scanRow w p < h := Nat.div_lt_of_lt_mul hp

theorem cellIndex_lt {w h x y : Nat} (hx : x < w) (hy : y < h) : cellIndex w x y < w * h := by
  have : (y + 1) * w ≤ h * w := Nat.mul_le_mul_right _ hy
  rw [Nat.add_mul, Nat.one_mul] at this
  rw [Nat.mul_comm w h, cellIndex]
  omega

/-- Every step of the scan visits a cell of the grid. -/
theorem scanCell_lt {w h p : Nat} (hp : p < w * h) : scanCell w p < w * h := by
  have hw : 0 < w := Nat.pos_of_ne_zero (by rintro rfl; simp at hp)
  exact cellIndex_lt (scanColumn_lt p hw) (scanRow_lt hp)

/-- The step that visits a cell. -/
theorem scanCell_step {w x : Nat} (y : Nat) (hx : x < w) : scanCell w (scanStep w x y) = cellIndex w x y := by
  rw [scanCell, scanColumn_step y hx, scanRow_step y hx]

/-- Two steps visit two cells. -/
theorem scanCell_injective {w p q : Nat} (hw : 0 < w) (h : scanCell w p = scanCell w q) : p = q := by
  have hp := scanColumn_lt p hw
  have hq := scanColumn_lt q hw
  unfold scanCell cellIndex at h
  have hrow : scanRow w p = scanRow w q := by
    have := congrArg (· / w) h
    simpa [Nat.mul_comm _ w, Nat.mul_add_div hw, Nat.div_eq_of_lt hp, Nat.div_eq_of_lt hq] using this
  have hcol : scanColumn w p = scanColumn w q := by rw [hrow] at h; omega
  rw [← scanStep_column_row p hw, ← scanStep_column_row q hw, hrow, hcol]

/-- Every cell of the grid is visited at some step. -/
theorem exists_scanCell {w h i : Nat} (hi : i < w * h) : ∃ p, p < w * h ∧ scanCell w p = i := by
  have hw : 0 < w := Nat.pos_of_ne_zero (by rintro rfl; simp at hi)
  have hx := Nat.mod_lt i hw
  have hy : i / w < h := Nat.div_lt_of_lt_mul hi
  refine ⟨scanStep w (i % w) (i / w), scanStep_lt hx hy, ?_⟩
  rw [scanCell_step _ hx, cellIndex, Nat.mul_comm, Nat.div_add_mod]

/-- The scan as a sequence of numbered steps. -/
theorem scan_eq (w h : Nat) : scan w h = (List.range (w * h)).map fun p => (scanColumn w p, scanRow w p) := by
  induction h with
  | zero => simp [scan]
  | succ h ih =>
    have hline : scanLine w h = (List.range w).map fun j => (scanColumn w (w * h + j), scanRow w (w * h + j)) := by
      apply List.map_congr_left
      intro j hj
      rw [List.mem_range] at hj
      simp only [scanColumn, scanRow, Nat.mul_add_div (show 0 < w by omega), Nat.div_eq_of_lt hj, Nat.add_zero,
        Nat.mul_add_mod, Nat.mod_eq_of_lt hj]
    rw [Nat.mul_succ, List.range_add, List.map_append, ← ih, List.map_map]
    simp only [scan, List.range_succ, List.flatMap_append, List.flatMap_cons, List.flatMap_nil, List.append_nil, hline]
    rfl

theorem length_scan (w h : Nat) : (scan w h).length = w * h := by simp [scan_eq]

/-- A prediction reads only pixels visited before (42 R186). -/
theorem predictAt_congr {f g : Nat → Pixel} {w p : Nat} (hw : 0 < w) (hp : 0 < p)
    (h : ∀ q, q < p → f (scanCell w q) = g (scanCell w q)) : predictAt f w p = predictAt g w p := by
  have hm := Nat.mod_lt p hw
  have hd := Nat.div_add_mod p w
  rw [Nat.mul_comm] at hd
  have key : ∀ x y, x < w → scanStep w x y < p → f (cellIndex w x y) = g (cellIndex w x y) := by
    intro x y hx hs
    have := h _ hs
    rwa [scanCell_step y hx] at this
  unfold predictAt predict
  by_cases h0 : scanRow w p = 0
  · rw [if_pos h0, if_pos h0]
    have hr : p / w = 0 := h0
    have hc : scanColumn w p = p := by
      unfold scanColumn; rw [hr]; rw [hr] at hd; simp; omega
    rw [hc]
    apply key
    · rw [hr] at hd; omega
    · unfold scanStep; rw [hr] at hd; simp; omega
  · rw [if_neg h0, if_neg h0]
    have hrow : scanRow w p = p / w := rfl
    obtain ⟨y, hy⟩ : ∃ y, p / w = y + 1 := ⟨p / w - 1, by rw [hrow] at h0; omega⟩
    have hyw : (y + 1) * w = y * w + w := Nat.succ_mul y w
    rw [hy, hyw] at hd
    by_cases h1 : scanColumn w p = firstColumn w (scanRow w p)
    · rw [if_pos h1, if_pos h1]
      rw [hrow, hy]
      apply key
      · exact scanColumn_lt p hw
      · rw [hrow, hy] at h1
        unfold scanColumn firstColumn at h1
        rw [hy] at h1
        unfold scanStep scanColumn
        rw [hy, Nat.add_sub_cancel]
        split <;> split <;> split at h1 <;> omega
    · rw [if_neg h1, if_neg h1]
      rw [hrow, hy] at h1 ⊢
      unfold scanColumn firstColumn at h1
      rw [hy] at h1
      have ha : previousColumn (scanColumn w p) (y + 1) < w := by
        unfold previousColumn scanColumn
        rw [hy]
        split <;> split at h1 <;> omega
      congr 1
      · apply key _ _ ha
        unfold scanStep previousColumn scanColumn
        rw [hy, hyw]
        split <;> split at h1 <;> omega
      · apply key _ _ (scanColumn_lt p hw)
        unfold scanStep scanColumn
        rw [hy, Nat.add_sub_cancel]
        split <;> split <;> omega
      · apply key _ _ ha
        unfold scanStep previousColumn scanColumn
        rw [hy, Nat.add_sub_cancel]
        split <;> split <;> split at h1 <;> omega

end Sys2Proof.Machine
end

