-- ==== Sys2Proof/Laws/Compress.lean ====
section
/-! SUPPORT. What the compressors can do, said once, in terms of the items of a frame (42_intra_codec.md rules R187, R190;
43_inter_codec.md rules R202 to R204). -/

namespace Sys2Proof.Machine

variable {c : PortNo} {s : State} {t : TableId}

/-! ### Stretches that put bits on a port -/

/-- The stretch ending in `r` put `bits` on port `c`, or the port died because its transport had failed. While the
transport is failed no word leaves. -/
def Puts (c : PortNo) (bits : List Bool) (s : State) (r : Res Unit) : Prop :=
  (∃ q, r = .done () (s.setPort c q) ∧ (s.port c).Appends q bits ∧ q.Inv ∧
    ((s.port c).toutErr = true → q.tout = (s.port c).tout)) ∨
  ((s.port c).toutErr = true ∧ r = .raise .transport (closeChannel c s))

theorem Puts.nothing (hp : (s.port c).Inv) : Puts c [] s (.done () s) :=
  .inl ⟨s.port c, by simp, Port.Appends.refl _, hp, fun _ => rfl⟩

theorem Puts.andThen {xs ys : List Bool} {r : Res Unit} {k : State → Res Unit} (h : Puts c xs s r)
    (hk : ∀ q, q.Inv → Puts c ys (s.setPort c q) (k (s.setPort c q))) : Puts c (xs ++ ys) s (r.andThen k) := by
  rcases h with ⟨q, rfl, ha, hi, ht⟩ | ⟨he, rfl⟩
  · have herr : q.toutErr = (s.port c).toutErr := by rw [ha.same]
    rcases hk q hi with ⟨q', hq', ha', hi', ht'⟩ | ⟨he', hr'⟩
    · simp only [port_setPort_self, setPort_setPort] at hq' ha' ht'
      refine .inl ⟨q', by rw [andThen_done, hq'], ha.trans ha', hi', fun he => ?_⟩
      rw [ht' (herr.trans he), ht he]
    · rw [port_setPort_self] at he'
      refine .inr ⟨herr ▸ he', ?_⟩
      rw [andThen_done, hr', closeChannel, closeChannel, port_setPort_self, setPort_setPort]
      congr 2
      have hsame := ha.same
      rw [ht (herr ▸ he')] at hsame
      rw [hsame]; rfl
  · exact .inr ⟨he, by rw [andThen_raise]⟩

theorem puts_write (v : Word) {k : Nat} (hp : (s.port c).Inv) (hk : k ≤ 32) :
    Puts c (bitsOf v.toNat k) s (write c v k s) := by
  by_cases h : (s.port c).toutErr = true ∧ 32 < (s.port c).bwN + k
  · exact .inr ⟨h.1, write_fails v hp.writerCount h.1 h.2⟩
  · obtain ⟨q, hq, ha, hi, hl⟩ := write_done (c := c) (s := s) v hp hk (by
      by_cases he : (s.port c).toutErr = true
      · exact .inr (by by_contra hn; exact h ⟨he, by omega⟩)
      · exact .inl (by simpa using he))
    refine .inl ⟨q, hq, ha, hi, fun he => ?_⟩
    rw [if_neg (fun hn => h ⟨he, hn⟩)] at hl
    exact (List.IsPrefix.eq_of_length ha.kept (by omega)).symm

/-! ### Items -/

@[simp] theorem tableReady_setPort (p : Port) : (s.setPort c p).TableReady t ↔ s.TableReady t := by
  simp [State.TableReady]

@[simp] theorem tableReady_setPixel (b i : Nat) (v : Pixel) : (s.setPixel b i v).TableReady t ↔ s.TableReady t := by
  simp [State.TableReady]

/-- The bits of a symbol with a well-formed table: its code and its immediate (30 R101, R106). -/
theorem itemBits_eq {tab : CodeTable} {n sym : Nat} {i : Instr} (h : TableWF tab n) (hi : symbolOf i = some (t, sym))
    (hs : sym < n) : itemBits tab i = symbolCode tab sym ++ immediateBits i := by
  obtain ⟨e, path, j, he, -⟩ := h.code hs
  simp [itemBits, encodeItem, hi, symbolCode, he]

theorem symbolOf_directItem (t : TableId) (sym : BitVec 10) : symbolOf (directItem t sym) = some (t, sym.toNat) := by
  cases t <;> rfl

theorem symbolOf_escapeItem (t : TableId) (raw : Pixel) : symbolOf (escapeItem t raw) = some (t, symEsc) := by
  cases t <;> rfl

theorem immediateBits_directItem (t : TableId) (sym : BitVec 10) : immediateBits (directItem t sym) = [] := by
  cases t <;> rfl

theorem immediateBits_escapeItem (t : TableId) (raw : Pixel) : immediateBits (escapeItem t raw) = bitsOf raw.toNat 16 := by
  cases t <;> rfl

theorem symbols_gt (t : TableId) : 513 < t.symbols := by cases t <;> decide

theorem puts_encode {sym : Nat} (ht : s.TableReady t) (hs : sym < t.symbols) (hp : (s.port c).Inv) :
    Puts c (symbolCode (s.table t).contents sym) s (encodeSymbol c t sym s) := by
  obtain ⟨e, path, i, hget, -, -, hl, h32, hcode⟩ := ht.2.code hs
  have hentry : codeEntry s t sym = e := by
    simp only [Table.contents] at hget
    simp [codeEntry, List.getD, hget]
  rw [encodeSymbol, hentry]
  simpa only [symbolCode, hget] using puts_write e.bits hp (by omega)

/-- `put-error` puts the item of the error (42 R187, 43 R203). -/
theorem puts_putError (e : Pixel) (ht : s.TableReady t) (hp : (s.port c).Inv) :
    Puts c (itemBits (s.table t).contents (errorItem t e)) s (putError c t e s) := by
  have hN := symbols_gt t
  unfold putError errorItem
  by_cases h : -(codeMax : Int) ≤ e.toInt ∧ e.toInt ≤ codeMax
  · have h' : -256 ≤ e.toInt ∧ e.toInt ≤ 256 := h
    rw [if_pos h, if_pos h']
    have hn : (BitVec.ofNat 10 (e.toInt + 256).toNat).toNat = (e.toInt + codeMax).toNat := by
      rw [BitVec.toNat_ofNat, Nat.mod_eq_of_lt (by omega)]; rfl
    have hlt : (e.toInt + codeMax).toNat < t.symbols := by unfold codeMax; omega
    rw [itemBits_eq ht.2 (symbolOf_directItem t _) (by rw [hn]; exact hlt), immediateBits_directItem, List.append_nil, hn]
    exact puts_encode ht hlt hp
  · have h' : ¬(-256 ≤ e.toInt ∧ e.toInt ≤ 256) := h
    rw [if_neg h, if_neg h', itemBits_eq ht.2 (symbolOf_escapeItem t _) (by unfold symEsc; omega),
      immediateBits_escapeItem]
    refine Puts.andThen (puts_encode ht (by unfold symEsc; omega) hp) fun q hi => ?_
    have := puts_write (c := c) (s := s.setPort c q) (e.setWidth 32) (k := 16) (by simpa using hi) (by decide)
    rwa [BitVec.toNat_setWidth, Nat.mod_eq_of_lt (by have := e.isLt; omega)] at this

/-! ### The intra compressor -/

/-- The bits of step `p` of an intra frame. -/
def intraStepBits (tab : CodeTable) (g : Nat → Pixel) (w p : Nat) : List Bool :=
  if p = 0 then bitsOf (g (scanCell w 0)).toNat 16
  else itemBits tab (errorItem .intra (g (scanCell w p) - predictAt g w p))

theorem puts_intraPut (b w p : Nat) (ht : s.TableReady .intra) (hp : (s.port c).Inv) :
    Puts c (intraStepBits (s.table .intra).contents (s.pixel b) w p) s (intraPut c b w p s) := by
  unfold intraPut intraStepBits
  split
  · have := puts_write (c := c) (s := s) ((s.pixel b (scanCell w 0)).setWidth 32) (k := 16) hp (by decide)
    rwa [BitVec.toNat_setWidth, Nat.mod_eq_of_lt (by have := (s.pixel b (scanCell w 0)).isLt; omega)] at this
  · exact puts_putError _ ht hp

theorem puts_intraPuts (b w left p : Nat) (ht : s.TableReady .intra) (hp : (s.port c).Inv) :
    Puts c ((List.range left).flatMap fun j => intraStepBits (s.table .intra).contents (s.pixel b) w (p + j)) s
      (intraPuts c b w left p s) := by
  induction left generalizing p s with
  | zero => exact Puts.nothing hp
  | succ left ih =>
    rw [List.range_succ_eq_map, List.flatMap_cons, List.flatMap_map]
    refine Puts.andThen (puts_intraPut b w p ht hp) fun q hi => ?_
    have := ih (s := s.setPort c q) (p + 1) (by simpa using ht) (by simpa using hi)
    simpa only [setPort_table, setPort_pixel, Nat.add_assoc, Nat.add_comm 1, funext_iff, Function.comp,
      Nat.succ_eq_add_one] using this

/-- The bits of all steps are the intra frame (30 R104). -/
theorem intraSteps_eq (tab : CodeTable) (g : Nat → Pixel) {w h : Nat} (hn : 0 < w * h) :
    (List.range (w * h)).flatMap (fun j => intraStepBits tab g w (0 + j)) = intraFrame tab g w h := by
  obtain ⟨m, hm⟩ : ∃ m, w * h = m + 1 := ⟨w * h - 1, by omega⟩
  have h0 : scanCell w 0 = 0 := by simp [scanCell, scanColumn, scanRow, cellIndex]
  rw [intraFrame, intraItems, scan_eq, itemsBits, hm, List.range_succ_eq_map, List.flatMap_cons, List.flatMap_map,
    List.map_cons, List.tail_cons, List.map_map, List.map_map, List.flatMap_map]
  simp only [intraStepBits, h0, if_true, Nat.add_zero]
  congr 1
  congr 1
  funext j
  rw [if_neg (by omega), Nat.zero_add]
  rfl

/-- `intra-compress` with a working transport: the frame, padded to a word boundary. -/
theorem intraCompress_done {b w h : Nat} (ht : s.TableReady .intra) (hp : (s.port c).Inv)
    (he : (s.port c).toutErr = false) (hn : 0 < w * h) :
    ∃ q, intraCompress c b w h s = .done () (s.setPort c q) ∧
      q = { s.port c with bwAcc := 0, bwN := 0, tout := q.tout } ∧ q.Inv ∧
      q.outBits = padToWord ((s.port c).outBits ++ intraFrame (s.table .intra).contents (s.pixel b) w h) ∧
      (s.port c).tout <+: q.tout := by
  have hputs := puts_intraPuts (c := c) b w (w * h) 0 ht hp
  rw [intraSteps_eq _ _ hn] at hputs
  rcases hputs with ⟨q, hq, ha, hi, -⟩ | ⟨he', -⟩
  · have herr : q.toutErr = false := by rw [ha.same]; exact he
    obtain ⟨r, hr, hsame, hir, hout, hkept⟩ := flush_done (c := c) (s := s.setPort c q) (by simpa using hi)
      (.inl (by simpa using herr))
    simp only [port_setPort_self, setPort_setPort] at hr hsame hout hkept
    refine ⟨r, by rw [intraCompress, hq, andThen_done, hr], ?_, hir, by rw [hout, ha.out], ha.kept.trans hkept⟩
    rw [hsame, ha.same]
  · rw [he] at he'; cases he'

/-- A compressor whose transport has failed kills the port; nothing leaves. -/
theorem puts_flush_fails {bits : List Bool} {r : Res Unit} (h : Puts c bits s r) (he : (s.port c).toutErr = true)
    (hb : bits ≠ []) : r.andThen (flush c) = .raise .transport (closeChannel c s) := by
  rcases h with ⟨q, rfl, ha, hi, ht⟩ | ⟨-, rfl⟩
  · have herr : q.toutErr = true := by rw [ha.same]; exact he
    have hlen := congrArg List.length ha.out
    rw [List.length_append, length_outBits, length_outBits, ht he] at hlen
    have hpos := List.length_pos_iff.mpr hb
    rw [andThen_done, flush_fails (by simpa using herr) (by simp; omega), closeChannel, closeChannel, port_setPort_self,
      setPort_setPort]
    congr 2
    have hsame := ha.same
    rw [ht he] at hsame
    rw [hsame]; rfl
  · rw [andThen_raise]

theorem intraCompress_fails {b w h : Nat} (ht : s.TableReady .intra) (hp : (s.port c).Inv)
    (he : (s.port c).toutErr = true) (hn : 0 < w * h) :
    intraCompress c b w h s = .raise .transport (closeChannel c s) := by
  have hputs := puts_intraPuts (c := c) b w (w * h) 0 ht hp
  rw [intraSteps_eq _ _ hn] at hputs
  exact puts_flush_fails hputs he (by simp [intraFrame, bitsOf])

/-! ### The inter compressor -/

theorem runItem_bits {L : Nat} (tab : CodeTable) (h : TableWF tab 1026) (hL : L ≤ 512) :
    itemBits tab (runItem L) = symbolCode tab (symRun0 + L) := by
  have hn : (BitVec.ofNat 10 L).toNat = L := by rw [BitVec.toNat_ofNat, Nat.mod_eq_of_lt (by omega)]
  have hs : symbolOf (runItem L) = some (.inter, symRun0 + L) := by simp only [runItem, symbolOf, hn]
  rw [itemBits_eq h hs (by unfold symRun0; omega)]
  simp [runItem, immediateBits]

theorem puts_emitRun {run : Nat} (hrun : run ≤ 512) (ht : s.TableReady .inter) (hp : (s.port c).Inv) :
    Puts c (itemsBits (s.table .inter).contents (pendingRun run)) s (emitRun c run s) := by
  unfold emitRun pendingRun
  by_cases h0 : run = 0
  · rw [if_pos h0, if_pos h0]; exact Puts.nothing hp
  · rw [if_neg h0, if_neg h0]
    simp only [itemsBits, List.flatMap_cons, List.flatMap_nil, List.append_nil]
    rw [runItem_bits _ ht.2 hrun]
    exact puts_encode ht (by simp only [TableId.symbols, symRun0]; omega) hp

theorem itemsBits_append (tab : CodeTable) (xs ys : List Instr) :
    itemsBits tab (xs ++ ys) = itemsBits tab xs ++ itemsBits tab ys := by simp [itemsBits]

theorem itemsBits_cons (tab : CodeTable) (x : Instr) (ys : List Instr) :
    itemsBits tab (x :: ys) = itemBits tab x ++ itemsBits tab ys := rfl

/-- The loop of the inter compressor puts the items of the deltas (43 R202). -/
theorem puts_interPuts (src ref left i run : Nat) (hrun : run < 512) (ht : s.TableReady .inter)
    (hp : (s.port c).Inv) :
    Puts c (itemsBits (s.table .inter).contents
        (interItems run ((List.range left).map fun j => s.pixel src (i + j) - s.pixel ref (i + j)))) s
      (interPuts c src ref left i run s) := by
  induction left generalizing i run s with
  | zero => exact puts_emitRun (by omega) ht hp
  | succ left ih =>
    have hstep : ∀ (f : Nat → Pixel), (List.range (left + 1)).map (fun j => f (i + j)) =
        f i :: (List.range left).map fun j => f (i + 1 + j) := by
      intro f
      rw [List.range_succ_eq_map, List.map_cons, List.map_map]
      simp only [Nat.add_zero, List.cons.injEq, true_and]
      apply List.map_congr_left
      intro j _
      simp only [Function.comp, Nat.succ_eq_add_one]
      congr 1; omega
    rw [hstep fun j => s.pixel src j - s.pixel ref j]
    simp only [interItems, interPuts]
    by_cases h0 : s.pixel src i - s.pixel ref i = 0
    · rw [if_pos h0, if_pos h0]
      by_cases h1 : run + 1 = 512
      · have h1' : run + 1 = runMax := h1
        rw [if_pos h1, if_pos h1', itemsBits_cons, runItem_bits _ ht.2 (by omega)]
        refine Puts.andThen (puts_encode ht (by decide) hp) fun q hi => ?_
        simpa only [setPort_table, setPort_pixel] using
          ih (s := s.setPort c q) (i + 1) 0 (by decide) (by simpa using ht) (by simpa using hi)
      · have h1' : ¬run + 1 = runMax := h1
        rw [if_neg h1, if_neg h1']
        exact ih (i + 1) (run + 1) (by omega) ht hp
    · rw [if_neg h0, if_neg h0, itemsBits_append, itemsBits_cons]
      refine Puts.andThen (puts_emitRun (by omega) ht hp) fun q hi => ?_
      refine Puts.andThen ?_ fun q' hi' => ?_
      · simpa only [setPort_table] using
          puts_putError (c := c) (s := s.setPort c q) (t := .inter) (s.pixel src i - s.pixel ref i) (by simpa using ht)
            (by simpa using hi)
      · simpa only [setPort_setPort, setPort_table, setPort_pixel] using
          ih (s := (s.setPort c q).setPort c q') (i + 1) 0 (by decide) (by simpa using ht) (by simpa using hi')

theorem puts_interFrame (src ref n : Nat) (ht : s.TableReady .inter) (hp : (s.port c).Inv) :
    Puts c (interFrame (s.table .inter).contents (s.pixel src) (s.pixel ref) n) s (interPuts c src ref n 0 0 s) := by
  have := puts_interPuts (c := c) src ref n 0 0 (by decide) ht hp
  simpa only [interFrame, deltas, Nat.zero_add] using this

/-- Every sequence of deltas has at least one item. -/
theorem interItems_ne_nil {run : Nat} {es : List Pixel} (h : run ≠ 0 ∨ es ≠ []) : interItems run es ≠ [] := by
  induction es generalizing run with
  | nil => simp only [interItems, pendingRun]; rcases h with h | h <;> simp_all
  | cons e rest ih =>
    simp only [interItems]
    split
    · split
      · simp
      · exact ih (.inl (by omega))
    · simp

/-- The items of a frame are symbols of table 1. -/
theorem interItems_ok {run : Nat} (hrun : run < 512) (es : List Pixel) :
    ∀ item ∈ interItems run es, isInterItem item = true := by
  have hok : ∀ L, 1 ≤ L → L ≤ 512 → isInterItem (runItem L) = true := by
    intro L h1 h2
    have hn : (BitVec.ofNat 10 L).toNat = L := by rw [BitVec.toNat_ofNat, Nat.mod_eq_of_lt (by omega)]
    simp only [runItem, isInterItem, runLengthOk, hn, runMax]
    simp [h1, h2]
  have hpend : ∀ run, run < 512 → ∀ item ∈ pendingRun run, isInterItem item = true := by
    intro run hr item hm
    unfold pendingRun at hm
    split at hm
    · simp at hm
    · rw [List.mem_singleton] at hm; subst hm; exact hok run (by omega) (by omega)
  have herr : ∀ e : Pixel, isInterItem (errorItem .inter e) = true := by
    intro e
    unfold errorItem
    split
    · rename_i h
      have hn : (BitVec.ofNat 10 (e.toInt + 256).toNat).toNat = (e.toInt + 256).toNat := by
        rw [BitVec.toNat_ofNat, Nat.mod_eq_of_lt (by omega)]
      simp only [directItem, isInterItem, directNumberOk, hn, codeMax, decide_eq_true_eq]; omega
    · rfl
  induction es generalizing run with
  | nil => exact hpend run hrun
  | cons e rest ih =>
    intro item hm
    simp only [interItems] at hm
    split at hm
    · split at hm
      · rcases List.mem_cons.mp hm with rfl | hm
        · exact hok 512 (by omega) (by omega)
        · exact ih (by decide) item hm
      · exact ih (by omega) item hm
    · rcases List.mem_append.mp hm with hm | hm
      · exact hpend run hrun item hm
      · rcases List.mem_cons.mp hm with rfl | hm
        · exact herr e
        · exact ih (by decide) item hm

/-- The symbol of an item of table 1 lies in its alphabet (30 R103). -/
theorem interItem_symbol {item : Instr} (h : isInterItem item = true) :
    ∃ sym, symbolOf item = some (.inter, sym) ∧ sym < 1026 := by
  cases item with
  | direct1 sym =>
    simp only [isInterItem, directNumberOk, decide_eq_true_eq] at h
    unfold codeMax at h
    exact ⟨_, rfl, by omega⟩
  | esc1 raw => exact ⟨_, rfl, by decide⟩
  | run len =>
    simp only [isInterItem, runLengthOk, Bool.and_eq_true, decide_eq_true_eq] at h
    unfold runMax at h
    exact ⟨_, rfl, by simp only [symRun0]; omega⟩
  | _ => cases h

/-- The bits of one item of table 1 are not empty. -/
theorem interItem_bits_ne_nil {tab : CodeTable} {item : Instr} (ht : TableWF tab 1026) (h : isInterItem item = true) :
    itemBits tab item ≠ [] := by
  obtain ⟨sym, hs, hlt⟩ := interItem_symbol h
  rw [itemBits_eq ht hs hlt]
  exact fun hnil => ht.code_ne_nil (by decide) hlt (List.append_eq_nil_iff.mp hnil).1

theorem interFrame_ne_nil {tab : CodeTable} (ht : TableWF tab 1026) (new ref : Nat → Pixel) {n : Nat} (hn : 0 < n) :
    interFrame tab new ref n ≠ [] := by
  have hne : interItems 0 (deltas new ref n) ≠ [] := interItems_ne_nil (.inr (by
    intro h; have := congrArg List.length h; simp [deltas] at this; omega))
  obtain ⟨item, rest, hir⟩ := List.exists_cons_of_ne_nil hne
  have hok := interItems_ok (run := 0) (by decide) (deltas new ref n) item (by rw [hir]; simp)
  rw [interFrame, hir, itemsBits_cons]
  exact fun hnil => interItem_bits_ne_nil ht hok (List.append_eq_nil_iff.mp hnil).1

/-- `inter-compress` with a working transport: the frame, padded to a word boundary. -/
theorem interCompress_done {b r n : Nat} (ht : s.TableReady .inter) (hp : (s.port c).Inv)
    (he : (s.port c).toutErr = false) :
    ∃ q, interCompress c b r n s = .done () (s.setPort c q) ∧
      q = { s.port c with bwAcc := 0, bwN := 0, tout := q.tout } ∧ q.Inv ∧
      q.outBits = padToWord ((s.port c).outBits ++
        interFrame (s.table .inter).contents (s.pixel b) (s.pixel r) n) ∧
      (s.port c).tout <+: q.tout := by
  rcases puts_interFrame (c := c) b r n ht hp with ⟨q, hq, ha, hi, -⟩ | ⟨he', -⟩
  · have herr : q.toutErr = false := by rw [ha.same]; exact he
    obtain ⟨r, hr, hsame, hir, hout, hkept⟩ := flush_done (c := c) (s := s.setPort c q) (by simpa using hi)
      (.inl (by simpa using herr))
    simp only [port_setPort_self, setPort_setPort] at hr hsame hout hkept
    refine ⟨r, by rw [interCompress, hq, andThen_done, hr], ?_, hir, by rw [hout, ha.out], ha.kept.trans hkept⟩
    rw [hsame, ha.same]
  · rw [he] at he'; cases he'

theorem interCompress_fails {b r n : Nat} (ht : s.TableReady .inter) (hp : (s.port c).Inv)
    (he : (s.port c).toutErr = true) (hn : 0 < n) :
    interCompress c b r n s = .raise .transport (closeChannel c s) :=
  puts_flush_fails (puts_interFrame (c := c) b r n ht hp) he (interFrame_ne_nil ht.2 _ _ hn)

end Sys2Proof.Machine
end

