-- ==== Sys2Proof/Laws/Decode.lean ====
section
/-! SUPPORT. The fields of a command word and the word of its fields undo each other (30_encoding.md rule R91). -/

namespace Sys2Proof.Machine

theorem toNat_wordOfFields (f : Fields) : (wordOfFields f).toNat =
    f.op.toNat * 2 ^ 56 + f.c.toNat * 2 ^ 52 + f.t.toNat * 2 ^ 48 + f.aux.toNat * 2 ^ 32 + f.val.toNat := by
  have h1 := f.op.isLt
  have h2 := f.c.isLt
  have h3 := f.t.isLt
  have h4 := f.aux.isLt
  have h5 := f.val.isLt
  rw [wordOfFields, BitVec.toNat_ofNat, Nat.mod_eq_of_lt]
  omega

/-- Reading the fields of a word made of fields. -/
theorem fieldsOfWord_wordOfFields (f : Fields) : fieldsOfWord (wordOfFields f) = f := by
  have h1 := f.op.isLt
  have h2 := f.c.isLt
  have h3 := f.t.isLt
  have h4 := f.aux.isLt
  have h5 := f.val.isLt
  have hw := toNat_wordOfFields f
  obtain ⟨op, c, t, aux, val⟩ := f
  simp only at hw h1 h2 h3 h4 h5
  simp only [fieldsOfWord, Fields.mk.injEq]
  refine ⟨?_, ?_, ?_, ?_, ?_⟩ <;> apply BitVec.eq_of_toNat_eq <;>
    rw [BitVec.extractLsb'_toNat, hw, Nat.shiftRight_eq_div_pow] <;> omega

/-- A word is the word of its fields: no bit of a command word lies outside them. -/
theorem wordOfFields_fieldsOfWord (w : CmdWord) : wordOfFields (fieldsOfWord w) = w := by
  apply BitVec.eq_of_toNat_eq
  rw [toNat_wordOfFields]
  have := w.isLt
  simp only [fieldsOfWord, BitVec.extractLsb'_toNat, Nat.shiftRight_eq_div_pow]
  omega

/-- The buffer number of its two halves (30 R91). -/
theorem bufferField_halves (b : BitVec 8) : bufferField (b.extractLsb' 4 4) (b.extractLsb' 0 4) = b := by
  apply BitVec.eq_of_toNat_eq
  have := b.isLt
  simp only [bufferField, BitVec.toNat_ofNat, BitVec.extractLsb'_toNat, Nat.shiftRight_eq_div_pow]
  omega

/-- The halves of a buffer number (30 R91). -/
theorem halves_bufferField (c t : BitVec 4) :
    (bufferField c t).extractLsb' 4 4 = c ∧ (bufferField c t).extractLsb' 0 4 = t := by
  have hc := c.isLt
  have ht := t.isLt
  constructor <;> apply BitVec.eq_of_toNat_eq <;>
    simp only [bufferField, BitVec.toNat_ofNat, BitVec.extractLsb'_toNat, Nat.shiftRight_eq_div_pow] <;> omega

/-- The two buffer numbers of an `aux` field (30 R91). -/
theorem aux_halves (x0 x1 : BitVec 8) : auxLow (auxOf x0 x1) = x0 ∧ auxHigh (auxOf x0 x1) = x1 := by
  have h0 := x0.isLt
  have h1 := x1.isLt
  constructor <;> apply BitVec.eq_of_toNat_eq <;>
    simp only [auxLow, auxHigh, auxOf, BitVec.toNat_ofNat, BitVec.extractLsb'_toNat, Nat.shiftRight_eq_div_pow] <;>
    omega

/-- An `aux` field is made of its two buffer numbers (30 R91). -/
theorem auxOf_halves (aux : BitVec 16) : auxOf (auxLow aux) (auxHigh aux) = aux := by
  have := aux.isLt
  apply BitVec.eq_of_toNat_eq
  simp only [auxLow, auxHigh, auxOf, BitVec.toNat_ofNat, BitVec.extractLsb'_toNat, Nat.shiftRight_eq_div_pow]
  omega

/-- The status and the data of a response word (30 R94). -/
theorem responseWord_fields (e : Status) (data : Word) :
    statusField (responseWord e data) = e.code ∧ reservedField (responseWord e data) = 0 ∧
      dataField (responseWord e data) = data := by
  have hd := data.isLt
  have he : e.code.toNat < 256 := e.code.isLt
  rw [statusField, reservedField, dataField, responseWord]
  generalize e.code = c at *
  have hw : (BitVec.ofNat 64 (c.toNat * 2 ^ 56 + data.toNat)).toNat = c.toNat * 2 ^ 56 + data.toNat := by
    rw [BitVec.toNat_ofNat, Nat.mod_eq_of_lt]
    omega
  refine ⟨?_, ?_, ?_⟩ <;> apply BitVec.eq_of_toNat_eq <;>
    rw [BitVec.extractLsb'_toNat, hw, Nat.shiftRight_eq_div_pow]
  · omega
  · rw [show (0 : BitVec 24).toNat = 0 from rfl]
    omega
  · omega

/-- Every response of the model has the form of 30 R94. -/
theorem answers_iff (s : State) (e : Status) (data : Word) :
    s.Answers e data ↔ ∃ r, s.rsp = some r ∧ statusField r = e.code ∧ reservedField r = 0 ∧ dataField r = data := Iff.rfl

theorem succeed_answers (data : Word) (s : State) : (succeed data s).Answers .ok data :=
  ⟨_, rfl, responseWord_fields .ok data⟩

theorem takeError_answers (op : BitVec 8) (e : Status) (s : State) : (takeError op e s).Answers e 0 :=
  ⟨_, rfl, responseWord_fields e 0⟩

/-- Taking an error ends the command with it (60 R274). -/
theorem takeError_endsWith (op : BitVec 8) (e : Status) (s : State) : EndsWith op e (takeError op e s) := by
  refine ⟨takeError_answers op e s, ?_, rfl, rfl⟩
  have h1 := op.isLt
  have h2 : e.code.toNat < 256 := e.code.isLt
  show (lastErrWord op e).toNat = _
  rw [lastErrWord, BitVec.toNat_ofNat, Nat.mod_eq_of_lt]
  omega

/-- A success ends the command `OK` (10 R42, 30 R94). -/
theorem succeed_endsOk (data : Word) {s s' : State} (h : s'.lastErr = s.lastErr) : EndsOk s (succeed data s') data :=
  ⟨succeed_answers data s', h, rfl, rfl⟩

/-- The codes of two statuses differ (60 R271). -/
theorem code_injective {e e' : Status} (h : e.code = e'.code) : e = e' := by
  cases e <;> cases e' <;> first | rfl | exact absurd h (by decide)

end Sys2Proof.Machine
end

