-- ==== Sys2Proof/Laws/Decompress.lean ====
section
/-! SUPPORT. What the decompressor can do with the items of a frame, said once (42_intra_codec.md rules R188, R191;
43_inter_codec.md rules R205, R206). -/

namespace Sys2Proof.Machine

variable {c : PortNo} {s : State} {p : Port} {cu : Cursor}

/-! ### Symbols -/

/-- `sym - 256` undoes the numbering of the direct symbols (30 R102, R103). -/
theorem directValue_error {e : Pixel} (h : -256 ≤ e.toInt ∧ e.toInt ≤ 256) :
    directValue (BitVec.ofNat 10 (e.toInt + 256).toNat) = e := by
  have hn : (BitVec.ofNat 10 (e.toInt + 256).toNat).toNat = (e.toInt + 256).toNat := by
    rw [BitVec.toNat_ofNat, Nat.mod_eq_of_lt (by omega)]
  rw [directValue, hn]
  have : (((e.toInt + 256).toNat : Nat) : Int) - (codeMax : Int) = e.toInt := by unfold codeMax; omega
  rw [this, BitVec.ofInt_toInt]

/-- The state in which an item has acted at the cursor. -/
def applyItem (cu : Cursor) (i : Instr) (s : State) : State :=
  match i with
  | .direct0 sym => placePredicted cu (directValue sym) s
  | .esc0 raw => placePredicted cu raw s
  | .direct1 sym => placeDelta cu (directValue sym) s
  | .esc1 raw => placeDelta cu raw s
  | .run len => placeRun cu len s
  | _ => s

/-- The value of 16 raw bits (30 R106). -/
theorem raw_value (raw : Pixel) (rest : List Bool) :
    (BitVec.ofNat 32 (natOfBits ((bitsOf raw.toNat 16 ++ rest).take 16))).setWidth 16 = raw := by
  rw [List.take_left' (length_bitsOf _ _), natOfBits_bitsOf]
  apply BitVec.eq_of_toNat_eq
  have := raw.isLt
  simp only [BitVec.toNat_setWidth, BitVec.toNat_ofNat]
  omega

/-- Decoding a symbol whose code stands at the head of the input. -/
theorem decode_code {t : TableId} {sym : Nat} {rest : List Bool} (ht : s.TableReady t) (hs : sym < t.symbols)
    (hp : (s.port c).Inv) (hin : (s.port c).inBits = symbolCode (s.table t).contents sym ++ rest) :
    ∃ q, decodeSymbol c t s = .done sym (s.setPort c q) ∧
      (s.port c).Consumes q (symbolCode (s.table t).contents sym).length ∧ q.inBits = rest ∧ q.Inv := by
  have hw := ht.2.walk_code hs rest
  rw [← hin] at hw
  obtain ⟨q, hq, hc, hr, hi⟩ := decodeSymbol_done (c := c) (t := t) hp hw
  refine ⟨q, hq, ?_, hr, hi⟩
  rw [hin] at hc
  simpa using hc

/-- Decoding an escape and its 16 raw bits at the head of the input. -/
theorem decode_escape {t : TableId} {raw : Pixel} {rest : List Bool} {β : Type} {k : Word → State → Res β}
    (ht : s.TableReady t) (hp : (s.port c).Inv)
    (hin : (s.port c).inBits = symbolCode (s.table t).contents symEsc ++ (bitsOf raw.toNat 16 ++ rest)) :
    ∃ q v, (decodeSymbol c t s).bind (fun _ s => (read c 16 s).bind k) = k v (s.setPort c q) ∧ v.setWidth 16 = raw ∧
      (s.port c).Consumes q ((symbolCode (s.table t).contents symEsc).length + 16) ∧ q.inBits = rest ∧ q.Inv := by
  obtain ⟨q, hq, hc, hr, hi⟩ := decode_code ht (by have := symbols_gt t; unfold symEsc; omega) hp hin
  obtain ⟨q', hq', hc', hi'⟩ := read_done (c := c) (s := s.setPort c q) (k := 16) (by simpa using hi) (by decide)
    (by simp [hr])
  simp only [port_setPort_self, setPort_setPort, hr] at hq' hc'
  refine ⟨q', _, by rw [hq, bind_done, hq', bind_done], raw_value raw rest,
    Port.Consumes.trans hp hi hc hc' (by rw [hin]; simp), ?_, hi'⟩
  rw [hc'.bits, hr, List.drop_left' (length_bitsOf _ _)]

/-- One symbol of an intra frame: the decompressor does what the symbol does at the cursor (42 R188, R191). -/
theorem intraItem_symbol {i : Instr} {rest : List Bool} (ht : s.TableReady .intra) (hp : (s.port cu.port).Inv)
    (hpos : cu.pos ≠ 0) (hi : (∃ sym, i = .direct0 sym ∧ sym.toNat ≤ 512) ∨ ∃ raw, i = .esc0 raw)
    (hin : (s.port cu.port).inBits = itemBits (s.table .intra).contents i ++ rest) :
    ∃ q, intraItem cu s = .done () (applyItem cu i (s.setPort cu.port q)) ∧
      (s.port cu.port).Consumes q (itemBits (s.table .intra).contents i).length ∧ q.inBits = rest ∧ q.Inv := by
  unfold intraItem
  rw [if_neg hpos]
  rcases hi with ⟨sym, rfl, hsym⟩ | ⟨raw, rfl⟩
  · have hlt : sym.toNat < TableId.intra.symbols := by simp only [TableId.symbols]; omega
    rw [itemBits_eq ht.2 (t := .intra) (sym := sym.toNat) rfl hlt] at hin ⊢
    simp only [immediateBits, List.append_nil] at hin ⊢
    obtain ⟨q, hq, hc, hr, hi⟩ := decode_code ht hlt hp hin
    refine ⟨q, ?_, hc, hr, hi⟩
    have h512 : sym.toNat ≤ 2 * codeMax := hsym
    rw [hq, bind_done, if_pos h512, BitVec.ofNat_toNat, BitVec.setWidth_eq]
    rfl
  · rw [itemBits_eq ht.2 (t := .intra) (sym := symEsc) rfl (by decide)] at hin ⊢
    simp only [immediateBits] at hin ⊢
    rw [List.append_assoc] at hin
    obtain ⟨q, hq, hc, hr, hi⟩ := decode_code ht (by decide) hp hin
    obtain ⟨q', v, hk, hv, hc', hr', hi'⟩ := decode_escape (k := fun raw s =>
      Res.done () (placePredicted cu (raw.setWidth 16) s)) ht hp hin
    refine ⟨q', ?_, by simpa using hc', hr', hi'⟩
    rw [hq, bind_done] at hk ⊢
    rw [if_neg (by decide), hk, hv]
    rfl

/-- One symbol of an inter frame (43 R205). -/
theorem interItem_symbol_done {i : Instr} {rest : List Bool} (ht : s.TableReady .inter) (hp : (s.port cu.port).Inv)
    (hi : isInterItem i = true) (hfit : ∀ len, i = .run len → cu.pos + len.toNat ≤ cu.count)
    (hin : (s.port cu.port).inBits = itemBits (s.table .inter).contents i ++ rest) :
    ∃ q, interItem cu s = .done () (applyItem cu i (s.setPort cu.port q)) ∧
      (s.port cu.port).Consumes q (itemBits (s.table .inter).contents i).length ∧ q.inBits = rest ∧ q.Inv := by
  unfold interItem
  cases i with
  | direct1 sym =>
    simp only [isInterItem, directNumberOk, decide_eq_true_eq] at hi
    have hlt : sym.toNat < TableId.inter.symbols := by simp only [TableId.symbols]; unfold codeMax at hi; omega
    rw [itemBits_eq ht.2 (t := .inter) (sym := sym.toNat) rfl hlt] at hin ⊢
    simp only [immediateBits, List.append_nil] at hin ⊢
    obtain ⟨q, hq, hc, hr, hi'⟩ := decode_code ht hlt hp hin
    refine ⟨q, ?_, hc, hr, hi'⟩
    rw [hq, bind_done, if_pos hi, BitVec.ofNat_toNat, BitVec.setWidth_eq]
    rfl
  | esc1 raw =>
    rw [itemBits_eq ht.2 (t := .inter) (sym := symEsc) rfl (by decide)] at hin ⊢
    simp only [immediateBits] at hin ⊢
    rw [List.append_assoc] at hin
    obtain ⟨q, hq, hc, hr, hi'⟩ := decode_code ht (by decide) hp hin
    obtain ⟨q', v, hk, hv, hc', hr', hi'⟩ := decode_escape (k := fun raw s =>
      Res.done () (placeDelta cu (raw.setWidth 16) s)) ht hp hin
    refine ⟨q', ?_, by simpa using hc', hr', hi'⟩
    rw [hq, bind_done] at hk ⊢
    rw [if_neg (by decide), if_pos rfl, hk, hv]
    rfl
  | run len =>
    simp only [isInterItem, runLengthOk, Bool.and_eq_true, decide_eq_true_eq] at hi
    have h512 : len.toNat ≤ 512 := hi.2
    have hlt : symRun0 + len.toNat < TableId.inter.symbols := by simp only [TableId.symbols, symRun0]; omega
    rw [itemBits_eq ht.2 (t := .inter) (sym := symRun0 + len.toNat) rfl hlt] at hin ⊢
    simp only [immediateBits, List.append_nil] at hin ⊢
    obtain ⟨q, hq, hc, hr, hi'⟩ := decode_code ht hlt hp hin
    refine ⟨q, ?_, hc, hr, hi'⟩
    have hlen : BitVec.ofNat 10 (symRun0 + len.toNat - symRun0) = len := by simp
    have hrf : runFits cu len = true := by simp only [runFits, decide_eq_true_eq]; exact hfit len rfl
    rw [hq, bind_done, if_neg (by unfold symRun0 codeMax; omega), if_neg (by unfold symRun0 symEsc; omega), hlen,
      if_pos hrf]
    rfl
  | _ => cases hi

/-- A frame that is complete takes no further item. -/
theorem frameItems_end (rounds : Nat) (hcu : s.cursor = some cu) (h : cu.count ≤ cu.pos) :
    frameItems rounds s = .done () s := by
  cases rounds with
  | zero => rfl
  | succ rounds => simp only [frameItems, hcu, if_neg (Nat.not_lt.mpr h)]

/-! ### A whole intra frame -/

/-- The bits of step `p` of an intra frame whose raw first pixel is `g`'s and whose item at step `p` is `item p`. -/
def intraItemBits (tab : CodeTable) (g : Nat → Pixel) (item : Nat → Instr) (w p : Nat) : List Bool :=
  if p = 0 then bitsOf (g (scanCell w 0)).toNat 16 else itemBits tab (item p)

/-- What an item of an intra frame does at the cursor (42 R188). -/
theorem applyItem_intra {i : Instr} (h : isIntraItem i = true) :
    applyItem cu i s = placePredicted cu (intraValue i) s := by
  cases i with
  | direct0 sym => rfl
  | esc0 raw => rfl
  | _ => cases h

theorem isIntraItem_cases {i : Instr} (h : isIntraItem i = true) :
    (∃ sym, i = .direct0 sym ∧ sym.toNat ≤ 512) ∨ ∃ raw, i = .esc0 raw := by
  cases i with
  | direct0 sym => exact .inl ⟨sym, rfl, of_decide_eq_true h⟩
  | esc0 raw => exact .inr ⟨raw, rfl⟩
  | _ => cases h

/-- For `m` steps from `cu.pos` on, items whose values are the prediction errors of `g` rebuild `g` (42 R191), and the
decompressor goes on from there. -/
theorem frameItems_intra (g : Nat → Pixel) (item : Nat → Instr) {w m : Nat} (rounds : Nat) {rest : List Bool} (hw : 0 < w)
    (hcu : s.cursor = some cu) (htab : cu.table = .intra) (hwidth : cu.width = w) (hm : cu.pos + m ≤ cu.count)
    (ht : s.TableReady .intra)
    (hok : ∀ q, 0 < q → q < cu.pos + m → isIntraItem (item q) = true ∧
      g (scanCell w q) = predictAt g w q + intraValue (item q))
    (hp : (s.port cu.port).Inv) (hpix : ∀ q, q < cu.pos → s.pixel cu.dst (scanCell w q) = g (scanCell w q))
    (hin : (s.port cu.port).inBits =
      (List.range m).flatMap (fun j => intraItemBits (s.table .intra).contents g item w (cu.pos + j)) ++ rest) :
    ∃ q t, frameItems (rounds + m) s = frameItems rounds t ∧
      t = { s.setPort cu.port q with pix := t.pix, cursor := some { cu with pos := cu.pos + m } } ∧
      (s.port cu.port).Consumes q ((List.range m).flatMap
        (fun j => intraItemBits (s.table .intra).contents g item w (cu.pos + j))).length ∧
      q.inBits = rest ∧ q.Inv ∧
      (∀ j, cu.pos ≤ j → j < cu.pos + m → t.pixel cu.dst (scanCell w j) = g (scanCell w j)) ∧
      ∀ b x, (b = cu.dst → ∀ j, cu.pos ≤ j → j < cu.pos + m → x ≠ scanCell w j) → t.pixel b x = s.pixel b x := by
  induction m generalizing s cu with
  | zero =>
    simp only [List.range_zero, List.flatMap_nil, List.nil_append, List.length_nil] at hin ⊢
    refine ⟨s.port cu.port, s, rfl, ?_, Port.Consumes.refl _ hp, hin, hp, fun j h1 h2 => by omega, fun b x _ => rfl⟩
    rw [setPort_port, Nat.add_zero, ← hcu]
  | succ m ih =>
    have hlt : cu.pos < cu.count := by omega
    have hsplit : (List.range (m + 1)).flatMap
          (fun j => intraItemBits (s.table .intra).contents g item w (cu.pos + j)) =
        intraItemBits (s.table .intra).contents g item w cu.pos ++ (List.range m).flatMap
          (fun j => intraItemBits (s.table .intra).contents g item w (cu.pos + 1 + j)) := by
      rw [List.range_succ_eq_map, List.flatMap_cons, List.flatMap_map, Nat.add_zero]
      congr 2; funext j; rw [Nat.succ_eq_add_one]; congr 1; omega
    rw [hsplit] at hin ⊢
    rw [List.append_assoc] at hin
    -- the item at the cursor
    obtain ⟨q, hq, hc, hr, hi⟩ : ∃ q, frameItem cu s =
          .done () (placePixel cu (scanCell w cu.pos) (g (scanCell w cu.pos)) (s.setPort cu.port q)) ∧
        (s.port cu.port).Consumes q (intraItemBits (s.table .intra).contents g item w cu.pos).length ∧
        q.inBits = (List.range m).flatMap
          (fun j => intraItemBits (s.table .intra).contents g item w (cu.pos + 1 + j)) ++ rest ∧ q.Inv := by
      simp only [frameItem, htab]
      by_cases h0 : cu.pos = 0
      · simp only [intraItemBits, h0, if_true] at hin ⊢
        obtain ⟨q, hq, hc, hi⟩ := read_done (c := cu.port) (s := s) (k := 16) hp (by decide) (by rw [hin]; simp)
        rw [hin] at hq
        refine ⟨q, ?_, by simpa using hc, ?_, hi⟩
        · rw [intraItem, if_pos h0, hq, bind_done, raw_value, placeRaw, hwidth, h0]
        · rw [hc.bits, hin, List.drop_left' (length_bitsOf _ _)]
      · simp only [intraItemBits, if_neg h0] at hin ⊢
        have hpred : predictAt (s.pixel cu.dst) w cu.pos = predictAt g w cu.pos :=
          predictAt_congr hw (by omega) hpix
        obtain ⟨hitem, hval⟩ := hok cu.pos (by omega) (by omega)
        obtain ⟨q, hq, hc, hr', hi⟩ := intraItem_symbol ht hp h0 (isIntraItem_cases hitem) hin
        refine ⟨q, ?_, hc, hr', hi⟩
        rw [hq, applyItem_intra hitem]
        simp only [placePredicted, setPort_pixel, hwidth, hpred, hval]
    -- the items after it
    obtain ⟨q', t, hrun, hsame, hc', hr', hi', hnew, hold⟩ := ih
      (s := placePixel cu (scanCell w cu.pos) (g (scanCell w cu.pos)) (s.setPort cu.port q)) (cu := nextPixel cu)
      rfl htab hwidth (by simp only [nextPixel]; omega)
      (by cases cu; exact ht) (fun j h1 h2 => hok j h1 (by simp only [nextPixel] at h2; omega))
      (by show ((s.setPort cu.port q).port cu.port).Inv; simpa using hi)
      (by
        intro j hj
        simp only [nextPixel] at hj ⊢
        show State.pixel ((s.setPort cu.port q).setPixel cu.dst (scanCell w cu.pos) (g (scanCell w cu.pos))) cu.dst _ = _
        rw [pixel_setPixel]
        split
        · rename_i h; rw [h.2]
        · rename_i h
          have : j ≠ cu.pos := by rintro rfl; exact h ⟨rfl, rfl⟩
          exact hpix j (by omega))
      (by
        simp only [nextPixel]
        show ((s.setPort cu.port q).port cu.port).inBits = _
        rw [port_setPort_self, hr]
        rfl)
    have hport : (placePixel cu (scanCell w cu.pos) (g (scanCell w cu.pos)) (s.setPort cu.port q)).port
        (nextPixel cu).port = q := by
      show (s.setPort cu.port q).port cu.port = q
      simp
    rw [hport] at hc'
    refine ⟨q', t, ?_, ?_, ?_, hr', hi', ?_, ?_⟩
    · rw [← Nat.add_assoc]
      simp only [frameItems, hcu, if_pos hlt, hq, andThen_done, hrun]
    · rw [hsame]
      simp only [nextPixel, placePixel, State.setPort, State.setPixel]
      congr 1
      · simp [Vector.set_set]
      · simp only [Option.some.injEq, Cursor.mk.injEq, true_and]; omega
    · rw [List.length_append]
      exact Port.Consumes.trans hp hi hc hc' (by rw [hin]; simp)
    · intro j h1 h2
      by_cases hj : j = cu.pos
      · subst hj
        rw [hold cu.dst _ fun _ j' h3 _ he => ?_]
        · show State.pixel ((s.setPort cu.port q).setPixel cu.dst _ _) cu.dst _ = _
          rw [pixel_setPixel_self]
        · have := scanCell_injective hw he
          simp only [nextPixel] at h3; omega
      · exact hnew j (by simp only [nextPixel]; omega) (by simp only [nextPixel]; omega)
    · intro b x hx
      rw [hold b x fun hb j h3 h4 => hx hb j (by simp only [nextPixel] at h3; omega)
        (by simp only [nextPixel] at h4; omega)]
      show State.pixel ((s.setPort cu.port q).setPixel cu.dst _ _) b x = _
      rw [pixel_setPixel_ne _ _ (by
        by_cases hb : b = cu.dst
        · exact .inr (hx hb cu.pos (le_refl _) (by omega))
        · exact .inl hb)]
      rfl

theorem scanCell_zero (w : Nat) : scanCell w 0 = 0 := by simp [scanCell, scanColumn, scanRow, cellIndex]

/-- Step by step, the grid that the items rebuild. -/
theorem IntraRebuilds.step {g : Nat → Pixel} {w h : Nat} {raw : Pixel} {items : List Instr}
    (hg : IntraRebuilds g w h raw items) (hok : ∀ item ∈ items, isIntraItem item = true) {q : Nat} (h1 : 0 < q)
    (h2 : q < w * h) : isIntraItem (items.getD (q - 1) .nop) = true ∧
      g (scanCell w q) = predictAt g w q + intraValue (items.getD (q - 1) .nop) := by
  have hlt : q - 1 < items.length := by have := hg.count; omega
  have hget : items[q - 1]? = some (items.getD (q - 1) .nop) := by
    rw [List.getD_eq_getElem?_getD, List.getElem?_eq_getElem hlt]; rfl
  refine ⟨hok _ (List.mem_of_getElem? hget), ?_⟩
  exact hg.others _ _ hget (scanColumn w q, scanRow w q) (by
    rw [scan_eq, List.getElem?_map, List.getElem?_range (by omega), show q - 1 + 1 = q by omega]; rfl)

/-- Step by step, the bits of a raw first pixel and items. -/
theorem intraBits_steps {g : Nat → Pixel} {raw : Pixel} (hg : g 0 = raw) (tab : CodeTable) (items : List Instr) (w : Nat) :
    (List.range (items.length + 1)).flatMap
      (fun j => intraItemBits tab g (fun p => items.getD (p - 1) .nop) w (0 + j)) = intraBits tab raw items := by
  rw [List.range_succ_eq_map, List.flatMap_cons, List.flatMap_map]
  simp only [intraItemBits, Nat.zero_add, if_true, scanCell_zero, hg, intraBits, itemsBits]
  congr 1
  have : items = (List.range items.length).map fun j => items.getD j .nop := by
    apply List.ext_getElem?
    intro j
    rw [List.getElem?_map]
    by_cases hj : j < items.length
    · simp [hj]
    · simp [hj]
  conv_rhs => rw [this, List.flatMap_map]
  rfl

/-- `intra-decompress` of a frame of any items (42 R191): it rebuilds the grid of the items, skips the padding, and
fetches no word before it is needed. -/
theorem intraDecompress_items (op : BitVec 8) {b w h : Nat} {g : Nat → Pixel} {raw : Pixel} {items : List Instr}
    {rest : List Bool} (ht : s.TableReady .intra) (hp : (s.port c).Inv)
    (hok : ∀ item ∈ items, isIntraItem item = true) (hg : IntraRebuilds g w h raw items)
    (hin : (s.port c).inBits = intraBits (s.table .intra).contents raw items ++ rest) :
    ∃ q t, intraDecompress op c b w h s = .done () t ∧
      t = { s.setPort c q with pix := t.pix, cursor := none } ∧
      q = { s.port c with
            brAcc := 0, brN := 0
            tin := List.drop (wordsToRead (s.port c).brN (intraBits (s.table .intra).contents raw items).length)
              (s.port c).tin } ∧ q.Inv ∧
      ∀ b' x, t.pixel b' x = if b' = b ∧ x < w * h then g x else s.pixel b' x := by
  have hn : 0 < w * h := by have := hg.count; omega
  have hw : 0 < w := Nat.pos_of_ne_zero (by rintro rfl; simp at hn)
  have hsteps := intraBits_steps hg.first (s.table .intra).contents items w
  rw [hg.count] at hsteps
  obtain ⟨q, t, hrun, hsame, hc, hr, hi, hnew, hold⟩ := frameItems_intra
    (s := { s with cursor := some (intraCursor op c b w h) }) (cu := intraCursor op c b w h) (m := w * h)
    (rest := rest) g (fun p => items.getD (p - 1) .nop) 0 hw rfl rfl rfl (by simp [intraCursor]) ht
    (fun q h1 h2 => hg.step hok h1 (by simpa [intraCursor] using h2)) hp (by simp [intraCursor])
    (by
      show (s.port c).inBits = _
      rw [hin]
      congr 1
      exact hsteps.symm)
  have hport : t.port c = q := by
    rw [hsame]
    show (State.setPort _ c q).port c = q
    simp
  refine ⟨{ q with brAcc := 0, brN := 0 }, { align c t with cursor := none }, ?_, ?_, ?_, ?_, ?_⟩
  · show (frameItems (w * h) { s with cursor := some (intraCursor op c b w h) }).andThen _ = _
    rw [← Nat.zero_add (w * h), hrun]
    rfl
  · rw [align_eq, hport]
    rw [hsame]
    simp only [State.setPort]
    congr 1
    simp [Vector.set_set, intraCursor]
  · have h1 := hc.same
    have h2 : q.tin = (s.port c).tin.drop
      (wordsToRead (s.port c).brN (intraBits (s.table .intra).contents raw items).length) := hsteps ▸ hc.lazy
    rw [h1, h2]
    rfl
  · exact ⟨hi.writerCount, hi.writerBits, by simp, by simp⟩
  · intro b' x
    show t.pixel b' x = _
    by_cases hx : b' = b ∧ x < w * h
    · obtain ⟨rfl, hx⟩ := hx
      obtain ⟨j, h1, rfl⟩ := exists_scanCell hx
      rw [if_pos ⟨rfl, hx⟩]
      exact hnew j (Nat.zero_le _) (by simpa [intraCursor] using h1)
    · rw [if_neg hx]
      exact hold b' x fun hb j _ h2 he => hx ⟨hb, he ▸ scanCell_lt (by simpa [intraCursor] using h2)⟩

/-- The grid that a raw first pixel and items rebuild. -/
theorem exists_intraRebuilds {w h : Nat} (raw : Pixel) (items : List Instr) (hcount : items.length + 1 = w * h) :
    ∃ g, IntraRebuilds g w h raw items := by
  have hw : 0 < w := Nat.pos_of_ne_zero (by rintro rfl; simp at hcount)
  obtain ⟨g, hg0, hg⟩ : ∃ g : Nat → Pixel, g 0 = raw ∧ ∀ p, p < items.length →
      g (scanCell w (p + 1)) = predictAt g w (p + 1) + intraValue (items.getD p .nop) := by
    suffices ∀ k, ∃ g : Nat → Pixel, g 0 = raw ∧ ∀ p, p < k →
        g (scanCell w (p + 1)) = predictAt g w (p + 1) + intraValue (items.getD p .nop) from this items.length
    intro k
    induction k with
    | zero => exact ⟨fun _ => raw, rfl, fun p hp => by omega⟩
    | succ k ih =>
      obtain ⟨g, hg0, hg⟩ := ih
      have hne : ∀ q, q ≤ k → scanCell w q ≠ scanCell w (k + 1) := by
        intro q hq he
        have := scanCell_injective hw he
        omega
      refine ⟨fun x => if x = scanCell w (k + 1) then
        predictAt g w (k + 1) + intraValue (items.getD k .nop) else g x, ?_, ?_⟩
      · have := hne 0 (by omega)
        rw [scanCell_zero] at this
        simp only [if_neg this, hg0]
      · intro p hp
        by_cases hpk : p = k
        · subst hpk
          beta_reduce
          rw [if_pos rfl]
          congr 1
          exact predictAt_congr hw (by omega) fun q hq => (if_neg (hne q (by omega))).symm
        · beta_reduce
          rw [if_neg (hne (p + 1) (by omega)), hg p (by omega)]
          congr 1
          exact predictAt_congr hw (by omega) fun q hq => (if_neg (hne q (by omega))).symm
  refine ⟨g, hg0, hcount, fun p item hitem xy hxy => ?_⟩
  have hp : p < items.length := (List.getElem?_eq_some_iff.mp hitem).1
  rw [scan_eq, List.getElem?_map, List.getElem?_range (by omega)] at hxy
  simp only [Option.map_some, Option.some.injEq] at hxy
  subst hxy
  have := hg p hp
  rw [List.getD_eq_getElem?_getD, hitem, Option.getD_some] at this
  exact this

theorem errorItem_intra (e : Pixel) : isIntraItem (errorItem .intra e) = true ∧ intraValue (errorItem .intra e) = e := by
  unfold errorItem
  split
  · rename_i h
    refine ⟨decide_eq_true ?_, directValue_error h⟩
    rw [BitVec.toNat_ofNat, Nat.mod_eq_of_lt (by omega)]
    unfold codeMax
    omega
  · exact ⟨rfl, rfl⟩

/-- The items of a grid rebuild the grid (42 R192). -/
theorem intraItems_rebuild (g : Nat → Pixel) {w h : Nat} (hn : 0 < w * h) :
    IntraRebuilds g w h (g 0) (intraItems g w h) ∧ ∀ item ∈ intraItems g w h, isIntraItem item = true := by
  constructor
  · refine ⟨rfl, by simp [intraItems, length_scan]; omega, fun p item hitem xy hxy => ?_⟩
    rw [intraItems, List.getElem?_map, List.getElem?_tail, hxy] at hitem
    simp only [Option.map_some, Option.some.injEq] at hitem
    rw [← hitem, (errorItem_intra _).2, BitVec.add_comm, BitVec.sub_add_cancel]
  · intro item hitem
    simp only [intraItems, List.mem_map] at hitem
    obtain ⟨_, _, rfl⟩ := hitem
    exact (errorItem_intra _).1

/-- `intra-decompress` of the frame of a grid `g` (42 R191, R192). -/
theorem intraDecompress_done (op : BitVec 8) {b w h : Nat} (g : Nat → Pixel) {rest : List Bool}
    (ht : s.TableReady .intra) (hp : (s.port c).Inv) (hn : 0 < w * h)
    (hin : (s.port c).inBits = intraFrame (s.table .intra).contents g w h ++ rest) :
    ∃ q t, intraDecompress op c b w h s = .done () t ∧
      t = { s.setPort c q with pix := t.pix, cursor := none } ∧
      q = { s.port c with
            brAcc := 0, brN := 0
            tin := List.drop (wordsToRead (s.port c).brN (intraFrame (s.table .intra).contents g w h).length)
              (s.port c).tin } ∧ q.Inv ∧
      ∀ b' x, t.pixel b' x = if b' = b ∧ x < w * h then g x else s.pixel b' x :=
  intraDecompress_items op ht hp (intraItems_rebuild g hn).2 (intraItems_rebuild g hn).1 hin

/-! ### A whole inter frame -/

/-- Every item of an inter frame rebuilds at least one pixel. -/
theorem interPixels_pos {item : Instr} (ref : Nat → Pixel) (i : Nat) (h : isInterItem item = true) :
    0 < (interPixels ref i item).length := by
  cases item with
  | direct1 sym => simp [interPixels]
  | esc1 raw => simp [interPixels]
  | run len =>
    simp only [isInterItem, runLengthOk, Bool.and_eq_true, decide_eq_true_eq] at h
    simp only [interPixels, List.length_map, List.length_range]; omega
  | _ => cases h

/-- Items are no more than the pixels they rebuild. -/
theorem length_le_interRebuilt (ref : Nat → Pixel) (i : Nat) {items : List Instr}
    (h : ∀ item ∈ items, isInterItem item = true) : items.length ≤ (interRebuilt ref i items).length := by
  induction items generalizing i with
  | nil => exact Nat.le_refl _
  | cons item more ih =>
    have h1 := interPixels_pos ref i (h item (by simp))
    have h2 := ih (i + (interPixels ref i item).length) fun item hm => h item (by simp [hm])
    simp only [interRebuilt, List.length_append, List.length_cons]
    omega

/-- An item of an inter frame acts at the cursor: its pixels are written there, and the cursor moves past them. -/
theorem applyItem_inter {item : Instr} {R : Nat → Pixel} (h : isInterItem item = true)
    (hR : ∀ x, cu.pos ≤ x → x < cu.pos + (interPixels R cu.pos item).length → s.pixel cu.ref x = R x) :
    applyItem cu item s =
      { s with
        pix := (applyItem cu item s).pix
        cursor := some { cu with pos := cu.pos + (interPixels R cu.pos item).length } } ∧
    ∀ b x, (applyItem cu item s).pixel b x =
      if b = cu.dst ∧ cu.pos ≤ x then ((interPixels R cu.pos item)[x - cu.pos]?).getD (s.pixel b x) else s.pixel b x := by
  have hdelta : ∀ e : Pixel, s.pixel cu.ref cu.pos = R cu.pos → ∀ b x,
      (placeDelta cu e s).pixel b x =
        if b = cu.dst ∧ cu.pos ≤ x then (([R cu.pos + e] : List Pixel)[x - cu.pos]?).getD (s.pixel b x)
        else s.pixel b x := by
    intro e he b x
    show State.pixel (s.setPixel cu.dst cu.pos (s.pixel cu.ref cu.pos + e)) b x = _
    rw [pixel_setPixel, he]
    by_cases hb : b = cu.dst
    · by_cases hx : x = cu.pos
      · simp [hb, hx]
      · by_cases hle : cu.pos ≤ x
        · have : ∃ m, x - cu.pos = m + 1 := ⟨x - cu.pos - 1, by omega⟩
          obtain ⟨m, hm⟩ := this
          simp [hb, hx, hle, hm]
        · simp [hb, hx, hle]
    · simp [hb]
  cases item with
  | direct1 sym => exact ⟨rfl, hdelta _ (hR cu.pos (le_refl _) (by simp [interPixels]))⟩
  | esc1 raw => exact ⟨rfl, hdelta _ (hR cu.pos (le_refl _) (by simp [interPixels]))⟩
  | run len =>
    simp only [interPixels, List.length_map, List.length_range] at hR ⊢
    constructor
    · simp only [applyItem, placeRun]
      rw [copyCells_frame]
    · intro b x
      show (copyCells cu.dst cu.ref len.toNat cu.pos s).pixel b x = _
      rw [copyCells_pixel]
      by_cases hb : b = cu.dst
      · by_cases h1 : cu.pos ≤ x
        · by_cases h2 : x < cu.pos + len.toNat
          · rw [if_pos ⟨hb, h1, h2⟩, if_pos ⟨hb, h1⟩, hR x h1 h2, List.getElem?_map,
              List.getElem?_range (by omega)]
            simp [show cu.pos + (x - cu.pos) = x by omega]
          · rw [if_neg (by omega), if_pos ⟨hb, h1⟩, List.getElem?_eq_none (by simp; omega)]
            rfl
        · rw [if_neg (by omega), if_neg (by omega)]
      · simp [hb]
  | _ => cases h

/-- From index `cu.pos` on, the items of an inter frame rebuild their pixels (43 R205, R206), and the decompressor goes on
from there. `R` is the reference. -/
theorem frameItems_inter (R : Nat → Pixel) (rounds : Nat) {items : List Instr} {rest : List Bool}
    (hcu : s.cursor = some cu) (htab : cu.table = .inter)
    (hlen : cu.pos + (interRebuilt R cu.pos items).length ≤ cu.count)
    (hok : ∀ item ∈ items, isInterItem item = true) (ht : s.TableReady .inter) (hp : (s.port cu.port).Inv)
    (hR : ∀ x, cu.pos ≤ x → x < cu.count → s.pixel cu.ref x = R x)
    (hin : (s.port cu.port).inBits = itemsBits (s.table .inter).contents items ++ rest) :
    ∃ q t, frameItems (rounds + items.length) s = frameItems rounds t ∧
      t = { s.setPort cu.port q with
            pix := t.pix, cursor := some { cu with pos := cu.pos + (interRebuilt R cu.pos items).length } } ∧
      (s.port cu.port).Consumes q (itemsBits (s.table .inter).contents items).length ∧
      q.inBits = rest ∧ q.Inv ∧
      ∀ b x, t.pixel b x =
        if b = cu.dst ∧ cu.pos ≤ x then ((interRebuilt R cu.pos items)[x - cu.pos]?).getD (s.pixel b x)
        else s.pixel b x := by
  induction items generalizing s cu with
  | nil =>
    refine ⟨s.port cu.port, s, rfl, ?_, Port.Consumes.refl _ hp, hin, hp, fun b x => by simp [interRebuilt]⟩
    rw [setPort_port, interRebuilt, List.length_nil, Nat.add_zero, ← hcu]
  | cons item more ih =>
    have hitem := hok item (by simp)
    have hpos := interPixels_pos R cu.pos hitem
    simp only [interRebuilt, List.length_append] at hlen
    rw [itemsBits_cons, List.append_assoc] at hin
    have hlt : cu.pos < cu.count := by omega
    obtain ⟨q, hq, hc, hr, hi⟩ := interItem_symbol_done ht hp hitem (by
      rintro len rfl
      simp only [interPixels, List.length_map, List.length_range] at hlen
      omega) hin
    obtain ⟨hframe, hpx⟩ := applyItem_inter (s := s.setPort cu.port q) (cu := cu) (R := R) hitem (by
      intro x h1 h2
      exact hR x h1 (by omega))
    have hport : (applyItem cu item (s.setPort cu.port q)).port cu.port = q := by
      rw [hframe]
      show (s.setPort cu.port q).port cu.port = q
      simp
    have htable : (applyItem cu item (s.setPort cu.port q)).table .inter = s.table .inter := by
      rw [hframe]; rfl
    obtain ⟨q', t, hrun, hsame, hc', hr', hi', hpx'⟩ := ih
      (s := applyItem cu item (s.setPort cu.port q))
      (cu := { cu with pos := cu.pos + (interPixels R cu.pos item).length })
      (by rw [hframe]) htab (by simp only; omega)
      (fun i hm => hok i (by simp [hm])) (by unfold State.TableReady; rw [htable]; exact ht)
      (by rw [hport]; exact hi)
      (by
        intro x h1 h2
        simp only at h1 h2 ⊢
        rw [hpx]
        split
        · rw [List.getElem?_eq_none (by omega)]
          exact hR x (by omega) h2
        · exact hR x (by omega) h2)
      (by rw [hport, htable]; exact hr)
    simp only [hport, htable] at hc' hr'
    refine ⟨q', t, ?_, ?_, ?_, hr', hi', ?_⟩
    · rw [List.length_cons, ← Nat.add_assoc]
      simp only [frameItems, hcu, if_pos hlt, frameItem, htab, hq, andThen_done]
      exact hrun
    · rw [hsame, hframe]
      simp only [State.setPort]
      congr 1
      · simp [Vector.set_set]
      · simp only [interRebuilt, List.length_append, Nat.add_assoc]
    · rw [itemsBits_cons, List.length_append]
      exact Port.Consumes.trans hp hi hc hc' (by rw [hin]; simp)
    · intro b x
      rw [hpx' b x, hpx b x]
      simp only [interRebuilt]
      by_cases hb : b = cu.dst
      · by_cases h1 : cu.pos ≤ x
        · by_cases h2 : cu.pos + (interPixels R cu.pos item).length ≤ x
          · rw [if_pos ⟨hb, h2⟩, if_pos ⟨hb, h1⟩, if_pos ⟨hb, h1⟩, List.getElem?_append_right (by omega),
              List.getElem?_eq_none (l := interPixels R cu.pos item) (by omega), Nat.sub_sub]
            rfl
          · rw [if_neg (by simp only [hb, true_and]; exact h2), if_pos ⟨hb, h1⟩, if_pos ⟨hb, h1⟩,
              List.getElem?_append_left (by omega)]
            rfl
        · rw [if_neg (by omega), if_neg (by omega), if_neg (by omega)]
          rfl
      · simp [hb]

/-- `inter-decompress` of a sequence of items that rebuilds exactly `n` pixels (43 R206). -/
theorem interDecompress_done (op : BitVec 8) {b r n : Nat} {items : List Instr} {rest : List Bool}
    (ht : s.TableReady .inter) (hp : (s.port c).Inv) (hok : ∀ item ∈ items, isInterItem item = true)
    (hlen : (interRebuilt (s.pixel r) 0 items).length = n)
    (hin : (s.port c).inBits = itemsBits (s.table .inter).contents items ++ rest) :
    ∃ q t, interDecompress op c b r n s = .done () t ∧
      t = { s.setPort c q with pix := t.pix, cursor := none } ∧
      q = { s.port c with
            brAcc := 0, brN := 0
            tin := List.drop (wordsToRead (s.port c).brN (itemsBits (s.table .inter).contents items).length)
              (s.port c).tin } ∧ q.Inv ∧
      ∀ b' x, t.pixel b' x =
        if b' = b then ((interRebuilt (s.pixel r) 0 items)[x]?).getD (s.pixel b' x) else s.pixel b' x := by
  have hle := length_le_interRebuilt (s.pixel r) 0 hok
  obtain ⟨q, t, hrun, hsame, hc, hr, hi, hpx⟩ := frameItems_inter
    (s := { s with cursor := some (interCursor op c b r n) }) (cu := interCursor op c b r n) (items := items)
    (rest := rest) (s.pixel r) (n - items.length) rfl rfl
    (by simp [interCursor, hlen]) hok ht hp (fun x _ _ => rfl) hin
  have hport : t.port c = q := by
    rw [hsame]
    show (State.setPort _ c q).port c = q
    simp
  refine ⟨{ q with brAcc := 0, brN := 0 }, { align c t with cursor := none }, ?_, ?_, ?_, ?_, ?_⟩
  · show (frameItems n { s with cursor := some (interCursor op c b r n) }).andThen _ = _
    rw [Nat.sub_add_cancel (hlen ▸ hle)] at hrun
    rw [hrun, frameItems_end (cu := { interCursor op c b r n with pos := n }) _ (by rw [hsame, ← hlen]; simp [interCursor])
        (Nat.le_refl _), andThen_done]
    rfl
  · rw [align_eq, hport]
    rw [hsame]
    simp only [State.setPort]
    congr 1
    simp [Vector.set_set, interCursor]
  · have h1 := hc.same
    have h2 := hc.lazy
    rw [h1, h2]
    rfl
  · exact ⟨hi.writerCount, hi.writerBits, by simp, by simp⟩
  · intro b' x
    show t.pixel b' x = _
    rw [hpx b' x]
    simp only [interCursor, Nat.zero_le, and_true, Nat.sub_zero]
    rfl

/-! ### The items of a frame rebuild the grid (43 R208) -/

theorem interRebuilt_append (ref : Nat → Pixel) (i : Nat) (xs ys : List Instr) :
    interRebuilt ref i (xs ++ ys) =
      interRebuilt ref i xs ++ interRebuilt ref (i + (interRebuilt ref i xs).length) ys := by
  induction xs generalizing i with
  | nil => simp [interRebuilt]
  | cons x xs ih => simp [interRebuilt, ih, Nat.add_assoc]

theorem interPixels_run (ref : Nat → Pixel) (i : Nat) {L : Nat} (h : L ≤ 512) :
    interPixels ref i (runItem L) = (List.range L).map fun j => ref (i + j) := by
  have hn : (BitVec.ofNat 10 L).toNat = L := by rw [BitVec.toNat_ofNat, Nat.mod_eq_of_lt (by omega)]
  simp only [runItem, interPixels, hn]

theorem interRebuilt_pendingRun (ref : Nat → Pixel) (i : Nat) {run : Nat} (h : run ≤ 512) :
    interRebuilt ref i (pendingRun run) = (List.range run).map fun j => ref (i + j) := by
  unfold pendingRun
  split
  · rename_i h0; simp [h0, interRebuilt]
  · simp [interRebuilt, interPixels_run ref i h]

theorem interPixels_error (ref : Nat → Pixel) (i : Nat) (e : Pixel) :
    interPixels ref i (errorItem .inter e) = [ref i + e] := by
  unfold errorItem
  split
  · rename_i h
    exact congrArg (fun v => [ref i + v]) (directValue_error h)
  · rfl

/-- Rebuilding from the items of the deltas of a grid gives the grid, whatever run was pending. -/
theorem interRebuilt_interItems (new ref : Nat → Pixel) (i run left : Nat) (hrun : run < 512) (hi : run ≤ i)
    (heq : ∀ j, i - run ≤ j → j < i → new j = ref j) :
    interRebuilt ref (i - run) (interItems run ((List.range left).map fun j => new (i + j) - ref (i + j))) =
      (List.range (run + left)).map fun j => new (i - run + j) := by
  have hpend : ∀ m, m ≤ run → (List.range m).map (fun j => ref (i - run + j)) =
      (List.range m).map fun j => new (i - run + j) := by
    intro m hm
    apply List.map_congr_left
    intro j hj
    rw [List.mem_range] at hj
    exact (heq _ (by omega) (by omega)).symm
  induction left generalizing i run with
  | zero =>
    rw [List.range_zero, List.map_nil, interItems, interRebuilt_pendingRun ref _ (by omega), hpend run (le_refl _),
      Nat.add_zero]
  | succ left ih =>
    have hstep : ∀ (f : Nat → Pixel), (List.range (left + 1)).map (fun j => f (i + j)) =
        f i :: (List.range left).map fun j => f (i + 1 + j) := by
      intro f
      rw [List.range_succ_eq_map, List.map_cons, List.map_map]
      simp only [Nat.add_zero, List.cons.injEq, true_and]
      apply List.map_congr_left
      intro j _
      simp only [Function.comp, Nat.succ_eq_add_one]
      congr 1; omega
    rw [hstep fun j => new j - ref j]
    simp only [interItems]
    have happend : (List.range (run + (left + 1))).map (fun j => new (i - run + j)) =
        (List.range (run + 1)).map (fun j => new (i - run + j)) ++
          (List.range left).map fun j => new (i + 1 + j) := by
      rw [show run + (left + 1) = run + 1 + left by omega, List.range_add, List.map_append, List.map_map]
      congr 1
      apply List.map_congr_left
      intro j _
      simp only [Function.comp]
      congr 1; omega
    by_cases h0 : new i - ref i = 0
    · have hi0 : new i = ref i := by
        have := congrArg (· + ref i) h0
        simpa using this
      have heq' : ∀ j, i - run ≤ j → j < i + 1 → new j = ref j := by
        intro j h1 h2
        by_cases hj : j = i
        · rw [hj, hi0]
        · exact heq j h1 (by omega)
      rw [if_pos h0]
      by_cases h1 : run + 1 = 512
      · rw [if_pos h1, interRebuilt, interPixels_run ref _ (le_refl _), happend, ← h1]
        have hfirst : (List.range (run + 1)).map (fun j => ref (i - run + j)) =
            (List.range (run + 1)).map fun j => new (i - run + j) := by
          apply List.map_congr_left
          intro j hj
          rw [List.mem_range] at hj
          exact (heq' _ (by omega) (by omega)).symm
        rw [hfirst]
        congr 1
        have := ih (i + 1) 0 (by omega) (by omega) (fun j h1 h2 => by omega) (fun m hm => by
          have : m = 0 := by omega
          subst this; rfl)
        simp only [Nat.sub_zero, Nat.zero_add] at this
        rw [← this]
        congr 1
        simp; omega
      · rw [if_neg h1]
        have := ih (i + 1) (run + 1) (by omega) (by omega) (fun j h1 h2 => heq' j (by omega) h2) (fun m hm => by
          apply List.map_congr_left
          intro j hj
          rw [List.mem_range] at hj
          exact (heq' _ (by omega) (by omega)).symm)
        rw [show i + 1 - (run + 1) = i - run by omega] at this
        rw [this, show run + (left + 1) = run + 1 + left by omega]
    · rw [if_neg h0, interRebuilt_append, interRebuilt_pendingRun ref _ (by omega), hpend run (le_refl _), interRebuilt,
        interPixels_error, happend, List.range_succ, List.map_append, List.append_assoc]
      congr 1
      have hi' : i - run + (List.map (fun j => new (i - run + j)) (List.range run)).length = i := by simp; omega
      have hnew : ref i + (new i - ref i) = new i := by rw [BitVec.add_comm, BitVec.sub_add_cancel]
      rw [hi', hnew]
      simp only [List.map_cons, List.map_nil, show i - run + run = i by omega, List.singleton_append]
      congr 1
      have := ih (i + 1) 0 (by omega) (by omega) (fun j h1 h2 => by omega) (fun m hm => by
        have : m = 0 := by omega
        subst this; rfl)
      simpa only [Nat.sub_zero, Nat.zero_add, List.length_cons, List.length_nil] using this

/-- The items of the deltas of a grid rebuild the grid from the reference (43 R208). -/
theorem interRebuilt_deltas (new ref : Nat → Pixel) (n : Nat) :
    interRebuilt ref 0 (interItems 0 (deltas new ref n)) = (List.range n).map new := by
  have := interRebuilt_interItems new ref 0 0 n (by decide) (le_refl _) (fun j _ h => by omega)
  simpa only [Nat.sub_zero, Nat.zero_add, deltas] using this

end Sys2Proof.Machine
end

