-- ==== Sys2Proof/Laws/Frames.lean ====
section
/-! SUPPORT. What a stretch of pseudocode on port `c` leaves alone, from any state whatever: the functions of files 40 to
44 touch one port and the cells of one buffer, and raise no status but their own. -/

namespace Sys2Proof.Machine

variable {c : PortNo} {s s' s'' : State} {α β : Type}

/-- The entries of both tables have lengths of at most 32 (10 R36). -/
def CodesFit (s : State) : Prop := ∀ t, ∀ e ∈ (s.table t).enc, e.length ≤ 32

/-- From `s` to `s'` nothing moved but port `c`, the pixels of the cells in `B`, and the cursor. -/
structure Moves (c : PortNo) (B : Nat → Nat → Prop) (s s' : State) : Prop where
  rest : s' = { s.setPort c (s'.port c) with pix := s'.pix, cursor := s'.cursor }
  tout : (s.port c).tout <+: (s'.port c).tout
  tin : (s'.port c).tin <:+ (s.port c).tin
  flags : (s'.port c).toutErr = (s.port c).toutErr ∧ (s'.port c).tinEos = (s.port c).tinEos ∧
    (s'.port c).role = (s.port c).role ∧ (s'.port c).swap = (s.port c).swap
  pixels : ∀ b x, ¬B b x → s'.pixel b x = s.pixel b x
  cells : ∀ entry ∈ s'.pix, entry ∈ s.pix ∨ B entry.1.1 entry.1.2
  form : s.pix.wf = true → s'.pix.wf = true
  inv : CodesFit s → (s.port c).Inv → (s'.port c).Inv

theorem rest_same (c : PortNo) (s : State) (m : Cells 16) (cu : Option Cursor) :
    ({ s with pix := m, cursor := cu } : State) =
      { s.setPort c (({ s with pix := m, cursor := cu } : State).port c) with pix := m, cursor := cu } := by
  have h : ({ s with pix := m, cursor := cu } : State).port c = s.port c := rfl
  rw [h, setPort_port]

theorem Moves.refl (c : PortNo) (B : Nat → Nat → Prop) (s : State) : Moves c B s s :=
  ⟨by simp, List.prefix_refl _, List.suffix_refl _, ⟨rfl, rfl, rfl, rfl⟩, fun _ _ _ => rfl, fun _ h => .inl h, id,
    fun _ => id⟩

theorem Moves.codesFit {B : Nat → Nat → Prop} (h : Moves c B s s') (hf : CodesFit s) : CodesFit s' := by
  intro t e he
  refine hf t e ?_
  rw [h.rest] at he
  cases t <;> exact he

theorem Moves.trans {B : Nat → Nat → Prop} (h : Moves c B s s') (h' : Moves c B s' s'') : Moves c B s s'' where
  rest := by
    have h1 := h'.rest
    rw [h.rest] at h1
    rw [h1]
    simp only [State.setPort]
    congr 1
    simp [Vector.set_set, State.port]
  tout := h.tout.trans h'.tout
  tin := h'.tin.trans h.tin
  flags := ⟨h'.flags.1.trans h.flags.1, h'.flags.2.1.trans h.flags.2.1, h'.flags.2.2.1.trans h.flags.2.2.1,
    h'.flags.2.2.2.trans h.flags.2.2.2⟩
  pixels b x hb := (h'.pixels b x hb).trans (h.pixels b x hb)
  cells e he := by
    rcases h'.cells e he with he | he
    · exact h.cells e he
    · exact .inr he
  form hf := h'.form (h.form hf)
  inv hf hp := h'.inv (h.codesFit hf) (h.inv hf hp)

theorem Moves.mono {B B' : Nat → Nat → Prop} (h : Moves c B s s') (hB : ∀ b x, B b x → B' b x) : Moves c B' s s' :=
  { h with
    pixels := fun b x hb => h.pixels b x fun hb' => hb (hB b x hb')
    cells := fun e he => (h.cells e he).imp id (hB _ _) }

/-- Another port, and every field but the port, the pixels and the cursor. -/
theorem Moves.port_ne {B : Nat → Nat → Prop} (h : Moves c B s s') {d : PortNo} (hd : d ≠ c) : s'.port d = s.port d := by
  rw [h.rest]
  exact port_setPort_ne s _ hd

theorem Moves.table {B : Nat → Nat → Prop} (h : Moves c B s s') (t : TableId) : s'.table t = s.table t := by
  rw [h.rest]; cases t <;> rfl

/-- A change of port `c` alone. -/
theorem moves_setPort {p : Port} (B : Nat → Nat → Prop) (tout : (s.port c).tout <+: p.tout) (tin : p.tin <:+ (s.port c).tin)
    (flags : p.toutErr = (s.port c).toutErr ∧ p.tinEos = (s.port c).tinEos ∧ p.role = (s.port c).role ∧
      p.swap = (s.port c).swap)
    (inv : CodesFit s → (s.port c).Inv → p.Inv) : Moves c B s (s.setPort c p) where
  rest := by rw [port_setPort_self]
  tout := by simpa using tout
  tin := by simpa using tin
  flags := by simpa using flags
  pixels _ _ _ := rfl
  cells _ h := .inl h
  form := id
  inv := by simpa using inv

theorem moves_close (B : Nat → Nat → Prop) (c : PortNo) (s : State) : Moves c B s (closeChannel c s) :=
  moves_setPort B (List.prefix_refl _) (List.suffix_refl _) ⟨rfl, rfl, rfl, rfl⟩ fun _ _ => closedPort_inv _

/-- A write of one pixel in `B`, or a change of the cursor. -/
theorem moves_pixel {B : Nat → Nat → Prop} {b x : Nat} (v : Pixel) (cu : Option Cursor) (hb : B b x) :
    Moves c B s { s.setPixel b x v with cursor := cu } where
  rest := rest_same c s _ _
  tout := List.prefix_refl _
  tin := List.suffix_refl _
  flags := ⟨rfl, rfl, rfl, rfl⟩
  pixels b' x' h := pixel_setPixel_ne s v (by
    by_contra hn; rw [not_or, not_not, not_not] at hn; exact h (hn.1 ▸ hn.2 ▸ hb))
  cells e he := by
    rcases mem_put he with rfl | he
    · exact .inr hb
    · exact .inl he
  form := setPixel_wf s b x v
  inv _ := id

theorem moves_cursor (B : Nat → Nat → Prop) (cu : Option Cursor) : Moves c B s { s with cursor := cu } where
  rest := rest_same c s _ _
  tout := List.prefix_refl _
  tin := List.suffix_refl _
  flags := ⟨rfl, rfl, rfl, rfl⟩
  pixels _ _ _ := rfl
  cells _ h := .inl h
  form := id
  inv _ := id

theorem moves_copy {B : Nat → Nat → Prop} {dst src len i : Nat} (cu : Option Cursor)
    (hb : ∀ x, i ≤ x → x < i + len → B dst x) : Moves c B s { copyCells dst src len i s with cursor := cu } where
  rest := by rw [copyCells_frame]; exact rest_same c s _ _
  tout := by rw [copyCells_frame]; exact List.prefix_refl _
  tin := by rw [copyCells_frame]; exact List.suffix_refl _
  flags := by rw [copyCells_frame]; exact ⟨rfl, rfl, rfl, rfl⟩
  pixels b x h := by
    show (copyCells dst src len i s).pixel b x = _
    rw [copyCells_pixel, if_neg]
    rintro ⟨rfl, h1, h2⟩; exact h (hb x h1 h2)
  cells e he := by
    rcases mem_copyCells he with he | ⟨h1, h2, h3⟩
    · exact .inl he
    · exact .inr (h1 ▸ hb _ h2 h3)
  form := copyCells_wf dst src len i s
  inv hf hp := by rw [copyCells_frame]; exact hp

/-! ### How a stretch ends -/

/-- Both registers of the port are empty and its channel is `CLOSED` (40 R145, 44 R225). -/
def IsDead (p : Port) : Prop := p.bwAcc = 0 ∧ p.bwN = 0 ∧ p.brAcc = 0 ∧ p.brN = 0 ∧ p.chst = .closed

/-- A stretch on port `c` that writes no pixel outside `B`: it goes on with the channel state it found, or raises a
status of `es`, with the port dead for the statuses of `kills`, or holds because its input has not ended. -/
def Ends (c : PortNo) (B : Nat → Nat → Prop) (es kills : List Status) (s : State) (r : Res α) : Prop :=
  match r with
  | .done _ s' => Moves c B s s' ∧ (s'.port c).chst = (s.port c).chst
  | .raise e s' => e ∈ es ∧ Moves c B s s' ∧
      (e ∈ kills → IsDead (s'.port c)) ∧ (e ∉ kills → (s'.port c).chst = (s.port c).chst)
  | .hold => (s.port c).tinEos = false

theorem Ends.bind {B : Nat → Nat → Prop} {es kills : List Status} {r : Res α} {k : α → State → Res β}
    (h : Ends c B es kills s r) (hk : ∀ a s', Moves c B s s' → r = .done a s' → Ends c B es kills s' (k a s')) :
    Ends c B es kills s (r.bind k) := by
  cases r with
  | done a s' =>
    have h2 := hk a s' h.1 rfl
    rw [bind_done]
    cases hr : k a s' with
    | done b s'' =>
      rw [hr] at h2
      exact ⟨h.1.trans h2.1, h2.2.trans h.2⟩
    | raise e s'' =>
      rw [hr] at h2
      exact ⟨h2.1, h.1.trans h2.2.1, h2.2.2.1, fun hn => (h2.2.2.2 hn).trans h.2⟩
    | hold =>
      rw [hr] at h2
      exact h.1.flags.2.1.symm.trans h2
  | raise e s' => exact h
  | hold => exact h

theorem Ends.andThen {B : Nat → Nat → Prop} {es kills : List Status} {r : Res Unit} {k : State → Res β}
    (h : Ends c B es kills s r) (hk : ∀ s', Moves c B s s' → r = .done () s' → Ends c B es kills s' (k s')) :
    Ends c B es kills s (r.andThen k) := h.bind fun _ s' hm hr => hk s' hm hr

theorem Ends.mono {B B' : Nat → Nat → Prop} {es es' kills kills' : List Status} {r : Res α}
    (h : Ends c B es kills s r) (hB : ∀ b x, B b x → B' b x) (hes : ∀ e ∈ es, e ∈ es')
    (hk : ∀ e ∈ es, e ∈ kills ↔ e ∈ kills') : Ends c B' es' kills' s r := by
  cases r with
  | done a s' => exact ⟨h.1.mono hB, h.2⟩
  | raise e s' =>
    exact ⟨hes e h.1, h.2.1.mono hB, fun hm => h.2.2.1 ((hk e h.1).mpr hm), fun hm => h.2.2.2 fun h' => hm ((hk e h.1).mp h')⟩
  | hold => exact h

/-- The status of the port functions. -/
abbrev transportOnly : List Status := [.transport]

theorem ends_close {α : Type} (B : Nat → Nat → Prop) {es kills : List Status} (h : Status.transport ∈ es)
    (hk : Status.transport ∈ kills) : Ends c B es kills s (.raise .transport (closeChannel c s) : Res α) :=
  ⟨h, moves_close B c s, fun _ => by simp [closeChannel, closedPort, IsDead], fun hn => absurd hk hn⟩

/-! ### The bit stream -/

variable (B : Nat → Nat → Prop)

theorem ends_emit (w : Word) : Ends c B transportOnly transportOnly s (emit c w s) := by
  unfold emit
  simp only
  split
  · exact ends_close B (by simp) (by simp)
  · refine ⟨moves_setPort B (List.prefix_append _ _) (List.suffix_refl _) ⟨rfl, rfl, rfl, rfl⟩ fun _ hp => ?_, by simp⟩
    exact hp.of_regs rfl rfl rfl rfl

theorem emit_eq_done {w : Word} (h : emit c w s = .done () s') :
    s' = s.setPort c { s.port c with tout := (s.port c).tout ++ [w] } := by
  unfold emit at h
  simp only at h
  split at h
  · cases h
  · simp only [Res.done.injEq, true_and] at h; exact h.symm

theorem moves_setWriter (acc n : Nat) (h : (s.port c).Inv → n ≤ 32 ∧ acc < 2 ^ n) :
    Moves c B s (setWriter c acc n s) := by
  refine moves_setPort B (List.prefix_refl _) (List.suffix_refl _) ⟨rfl, rfl, rfl, rfl⟩ fun _ hp => ?_
  obtain ⟨hn, ha⟩ := h hp
  have hlt : acc < 2 ^ 32 := lt_of_lt_of_le ha (Nat.pow_le_pow_right (by decide) hn)
  exact ⟨hn, by show (BitVec.ofNat 32 acc).toNat < _; rw [BitVec.toNat_ofNat, Nat.mod_eq_of_lt hlt]; exact ha,
    hp.readerCount, hp.readerBits⟩

theorem ends_write (v : Word) {k : Nat} (hk : k ≤ 32) :
    Ends c B transportOnly transportOnly s (write c v k s) := by
  have hu : v.toNat % 2 ^ k < 2 ^ k := Nat.mod_lt _ (Nat.two_pow_pos k)
  unfold write
  split
  · exact ⟨Moves.refl c B s, rfl⟩
  simp only
  split
  · refine Ends.andThen (ends_emit B _) fun s' _ _ => ⟨moves_setWriter B _ _ fun _ => ⟨hk, hu⟩, by simp [setWriter]⟩
  split
  · rename_i h0 hz hfit
    exact ⟨moves_setWriter B _ _ fun hp => ⟨by omega, shiftIn_lt hp.writerBits hu⟩, by simp [setWriter]⟩
  · rename_i h0 hz hfit
    refine Ends.andThen (ends_emit B _) fun s' _ _ =>
      ⟨moves_setWriter B _ _ fun _ => ⟨by omega, Nat.mod_lt _ (Nat.two_pow_pos _)⟩, by simp [setWriter]⟩

theorem ends_flush : Ends c B transportOnly transportOnly s (flush c s) := by
  unfold flush
  simp only
  split
  · exact ⟨Moves.refl c B s, rfl⟩
  · exact Ends.andThen (ends_emit B _) fun s' _ _ => ⟨moves_setWriter B 0 0 fun _ => by simp, by simp [setWriter]⟩

theorem ends_refill : Ends c B transportOnly transportOnly s (refill c s) := by
  unfold refill
  simp only
  split
  · split
    · exact ends_close B (by simp) (by simp)
    · rename_i h; simpa [Ends] using h
  · rename_i w rest ht
    refine ⟨moves_setPort B (List.prefix_refl _) (by rw [ht]; exact List.suffix_cons _ _) ⟨rfl, rfl, rfl, rfl⟩
      fun _ hp => ⟨hp.writerCount, hp.writerBits, by simp, by simp [Nat.mod_one]⟩, by simp⟩

theorem refill_eq_done (h : refill c s = .done () s') :
    ∃ w rest, (s.port c).tin = w :: rest ∧ s' = s.setPort c { s.port c with brAcc := w, brN := 32, tin := rest } := by
  unfold refill at h
  simp only at h
  split at h
  · split at h <;> cases h
  · rename_i w rest ht
    simp only [Res.done.injEq, true_and] at h
    exact ⟨w, rest, ht, h.symm⟩

/-- Shifting a left-justified register left leaves it left-justified. -/
theorem moves_setReader (acc n m : Nat) (h : (s.port c).Inv → n ≤ 32 ∧ m ≤ n ∧ acc % 2 ^ (32 - n) = 0) :
    Moves c B s (setReader c (acc * 2 ^ m) (n - m) s) := by
  refine moves_setPort B (List.prefix_refl _) (List.suffix_refl _) ⟨rfl, rfl, rfl, rfl⟩ fun _ hp => ?_
  obtain ⟨hn, hm, hz⟩ := h hp
  refine ⟨hp.writerCount, hp.writerBits, by show n - m ≤ 32; omega, ?_⟩
  show (BitVec.ofNat 32 (acc * 2 ^ m)).toNat % 2 ^ (32 - (n - m)) = 0
  rw [BitVec.toNat_ofNat]
  have h1 : 2 ^ (32 - (n - m)) ∣ 2 ^ 32 := Nat.pow_dvd_pow 2 (by omega)
  have h2 : 2 ^ (32 - (n - m)) ∣ acc * 2 ^ m := by
    rw [show 32 - (n - m) = (32 - n) + m by omega, pow_add]
    exact Nat.mul_dvd_mul_right (Nat.dvd_of_mod_eq_zero hz) _
  exact Nat.mod_eq_zero_of_dvd ((Nat.dvd_mod_iff h1).mpr h2)

theorem ends_readFrom {k : Nat} (hk : k ≤ 32) : Ends c B transportOnly transportOnly s (readFrom c k s) := by
  unfold readFrom
  simp only
  split
  · rename_i h
    exact ⟨moves_setReader B _ _ _ fun hp => ⟨hp.readerCount, h, hp.readerBits⟩, by simp [setReader]⟩
  · refine Ends.andThen (ends_refill B) fun s' _ hr => ?_
    obtain ⟨w, rest, -, rfl⟩ := refill_eq_done hr
    refine ⟨moves_setReader B _ 32 _ fun _ => ⟨le_refl _, by omega, by simp [Nat.mod_one]⟩, by simp [setReader]⟩

theorem ends_read {k : Nat} (hk : k ≤ 32) : Ends c B transportOnly transportOnly s (read c k s) := by
  unfold read
  split
  · exact ⟨Moves.refl c B s, rfl⟩
  · split
    · exact Ends.andThen (ends_refill B) fun s' _ _ => ends_readFrom B hk
    · exact ends_readFrom B hk

theorem moves_align : Moves c B s (align c s) ∧ ((align c s).port c).chst = (s.port c).chst :=
  ⟨moves_setPort B (List.prefix_refl _) (List.suffix_refl _) ⟨rfl, rfl, rfl, rfl⟩ fun _ hp => align_inv hp,
    by simp [align, setReader]⟩

/-! ### Symbols -/

theorem codeEntry_length (hf : CodesFit s) (t : TableId) (sym : Nat) : (codeEntry s t sym).length ≤ 32 := by
  unfold codeEntry List.getD
  cases h : (s.table t).enc[sym]? with
  | none => simp
  | some e => exact hf t e (List.mem_of_getElem? h)

theorem ends_encode (hf : CodesFit s) (t : TableId) (sym : Nat) :
    Ends c B transportOnly transportOnly s (encodeSymbol c t sym s) :=
  ends_write B _ (codeEntry_length hf t sym)

theorem ends_walk (tree : List Node) (fuel i : Nat) (s : State) (hf : bitsAtHand s c < fuel) :
    Ends c B transportOnly transportOnly s (walk c tree fuel i s) := by
  induction fuel generalizing i s with
  | zero => omega
  | succ fuel ih =>
    unfold walk
    split
    · exact ⟨Moves.refl c B s, rfl⟩
    · refine Ends.bind (ends_read B (by decide)) fun b s' hm hr => ih _ s' ?_
      have key : bitsAtHand s' c + 1 ≤ bitsAtHand s c := by
        have hfrom : ∀ s b s', 1 ≤ (s.port c).brN → readFrom c 1 s = .done b s' →
            bitsAtHand s' c + 1 ≤ bitsAtHand s c := by
          intro s b s' h1 h
          unfold readFrom at h
          simp only [if_pos h1, Res.done.injEq] at h
          rw [← h.2]
          simp only [bitsAtHand, setReader, port_setPort_self]
          omega
        unfold read at hr
        rw [if_neg (by decide)] at hr
        by_cases hz : (s.port c).brN = 0
        · rw [if_pos hz] at hr
          obtain ⟨_, s1, hr1, hr2⟩ := bind_eq_done hr
          obtain ⟨w, rest, ht, rfl⟩ := refill_eq_done hr1
          have := hfrom _ _ _ (by simp) hr2
          simp only [bitsAtHand, port_setPort_self] at this ⊢
          rw [ht, List.length_cons]
          omega
        · rw [if_neg hz] at hr
          exact hfrom s b s' (by omega) hr
      omega

theorem ends_decode (t : TableId) : Ends c B transportOnly transportOnly s (decodeSymbol c t s) :=
  ends_walk B _ _ 0 s (by omega)

theorem ends_putError (hf : CodesFit s) (t : TableId) (e : Pixel) :
    Ends c B transportOnly transportOnly s (putError c t e s) := by
  unfold putError
  split
  · exact ends_encode B hf t _
  · exact Ends.andThen (ends_encode B hf t _) fun s' _ _ => ends_write B _ (by decide)

/-! ### Compressors -/

theorem ends_intraPuts (b w left p : Nat) (hf : CodesFit s) :
    Ends c B transportOnly transportOnly s (intraPuts c b w left p s) := by
  induction left generalizing p s with
  | zero => exact ⟨Moves.refl c B s, rfl⟩
  | succ left ih =>
    refine Ends.andThen ?_ fun s' hm _ => ih (p + 1) (hm.codesFit hf)
    unfold intraPut
    split
    · exact ends_write B _ (by decide)
    · exact ends_putError B hf _ _

theorem ends_intraCompress (b w h : Nat) (hf : CodesFit s) :
    Ends c B transportOnly transportOnly s (intraCompress c b w h s) :=
  Ends.andThen (ends_intraPuts B b w _ 0 hf) fun _ _ _ => ends_flush B

theorem ends_emitRun (run : Nat) (hf : CodesFit s) : Ends c B transportOnly transportOnly s (emitRun c run s) := by
  unfold emitRun
  split
  · exact ⟨Moves.refl c B s, rfl⟩
  · exact ends_encode B hf _ _

theorem ends_interPuts (src ref left i run : Nat) (hf : CodesFit s) :
    Ends c B transportOnly transportOnly s (interPuts c src ref left i run s) := by
  induction left generalizing i run s with
  | zero => exact ends_emitRun B run hf
  | succ left ih =>
    unfold interPuts
    simp only
    split
    · split
      · exact Ends.andThen (ends_encode B hf _ _) fun s' hm _ => ih (i + 1) 0 (hm.codesFit hf)
      · exact ih (i + 1) (run + 1) hf
    · refine Ends.andThen (ends_emitRun B run hf) fun s' hm _ => ?_
      refine Ends.andThen (ends_putError B (hm.codesFit hf) _ _) fun s'' hm' _ => ih (i + 1) 0 (hm'.codesFit (hm.codesFit hf))

theorem ends_interCompress (b r n : Nat) (hf : CodesFit s) :
    Ends c B transportOnly transportOnly s (interCompress c b r n s) :=
  Ends.andThen (ends_interPuts B b r n 0 0 hf) fun _ _ _ => ends_flush B

/-! ### Decompressors -/

/-- The statuses of the decompressors. -/
abbrev streamStatuses : List Status := [.transport, .runOverrun]

/-- The statuses that kill the port of a decompressor: for `FS_RECV` an overrun too (44 R232). -/
def killsOf (op : BitVec 8) : List Status := if op = opFsRecv then [.transport, .runOverrun] else [.transport]

theorem transport_mem_killsOf (op : BitVec 8) : Status.transport ∈ killsOf op := by
  unfold killsOf; split <;> simp

theorem Ends.ofTransport {B : Nat → Nat → Prop} {r : Res α} (op : BitVec 8)
    (h : Ends c B transportOnly transportOnly s r) : Ends c B streamStatuses (killsOf op) s r :=
  h.mono (fun _ _ => id) (by simp) fun e he => by
    have : e = .transport := by simpa using he
    subst this
    simp [transport_mem_killsOf]

theorem ends_frameItem {cu : Cursor} (hpos : cu.pos < cu.count)
    (hgrid : cu.table = .intra → ∃ h, cu.count = cu.width * h) :
    Ends cu.port (fun b x => b = cu.dst ∧ x < cu.count) streamStatuses (killsOf cu.op) s (frameItem cu s) := by
  have hplace : ∀ (s : State) (i : Nat) (v : Pixel), i < cu.count →
      Moves cu.port (fun b x => b = cu.dst ∧ x < cu.count) s (placePixel cu i v s) ∧
        ((placePixel cu i v s).port cu.port).chst = (s.port cu.port).chst :=
    fun s i v hi => ⟨moves_pixel v _ ⟨rfl, hi⟩, rfl⟩
  unfold frameItem
  split
  · rename_i htab
    obtain ⟨h, hh⟩ := hgrid htab
    have hcell : scanCell cu.width cu.pos < cu.count := by rw [hh] at hpos ⊢; exact scanCell_lt hpos
    unfold intraItem
    split
    · exact Ends.bind ((ends_read _ (by decide)).ofTransport _) fun v s' _ _ => hplace s' _ _ hcell
    · refine Ends.bind ((ends_decode _ _).ofTransport _) fun sym s' _ _ => ?_
      split
      · exact hplace s' _ _ hcell
      · exact Ends.bind ((ends_read _ (by decide)).ofTransport _) fun v s'' _ _ => hplace s'' _ _ hcell
  · unfold interItem
    refine Ends.bind ((ends_decode _ _).ofTransport _) fun sym s' _ _ => ?_
    split
    · exact hplace s' _ _ hpos
    by_cases hesc : sym = symEsc
    · rw [if_pos hesc]
      exact Ends.bind ((ends_read _ (by decide)).ofTransport _) fun v s'' _ _ => hplace s'' _ _ hpos
    rw [if_neg hesc]
    generalize BitVec.ofNat 10 (sym - symRun0) = len
    by_cases hfit : runFits cu len = true
    · rw [if_pos hfit]
      simp only [runFits, decide_eq_true_eq] at hfit
      refine ⟨moves_copy _ fun x _ hx => ⟨rfl, by omega⟩, ?_⟩
      show ((copyCells _ _ _ _ s').port cu.port).chst = _
      rw [copyCells_frame]; rfl
    · rw [if_neg hfit]
      unfold runPastEnd
      split
      · rename_i hop
        exact ⟨by simp, moves_close _ _ _, fun _ => by simp [closeChannel, closedPort, IsDead],
          fun hn => absurd (by simp [killsOf, hop]) hn⟩
      · rename_i hop
        exact ⟨by simp, Moves.refl _ _ _, fun hm => by simp [killsOf, hop] at hm, fun _ => rfl⟩

/-- An item moves the cursor and keeps what the cursor is for. -/
theorem frameItem_cursor {cu : Cursor} (h : frameItem cu s = .done () s') :
    ∃ n, s'.cursor = some { cu with pos := n } := by
  unfold frameItem at h
  split at h
  · unfold intraItem at h
    split at h
    · obtain ⟨_, _, _, h⟩ := bind_eq_done h
      cases h; exact ⟨_, rfl⟩
    · obtain ⟨_, _, _, h⟩ := bind_eq_done h
      split at h
      · cases h; exact ⟨_, rfl⟩
      · obtain ⟨_, _, _, h⟩ := bind_eq_done h
        cases h; exact ⟨_, rfl⟩
  · unfold interItem at h
    obtain ⟨sym, _, _, h⟩ := bind_eq_done h
    split at h
    · cases h; exact ⟨_, rfl⟩
    by_cases hesc : sym = symEsc
    · rw [if_pos hesc] at h
      obtain ⟨_, _, _, h⟩ := bind_eq_done h
      cases h; exact ⟨_, rfl⟩
    rw [if_neg hesc] at h
    generalize BitVec.ofNat 10 (sym - symRun0) = len at h
    by_cases hfit : runFits cu len = true
    · rw [if_pos hfit] at h
      cases h; exact ⟨_, rfl⟩
    · rw [if_neg hfit] at h
      cases h

theorem ends_frameItems {cu : Cursor} (rounds : Nat) (hcu : s.cursor = some cu)
    (hgrid : cu.table = .intra → ∃ h, cu.count = cu.width * h) :
    Ends cu.port (fun b x => b = cu.dst ∧ x < cu.count) streamStatuses (killsOf cu.op) s (frameItems rounds s) := by
  induction rounds generalizing s cu with
  | zero => exact ⟨Moves.refl _ _ s, rfl⟩
  | succ rounds ih =>
    simp only [frameItems, hcu]
    split
    · rename_i hpos
      refine Ends.andThen (ends_frameItem hpos hgrid) fun s' _ hr => ?_
      obtain ⟨n, hn⟩ := frameItem_cursor hr
      exact ih (cu := { cu with pos := n }) hn hgrid
    · exact ⟨Moves.refl _ _ s, rfl⟩

theorem ends_decompressFrame {cu : Cursor} (hgrid : cu.table = .intra → ∃ h, cu.count = cu.width * h) :
    Ends cu.port (fun b x => b = cu.dst ∧ x < cu.count) streamStatuses (killsOf cu.op) s (decompressFrame cu s) := by
  have hstart := moves_cursor (c := cu.port) (s := s) (fun b x => b = cu.dst ∧ x < cu.count) (some cu)
  have hitems := ends_frameItems (s := { s with cursor := some cu }) cu.count rfl hgrid
  have hall : Ends cu.port (fun b x => b = cu.dst ∧ x < cu.count) streamStatuses (killsOf cu.op)
      { s with cursor := some cu } (decompressFrame cu s) :=
    Ends.andThen hitems fun s' _ _ =>
      ⟨(moves_align _).1.trans (moves_cursor _ none), (moves_align (fun _ _ => False)).2⟩
  cases hr : decompressFrame cu s with
  | done a s' => rw [hr] at hall; exact ⟨hstart.trans hall.1, hall.2⟩
  | raise e s' => rw [hr] at hall; exact ⟨hall.1, hstart.trans hall.2.1, hall.2.2⟩
  | hold => rw [hr] at hall; exact hall

/-- A command that decompresses leaves no cursor behind. -/
theorem decompressFrame_cursor {cu : Cursor} (h : decompressFrame cu s = .done () s') : s'.cursor = none := by
  obtain ⟨_, s1, -, h⟩ := bind_eq_done h
  cases h; rfl

theorem ends_intraDecompress (op : BitVec 8) (b w h : Nat) :
    Ends c (fun b' x => b' = b ∧ x < w * h) streamStatuses (killsOf op) s (intraDecompress op c b w h s) :=
  ends_decompressFrame (cu := intraCursor op c b w h) fun _ => ⟨h, rfl⟩

theorem ends_interDecompress (op : BitVec 8) (b r n : Nat) :
    Ends c (fun b' x => b' = b ∧ x < n) streamStatuses (killsOf op) s (interDecompress op c b r n s) :=
  ends_decompressFrame (cu := interCursor op c b r n) fun h => by cases h

/-! ### Triplets -/

theorem ends_forPlanes {B : Nat → Nat → Prop} {es kills : List Status} {frame : Nat → State → Res Unit}
    (h0 : Ends c B es kills s (frame 0 s)) (h1 : ∀ s', Moves c B s s' → Ends c B es kills s' (frame 1 s'))
    (h2 : ∀ s', Moves c B s s' → Ends c B es kills s' (frame 2 s')) :
    Ends c B es kills s (forPlanes frame s) :=
  Ends.andThen h0 fun s' hm _ => Ends.andThen (h1 s' hm) fun s'' hm' _ => h2 s'' (hm.trans hm')

theorem ends_sendPlane (k : Nat) (hf : CodesFit s) :
    Ends c B transportOnly transportOnly s (sendPlane c k s) := by
  unfold sendPlane
  split
  · exact ends_intraCompress B _ _ _ hf
  · exact ends_interCompress B _ _ _ hf

theorem ends_recvPlane (k : Nat) :
    Ends c (fun b x => b = refBuffer c k ∧ x < planePixels s k) streamStatuses streamStatuses s (recvPlane c k s) := by
  unfold recvPlane
  split
  · exact ends_intraDecompress opFsRecv _ _ _
  · exact ends_interDecompress opFsRecv _ _ _

end Sys2Proof.Machine
end

