-- ==== Sys2Proof/Laws/PerInstr.lean ====
section
/-! SUPPORT. Families of statements about every instruction as syntax, one lemma for each constructor of `Instr`. -/

namespace Sys2Proof.Laws.Coding

/-- An instruction is either a command, with a command word, or a stream symbol, with a number in the alphabet of its
table when it is well-formed (30 R92, R102, R103). -/
def Statement (i : Instr) : Prop :=
  (encode i).isSome = i.isCommand ∧ (symbolOf i).isSome = !i.isCommand ∧
    (i.wf = true → ∀ t sym, symbolOf i = some (t, sym) → sym < t.symbols)

/-- A command is no stream symbol. -/
theorem command {i : Instr} (h : (encode i).isSome = true) (hc : i.isCommand = true) (hs : symbolOf i = none) :
    Statement i := ⟨h.trans hc.symm, by rw [hs, hc]; rfl, fun _ t sym h => by rw [hs] at h; cases h⟩

/-- A stream symbol is no command. -/
theorem symbol {i : Instr} {t : TableId} {sym : Nat} (h : (encode i).isSome = false) (hc : i.isCommand = false)
    (hs : symbolOf i = some (t, sym)) (hlt : i.wf = true → sym < t.symbols) : Statement i := by
  refine ⟨h.trans hc.symm, by rw [hs, hc]; rfl, fun hw t' sym' h' => ?_⟩
  rw [hs] at h'
  cases h'
  exact hlt hw

theorem nop : Statement (.nop) := command rfl rfl rfl

theorem bwWrite (a : PortNo) (b : BitVec 16) (c : Word) : Statement (.bwWrite a b c) := command rfl rfl rfl

theorem bwFlush (a : PortNo) : Statement (.bwFlush a) := command rfl rfl rfl

theorem brRead (a : PortNo) (b : BitVec 16) : Statement (.brRead a b) := command rfl rfl rfl

theorem brReadbit (a : PortNo) : Statement (.brReadbit a) := command rfl rfl rfl

theorem brAlign (a : PortNo) : Statement (.brAlign a) := command rfl rfl rfl

theorem fqWr (a : BitVec 4) (b : BitVec 16) (c : Word) : Statement (.fqWr a b c) := command rfl rfl rfl

theorem pcBuild (a : BitVec 4) : Statement (.pcBuild a) := command rfl rfl rfl

theorem pcEncode (a : PortNo) (b : BitVec 4) (c : BitVec 16) : Statement (.pcEncode a b c) := command rfl rfl rfl

theorem pcDecode (a : PortNo) (b : BitVec 4) : Statement (.pcDecode a b) := command rfl rfl rfl

theorem pcQbits (a : BitVec 4) (b : BitVec 16) : Statement (.pcQbits a b) := command rfl rfl rfl

theorem pcQlen (a : BitVec 4) (b : BitVec 16) : Statement (.pcQlen a b) := command rfl rfl rfl

theorem icCompress (a : PortNo) (b : BitVec 8) : Statement (.icCompress a b) := command rfl rfl rfl

theorem icDecompress (a : PortNo) (b : BitVec 8) : Statement (.icDecompress a b) := command rfl rfl rfl

theorem xcCompress (a : PortNo) (b : BitVec 8) (c : BitVec 8) : Statement (.xcCompress a b c) := command rfl rfl rfl

theorem xcDecompress (a : PortNo) (b : BitVec 8) (c : BitVec 8) : Statement (.xcDecompress a b c) := command rfl rfl rfl

theorem fsOpen (a : PortNo) (b : BitVec 1) : Statement (.fsOpen a b) := command rfl rfl rfl

theorem fsAck (a : PortNo) (b : Word) : Statement (.fsAck a b) := command rfl rfl rfl

theorem fsMsg (a : PortNo) (b : BitVec 16) : Statement (.fsMsg a b) := command rfl rfl rfl

theorem fsSend (a : PortNo) : Statement (.fsSend a) := command rfl rfl rfl

theorem fsRecv (a : PortNo) : Statement (.fsRecv a) := command rfl rfl rfl

theorem fsClose (a : PortNo) : Statement (.fsClose a) := command rfl rfl rfl

theorem csrRd (a : BitVec 16) : Statement (.csrRd a) := command rfl rfl rfl

theorem csrWr (a : BitVec 16) (b : Word) : Statement (.csrWr a b) := command rfl rfl rfl

theorem pxWr (a : BitVec 8) (b : Word) (c : Pixel) : Statement (.pxWr a b c) := command rfl rfl rfl

theorem pxRd (a : BitVec 8) (b : Word) : Statement (.pxRd a b) := command rfl rfl rfl

theorem reset : Statement (.reset) := command rfl rfl rfl

theorem direct0 (a : BitVec 10) : Statement (.direct0 a) := symbol rfl rfl rfl fun h => by
  have : a.toNat ≤ 512 := of_decide_eq_true h
  simp only [TableId.symbols]; omega

theorem esc0 (a : Pixel) : Statement (.esc0 a) := symbol rfl rfl rfl fun _ => by decide

theorem direct1 (a : BitVec 10) : Statement (.direct1 a) := symbol rfl rfl rfl fun h => by
  have : a.toNat ≤ 512 := of_decide_eq_true h
  simp only [TableId.symbols]; omega

theorem esc1 (a : Pixel) : Statement (.esc1 a) := symbol rfl rfl rfl fun _ => by decide

theorem run (a : BitVec 10) : Statement (.run a) := symbol rfl rfl rfl fun h => by
  have h' := Bool.and_eq_true_iff.mp (show (decide (1 ≤ a.toNat) && decide (a.toNat ≤ 512)) = true from h)
  have h2 : a.toNat ≤ 512 := of_decide_eq_true h'.2
  simp only [TableId.symbols, symRun0]; omega

end Sys2Proof.Laws.Coding
end

