-- ==== Sys2Proof/Laws/Stops.lean ====
section
/-! SUPPORT. Where a decompressor stops before the end of its frame, said once: the input ends inside an item (40 R137,
R145), or a run passes the end (43 R207). What the items before that point rebuilt stays written (60 R274 (b)). -/

namespace Sys2Proof.Machine

variable {c : PortNo} {s : State} {cu : Cursor}

/-- The input has run out on port `c` (40 R137): at its end the death of the port, every word consumed, else a hold. -/
def endOfInput {α : Type} (c : PortNo) (s : State) : Res α :=
  if (s.port c).tinEos then .raise .transport (s.setPort c (closedPort { s.port c with tin := [] })) else .hold

theorem endOfInput_bind {α β : Type} (k : α → State → Res β) : (endOfInput c s : Res α).bind k = endOfInput c s := by
  unfold endOfInput; split <;> rfl

/-- Bits consumed before the input ran out make no difference. -/
theorem endOfInput_setPort {α : Type} {q : Port} {k : Nat} (h : (s.port c).Consumes q k) :
    (endOfInput c (s.setPort c q) : Res α) = endOfInput c s := by
  unfold endOfInput
  rw [port_setPort_self, setPort_setPort, h.same]
  rfl

/-- `read` of more bits than are at hand. -/
theorem read_endOfInput {k : Nat} (hp : (s.port c).Inv) (hk : k ≤ 32) (h : (s.port c).inBits.length < k) :
    read c k s = endOfInput c s := by
  have hlen := hp.length_inBits
  have ht : (s.port c).tin = [] := List.eq_nil_of_length_eq_zero (by omega)
  rw [read_short hp hk h, endOfInput, ← ht]
  rfl

/-- `decode` takes the code at the head of the input, or the input runs out. -/
theorem decode_cases {t : TableId} (ht : s.TableReady t) (hp : (s.port c).Inv) :
    (∃ sym rest q, sym < t.symbols ∧ (s.port c).inBits = symbolCode (s.table t).contents sym ++ rest ∧
      decodeSymbol c t s = .done sym (s.setPort c q) ∧
      (s.port c).Consumes q (symbolCode (s.table t).contents sym).length ∧ q.inBits = rest ∧ q.Inv) ∨
    decodeSymbol c t s = endOfInput c s := by
  cases hw : walkBits (s.table t).contents.tree 0 (s.port c).inBits with
  | none => exact .inr (decodeSymbol_short hp hw)
  | some found =>
    obtain ⟨hs, hin⟩ := ht.2.code_of_walk hw
    obtain ⟨q, hq⟩ := decode_code ht hs hp hin
    exact .inl ⟨found.1, found.2, q, hs, hin, hq⟩

/-- An escape whose raw value is not whole. -/
theorem escape_endOfInput {t : TableId} {q : Port} {n : Nat} {β : Type} {k : Word → State → Res β} (ht : s.TableReady t)
    (hin : (s.port c).inBits = symbolCode (s.table t).contents symEsc ++ q.inBits) (hc : (s.port c).Consumes q n)
    (hi : q.Inv) {esc : Pixel → Instr} (hesc : ∀ raw, symbolOf (esc raw) = some (t, symEsc))
    (hraw : ∀ raw, immediateBits (esc raw) = bitsOf raw.toNat 16)
    (hno : ∀ raw, ¬ itemBits (s.table t).contents (esc raw) <+: (s.port c).inBits) :
    (read c 16 (s.setPort c q)).bind k = endOfInput c s := by
  have hlt : symEsc < t.symbols := symbols_gt t
  have hshort : q.inBits.length < 16 := by
    by_contra hge
    refine hno (BitVec.ofNat 16 (natOfBits (q.inBits.take 16))) ?_
    have hlen : (q.inBits.take 16).length = 16 := by rw [List.length_take]; omega
    have hmod : (BitVec.ofNat 16 (natOfBits (q.inBits.take 16))).toNat = natOfBits (q.inBits.take 16) := by
      rw [BitVec.toNat_ofNat, Nat.mod_eq_of_lt]
      have := natOfBits_lt (q.inBits.take 16)
      rwa [hlen] at this
    have hbits := bitsOf_natOfBits (q.inBits.take 16)
    rw [hlen] at hbits
    rw [itemBits_eq ht.2 (hesc _) hlt, hraw, hmod, hbits, hin]
    exact (List.prefix_append_right_inj _).mpr (List.take_prefix _ _)
  rw [read_endOfInput (by simpa using hi) (by decide) (by simpa using hshort), endOfInput_bind, endOfInput_setPort hc]

/-! ### One item -/

/-- The raw first pixel of an intra frame is not whole. -/
theorem intraItem_raw_endOfInput (hp : (s.port cu.port).Inv) (hpos : cu.pos = 0)
    (h : (s.port cu.port).inBits.length < 16) : intraItem cu s = endOfInput cu.port s := by
  rw [intraItem, if_pos hpos, read_endOfInput hp (by decide) h, endOfInput_bind]

/-- No symbol of an intra frame is whole. -/
theorem intraItem_endOfInput (ht : s.TableReady .intra) (hp : (s.port cu.port).Inv) (hpos : cu.pos ≠ 0)
    (hno : ∀ item, isIntraItem item = true → ¬ itemBits (s.table .intra).contents item <+: (s.port cu.port).inBits) :
    intraItem cu s = endOfInput cu.port s := by
  rw [intraItem, if_neg hpos]
  rcases decode_cases ht hp with ⟨sym, rest, q, hs, hin, hq, hc, hr, hi⟩ | hq
  · rw [hq, bind_done]
    simp only [TableId.symbols] at hs
    by_cases h512 : sym ≤ 2 * codeMax
    · have hnat : (BitVec.ofNat 10 sym).toNat = sym := by
        rw [BitVec.toNat_ofNat, Nat.mod_eq_of_lt (by omega)]
      refine absurd ⟨rest, ?_⟩ (hno (.direct0 (BitVec.ofNat 10 sym)) (decide_eq_true (by rw [hnat]; exact h512)))
      rw [itemBits_eq ht.2 (t := .intra) (sym := sym) (by rw [symbolOf, hnat]) hs, hin]
      simp [immediateBits]
    · obtain rfl : sym = symEsc := by unfold codeMax at h512; unfold symEsc; omega
      rw [if_neg h512]
      exact escape_endOfInput ht (by rw [hr]; exact hin) hc hi (esc := .esc0) (fun _ => rfl) (fun _ => rfl)
        fun raw => hno _ rfl
  · rw [hq, endOfInput_bind]

/-- No symbol of an inter frame is whole. -/
theorem interItem_endOfInput (ht : s.TableReady .inter) (hp : (s.port cu.port).Inv)
    (hno : ∀ item, isInterItem item = true → ¬ itemBits (s.table .inter).contents item <+: (s.port cu.port).inBits) :
    interItem cu s = endOfInput cu.port s := by
  rw [interItem]
  rcases decode_cases ht hp with ⟨sym, rest, q, hs, hin, hq, hc, hr, hi⟩ | hq
  · rw [hq, bind_done]
    simp only [TableId.symbols] at hs
    by_cases h512 : sym ≤ 2 * codeMax
    · have hnat : (BitVec.ofNat 10 sym).toNat = sym := by
        rw [BitVec.toNat_ofNat, Nat.mod_eq_of_lt (by unfold codeMax at h512; omega)]
      refine absurd ⟨rest, ?_⟩ (hno (.direct1 (BitVec.ofNat 10 sym)) (decide_eq_true (by rw [hnat]; exact h512)))
      rw [itemBits_eq ht.2 (t := .inter) (sym := sym) (by rw [symbolOf, hnat]) hs, hin]
      simp [immediateBits]
    · rw [if_neg h512]
      by_cases hesc : sym = symEsc
      · subst hesc
        rw [if_pos rfl]
        exact escape_endOfInput ht (by rw [hr]; exact hin) hc hi (esc := .esc1) (fun _ => rfl) (fun _ => rfl)
          fun raw => hno _ rfl
      · have h513 : 513 < sym ∧ sym - symRun0 ≤ 512 := by unfold codeMax at h512; unfold symEsc at hesc; unfold symRun0; omega
        have hnat : (BitVec.ofNat 10 (sym - symRun0)).toNat = sym - symRun0 := by
          rw [BitVec.toNat_ofNat, Nat.mod_eq_of_lt (by omega)]
        have hsum : symRun0 + (sym - symRun0) = sym := by unfold symRun0; omega
        refine absurd ⟨rest, ?_⟩ (hno (.run (BitVec.ofNat 10 (sym - symRun0))) ?_)
        · have hrun : runLengthOk (BitVec.ofNat 10 (sym - symRun0)) = true := by
            rw [runLengthOk, hnat, Bool.and_eq_true, decide_eq_true_eq, decide_eq_true_eq]
            exact ⟨by unfold symRun0; omega, h513.2⟩
          exact hrun
        · rw [itemBits_eq ht.2 (t := .inter) (sym := sym) (by rw [symbolOf, hnat, hsum]) hs, hin]
          simp [immediateBits]
  · rw [hq, endOfInput_bind]

/-- A run that passes the end of the frame (43 R207): its code is consumed and nothing is written. -/
theorem interItem_overrun {len : BitVec 10} {rest : List Bool} (ht : s.TableReady .inter) (hp : (s.port cu.port).Inv)
    (h512 : len.toNat ≤ 512) (h1 : 1 ≤ len.toNat) (hover : cu.count < cu.pos + len.toNat)
    (hin : (s.port cu.port).inBits = itemBits (s.table .inter).contents (.run len) ++ rest) :
    ∃ q, interItem cu s = .raise .runOverrun (runPastEnd cu (s.setPort cu.port q)) ∧
      (s.port cu.port).Consumes q (itemBits (s.table .inter).contents (.run len)).length ∧ q.inBits = rest ∧ q.Inv := by
  have hlt : symRun0 + len.toNat < TableId.inter.symbols := by simp only [TableId.symbols, symRun0]; omega
  rw [itemBits_eq ht.2 (t := .inter) (sym := symRun0 + len.toNat) rfl hlt] at hin ⊢
  simp only [immediateBits, List.append_nil] at hin ⊢
  obtain ⟨q, hq, hc, hr, hi⟩ := decode_code ht hlt hp hin
  refine ⟨q, ?_, hc, hr, hi⟩
  have hlen : BitVec.ofNat 10 (symRun0 + len.toNat - symRun0) = len := by simp
  have hfit : ¬ runFits cu len = true := by simp only [runFits, decide_eq_true_eq]; omega
  rw [interItem, hq, bind_done, if_neg (by unfold symRun0 codeMax; omega), if_neg (by unfold symRun0 symEsc; omega), hlen,
    if_neg hfit]

/-! ### One frame -/

/-- A frame at whose next item the input runs out. -/
theorem frameItems_endOfInput (rounds : Nat) (hcu : s.cursor = some cu) (hlt : cu.pos < cu.count)
    (hitem : frameItem cu s = endOfInput cu.port s) : frameItems (rounds + 1) s = endOfInput cu.port s := by
  simp only [frameItems, hcu, if_pos hlt, hitem, Res.andThen, endOfInput_bind]

/-- A frame whose next item raises an error. -/
theorem frameItems_raise {e : Status} {t : State} (rounds : Nat) (hcu : s.cursor = some cu) (hlt : cu.pos < cu.count)
    (hitem : frameItem cu s = .raise e t) : frameItems (rounds + 1) s = .raise e t := by
  simp only [frameItems, hcu, if_pos hlt, hitem, andThen_raise]

/-- The port at a run that passes the end: `FS_RECV` closes its channel (44 R232). -/
theorem runPastEnd_setPort (q : Port) :
    runPastEnd cu (s.setPort cu.port q) = s.setPort cu.port (if cu.op = opFsRecv then closedPort q else q) := by
  unfold runPastEnd closeChannel
  split <;> simp

/-- The end of the input in a state that differs from `s` by what was consumed on port `c`, by pixels and the cursor. -/
theorem endOfInput_after {t : State} {q : Port} {k : Nat} {α : Type} (hc : (s.port c).Consumes q k)
    (ht : t = { s.setPort c q with pix := t.pix, cursor := t.cursor }) :
    (endOfInput c t : Res α) =
      if (s.port c).tinEos then
        .raise .transport (t.setPort c (closedPort { s.port c with tin := [] }))
      else .hold := by
  have hport : t.port c = q := by
    rw [ht]
    show (s.setPort c q).port c = q
    simp
  unfold endOfInput
  rw [hport, show q.tinEos = (s.port c).tinEos by rw [hc.same],
    show closedPort { q with tin := [] } = closedPort { s.port c with tin := [] } by rw [hc.same]; rfl]

/-- The same state, said of the state before. -/
theorem setPort_after {t : State} {q p : Port} (ht : t = { s.setPort c q with pix := t.pix, cursor := t.cursor }) :
    t.setPort c p =
      { s.setPort c p with pix := (t.setPort c p).pix, cursor := (t.setPort c p).cursor } := by
  rw [ht]
  simp [State.setPort, Vector.set_set]

/-- `intra-decompress` where the input stops inside the frame (42 R191, 40 R145): what came before is written. -/
theorem intraDecompress_stops (op : BitVec 8) {b w h : Nat} {got : Option (Pixel × List Instr)}
    (ht : s.TableReady .intra) (hp : (s.port c).Inv) (hn : 0 < w * h)
    (hstop : IntraStops (s.table .intra).contents (w * h) (s.port c).inBits got) :
    ∃ t, intraDecompress op c b w h s = (if (s.port c).tinEos then .raise .transport t else .hold) ∧
      t = { s.setPort c (closedPort { s.port c with tin := [] }) with pix := t.pix, cursor := t.cursor } ∧
      IntraStarts (s.pixel b) (t.pixel b) w h got ∧ ∀ b' x, b' ≠ b → t.pixel b' x = s.pixel b' x := by
  have hw : 0 < w := Nat.pos_of_ne_zero (by rintro rfl; simp at hn)
  have hframe : ∀ {r : Res Unit}, frameItems (w * h) { s with cursor := some (intraCursor op c b w h) } = r →
      (∀ k : State → Res Unit, r.andThen k = r) → intraDecompress op c b w h s = r := by
    intro r hr hk
    show (frameItems (w * h) { s with cursor := some (intraCursor op c b w h) }).andThen _ = r
    rw [hr, hk]
  cases got with
  | none =>
    refine ⟨State.setPort { s with cursor := some (intraCursor op c b w h) } c (closedPort { s.port c with tin := [] }), ?_,
      rfl, rfl, fun b' x _ => rfl⟩
    have hitem : frameItem (intraCursor op c b w h) { s with cursor := some (intraCursor op c b w h) } =
        endOfInput c { s with cursor := some (intraCursor op c b w h) } := intraItem_raw_endOfInput hp rfl hstop
    refine hframe ?_ ?_
    · rw [← Nat.sub_add_cancel hn, frameItems_endOfInput _ rfl hn hitem]
      exact endOfInput_after (Port.Consumes.refl _ hp) (by simp)
    · intro k; split <;> rfl
  | some first =>
    obtain ⟨raw, items⟩ := first
    obtain ⟨hok, hlen, short, hin, hno⟩ := hstop
    obtain ⟨g, hg⟩ := exists_intraRebuilds (w := w) (h := h) raw
      (items ++ List.replicate (w * h - (items.length + 1)) (.direct0 0)) (by simp; omega)
    have hstep : ∀ q, 0 < q → q < items.length + 1 → isIntraItem (items.getD (q - 1) .nop) = true ∧
        g (scanCell w q) = predictAt g w q + intraValue (items.getD (q - 1) .nop) := by
      intro q h1 h2
      have hget : (items ++ List.replicate (w * h - (items.length + 1)) (Instr.direct0 0)).getD (q - 1) .nop =
          items.getD (q - 1) .nop := by
        rw [List.getD_eq_getElem?_getD, List.getElem?_append_left (by omega), List.getD_eq_getElem?_getD]
      have := hg.step (q := q) (by
        intro item hm
        rcases List.mem_append.mp hm with hm | hm
        · exact hok item hm
        · rw [List.eq_of_mem_replicate hm]; rfl) h1 (by omega)
      rwa [hget] at this
    have hbits := intraBits_steps hg.first (s.table .intra).contents items w
    obtain ⟨q, t, hrun, hsame, hc, hr, hi, hnew, hold⟩ := frameItems_intra
      (s := { s with cursor := some (intraCursor op c b w h) }) (cu := intraCursor op c b w h) (m := items.length + 1)
      (rest := short) g (fun p => items.getD (p - 1) .nop) (w * h - (items.length + 1)) hw rfl rfl rfl
      (by simp [intraCursor]; omega) ht (fun q h1 h2 => hstep q h1 (by simpa [intraCursor] using h2)) hp
      (by simp [intraCursor])
      (by
        show (s.port c).inBits = _
        rw [hin]
        congr 1
        exact hbits.symm)
    have hport : t.port c = q := by
      rw [hsame]
      show (State.setPort _ c q).port c = q
      simp
    have htable : t.table .intra = s.table .intra := by rw [hsame]; rfl
    have hcell : ∀ j, j < items.length + 1 → t.pixel b (scanCell w j) = g (scanCell w j) := fun j hj =>
      hnew j (Nat.zero_le _) (by simpa [intraCursor] using hj)
    refine ⟨t.setPort c (closedPort { s.port c with tin := [] }), ?_, setPort_after (q := q) (by rw [hsame]; rfl), ?_, ?_⟩
    · refine hframe ?_ fun k => by split <;> rfl
      rw [Nat.sub_add_cancel (by omega)] at hrun
      rw [hrun, ← Nat.sub_add_cancel (show 1 ≤ w * h - (items.length + 1) by omega),
        frameItems_endOfInput (cu := { intraCursor op c b w h with pos := 0 + (items.length + 1) }) _ (by rw [hsame]; rfl)
          (by simp only [intraCursor]; omega)
          (intraItem_endOfInput (by unfold State.TableReady; rw [htable]; exact ht) (show (t.port c).Inv by rw [hport]; exact hi)
            (by simp) (show ∀ item, _ → ¬ _ <+: (t.port c).inBits by rw [hport, hr, htable]; exact hno))]
      exact endOfInput_after hc (by rw [hsame]; rfl)
    · have hscan : ∀ p xy, (scan w h)[p]? = some xy → p < w * h ∧ xy = (scanColumn w p, scanRow w p) := by
        intro p xy hxy
        have hp' : p < w * h := by rw [← length_scan w h]; exact (List.getElem?_eq_some_iff.mp hxy).1
        rw [scan_eq, List.getElem?_map, List.getElem?_range hp'] at hxy
        exact ⟨hp', (Option.some.inj hxy).symm⟩
      refine ⟨?_, fun p item hitem xy hxy => ?_, fun x hx => ?_⟩
      · have := hcell 0 (by omega)
        rwa [scanCell_zero, hg.first] at this
      · have hp' : p < items.length := (List.getElem?_eq_some_iff.mp hitem).1
        rw [(hscan _ _ hxy).2]
        have hv := (hstep (p + 1) (by omega) (by omega)).2
        rw [Nat.add_sub_cancel, List.getD_eq_getElem?_getD, hitem, Option.getD_some] at hv
        have hpred : predictAt (t.pixel b) w (p + 1) = predictAt g w (p + 1) :=
          predictAt_congr hw (by omega) fun q hq => hcell q (by omega)
        have := hcell (p + 1) (by omega)
        rw [hv, ← hpred] at this
        exact this
      · refine hold b x fun _ j _ h2 => ?_
        have hj : j < items.length + 1 := by simpa [intraCursor] using h2
        exact hx j _ (by omega) (by rw [scan_eq, List.getElem?_map, List.getElem?_range (by omega)]; rfl)
    · intro b' x hb
      exact hold b' x fun he => absurd he hb

/-- The items of an inter frame before the point where the decompressor stops. -/
theorem interFrame_items (op : BitVec 8) {b r n : Nat} {items : List Instr} {rest : List Bool} (ht : s.TableReady .inter)
    (hp : (s.port c).Inv) (hok : ∀ item ∈ items, isInterItem item = true)
    (hlen : (interRebuilt (s.pixel r) 0 items).length < n)
    (hin : (s.port c).inBits = itemsBits (s.table .inter).contents items ++ rest) :
    ∃ q t rounds, frameItems n { s with cursor := some (interCursor op c b r n) } = frameItems (rounds + 1) t ∧
      t = { s.setPort c q with
            pix := t.pix
            cursor := some { interCursor op c b r n with pos := (interRebuilt (s.pixel r) 0 items).length } } ∧
      (s.port c).Consumes q (itemsBits (s.table .inter).contents items).length ∧ q.inBits = rest ∧ q.Inv ∧
      ∀ b' x, t.pixel b' x =
        if b' = b then ((interRebuilt (s.pixel r) 0 items)[x]?).getD (s.pixel b' x) else s.pixel b' x := by
  have hle := length_le_interRebuilt (s.pixel r) 0 hok
  obtain ⟨q, t, hrun, hsame, hc, hr, hi, hpx⟩ := frameItems_inter
    (s := { s with cursor := some (interCursor op c b r n) }) (cu := interCursor op c b r n) (items := items)
    (rest := rest) (s.pixel r) (n - items.length) rfl rfl (by simp only [interCursor]; omega) hok ht hp
    (fun x _ _ => rfl) hin
  refine ⟨q, t, n - items.length - 1, ?_, ?_, hc, hr, hi, fun b' x => ?_⟩
  · rw [Nat.sub_add_cancel (by omega)] at hrun
    rw [hrun, Nat.sub_add_cancel (by omega)]
  · rw [hsame]
    simp only [interCursor, Nat.zero_add]
    rfl
  · rw [hpx b' x]
    simp only [interCursor, Nat.zero_le, and_true, Nat.sub_zero]
    rfl

/-- `inter-decompress` where the input stops inside the frame (43 R206, 40 R145). -/
theorem interDecompress_stops (op : BitVec 8) {b r n : Nat} {items : List Instr} (ht : s.TableReady .inter)
    (hp : (s.port c).Inv) (hstop : InterStops (s.table .inter).contents (s.pixel r) n (s.port c).inBits items) :
    ∃ t, interDecompress op c b r n s = (if (s.port c).tinEos then .raise .transport t else .hold) ∧
      t = { s.setPort c (closedPort { s.port c with tin := [] }) with pix := t.pix, cursor := t.cursor } ∧
      ∀ b' x, t.pixel b' x =
        if b' = b then ((interRebuilt (s.pixel r) 0 items)[x]?).getD (s.pixel b' x) else s.pixel b' x := by
  obtain ⟨hok, hlen, short, hin, hno⟩ := hstop
  obtain ⟨q, t, rounds, hrun, hsame, hc, hr, hi, hpx⟩ := interFrame_items op (b := b) ht hp hok hlen hin
  have hport : t.port c = q := by
    rw [hsame]
    show (State.setPort _ c q).port c = q
    simp
  have htable : t.table .inter = s.table .inter := by rw [hsame]; rfl
  refine ⟨t.setPort c (closedPort { s.port c with tin := [] }), ?_, setPort_after (q := q) (by rw [hsame]), hpx⟩
  show (frameItems n { s with cursor := some (interCursor op c b r n) }).andThen _ = _
  rw [hrun, frameItems_endOfInput (cu := { interCursor op c b r n with pos := (interRebuilt (s.pixel r) 0 items).length })
    _ (by rw [hsame]) hlen (interItem_endOfInput (by unfold State.TableReady; rw [htable]; exact ht)
      (show (t.port c).Inv by rw [hport]; exact hi)
      (show ∀ item, _ → ¬ _ <+: (t.port c).inBits by rw [hport, hr, htable]; exact hno))]
  show (endOfInput c t).andThen _ = _
  rw [endOfInput_after hc (by rw [hsame])]
  split <;> rfl

/-- `inter-decompress` at a run that passes the end (43 R207); `FS_RECV` closes its channel (44 R232). -/
theorem interDecompress_overruns (op : BitVec 8) {b r n : Nat} {items : List Instr} {rest : List Bool}
    (ht : s.TableReady .inter) (hp : (s.port c).Inv)
    (hover : InterOverruns (s.table .inter).contents (s.pixel r) n (s.port c).inBits items rest) :
    ∃ q t, interDecompress op c b r n s = .raise .runOverrun t ∧
      t = { s.setPort c (if op = opFsRecv then closedPort q else q) with pix := t.pix, cursor := t.cursor } ∧
      (∃ k, 0 < k ∧ (s.port c).Consumes q k ∧ (s.port c).inBits.length = k + rest.length) ∧ q.inBits = rest ∧ q.Inv ∧
      ∀ b' x, t.pixel b' x =
        if b' = b then ((interRebuilt (s.pixel r) 0 items)[x]?).getD (s.pixel b' x) else s.pixel b' x := by
  obtain ⟨hok, hlen, len, h1, h512, hpast, hin⟩ := hover
  rw [itemsBits, List.flatMap_append, List.flatMap_singleton, List.append_assoc] at hin
  obtain ⟨q, t, rounds, hrun, hsame, hc, hr, hi, hpx⟩ := interFrame_items op (b := b) ht hp hok hlen hin
  have hport : t.port c = q := by
    rw [hsame]
    show (State.setPort _ c q).port c = q
    simp
  have htable : t.table .inter = s.table .inter := by rw [hsame]; rfl
  obtain ⟨q', hq', hc', hr', hi'⟩ := interItem_overrun (s := t)
    (cu := { interCursor op c b r n with pos := (interRebuilt (s.pixel r) 0 items).length }) (rest := rest)
    (by unfold State.TableReady; rw [htable]; exact ht) (show (t.port c).Inv by rw [hport]; exact hi) h512 h1 hpast
    (by show (t.port c).inBits = _; rw [hport, hr, htable])
  rw [runPastEnd_setPort] at hq'
  have hc'' : (t.port c).Consumes q' (itemBits (t.table .inter).contents (.run len)).length := hc'
  rw [hport, htable] at hc''
  refine ⟨q', t.setPort c (if op = opFsRecv then closedPort q' else q'), ?_, setPort_after (q := q) (by rw [hsame]),
    ⟨_, ?_, Port.Consumes.trans hp hi hc hc'' (by rw [hin]; simp [itemsBits]), ?_⟩, hr', hi', hpx⟩
  · show (frameItems n { s with cursor := some (interCursor op c b r n) }).andThen _ = _
    rw [hrun, frameItems_raise (cu := { interCursor op c b r n with pos := (interRebuilt (s.pixel r) 0 items).length })
      _ (by rw [hsame]) hlen hq', andThen_raise]
    rfl
  · have hne := interItem_bits_ne_nil ht.2 (item := .run len) (by
      show (decide (1 ≤ len.toNat) && decide (len.toNat ≤ runMax)) = true
      rw [decide_eq_true h1, decide_eq_true (show len.toNat ≤ runMax from h512)]; rfl)
    have := List.length_pos_iff.mpr hne
    omega
  · rw [hin]; simp [itemsBits]; omega

end Sys2Proof.Machine
end

