-- ==== Sys2Proof/Laws/Planes.lean ====
section
/-! SUPPORT. How far `FS_RECV` has come after some of its planes (44 R230): what the port still holds, and what the planes
rebuilt. -/

namespace Sys2Proof.Machine

variable {c : PortNo} {s t u : State}

/-- After a frame that took at least one bit, `align` leaves the words not fetched (40 R139). -/
theorem tin_afterAlign {p : Port} {frame rest : List Bool} (hp : p.Inv) (h : p.inBits = frame ++ rest) (hne : frame ≠ []) :
    (p.tin.drop (wordsToRead p.brN frame.length)).flatMap wordBits = afterAlign rest := by
  have hdrop : ∀ (n : Nat) (ws : List Word), (ws.drop n).flatMap wordBits = (ws.flatMap wordBits).drop (32 * n) := by
    intro n
    induction n with
    | zero => simp
    | succ n ih =>
      rintro (_ | ⟨w, ws⟩)
      · simp
      · have hw : (wordBits w).length = 32 := by simp [wordBits]
        rw [List.drop_succ_cons, ih, List.flatMap_cons, List.drop_append,
          List.drop_eq_nil_of_le (as := wordBits w) (by rw [hw]; omega), hw, List.nil_append]
        congr 1
  have hlen := hp.length_inBits
  have hheld := hp.readerCount
  have hpos := List.length_pos_iff.mpr hne
  have hrest : rest = p.inBits.drop frame.length := by rw [h]; simp
  have hle : frame.length ≤ p.brN + 32 * p.tin.length := by rw [← hlen, h]; simp
  have hcount : frame.length + (p.brN + 32 * p.tin.length - frame.length) % 32 =
      p.fetchedBits.length + 32 * wordsToRead p.brN frame.length := by
    rw [hp.length_fetchedBits]; unfold wordsToRead; omega
  rw [hdrop, afterAlign, show rest.length = p.brN + 32 * p.tin.length - frame.length by rw [hrest, List.length_drop, hlen],
    hrest, List.drop_drop, hcount, Port.inBits, List.drop_append]
  simp

theorem refOf_injective {i j : Nat} (h : refOf c i = refOf c j) : i = j := by unfold refOf at h; omega

/-- A grid that agrees on its cells with one that the items rebuild. -/
theorem IntraRebuilds.congr {f g : Nat → Pixel} {w h : Nat} {raw : Pixel} {items : List Instr}
    (hg : IntraRebuilds g w h raw items) (he : ∀ x, x < w * h → f x = g x) : IntraRebuilds f w h raw items := by
  have hn : 0 < w * h := by have := hg.count; omega
  have hw : 0 < w := Nat.pos_of_ne_zero (by rintro rfl; simp at hn)
  refine ⟨(he 0 hn).trans hg.first, hg.count, fun p item hi xy hxy => ?_⟩
  have hval := hg.others p item hi xy hxy
  have hp : p + 1 < w * h := by rw [← length_scan w h]; exact (List.getElem?_eq_some_iff.mp hxy).1
  rw [scan_eq, List.getElem?_map, List.getElem?_range hp] at hxy
  obtain rfl := Option.some.inj hxy
  have hcell : f (scanCell w (p + 1)) = g (scanCell w (p + 1)) := he _ (scanCell_lt hp)
  have hpred : predictAt f w (p + 1) = predictAt g w (p + 1) :=
    predictAt_congr hw (by omega) fun q hq => he _ (scanCell_lt (by omega))
  exact hcell.trans (hval.trans (congrArg (· + intraValue item) hpred.symm))

/-- The first `k` planes of a triplet. -/
def recvPlanes (c : PortNo) : (k : Nat) → State → Res Unit
  | 0, s => .done () s
  | k + 1, s => (recvPlanes c k s).andThen (recvPlane c k)

/-- `FS_RECV` ends where plane `k` does, when plane `k` does not complete. -/
theorem forPlanes_ends {k : Nat} {r : Res Unit} (hk : k < 3) (h : recvPlanes c k s = .done () t) (hr : recvPlane c k t = r)
    (hend : ∀ u, r ≠ .done () u) : forPlanes (recvPlane c) s = r := by
  have hthen : ∀ f, r.andThen f = r := by
    intro f
    cases r with
    | done a u => exact absurd rfl (hend u)
    | raise e u => rfl
    | hold => rfl
  unfold forPlanes
  match k, hk with
  | 0, _ => cases h; rw [hr, hthen]
  | 1, _ =>
    simp only [recvPlanes, andThen_done] at h
    rw [h, andThen_done, hr, hthen]
  | 2, _ =>
    simp only [recvPlanes, andThen_done] at h
    cases h0 : recvPlane c 0 s with
    | done a u =>
      rw [h0] at h
      change recvPlane c 1 u = _ at h
      change (recvPlane c 1 u).andThen _ = r
      rw [h, andThen_done, hr]
    | raise e u => rw [h0] at h; cases h
    | hold => rw [h0] at h; cases h

/-- From `s` to `t` some planes were received on port `c`: the reader register, the input, pixels and the cursor apart
nothing changed, and `bits` are still to be read. -/
structure Received (c : PortNo) (s t : State) (bits : List Bool) : Prop where
  same : t = { s.setPort c (t.port c) with pix := t.pix, cursor := t.cursor }
  port : t.port c = { s.port c with brAcc := (t.port c).brAcc, brN := (t.port c).brN, tin := (t.port c).tin }
  inv : (t.port c).Inv
  bits : (t.port c).inBits = bits
  input : (t.port c).tin <:+ (s.port c).tin

theorem Received.table {bits : List Bool} (m : Received c s t bits) (tab : TableId) : t.table tab = s.table tab := by
  rw [m.same]; cases tab <;> rfl

theorem Received.tableReady {bits : List Bool} {tab : TableId} (m : Received c s t bits) (h : s.TableReady tab) :
    t.TableReady tab := by unfold State.TableReady; rw [m.table]; exact h

theorem Received.chst {bits : List Bool} (m : Received c s t bits) : (t.port c).chst = (s.port c).chst := by rw [m.port]

theorem Received.tinEos {bits : List Bool} (m : Received c s t bits) : (t.port c).tinEos = (s.port c).tinEos := by rw [m.port]

/-- Plane `k` as it is received, in `INTRA`. -/
theorem Received.recvPlane_intra {bits : List Bool} (m : Received c s t bits) (h : (s.port c).chst = .intra) (k : Nat) :
    recvPlane c k t = intraDecompress opFsRecv c (refOf c k) (planeW s k) (planeH s k) t := by
  rw [recvPlane, if_pos (m.chst.trans h)]
  congr 1 <;> (rw [m.same]; rfl)

/-- Plane `k` as it is received, in `INTER`. -/
theorem Received.recvPlane_inter {bits : List Bool} (m : Received c s t bits) (h : (s.port c).chst = .inter) (k : Nat) :
    recvPlane c k t = interDecompress opFsRecv c (refOf c k) (refOf c k) (planeW s k * planeH s k) t := by
  rw [recvPlane, if_neg (by rw [m.chst, h]; decide)]
  congr 1
  rw [m.same]
  rfl

/-- What a state that differs from `t` by a port, by pixels and the cursor, differs by from `s`. -/
theorem Received.trans {bits : List Bool} {q : Port} (m : Received c s t bits)
    (hu : u = { t.setPort c q with pix := u.pix, cursor := u.cursor }) :
    u = { s.setPort c q with pix := u.pix, cursor := u.cursor } := by
  have hsame := m.same
  generalize t.port c = p at hsame
  generalize t.pix = px at hsame
  generalize t.cursor = cu at hsame
  generalize u.pix = px' at hu ⊢
  generalize u.cursor = cu' at hu ⊢
  subst hsame
  rw [hu]
  simp [State.setPort, Vector.set_set]

/-- One more plane, whose frame is followed by `rest`. -/
theorem Received.next {q : Port} {frame rest : List Bool} (m : Received c s t (frame ++ rest)) (hne : frame ≠ [])
    (hu : u = { t.setPort c q with pix := u.pix, cursor := none })
    (hq : q = { t.port c with
                brAcc := 0, brN := 0, tin := List.drop (wordsToRead (t.port c).brN frame.length) (t.port c).tin })
    (hi : q.Inv) : Received c s u (afterAlign rest) := by
  have hp : u.port c = q := by rw [hu]; show (t.setPort c q).port c = q; simp
  have hcu : u.cursor = none := by rw [hu]
  refine ⟨hp ▸ m.trans (by rw [hcu]; exact hu), by rw [hp, hq, m.port], hp ▸ hi, ?_, ?_⟩
  · rw [hp, hq, Port.inBits, show Port.fetchedBits { t.port c with
      brAcc := 0, brN := 0, tin := List.drop (wordsToRead (t.port c).brN frame.length) (t.port c).tin } = [] by
        simp [Port.fetchedBits], List.nil_append]
    exact tin_afterAlign m.inv m.bits hne
  · rw [hp, hq]
    exact (List.drop_suffix _ _).trans m.input

/-- The first `k` planes of a later triplet. -/
theorem recvPlanes_inter {k : Nat} {items : Nat → List Instr} {input rest : Nat → List Bool} {rebuilt : Nat → List Pixel}
    (hch : (s.port c).chst = .inter) (ht : s.TableReady .inter) (hp : (s.port c).Inv) (hin : input 0 = (s.port c).inBits)
    (hr : ∀ j, rebuilt j = interRebuilt (s.pixel (refOf c j)) 0 (items j)) (hpos : ∀ j, 0 < planeW s j * planeH s j)
    (h : ∀ j, j < k → (∀ item ∈ items j, isInterItem item = true) ∧ (rebuilt j).length = planeW s j * planeH s j ∧
      input j = itemsBits (s.table .inter).contents (items j) ++ rest j ∧ input (j + 1) = afterAlign (rest j)) :
    ∃ t, recvPlanes c k s = .done () t ∧ Received c s t (input k) ∧
      (∀ j x, j < k → t.pixel (refOf c j) x = (rebuilt j)[x]?.getD (s.pixel (refOf c j) x)) ∧
      ∀ b x, (∀ j, j < k → b ≠ refOf c j) → t.pixel b x = s.pixel b x := by
  induction k with
  | zero =>
    exact ⟨s, rfl, ⟨by simp, rfl, hp, hin.symm, List.suffix_refl _⟩, fun j x hj => absurd hj (by omega), fun _ _ _ => rfl⟩
  | succ k ih =>
    obtain ⟨t, hrun, m, hdone, hold⟩ := ih fun j hj => h j (by omega)
    obtain ⟨hok, hlen, hi, hn⟩ := h k (by omega)
    rw [hi] at m
    have hpx : t.pixel (refOf c k) = s.pixel (refOf c k) :=
      funext fun x => hold _ x fun j hj he => by have := refOf_injective he; omega
    obtain ⟨q, u, hd, hu, hq, hqi, hpix⟩ := interDecompress_done (s := t) (c := c) opFsRecv (b := refOf c k) (r := refOf c k)
      (n := planeW s k * planeH s k) (items := items k) (rest := rest k) (m.tableReady ht) m.inv hok
      (by rw [hpx, ← hr, hlen]) (by rw [m.table]; exact m.bits)
    have hne : itemsBits (s.table .inter).contents (items k) ≠ [] := by
      have hk := hpos k
      rw [← hlen, hr] at hk
      cases hit : items k with
      | nil => rw [hit] at hk; simp [interRebuilt] at hk
      | cons item _ =>
        rw [itemsBits_cons]
        exact fun h0 => interItem_bits_ne_nil ht.2 (hok item (by rw [hit]; exact List.mem_cons_self ..))
          (List.append_eq_nil_iff.mp h0).1
    rw [m.table] at hq
    refine ⟨u, by rw [recvPlanes, hrun, andThen_done, m.recvPlane_inter hch]; exact hd, hn ▸ m.next hne hu hq hqi,
      fun j x hj => ?_, fun b x hb => ?_⟩
    · rw [hpix]
      by_cases hjk : j = k
      · subst hjk
        rw [if_pos rfl, hpx, hr]
      · rw [if_neg fun he => hjk (refOf_injective he), hdone j x (by omega)]
    · rw [hpix, if_neg (hb k (by omega)), hold b x fun j hj => hb j (by omega)]

/-- The first `k` planes of a first triplet. -/
theorem recvPlanes_intra {k : Nat} {raw : Nat → Pixel} {items : Nat → List Instr} {input rest : Nat → List Bool}
    (hch : (s.port c).chst = .intra) (ht : s.TableReady .intra) (hp : (s.port c).Inv) (hin : input 0 = (s.port c).inBits)
    (h : ∀ j, j < k → (∀ item ∈ items j, isIntraItem item = true) ∧ (items j).length + 1 = planeW s j * planeH s j ∧
      input j = intraBits (s.table .intra).contents (raw j) (items j) ++ rest j ∧ input (j + 1) = afterAlign (rest j)) :
    ∃ t, recvPlanes c k s = .done () t ∧ Received c s t (input k) ∧
      (∀ j, j < k → IntraRebuilds (t.pixel (refOf c j)) (planeW s j) (planeH s j) (raw j) (items j)) ∧
      ∀ b x, (∀ j, j < k → ¬ (b = refOf c j ∧ x < planeW s j * planeH s j)) → t.pixel b x = s.pixel b x := by
  induction k with
  | zero =>
    exact ⟨s, rfl, ⟨by simp, rfl, hp, hin.symm, List.suffix_refl _⟩, fun j hj => absurd hj (by omega), fun _ _ _ => rfl⟩
  | succ k ih =>
    obtain ⟨t, hrun, m, hdone, hold⟩ := ih fun j hj => h j (by omega)
    obtain ⟨hok, hlen, hi, hn⟩ := h k (by omega)
    rw [hi] at m
    obtain ⟨g, hg⟩ := exists_intraRebuilds (raw k) (items k) hlen
    obtain ⟨q, u, hd, hu, hq, hqi, hpix⟩ := intraDecompress_items (s := t) (c := c) opFsRecv (b := refOf c k)
      (rest := rest k) (m.tableReady ht) m.inv hok hg (by rw [m.table]; exact m.bits)
    have hne : intraBits (s.table .intra).contents (raw k) (items k) ≠ [] := fun h0 => by
      have := congrArg List.length h0
      simp [intraBits] at this
    rw [m.table] at hq
    refine ⟨u, by rw [recvPlanes, hrun, andThen_done, m.recvPlane_intra hch]; exact hd, hn ▸ m.next hne hu hq hqi,
      fun j hj => ?_, fun b x hb => ?_⟩
    · by_cases hjk : j = k
      · subst hjk
        exact hg.congr fun x hx => by rw [hpix, if_pos ⟨rfl, hx⟩]
      · exact (hdone j (by omega)).congr fun x _ => by rw [hpix, if_neg fun he => hjk (refOf_injective he.1)]
    · rw [hpix, if_neg (hb k (by omega)), hold b x fun j hj => hb j (by omega)]

end Sys2Proof.Machine
end

