-- ==== Sys2Proof/Tests/Slice0.lean ====
section
/-! SUPPORT. The author's tests, each a named theorem; and for each statement of Certificates/Slice0/Obligations.lean with
hypotheses a witness that meets them. Expected words and values are those of spec/30_encoding.md and of the vectors of
spec/95_test_vectors.md (the vector is named), whose codes are those of the reference tables T0, T1 of
spec/96_reference_tables.md. -/

namespace Sys2Proof.Tests

open Sys2Proof Sys2Proof.Machine

-- One theorem at a time: checked side by side these evaluations take one thread, with its stack, each.
set_option Elab.async false

/-! ### Well-formed terms -/

theorem test_wf_direct0 : (Instr.direct0 513).wf = false ∧ (Instr.direct0 512).wf = true := by decide
theorem test_wf_direct1 : (Instr.direct1 600).wf = false ∧ (Instr.direct1 0).wf = true := by decide
theorem test_wf_run : (Instr.run 0).wf = false ∧ (Instr.run 513).wf = false ∧ (Instr.run 512).wf = true := by decide

/-! ### Command words, written out from 30 R91, R92 -/

theorem test_decode_nop : decode 0x0000000000000000 = some .nop := by decide
theorem test_decode_bw_write : decode 0x0100000300000005 = some (.bwWrite 0 3 5) := by decide
theorem test_decode_bw_flush : decode 0x0250000000000000 = some (.bwFlush 5) := by decide
theorem test_decode_br_read : decode 0x1110001000000000 = some (.brRead 1 16) := by decide
theorem test_decode_br_readbit : decode 0x1210000000000000 = some (.brReadbit 1) := by decide
theorem test_decode_br_align : decode 0x1310000000000000 = some (.brAlign 1) := by decide
theorem test_decode_fq_wr : decode 0x20000201FFFFFFFF = some (.fqWr 0 513 0xFFFFFFFF) := by decide
theorem test_decode_pc_build : decode 0x2101000000000000 = some (.pcBuild 1) := by decide
theorem test_decode_pc_encode : decode 0x2201020200000000 = some (.pcEncode 0 1 514) := by decide
theorem test_decode_pc_decode : decode 0x2310000000000000 = some (.pcDecode 1 0) := by decide
theorem test_decode_pc_qbits : decode 0x2400020100000000 = some (.pcQbits 0 513) := by decide
theorem test_decode_pc_qlen : decode 0x2501040200000000 = some (.pcQlen 1 1026) := by decide
theorem test_decode_ic_compress : decode 0x3000000C00000000 = some (.icCompress 0 12) := by decide
theorem test_decode_ic_decompress : decode 0x3110000300000000 = some (.icDecompress 1 3) := by decide
theorem test_decode_xc_compress : decode 0x40000C0000000000 = some (.xcCompress 0 0 12) := by decide
theorem test_decode_xc_decompress : decode 0x4110040300000000 = some (.xcDecompress 1 3 4) := by decide
theorem test_decode_fs_open : decode 0x5010000100000000 = some (.fsOpen 1 1) := by decide
theorem test_decode_fs_ack : decode 0x5120000078563412 = some (.fsAck 2 0x78563412) := by decide
theorem test_decode_fs_msg : decode 0x5210000100000000 = some (.fsMsg 1 1) := by decide
theorem test_decode_fs_send : decode 0x5320000000000000 = some (.fsSend 2) := by decide
theorem test_decode_fs_recv : decode 0x5410000000000000 = some (.fsRecv 1) := by decide
theorem test_decode_fs_close : decode 0x5520000000000000 = some (.fsClose 2) := by decide
theorem test_decode_csr_rd : decode 0x6000002300000000 = some (.csrRd 0x23) := by decide
theorem test_decode_csr_wr : decode 0x610000020000FFFF = some (.csrWr 2 0xFFFF) := by decide
theorem test_decode_px_wr : decode 0x620205DC00000013 = some (.pxWr 2 19 1500) := by decide
theorem test_decode_px_rd : decode 0x630B00000000003F = some (.pxRd 11 63) := by decide
theorem test_decode_reset : decode 0x7F00000000000000 = some .reset := by decide

/-- 95 vectors E1 to E5. -/
theorem test_decode_illegal :
    decode 0x0300000000000000 = none ∧ decode 0x0000000000000001 = none ∧ decode 0x0250000000000001 = none ∧
    decode 0x5000000200000000 = none ∧ decode 0x3000010000000000 = none := by decide

theorem test_table_word : decodeTableWord 64 0x5510000000000000 = some (.fsClose 1) ∧ decodeTableWord 0 0 = none := by
  decide

/-! ### Parts of the reference tables -/

/-- A leaf that no vector below reaches. -/
def filler : CodeTree := .leaf 0

/-- Of T0: 254 = `000`, 258 = `001`, 256 = `10`, 255 = `110`, 257 = `111`. -/
def partT0 : CodeTree :=
  .node (.node (.node (.leaf 254) (.leaf 258)) filler) (.node (.leaf 256) (.node (.leaf 255) (.leaf 257)))

/-- Of T1: 258 = `000`, 514 = `0100`, 515 = `01011`, 516 = `100010`, 255 = `110`, 257 = `111`. -/
def partT1 : CodeTree :=
  .node (.node (.node (.leaf 258) filler) (.node (.node (.leaf 514) (.node filler (.leaf 515))) filler))
    (.node (.node (.node (.node filler (.node (.leaf 516) filler)) filler) filler) (.node (.leaf 255) (.leaf 257)))

/-- A valid table register. -/
def loaded (tab : CodeTable) : Table := ⟨tab.enc, tab.tree, true⟩

/-- The instance of 95 section 7 with those parts as its tables. -/
def start : State := { State.reset with tab0 := loaded (partT0.toTable 514), tab1 := loaded (partT1.toTable 1026) }

/-- The state that an instruction leaves. -/
def after (i : Instr) (s : State) : State :=
  match exec i s with
  | .next t => t
  | .fault _ => s
  | .refused _ => s

/-- The status and data of the response that an instruction gives. -/
def answer (i : Instr) (s : State) : Option (BitVec 8 × Word) := (after i s).rsp.map fun r => (statusField r, dataField r)

/-- The pixels of a buffer from cell 0 on. -/
def grid (s : State) (b n : Nat) : List Nat := (List.range n).map fun i => (s.pixel b i).toNat

/-- Write pixels into a buffer from cell 0 on. -/
def withGrid (b : Nat) (cells : List Nat) (s : State) : State :=
  (List.range cells.length).foldl (fun s i => s.setPixel b i (BitVec.ofNat 16 (cells.getD i 0))) s

/-! ### Stream symbols: codes of T0, T1 and 16-bit immediates -/

theorem test_symbol_direct0 :
    decodeItem .intra (partT0.toTable 514) [true, true, false, true] = some (.direct0 255, [true]) := by decide +kernel
theorem test_symbol_direct1 :
    decodeItem .inter (partT1.toTable 1026) [true, true, true] = some (.direct1 257, []) := by decide +kernel
theorem test_symbol_run :
    decodeItem .inter (partT1.toTable 1026) [false, true, false, true, true] = some (.run 2, []) := by decide +kernel
/-- 95 vector X8: raw `0x8000`, most significant bit first. -/
theorem test_symbol_escape :
    (decodeItem .intra ⟨[], [.leaf 513]⟩ (true :: List.replicate 15 false) = some (.esc0 0x8000, [])) ∧
    (decodeItem .inter ⟨[], [.leaf 513]⟩ (true :: List.replicate 15 false) = some (.esc1 0x8000, [])) := by
  decide +kernel

/-! ### One step of each command -/

theorem test_nop : answer .nop start = some (0, 0) ∧ SameState start (after .nop start) := ⟨by decide +kernel, rfl⟩

/-- 95 section 2.1, row 2. -/
theorem test_bw_write :
    ((after (.bwWrite 0 9 0x1FF) (start.setPort 0 { Port.reset with bwAcc := 0x5, bwN := 3 })).port 0) =
      { Port.reset with bwAcc := 0xBFF, bwN := 12 } := by decide +kernel

/-- 95 section 2.2, rows 2 and 4: splits of one bit field over two words. -/
theorem test_bw_write_split :
    ((after (.bwWrite 0 10 0x2A5) (start.setPort 0 { Port.reset with bwAcc := 0x3FFFFFF, bwN := 26 })).port 0) =
      { Port.reset with bwAcc := 0x5, bwN := 4, tout := [0xFFFFFFEA] } ∧
    ((after (.bwWrite 0 32 0xDEADBEEF) (start.setPort 0 { Port.reset with bwAcc := 0x53, bwN := 8 })).port 0) =
      { Port.reset with bwAcc := 0xEF, bwN := 8, tout := [0x53DEADBE] } := by decide +kernel

/-- 95 section 2.3. -/
theorem test_bw_flush :
    ((after (.bwFlush 0) (start.setPort 0 { Port.reset with bwAcc := 0x7F, bwN := 7 })).port 0) =
      { Port.reset with tout := [0xFE000000] } ∧
    ((after (.bwFlush 0) start).port 0) = Port.reset := by decide +kernel

/-- 95 section 2.2, reading back, row 2. -/
theorem test_br_read :
    answer (.brRead 0 10) (start.setPort 0 { Port.reset with brAcc := 0xA8000000, brN := 6, tin := [0x53DEADBE] }) =
      some (0, 0x2A5) ∧
    ((after (.brRead 0 10)
      (start.setPort 0 { Port.reset with brAcc := 0xA8000000, brN := 6, tin := [0x53DEADBE] })).port 0) =
      { Port.reset with brAcc := 0x3DEADBE0, brN := 28 } := by decide +kernel

/-- 95 section 2.6: the end of the input kills the port; an empty input that has not ended holds. -/
theorem test_br_read_empty :
    answer (.brRead 0 1) (start.setPort 0 { Port.reset with tinEos := true, chst := .start, bwAcc := 1, bwN := 1 }) =
      some (8, 0) ∧
    ((after (.brRead 0 1)
      (start.setPort 0 { Port.reset with tinEos := true, chst := .start, bwAcc := 1, bwN := 1 })).port 0) =
      { Port.reset with tinEos := true } ∧
    after (.brRead 0 1) start = { start with holding := some (.brRead 0 1), rsp := none } := by
  refine ⟨by decide +kernel, by decide +kernel, rfl⟩

/-- 95 section 2.6. -/
theorem test_br_readbit :
    answer (.brReadbit 0) (start.setPort 0 { Port.reset with brAcc := 0x80000000, brN := 32 }) = some (0, 1) ∧
    ((after (.brReadbit 0) (start.setPort 0 { Port.reset with brAcc := 0x80000000, brN := 32 })).port 0) =
      { Port.reset with brN := 31 } := by decide +kernel

/-- 95 section 2.3. -/
theorem test_br_align :
    ((after (.brAlign 0) (start.setPort 0 { Port.reset with brAcc := 0x40000000, brN := 30, tin := [7] })).port 0) =
      { Port.reset with tin := [7] } := by decide +kernel

/-- 95 vectors E26, E27, and the last symbol of table 1. -/
theorem test_fq_wr :
    answer (.fqWr 0 514 1) start = some (2, 0) ∧ answer (.fqWr 2 0 1) start = some (2, 0) ∧
    (after (.fqWr 1 1025 7) start).freqCell .inter 1025 = 7 := by decide +kernel

/-- 41 R159: nothing is written when the table number is bad. -/
theorem test_pc_build : answer (.pcBuild 2) start = some (2, 0) := by decide +kernel

/-- 95 section 9.1, row 521, and E10, E11. -/
theorem test_pc_encode :
    ((after (.pcEncode 0 0 256) (start.setPort 0 { Port.reset with bwAcc := 0x15, bwN := 5 })).port 0) =
      { Port.reset with bwAcc := 0x56, bwN := 7 } ∧
    answer (.pcEncode 0 2 0) start = some (2, 0) ∧ answer (.pcEncode 0 0 514) State.reset = some (2, 0) := by
  decide +kernel

/-- 95 section 9.1, row 535: `110`, the rest padding. -/
theorem test_pc_decode :
    answer (.pcDecode 1 0) (start.setPort 1 { Port.reset with tin := [0xC0000000] }) = some (0, 255) ∧
    ((after (.pcDecode 1 0) (start.setPort 1 { Port.reset with tin := [0xC0000000] })).port 1) =
      { Port.reset with brN := 29 } := by decide +kernel

/-- 95 vectors E12, E13 and section 4.3, `RUN(2)` = `01011`. -/
theorem test_pc_qbits : answer (.pcQbits 1 515) start = some (0, 0xB) ∧ answer (.pcQbits 1 514) State.reset = some (4, 0) := by
  decide +kernel
theorem test_pc_qlen : answer (.pcQlen 1 515) start = some (0, 5) ∧ answer (.pcQlen 1 1026) start = some (2, 0) := by
  decide +kernel

/-- 95 vector I13: the predictor's sum is not reduced, and row 1 runs right to left. -/
theorem test_ic_compress :
    answer (.icCompress 0 0) (withGrid 0 [65535, 0, 65535, 1] { start with opW := 2, opH := 2 }) = some (0, 1) ∧
    ((after (.icCompress 0 0) (withGrid 0 [65535, 0, 65535, 1] { start with opW := 2, opH := 2 })).port 0).tout =
      [0xFFFFFE00] := by decide +kernel
theorem test_ic_decompress :
    answer (.icDecompress 1 3)
      (State.setPort { start with opW := 2, opH := 2 } 1 { Port.reset with tin := [0xFFFFFE00] }) = some (0, 1) ∧
    grid (after (.icDecompress 1 3)
      (State.setPort { start with opW := 2, opH := 2 } 1 { Port.reset with tin := [0xFFFFFE00] })) 3 4 =
      [65535, 0, 65535, 1] := by decide +kernel

/-- 95 vector X5: runs between non-zero deltas, and a trailing run. -/
theorem test_xc_compress :
    ((after (.xcCompress 0 0 1) (withGrid 0 [0, 0, 0, 1, 0, 0, 65535, 0, 0, 0]
      (withGrid 1 [0, 0, 0, 0, 0, 0, 0, 0, 0, 0] { start with opW := 5, opH := 2 }))).port 0).tout = [0x8BAF4400] := by
  decide +kernel
/-- 95 vectors X16 (in place) and X17: `RUN(2)` then `RUN(3)` with 4 pixels. -/
theorem test_xc_decompress :
    answer (.xcDecompress 0 1 1) (withGrid 1 [1, 2, 3, 4]
      (State.setPort { start with opW := 4, opH := 1 } 0 { Port.reset with tin := [0x44580000] })) = some (0, 1) ∧
    answer (.xcDecompress 0 0 1) (withGrid 1 [1, 2, 3, 4]
      (State.setPort { start with opW := 4, opH := 1 } 0 { Port.reset with tin := [0x5C400000] })) = some (9, 0) := by
  decide +kernel
theorem test_xc_decompress_overrun :
    ((after (.xcDecompress 0 0 1) (withGrid 1 [1, 2, 3, 4]
      (State.setPort { start with opW := 4, opH := 1 } 0 { Port.reset with tin := [0x5C400000] }))).port 0) =
      { Port.reset with brN := 21 } ∧
    grid (after (.xcDecompress 0 0 1) (withGrid 1 [1, 2, 3, 4] (withGrid 0 [9, 9, 9, 9]
      (State.setPort { start with opW := 4, opH := 1 } 0 { Port.reset with tin := [0x5C400000] })))) 0 4 =
      [1, 2, 9, 9] := by decide +kernel

/-- 95 vectors S13 and E6-like: channel 3 does not exist. -/
theorem test_fs_open :
    chstatWord ((after (.fsOpen 2 1) start).port 2) = 5 ∧ answer (.fsOpen 3 0) start = some (2, 0) := by decide +kernel
/-- 95 vectors S3 and S4. -/
theorem test_fs_ack :
    chstatWord ((after (.fsAck 1 0x78563412) (start.setPort 1 { Port.reset with chst := .start })).port 1) = 0xA ∧
    answer (.fsAck 2 0x12345679) (start.setPort 2 { Port.reset with chst := .start }) = some (7, 0) := by decide +kernel
/-- 95 vector S6. -/
theorem test_fs_msg :
    chstatWord ((after (.fsMsg 1 1) (start.setPort 1 { Port.reset with chst := .intra, swap := true })).port 1) = 8 ∧
    (after (.fsMsg 1 1) (start.setPort 1 { Port.reset with chst := .intra, swap := true })).lastErr = 0x5207 := by
  decide +kernel
/-- 95 section 8.3: the planes of a 2 by 2 triplet. -/
theorem test_fs_send :
    ((after (.fsSend 1) (withGrid 0 [7] (withGrid 1 [1, 2, 3, 4] (withGrid 2 [5, 5, 5, 5]
      (State.setPort { start with gridW := 2, gridH := 2 } 1 { Port.reset with chst := .intra }))))).port 1) =
      { Port.reset with tout := [0x00070000, 0x0001E700, 0x0005A800], chst := .inter } := by decide +kernel
theorem test_fs_recv :
    answer (.fsRecv 1) (State.setPort { start with gridW := 2, gridH := 2 } 1
      { Port.reset with tin := [0x00070000, 0x0001E700, 0x0005A800], chst := .intra, role := .decoder }) =
      some (0, 3) ∧
    (fun s => (grid s 6 1, grid s 7 4, grid s 8 4)) (after (.fsRecv 1) (State.setPort { start with gridW := 2, gridH := 2 } 1
      { Port.reset with tin := [0x00070000, 0x0001E700, 0x0005A800], chst := .intra, role := .decoder })) =
      ([7], [1, 2, 3, 4], [5, 5, 5, 5]) := by decide +kernel
/-- 95 vector S11. -/
theorem test_fs_close :
    chstatWord ((after (.fsClose 2) (start.setPort 2
      { Port.reset with chst := .intra, role := .decoder, swap := true })).port 2) = 0xC := by decide +kernel
/-- 95 vectors E21, E22 and the identity. -/
theorem test_csr_rd :
    answer (.csrRd 0) start = some (0, 0x47434231) ∧ answer (.csrRd 0xA) start = some (2, 0) ∧
    answer (.csrRd 0x23) start = some (2, 0) := by decide +kernel
/-- 95 vectors E19, E20. -/
theorem test_csr_wr :
    answer (.csrWr 0 1) start = some (2, 0) ∧ answer (.csrWr 0x13 0) start = some (2, 0) ∧
    (after (.csrWr 2 0xFFFF) { start with lastErr := 0x1102 }).lastErr = 0 := by decide +kernel
/-- 95 vectors E23, E24. -/
theorem test_px_wr :
    answer (.pxWr 12 0 1) start = some (2, 0) ∧ answer (.pxWr 0 64 1) start = some (2, 0) ∧
    (after (.pxWr 11 63 9) start).pixel 11 63 = 9 := by decide +kernel
/-- 95 section 9.3, row 67. -/
theorem test_px_rd : answer (.pxRd 8 19) (start.setPixel 8 19 1500) = some (0, 0x5DC) := by decide +kernel
/-- 95 vector S8 and 45 R257: `RESET` clears `LAST_ERR`. -/
theorem test_reset :
    (after (.fsSend 0) start).lastErr = 0x5306 ∧ (after .reset (after (.fsSend 0) start)).lastErr = 0 := by decide +kernel

/-! ### One step of each stream symbol, at the cursor of a frame -/

/-- A cursor in a row of four pixels of buffer 0, with reference buffer 1. -/
def cursorAt (t : TableId) (pos : Nat) : Cursor where
  table := t
  op := 0x41
  port := 0
  dst := 0
  ref := 1
  width := 4
  count := 4
  pos := pos

/-- 42 R183, R188: the pixel to the left plus the error. -/
theorem test_direct0 :
    (after (.direct0 254) { withGrid 0 [100, 101] start with cursor := some (cursorAt .intra 2) }).pixel 0 2 = 99 := by
  decide +kernel
theorem test_esc0 :
    (after (.esc0 0x0101) { withGrid 0 [1000] start with cursor := some (cursorAt .intra 1) }).pixel 0 1 = 1257 := by
  decide +kernel
/-- 95 vectors X12 and X4. -/
theorem test_direct1 :
    (after (.direct1 257) { withGrid 1 [65535] start with cursor := some (cursorAt .inter 0) }).pixel 0 0 = 0 := by
  decide +kernel
theorem test_esc1 :
    (after (.esc1 0xfeff) { withGrid 1 [1000] start with cursor := some (cursorAt .inter 0) }).pixel 0 0 = 743 := by
  decide +kernel
theorem test_run :
    grid (after (.run 3) { withGrid 1 [5, 6, 7, 8] start with cursor := some (cursorAt .inter 1) }) 0 4 =
      grid (withGrid 1 [5, 6, 7, 8] start) 0 1 ++ [6, 7, 8] := by rfl

/-! ### The builder -/

/-- 95 vector B1. -/
theorem test_build :
    (build [5, 9, 12, 13, 16, 45]).map (fun tab => (tab.tree, tab.enc)) =
      some ([.node 1 2, .leaf 5, .node 3 6, .node 4 5, .leaf 2, .leaf 3, .node 7 10, .node 8 9, .leaf 0, .leaf 1, .leaf 4],
        [⟨12, 4⟩, ⟨13, 4⟩, ⟨4, 3⟩, ⟨5, 3⟩, ⟨7, 3⟩, ⟨0, 1⟩]) := by decide +kernel
/-- 95 vectors B3 (symbols not in numeric order) and B6. -/
theorem test_build_ties :
    buildTree [(7, 1), (3, 1), (9, 1)] = some (.node (.leaf 9) (.node (.leaf 7) (.leaf 3))) ∧
    buildTree [(0, 0), (1, 3), (2, 0), (3, 2)] =
      some (.node (.node (.node (.leaf 0) (.leaf 2)) (.leaf 3)) (.leaf 1)) := by decide +kernel

/-! ### The predictor -/

/-- 95 section 5.1: rows whose sum leaves the pixel range, and the ties. -/
theorem test_paeth :
    paeth 1 65535 0 = 65535 ∧ paeth 65535 65535 0 = 65535 ∧ paeth 0 0 65535 = 0 ∧ paeth 10 10 20 = 10 ∧
    paeth 4 1 2 = 4 ∧ paeth 0 3 1 = 3 ∧ paeth 6 2 4 = 4 ∧ paeth 65535 0 32768 = 32768 := by decide +kernel

/-! ### States for the witnesses: every table of `ready` is well-formed for its whole alphabet -/

/-- The complete tree of depth `d` over the symbols `lo`, `lo + 1`, ... -/
def balanced (lo : Nat) : Nat → CodeTree
  | 0 => .leaf lo
  | d + 1 => .node (balanced lo d) (balanced (lo + 2 ^ d) d)

theorem balanced_codes (lo d b l : Nat) : ((balanced lo d).codes b l).map (·.1) = List.range' lo (2 ^ d) := by
  induction d generalizing lo b l with
  | zero => rfl
  | succ d ih =>
    simp only [balanced, CodeTree.codes, List.map_append, ih]
    rw [Nat.pow_succ, Nat.mul_two, List.range'_append_1]

theorem balanced_depth (lo d : Nat) : (balanced lo d).depth = d := by
  induction d generalizing lo with
  | zero => rfl
  | succ d ih => simp [balanced, CodeTree.depth, ih]

/-- Symbol `s` below `2 ^ d` has the code `0` and then `s` in `d` bits. -/
def fullTree (d : Nat) : CodeTree := .node (balanced 0 d) (.node (.leaf (2 ^ d)) (.leaf (2 ^ d + 1)))

theorem fullTree_wf (d : Nat) (h2 : 2 ≤ d) (h : d ≤ 31) : TableWF ((fullTree d).toTable (2 ^ d + 2)) (2 ^ d + 2) := by
  refine (fullTree d).toTable_wf _ ?_ ?_
  · simp only [fullTree, CodeTree.codes, List.map_append, balanced_codes, List.map_cons, List.map_nil]
    rw [List.range_eq_range', ← List.range'_append_1]
    simp [List.range']
  · simp only [fullTree, CodeTree.depth, balanced_depth]; omega

/-- Three channels, 64 pixels a buffer, both tables valid: 514 symbols with codes of 10 bits but for the last two, 1026
with codes of 11 bits but for the last two. -/
def ready : State :=
  { State.reset with tab0 := loaded ((fullTree 9).toTable 514), tab1 := loaded ((fullTree 10).toTable 1026) }

theorem wf_intra : TableWF ((fullTree 9).toTable 514) 514 := fullTree_wf 9 (by decide) (by decide)

theorem wf_inter : TableWF ((fullTree 10).toTable 1026) 1026 := fullTree_wf 10 (by decide) (by decide)

theorem contents_loaded (tab : CodeTable) : (loaded tab).contents = tab := rfl

theorem ready_table (t : TableId) (s : State) (h : s.table t = ready.table t) : s.TableReady t := by
  unfold State.TableReady
  rw [h]
  cases t
  · refine ⟨rfl, ?_⟩
    show TableWF (loaded ((fullTree 9).toTable 514)).contents 514
    rw [contents_loaded]; exact wf_intra
  · refine ⟨rfl, ?_⟩
    show TableWF (loaded ((fullTree 10).toTable 1026)).contents 1026
    rw [contents_loaded]; exact wf_inter

/-- `ready` with port `c` as given, dimensions `w` by `h` for the codecs and the sequencer, and given pixels. -/
def demo (c : PortNo) (p : Port) (w h : Word) (pix : Cells 16) : State :=
  { ready.setPort c p with gridW := w, gridH := h, opW := w, opH := h, pix := pix }

theorem demo_port (c : PortNo) (p : Port) (w h : Word) (pix : Cells 16) : (demo c p w h pix).port c = p :=
  port_setPort_self ready c p

theorem demo_intra (c : PortNo) (p : Port) (w h : Word) (pix : Cells 16) :
    ((demo c p w h pix).table .intra).contents = (fullTree 9).toTable 514 := by
  show (loaded ((fullTree 9).toTable 514)).contents = _
  exact contents_loaded _

theorem demo_inter (c : PortNo) (p : Port) (w h : Word) (pix : Cells 16) :
    ((demo c p w h pix).table .inter).contents = (fullTree 10).toTable 1026 := by
  show (loaded ((fullTree 10).toTable 1026)).contents = _
  exact contents_loaded _

theorem demo_ready (t : TableId) (c : PortNo) (p : Port) (w h : Word) (pix : Cells 16) :
    (demo c p w h pix).TableReady t := ready_table t _ (by cases t <;> rfl)

theorem demo_inv {c : PortNo} {p : Port} (w h : Word) {pix : Cells 16} (hc : c.toNat < 3) (hp : p.Inv)
    (hwf : pix.wf = true) (hrange : ∀ entry ∈ pix, entry.1.1 < 12 ∧ entry.1.2 < 64) : (demo c p w h pix).Inv where
  legal := by
    have h : LegalConfig resetInstance := ⟨by decide, by decide, fun _ h => (by cases h), fun _ h => (by cases h)⟩
    exact h
  ports d := by
    by_cases hd : d = c
    · rw [hd, demo_port]; exact hp
    · have h1 : (demo c p w h pix).port d = ready.port d := port_setPort_ne ready p hd
      have h2 : ready.port d = Port.reset := Vector.getElem_replicate _
      rw [h1, h2]; exact Port.reset_inv
  absent d hd := by
    have h1 : (demo c p w h pix).port d = ready.port d := port_setPort_ne ready p (by rintro rfl; exact absurd hc (by
      exact Nat.not_lt.mpr hd))
    rw [h1]; exact Vector.getElem_replicate _
  pixelForm := hwf
  pixelRange := hrange
  freqForm := rfl
  freqRange := fun _ h => by cases h
  lengths t e he := by
    have hwf := (demo_ready t c p w h pix).2
    obtain ⟨i, hi, rfl⟩ := List.getElem_of_mem he
    have hi' : i < t.symbols := hwf.entries ▸ hi
    obtain ⟨e', path, j, hget, -, -, hlen, hle, -⟩ := hwf.code hi'
    have : (demo c p w h pix |>.table t).enc[i] = e' := by
      have := List.getElem?_eq_getElem hi
      exact Option.some.inj (this.symm.trans hget)
    rw [this]; omega
  tables t _ := (demo_ready t c p w h pix).2
  lastErr := ⟨Nat.two_pow_pos 16, Nat.zero_le 9⟩
  noCursor := rfl
  holder := fun _ h => by cases h

/-- Pixels of consecutive cells of one buffer. -/
def cells (b : Nat) (values : List Pixel) : Cells 16 := values.zipIdx.map fun p => ((b, p.2), p.1)

/-! ### Witnesses: the system commands and the bit streams -/

theorem witness_NopDoesNothing : opcodeOfWord 1 = 0 ∧ (1 : CmdWord) ≠ 0 := by decide

theorem witness_CsrReadReturnsTheRegister :
    State.reset.cfg.nCh ≤ 16 ∧ ((0 : BitVec 16).toNat, 0x47434231) ∈ csrValues State.reset ∧
    ((9 : BitVec 16).toNat, 0x12345678) ∈ csrValues State.reset ∧ ((0x12 : BitVec 16).toNat, 0) ∈ csrValues State.reset ∧
    ((0x32 : BitVec 16).toNat, 0) ∈ csrValues State.reset ∧
    (∀ v, ((0xA : BitVec 16).toNat, v) ∉ csrValues State.reset) ∧
    ∀ v, ((0x13 : BitVec 16).toNat, v) ∉ csrValues State.reset := by
  refine ⟨by decide, by decide +kernel, by decide +kernel, by decide +kernel, by decide +kernel, fun v h => ?_,
    fun v h => ?_⟩ <;>
  · refine absurd (List.mem_map_of_mem (f := Prod.fst) h) ?_
    simp only
    decide +kernel

theorem reset_isReset : IsReset State.reset where
  writers c := by rw [show State.reset.port c = Port.reset from Vector.getElem_replicate _]; exact ⟨rfl, rfl⟩
  readers c := by rw [show State.reset.port c = Port.reset from Vector.getElem_replicate _]; exact ⟨rfl, rfl⟩
  outputs c := by rw [show State.reset.port c = Port.reset from Vector.getElem_replicate _]; exact ⟨rfl, rfl⟩
  inputs c := by rw [show State.reset.port c = Port.reset from Vector.getElem_replicate _]; exact ⟨rfl, rfl⟩
  channels c := by rw [show State.reset.port c = Port.reset from Vector.getElem_replicate _]; exact ⟨rfl, rfl, rfl⟩
  builtIn0 := fun _ h => (by cases h)
  builtIn1 := fun _ h => (by cases h)
  noTable0 := fun _ => rfl
  noTable1 := fun _ => rfl
  cells := ⟨rfl, rfl⟩
  lastErr := rfl
  dims := ⟨rfl, rfl, rfl, rfl⟩
  magic := rfl

/-- A port with 32 pending and 31 fetched bits. -/
def busy : Port := { Port.reset with bwAcc := 0xFFFFFFFF, bwN := 32, brAcc := 0xFFFFFFFE, brN := 31, tin := [1, 2] }

theorem busy_inv : busy.Inv := ⟨by decide, by decide, by decide, by decide⟩

/-- The same port with a failed transport. -/
def stuck : Port := { busy with toutErr := true }

theorem stuck_inv : stuck.Inv := busy_inv.of_regs rfl rfl rfl rfl

theorem witness_StatusRegistersShowTheFlags :
    (2 : PortNo).toNat < State.reset.cfg.nCh ∧ (State.reset.port 2).Inv ∧ IsReset State.reset ∧
    (2 : PortNo).toNat < (demo 2 busy 0 0 []).cfg.nCh ∧ ((demo 2 busy 0 0 []).port 2).Inv :=
  ⟨by decide, Port.reset_inv, reset_isReset, by decide, by rw [demo_port]; exact busy_inv⟩

theorem witness_CsrWriteStoresOrIsRejected :
    (2 : BitVec 16).toNat ∈ [2, 3, 4, 5, 6, 9] ∧ (1 : BitVec 16).toNat ∉ [2, 3, 4, 5, 6, 9] ∧
    (7 : BitVec 16).toNat ∉ [2, 3, 4, 5, 6, 9] ∧ (10 : BitVec 16).toNat ∉ [2, 3, 4, 5, 6, 9] := by decide

theorem witness_PixelCommandsReachOneCell :
    ((11 : BitVec 8).toNat < 3 + 3 * State.reset.cfg.nCh ∧ (63 : Word).toNat < State.reset.cfg.maxPix) ∧
    3 + 3 * State.reset.cfg.nCh ≤ (12 : BitVec 8).toNat ∧ State.reset.cfg.maxPix ≤ (64 : Word).toNat := by decide

theorem witness_ResetRestoresEveryValue :
    opcodeOfWord 0x7F00000000000001 = 0x7F ∧ (0x7F00000000000001 : CmdWord) ≠ 0x7F00000000000000 := by decide

/-- Room for 32 bits, a split, and a split on a failed transport. -/
theorem witness_WriteAppendsTheLowBits :
    firstFailure ready (.bwWrite 3 0 0) = some .badArg ∧ firstFailure ready (.bwWrite 2 33 0) = some .badArg ∧
    (firstFailure ready (.bwWrite 2 32 0xFFFFFFFF) = none ∧ (ready.port 2).Inv ∧ (ready.port 2).toutErr = false ∧
      (ready.port 2).bwN + (32 : BitVec 16).toNat ≤ 32) ∧
    (firstFailure (demo 2 stuck 0 0 []) (.bwWrite 2 1 1) = none ∧
      ((demo 2 stuck 0 0 []).port 2).Inv ∧
      ((demo 2 stuck 0 0 []).port 2).toutErr = true ∧
      32 < ((demo 2 stuck 0 0 []).port 2).bwN + (1 : BitVec 16).toNat) :=
  ⟨by decide +kernel, by decide +kernel, ⟨by decide +kernel, Port.reset_inv, rfl, by decide⟩,
    by decide +kernel, by rw [demo_port]; exact stuck_inv, by decide +kernel, by decide +kernel⟩

theorem witness_FlushPadsToAWord :
    firstFailure ready (.bwFlush 3) = some .badArg ∧
    (firstFailure (demo 2 busy 0 0 []) (.bwFlush 2) = none ∧ ((demo 2 busy 0 0 []).port 2).Inv ∧
      ((demo 2 busy 0 0 []).port 2).toutErr = false) ∧
    (firstFailure (demo 2 stuck 0 0 []) (.bwFlush 2) = none ∧
      ((demo 2 stuck 0 0 []).port 2).Inv ∧
      ((demo 2 stuck 0 0 []).port 2).toutErr = true ∧
      ((demo 2 stuck 0 0 []).port 2).bwN ≠ 0) :=
  ⟨by decide +kernel, ⟨by decide +kernel, by rw [demo_port]; exact busy_inv, by decide +kernel⟩,
    by decide +kernel, by rw [demo_port]; exact stuck_inv, by decide +kernel, by decide +kernel⟩

theorem witness_ReadReturnsTheNextBits :
    firstFailure ready (.brRead 2 33) = some .badArg ∧
    (firstFailure (demo 2 busy 0 0 []) (.brRead 2 32) = none ∧ ((demo 2 busy 0 0 []).port 2).Inv ∧
      (32 : BitVec 16).toNat ≤ ((demo 2 busy 0 0 []).port 2).inBits.length) ∧
    (firstFailure ready (.brRead 2 1) = none ∧ (ready.port 2).Inv ∧ (ready.port 2).inBits.length < (1 : BitVec 16).toNat) :=
  ⟨by decide +kernel, ⟨by decide +kernel, by rw [demo_port]; exact busy_inv, by decide +kernel⟩,
    by decide +kernel, Port.reset_inv, by decide⟩

theorem witness_ReadBitIsAReadOfOneBit :
    firstFailure (demo 2 busy 0 0 []) (.brReadbit 2) = none ∧ ((demo 2 busy 0 0 []).port 2).Inv ∧
    ((demo 2 busy 0 0 []).port 2).inBits = true :: ((demo 2 busy 0 0 []).port 2).inBits.tail :=
  ⟨by decide +kernel, by rw [demo_port]; exact busy_inv, by decide +kernel⟩

theorem witness_AlignDropsTheHeldBits :
    firstFailure ready (.brAlign 15) = some .badArg ∧ firstFailure (demo 2 busy 0 0 []) (.brAlign 2) = none := by
  decide +kernel

/-- Raw bits of every extreme width, a symbol of each table, a flush in mid-stream; and for any words the reader's state. -/
theorem witness_WhatIsWrittenIsReadBack :
    ((2 : PortNo).toNat < ready.cfg.nCh ∧ (ready.port 2).Inv ∧ (ready.port 2).bwN = 0 ∧ (ready.port 2).toutErr = false ∧
      ∀ item ∈ [StreamItem.bits 32 7, .bits 0 7, .symbol 0 513, .flush, .symbol 1 1025], item.Legal ready) ∧
    ((StreamItem.bits 32 7).isBits = true ∧ (StreamItem.bits 0 7).isBits = true) ∧
    ∀ words rest : List Word, ∃ s' : State, (1 : PortNo).toNat < s'.cfg.nCh ∧ (s'.port 1).Inv ∧ (s'.port 1).brN = 0 ∧
      (s'.port 1).tin = words ++ rest ∧ ∀ tab, s'.table tab = ready.table tab := by
  refine ⟨⟨by decide, Port.reset_inv, rfl, rfl, fun item h => ?_⟩, by decide, fun words rest => ?_⟩
  · simp only [List.mem_cons, List.not_mem_nil, or_false] at h
    rcases h with rfl | rfl | rfl | rfl | rfl
    · exact (by decide : (32 : BitVec 16).toNat ≤ 32)
    · exact Nat.zero_le 32
    · exact ⟨.intra, rfl, by decide, ready_table .intra ready rfl⟩
    · exact trivial
    · exact ⟨.inter, rfl, by decide, ready_table .inter ready rfl⟩
  · refine ⟨ready.setPort 1 { Port.reset with tin := words ++ rest }, ?_, ?_, ?_, ?_, fun tab => by cases tab <;> rfl⟩
    · exact (by decide : 1 < 3)
    · rw [port_setPort_self]; exact Port.reset_inv.of_regs rfl rfl rfl rfl
    · rw [port_setPort_self]; rfl
    · rw [port_setPort_self]

theorem witness_TransportBytesAreMostSignificantFirst :
    ((demo 2 { busy with tout := [1, 0xDEADBEEF] } 0 0 []).port 2).tout[1]? = some 0xDEADBEEF ∧
    63 < 32 * ((demo 2 { busy with tout := [1, 0xDEADBEEF] } 0 0 []).port 2).tout.length := by decide +kernel

/-! ### Witnesses: the prefix codes -/

theorem witness_FrequencyWriteSetsOneCell :
    firstFailure ready (.fqWr 2 0 0) = some .badArg ∧ firstFailure ready (.fqWr 0 514 0) = some .badArg ∧
    firstFailure ready (.fqWr 1 1026 0) = some .badArg ∧
    (tableNumber .intra = (0 : BitVec 4).toNat ∧ (513 : BitVec 16).toNat < TableId.intra.symbols) ∧
    (tableNumber .inter = (1 : BitVec 4).toNat ∧ (1025 : BitVec 16).toNat < TableId.inter.symbols) := by decide +kernel

theorem witness_TreeFollowsTheExtractionOrder : [(7, 1), (3, 1), (9, 1)] ≠ ([] : List (Nat × Nat)) := by decide

theorem witness_ExportedTablesFollowTheTree :
    (fullTree 0).leafSymbols.Perm (List.range 3) ∧ (fullTree 0).depth ≤ 32 ∧
    (fullTree 0).subtree [true, false] = some (.leaf 1) ∧
    (fullTree 0).subtree [true] = some (.node (.leaf 1) (.leaf 2)) := by decide

theorem witness_BuiltTablesAreWellFormed :
    (∃ tab, build [5, 9, 12, 13, 16, 45] = some tab) ∧ TableWF ((fullTree 9).toTable 514) 514 ∧
    0 < 514 ∧ 513 < 514 ∧ 0 ≠ 513 :=
  ⟨Option.isSome_iff_exists.mp (by decide +kernel), wf_intra, by decide, by decide, by decide⟩

/-- The frequencies of table 0: `2 ^ (j / g)` for symbol `j`. -/
def graded (g : Nat) : State :=
  { ready with freq := (List.range' 0 514).map fun j => ((0, j), BitVec.ofNat 32 (2 ^ (j / g))) }

theorem get_graded (f : Nat → Word) (lo n x : Nat) (h : lo ≤ x) (hx : x < lo + n) :
    Cells.get ((List.range' lo n).map fun j => ((0, j), f j)) (0, x) = some (f x) := by
  induction n generalizing lo with
  | zero => omega
  | succ n ih =>
    simp only [List.range', List.map_cons, Cells.get]
    split
    · rename_i heq
      rw [(Prod.mk.inj heq).2]
    · rename_i hne
      exact ih (lo + 1) (by have : x ≠ lo := fun h => hne (by rw [h]); omega) (by omega)

theorem graded_pairs (g : Nat) (h : 17 ≤ g) :
    freqPairs (graded g) .intra = (List.range 514).map fun j => (j, 2 ^ (j / g)) := by
  refine List.map_congr_left fun j hj => ?_
  have hj : j < 514 := List.mem_range.mp hj
  have hlt : 2 ^ (j / g) < 2 ^ 32 := Nat.pow_lt_pow_right (by decide) (by
    rw [Nat.div_lt_iff_lt_mul (by omega)]; omega)
  rw [State.freqCell, show tableNumber .intra = 0 from rfl]
  rw [show (graded g).freq = (List.range' 0 514).map fun j => ((0, j), BitVec.ofNat 32 (2 ^ (j / g))) from rfl]
  rw [get_graded _ 0 514 j (Nat.zero_le j) (by omega), Option.getD_some, BitVec.toNat_ofNat, Nat.mod_eq_of_lt hlt]

/-- The longest codes of `graded 18` have exactly 32 bits. -/
theorem depth18 : ((buildTree ((List.range 514).map fun j => (j, 2 ^ (j / 18)))).map CodeTree.depth) = some 32 := by
  decide +kernel

/-- The longest codes of `graded 17` would have 34 bits. -/
theorem depth17 : ((buildTree ((List.range 514).map fun j => (j, 2 ^ (j / 17)))).map CodeTree.depth) = some 34 := by
  decide +kernel

theorem graded_tree (g depth : Nat) (h : 17 ≤ g)
    (hd : (buildTree ((List.range 514).map fun j => (j, 2 ^ (j / g)))).map CodeTree.depth = some depth) :
    ∃ tree, buildTree (freqPairs (graded g) .intra) = some tree ∧
      BuildsTree TableId.intra.symbols (leafNodes (freqPairs (graded g) .intra)) tree ∧ tree.depth = depth := by
  obtain ⟨tree, ht, hb⟩ := buildTree_builds (freqPairs (graded g) .intra) (by rw [graded_pairs g h]; simp)
  rw [graded_pairs g h] at *
  rw [ht] at hd
  refine ⟨tree, ht, ?_, Option.some.inj hd⟩
  rwa [List.length_map, List.length_range] at hb

theorem build_none {pairs : List (Nat × Nat)} {n : Nat} {f : Nat → Nat} {tree : CodeTree}
    (hp : pairs = (List.range n).map fun j => (j, f j)) (ht : buildTree pairs = some tree) (hd : 32 < tree.depth) :
    build (pairs.map Prod.snd) = none := by
  have hz : (List.range (pairs.map Prod.snd).length).zip (pairs.map Prod.snd) = pairs := by
    subst hp
    exact List.ext_getElem (by simp) fun i h1 h2 => by simp
  unfold build
  rw [hz, ht]
  exact if_pos hd

theorem witness_OnlyLongCodesFailToBuild :
    (∃ tree, buildTree ((List.range [1, 1].length).zip [1, 1]) = some tree) ∧
    ((List.range 33) ≠ [] ∧ (List.range 33).length ≤ 33) ∧
    tableNumber .intra = (0 : BitVec 4).toNat ∧ build ((freqPairs (graded 17) .intra).map Prod.snd) = none := by
  refine ⟨⟨.node (.leaf 0) (.leaf 1), by decide +kernel⟩, by decide, rfl, ?_⟩
  obtain ⟨tree, ht, -, hd⟩ := graded_tree 17 34 (by decide) depth17
  exact build_none (graded_pairs 17 (by decide)) ht (by omega)

theorem witness_BuildLoadsTheTable :
    firstFailure ready (.pcBuild 2) = some .badArg ∧
    (∃ tree, tableNumber .intra = (0 : BitVec 4).toNat ∧
      BuildsTree TableId.intra.symbols (leafNodes (freqPairs (graded 18) .intra)) tree ∧
      ∀ path sym, tree.subtree path = some (.leaf sym) → path.length ≤ 32) ∧
    ∃ tree, tableNumber .intra = (0 : BitVec 4).toNat ∧
      BuildsTree TableId.intra.symbols (leafNodes (freqPairs (graded 17) .intra)) tree ∧
      ∃ path sym, tree.subtree path = some (.leaf sym) ∧ 32 < path.length := by
  refine ⟨by decide +kernel, ?_, ?_⟩
  · obtain ⟨tree, -, hb, hd⟩ := graded_tree 18 32 (by decide) depth18
    exact ⟨tree, rfl, hb, fun path sym h => hd ▸ tree.subtree_length_le h⟩
  · obtain ⟨tree, -, hb, hd⟩ := graded_tree 17 34 (by decide) depth17
    obtain ⟨path, sym, h, hl⟩ := tree.exists_deepest
    exact ⟨tree, rfl, hb, path, sym, h, by omega⟩

/-- Every symbol of both tables of `ready` has a code of 1 to 32 bits. -/
theorem code_length {t : TableId} {s : State} {sym : Nat} (ht : s.TableReady t) (h : sym < t.symbols) :
    1 ≤ (symbolCode (s.table t).contents sym).length ∧ (symbolCode (s.table t).contents sym).length ≤ 32 := by
  have h2 : 2 ≤ t.symbols := by cases t <;> decide
  have hne := ht.2.code_ne_nil h2 h
  obtain ⟨e, path, i, -, -, -, -, hle, hcode⟩ := ht.2.code h
  exact ⟨List.length_pos_iff.mpr hne, by rw [hcode]; exact hle⟩

theorem full_port_overflows (s : State) (c : PortNo) (sym : BitVec 16) (ht : s.TableReady .inter)
    (h : sym.toNat < TableId.inter.symbols) (hn : (s.port c).bwN = 32) :
    32 < (s.port c).bwN + (symbolCode (s.table .inter).contents sym.toNat).length := by
  have := (code_length ht h).1
  omega

theorem witness_EncodeAppendsTheCode :
    firstFailure ready (.pcEncode 2 1 1026) = some .badArg ∧ firstFailure State.reset (.pcEncode 2 1 0) = some .noTable ∧
    (firstFailure ready (.pcEncode 2 0 513) = none ∧ tableNumber .intra = (0 : BitVec 4).toNat ∧
      ready.TableReady .intra ∧ (ready.port 2).Inv ∧ (ready.port 2).toutErr = false) ∧
    ∃ s : State, firstFailure s (.pcEncode 2 1 1025) = none ∧ tableNumber .inter = (1 : BitVec 4).toNat ∧
      s.TableReady .inter ∧ (s.port 2).Inv ∧ (s.port 2).toutErr = true ∧
      32 < (s.port 2).bwN + (symbolCode (s.table .inter).contents (1025 : BitVec 16).toNat).length := by
  refine ⟨by decide +kernel, by decide +kernel,
    ⟨by decide +kernel, rfl, ready_table .intra ready rfl, Port.reset_inv, rfl⟩,
    demo 2 stuck 0 0 [], by decide +kernel, rfl, demo_ready _ _ _ _ _ _, ?_, ?_, ?_⟩
  · rw [demo_port]; exact stuck_inv
  · rw [demo_port]; rfl
  · refine full_port_overflows _ 2 1025 (demo_ready _ _ _ _ _ _) (by decide) ?_
    rw [demo_port]; rfl

/-- The code of a symbol is the path to its leaf. -/
theorem code_eq {tab : CodeTable} {n i sym : Nat} {path : List Bool} (h : TableWF tab n)
    (hf : follow tab.tree 0 path = some i) (hl : tab.tree[i]? = some (Node.leaf sym)) : symbolCode tab sym = path := by
  obtain ⟨e, he, hlen, -, hbits⟩ := h.codes path i sym hf hl
  simp only [symbolCode, he]
  rw [hbits, hlen, bitsOf_natOfBits]

theorem code_intra_zero : symbolCode ((fullTree 9).toTable 514) 0 = List.replicate 10 false :=
  code_eq (i := 10) wf_intra (by decide +kernel) (by decide +kernel)

theorem code_inter_zero : symbolCode ((fullTree 10).toTable 1026) 0 = List.replicate 11 false :=
  code_eq (i := 11) wf_inter (by decide +kernel) (by decide +kernel)

/-- A port whose next 32 bits are zeros: code after code of symbol 0. -/
def zeros : Port := { Port.reset with tin := [0] }

theorem witness_DecodeReturnsTheNextSymbol :
    firstFailure ready (.pcDecode 2 2) = some .badArg ∧
    (firstFailure (demo 2 zeros 0 0 []) (.pcDecode 2 1) = none ∧ tableNumber .inter = (1 : BitVec 4).toNat ∧
      (demo 2 zeros 0 0 []).TableReady .inter ∧ ((demo 2 zeros 0 0 []).port 2).Inv ∧ 0 < TableId.inter.symbols ∧
      ((demo 2 zeros 0 0 []).port 2).inBits =
        symbolCode ((demo 2 zeros 0 0 []).table .inter).contents 0 ++ List.replicate 21 false) ∧
    (firstFailure ready (.pcDecode 2 0) = none ∧ tableNumber .intra = (0 : BitVec 4).toNat ∧ ready.TableReady .intra ∧
      (ready.port 2).Inv ∧ ∀ sym, sym < TableId.intra.symbols →
        ¬ symbolCode (ready.table .intra).contents sym <+: (ready.port 2).inBits) := by
  refine ⟨by decide +kernel, ⟨by decide +kernel, rfl, demo_ready _ _ _ _ _ _, ?_, by decide, ?_⟩,
    by decide +kernel, rfl, ready_table .intra ready rfl, Port.reset_inv, fun sym h hp => ?_⟩
  · rw [demo_port]; exact Port.reset_inv.of_regs rfl rfl rfl rfl
  · rw [demo_port, demo_inter, code_inter_zero]
    decide +kernel
  · have h1 := (code_length (t := .intra) (ready_table .intra ready rfl) h).1
    have h2 := hp.length_le
    have h3 : (ready.port 2).inBits.length = 0 := rfl
    omega

theorem entry_exists {s : State} {t : TableId} {sym : Nat} (h : s.TableReady t) (hs : sym < t.symbols) :
    ∃ entry, (s.table t).enc[sym]? = some entry ∧ entry.length ≤ 32 := by
  obtain ⟨e, path, i, hget, -, -, hlen, hle, -⟩ := h.2.code hs
  exact ⟨e, hget, by omega⟩

theorem witness_QueriesReturnTheEntry :
    firstFailure State.reset (.pcQbits 0 0) = some .noTable ∧ firstFailure ready (.pcQbits 1 1026) = some .badArg ∧
    firstFailure ready (.pcQbits 0 513) = none ∧ tableNumber .intra = (0 : BitVec 4).toNat ∧
    ∃ entry, (ready.table .intra).enc[(513 : BitVec 16).toNat]? = some entry ∧ entry.length ≤ 32 := by
  refine ⟨by decide +kernel, by decide +kernel, by decide +kernel, rfl, ?_⟩
  exact entry_exists (ready_table .intra ready rfl) (by decide)

/-! ### Witnesses: the codecs -/

theorem witness_ScanIsSerpentine : 2 < 3 ∧ 3 < 4 ∧ 0 < 4 ∧ 1 ≤ 2 ∧ 1 ≤ 1 := by decide

/-- A grid of width 2 whose row 0 is `b c` and whose pixel (1, 1) is `a`. -/
def corner (a b c : Pixel) (i : Nat) : Pixel := if i = 3 then a else if i = 0 then b else c

/-- 95 section 5.1: `(4, 1, 2)` goes to a, `(0, 3, 1)` to b, `(65535, 0, 32768)` to c. -/
theorem witness_PredictionFollowsTheScan :
    1 ≤ 1 ∧ 1 = (if 1 % 2 = 0 then 0 else 2 - 1) ∧ 0 < 2 ∧ 0 ≠ (if 1 % 2 = 0 then 0 else 2 - 1) ∧
    1 = (if 1 % 2 = 0 then 0 - 1 else 0 + 1) ∧
    (∀ a b c, a = corner a b c (1 * 2 + 1) ∧ b = corner a b c ((1 - 1) * 2 + 0) ∧ c = corner a b c ((1 - 1) * 2 + 1)) ∧
    (|(3 : Int) - (4 : Pixel).toNat| ≤ |(3 : Int) - (1 : Pixel).toNat| ∧
      |(3 : Int) - (4 : Pixel).toNat| ≤ |(3 : Int) - (2 : Pixel).toNat|) ∧
    (|(2 : Int) - (3 : Pixel).toNat| < |(2 : Int) - (0 : Pixel).toNat| ∧
      |(2 : Int) - (3 : Pixel).toNat| ≤ |(2 : Int) - (1 : Pixel).toNat|) ∧
    (|(32767 : Int) - (32768 : Pixel).toNat| < |(32767 : Int) - (65535 : Pixel).toNat| ∧
      |(32767 : Int) - (32768 : Pixel).toNat| < |(32767 : Int) - (0 : Pixel).toNat|) ∧
    0 < 1 ∧ (scan 2 1)[1]? = some (1, 0) ∧
    ∀ (r : Nat) (uv : Nat × Nat), r < 1 → (scan 2 1)[r]? = some uv →
      corner 0 5 0 (uv.2 * 2 + uv.1) = corner 0 5 1 (uv.2 * 2 + uv.1) := by
  refine ⟨by decide, by decide, by decide, by decide, by decide, fun a b c => ⟨rfl, rfl, rfl⟩, by decide, by decide,
    by decide, by decide, by decide, fun r uv hr h => ?_⟩
  obtain rfl : r = 0 := by omega
  rw [show (scan 2 1)[0]? = some (0, 0) from by decide] at h
  cases h
  rfl

/-- All 64 pixels of the last buffer; a failed transport; a bad buffer, no table and no dimensions. -/
theorem witness_IntraCompressEmitsTheFrame :
    firstFailure ready (.icCompress 2 12) = some .badArg ∧ firstFailure State.reset (.icCompress 2 11) = some .noTable ∧
    firstFailure ready (.icCompress 2 11) = some .badDim ∧
    (firstFailure (demo 2 busy 8 8 []) (.icCompress 2 11) = none ∧ (demo 2 busy 8 8 []).TableReady .intra ∧
      ((demo 2 busy 8 8 []).port 2).Inv ∧ ((demo 2 busy 8 8 []).port 2).toutErr = false) ∧
    firstFailure (demo 2 stuck 8 8 []) (.icCompress 2 11) = none ∧ (demo 2 stuck 8 8 []).TableReady .intra ∧
      ((demo 2 stuck 8 8 []).port 2).Inv ∧ ((demo 2 stuck 8 8 []).port 2).toutErr = true := by
  refine ⟨by decide +kernel, by decide +kernel, by decide +kernel, ⟨by decide +kernel, demo_ready _ _ _ _ _ _, ?_, ?_⟩,
    by decide +kernel, demo_ready _ _ _ _ _ _, ?_, ?_⟩ <;> rw [demo_port]
  · exact busy_inv
  · rfl
  · exact stuck_inv
  · rfl

theorem zeros_inv : zeros.Inv := Port.reset_inv.of_regs rfl rfl rfl rfl

theorem item_intra_zero : itemBits ((fullTree 9).toTable 514) (.direct0 0) = List.replicate 10 false := by
  rw [itemBits_eq (t := .intra) (sym := 0) wf_intra rfl (by decide), code_intra_zero]; rfl

theorem item_inter_zero : itemBits ((fullTree 10).toTable 1026) (.direct1 0) = List.replicate 11 false := by
  rw [itemBits_eq (t := .inter) (sym := 0) wf_inter rfl (by decide), code_inter_zero]; rfl

/-- Two pixels: the raw one and a direct symbol, 26 bits, and 6 bits left over. -/
theorem witness_IntraDecompressRebuildsTheGrid :
    firstFailure ready (.icDecompress 2 12) = some .badArg ∧
    firstFailure (demo 2 zeros 2 1 []) (.icDecompress 2 11) = none ∧ (demo 2 zeros 2 1 []).TableReady .intra ∧
    ((demo 2 zeros 2 1 []).port 2).Inv ∧ (∀ item ∈ [Instr.direct0 0], isIntraItem item = true) ∧
    [Instr.direct0 0].length + 1 = (demo 2 zeros 2 1 []).opW.toNat * (demo 2 zeros 2 1 []).opH.toNat ∧
    ((demo 2 zeros 2 1 []).port 2).inBits =
      intraBits ((demo 2 zeros 2 1 []).table .intra).contents 0 [.direct0 0] ++ List.replicate 6 false := by
  refine ⟨by decide +kernel, by decide +kernel, demo_ready _ _ _ _ _ _, by rw [demo_port]; exact zeros_inv, by decide,
    by decide +kernel, ?_⟩
  rw [demo_port, demo_intra, intraBits, itemsBits, List.flatMap_singleton, item_intra_zero]
  decide +kernel

theorem endsOk_of {s t : State} {data : Word} (h : t.rsp = some (responseWord .ok data)) (h1 : t.lastErr = s.lastErr)
    (h2 : t.holding = none) (h3 : t.cursor = none)
    (h4 : statusField (responseWord .ok data) = 0 ∧ reservedField (responseWord .ok data) = 0 ∧
      dataField (responseWord .ok data) = data) : EndsOk s t data :=
  ⟨⟨_, h, h4.1, h4.2.1, h4.2.2⟩, h1, h2, h3⟩

/-- A row of two equal pixels through the intra codec. -/
theorem witness_IntraRoundTrip : ∃ (s t s' : State) (data : Word) (words rest : List Word),
    (s.port 2).Inv ∧ (s.port 2).bwN = 0 ∧ s.TableReady .intra ∧ exec (.icCompress 2 0) s = .next t ∧ EndsOk s t data ∧
    (t.port 2).tout = (s.port 2).tout ++ words ∧ (s'.port 1).Inv ∧ (s'.port 1).brN = 0 ∧
    (s'.port 1).tin = words ++ rest ∧ s'.opW = s.opW ∧ s'.opH = s.opH ∧ s'.tab0 = s.tab0 ∧
    firstFailure s' (.icDecompress 1 11) = none := by
  refine ⟨demo 2 Port.reset 2 1 (cells 0 [7, 7]), after (.icCompress 2 0) (demo 2 Port.reset 2 1 (cells 0 [7, 7])),
    demo 1 { Port.reset with
      tin := ((after (.icCompress 2 0) (demo 2 Port.reset 2 1 (cells 0 [7, 7]))).port 2).tout ++ [0] } 2 1 [],
    1, ((after (.icCompress 2 0) (demo 2 Port.reset 2 1 (cells 0 [7, 7]))).port 2).tout, [0], ?_, ?_,
    demo_ready _ _ _ _ _ _, rfl, ?_, ?_, ?_, ?_, ?_, rfl, rfl, rfl, by decide +kernel⟩
  · rw [demo_port]; exact Port.reset_inv
  · rw [demo_port]; rfl
  · exact endsOk_of (by decide +kernel) (by decide +kernel) (by decide +kernel) (by decide +kernel) (by decide +kernel)
  · rw [demo_port]; exact (List.nil_append _).symm
  · rw [demo_port]; exact Port.reset_inv.of_regs rfl rfl rfl rfl
  · rw [demo_port]; rfl
  · rw [demo_port]

theorem witness_InterCompressEmitsTheFrame :
    firstFailure ready (.xcCompress 2 0 12) = some .badArg ∧ firstFailure ready (.xcCompress 2 12 0) = some .badArg ∧
    (firstFailure (demo 2 busy 64 1 []) (.xcCompress 2 11 10) = none ∧ (demo 2 busy 64 1 []).TableReady .inter ∧
      ((demo 2 busy 64 1 []).port 2).Inv ∧ ((demo 2 busy 64 1 []).port 2).toutErr = false) ∧
    firstFailure (demo 2 stuck 1 1 []) (.xcCompress 2 11 11) = none ∧ (demo 2 stuck 1 1 []).TableReady .inter ∧
      ((demo 2 stuck 1 1 []).port 2).Inv ∧ ((demo 2 stuck 1 1 []).port 2).toutErr = true := by
  refine ⟨by decide +kernel, by decide +kernel, ⟨by decide +kernel, demo_ready _ _ _ _ _ _, ?_, ?_⟩,
    by decide +kernel, demo_ready _ _ _ _ _ _, ?_, ?_⟩ <;> rw [demo_port]
  · exact busy_inv
  · rfl
  · exact stuck_inv
  · rfl

/-- The path to the leaf of `RUN(2)`, symbol 515: `0`, then 515 in 10 bits. -/
def pathRun2 : List Bool := [false, true, false, false, false, false, false, false, false, true, true]

theorem item_run2 : itemBits ((fullTree 10).toTable 1026) (.run 2) = pathRun2 := by
  rw [itemBits_eq (t := .inter) (sym := 515) wf_inter rfl (by decide)]
  obtain ⟨i, hf, hl⟩ : ∃ i, follow ((fullTree 10).toTable 1026).tree 0 pathRun2 = some i ∧
      ((fullTree 10).toTable 1026).tree[i]? = some (.leaf 515) := ⟨1038, by decide +kernel, by decide +kernel⟩
  rw [code_eq wf_inter hf hl]; rfl

/-- A port with the bits of `D(-256)` and `RUN(2)`, 22 bits, and 10 bits left over. -/
def overrun : Port := { Port.reset with tin := [0x00080C00] }

theorem overrun_inv : overrun.Inv := Port.reset_inv.of_regs rfl rfl rfl rfl

/-- Two direct symbols for two pixels, in place; a run of two where one pixel is left. -/
theorem witness_InterDecompressRebuildsTheGrid :
    firstFailure ready (.xcDecompress 2 12 0) = some .badArg ∧
    (firstFailure (demo 2 zeros 2 1 []) (.xcDecompress 2 11 11) = none ∧ (demo 2 zeros 2 1 []).TableReady .inter ∧
      ((demo 2 zeros 2 1 []).port 2).Inv ∧ (∀ item ∈ [Instr.direct1 0, .direct1 0], isInterItem item = true) ∧
      (interRebuilt ((demo 2 zeros 2 1 []).pixel 11) 0 [.direct1 0, .direct1 0]).length =
        (demo 2 zeros 2 1 []).opW.toNat * (demo 2 zeros 2 1 []).opH.toNat ∧
      ((demo 2 zeros 2 1 []).port 2).inBits =
        itemsBits ((demo 2 zeros 2 1 []).table .inter).contents [.direct1 0, .direct1 0] ++ List.replicate 10 false) ∧
    (firstFailure (demo 2 overrun 2 1 []) (.xcDecompress 2 11 11) = none ∧ (demo 2 overrun 2 1 []).TableReady .inter ∧
      ((demo 2 overrun 2 1 []).port 2).Inv ∧ (∀ item ∈ [Instr.direct1 0], isInterItem item = true) ∧
      1 ≤ (2 : BitVec 10).toNat ∧ (2 : BitVec 10).toNat ≤ 512 ∧
      (interRebuilt ((demo 2 overrun 2 1 []).pixel 11) 0 [.direct1 0]).length <
        (demo 2 overrun 2 1 []).opW.toNat * (demo 2 overrun 2 1 []).opH.toNat ∧
      (demo 2 overrun 2 1 []).opW.toNat * (demo 2 overrun 2 1 []).opH.toNat <
        (interRebuilt ((demo 2 overrun 2 1 []).pixel 11) 0 [.direct1 0]).length + (2 : BitVec 10).toNat ∧
      ((demo 2 overrun 2 1 []).port 2).inBits =
        itemsBits ((demo 2 overrun 2 1 []).table .inter).contents ([.direct1 0] ++ [.run 2]) ++
          List.replicate 10 false) := by
  refine ⟨by decide +kernel, ⟨by decide +kernel, demo_ready _ _ _ _ _ _, by rw [demo_port]; exact zeros_inv, by decide,
    by decide +kernel, ?_⟩, by decide +kernel, demo_ready _ _ _ _ _ _, by rw [demo_port]; exact overrun_inv, by decide,
    by decide, by decide, by decide +kernel, by decide +kernel, ?_⟩
  · rw [demo_port, demo_inter, itemsBits, List.flatMap_cons, List.flatMap_singleton, item_inter_zero]
    decide +kernel
  · rw [demo_port, demo_inter, itemsBits, List.singleton_append, List.flatMap_cons, List.flatMap_singleton,
      item_inter_zero, item_run2]
    decide +kernel

/-- A pixel that changes by 1 and one that stays, through the inter codec, in place at the reader. -/
theorem witness_InterRoundTrip : ∃ (s t s' : State) (data : Word) (words rest : List Word),
    (s.port 2).Inv ∧ (s.port 2).bwN = 0 ∧ s.TableReady .inter ∧ exec (.xcCompress 2 0 1) s = .next t ∧ EndsOk s t data ∧
    (t.port 2).tout = (s.port 2).tout ++ words ∧ (s'.port 1).Inv ∧ (s'.port 1).brN = 0 ∧
    (s'.port 1).tin = words ++ rest ∧ s'.opW.toNat * s'.opH.toNat = s.opW.toNat * s.opH.toNat ∧ s'.tab1 = s.tab1 ∧
    (∀ i, i < s.opW.toNat * s.opH.toNat → s'.pixel (3 : BitVec 8).toNat i = s.pixel (1 : BitVec 8).toNat i) ∧
    firstFailure s' (.xcDecompress 1 3 3) = none := by
  refine ⟨demo 2 Port.reset 2 1 (cells 0 [8, 9] ++ cells 1 [7, 9]),
    after (.xcCompress 2 0 1) (demo 2 Port.reset 2 1 (cells 0 [8, 9] ++ cells 1 [7, 9])),
    demo 1 { Port.reset with
      tin := ((after (.xcCompress 2 0 1) (demo 2 Port.reset 2 1 (cells 0 [8, 9] ++ cells 1 [7, 9]))).port 2).tout ++ [] }
      1 2 (cells 3 [7, 9]),
    1, ((after (.xcCompress 2 0 1) (demo 2 Port.reset 2 1 (cells 0 [8, 9] ++ cells 1 [7, 9]))).port 2).tout, [], ?_, ?_,
    demo_ready _ _ _ _ _ _, rfl, ?_, ?_, ?_, ?_, ?_, by decide +kernel, rfl, fun i hi => ?_, by decide +kernel⟩
  · rw [demo_port]; exact Port.reset_inv
  · rw [demo_port]; rfl
  · exact endsOk_of (by decide +kernel) (by decide +kernel) (by decide +kernel) (by decide +kernel) (by decide +kernel)
  · rw [demo_port]; exact (List.nil_append _).symm
  · rw [demo_port]; exact Port.reset_inv.of_regs rfl rfl rfl rfl
  · rw [demo_port]; rfl
  · rw [demo_port]
  · have hi : i < 2 := hi
    match i, hi with
    | 0, _ => decide +kernel
    | 1, _ => decide +kernel

/-- 513 zero deltas: the cap, and a run after it. -/
theorem witness_InterItemsHaveTheCanonicalShape :
    (interItems 0 (List.replicate 513 0))[0]? = some (.run 512) ∧
    (interItems 0 (List.replicate 513 0))[0 + 1]? = some (.run 1) ∧
    deltas (fun _ => 5) (fun _ => 5) 513 = List.replicate 513 0 ∧
    errorItem .inter 257 = .esc1 257 ∧ errorItem .inter 257 ∈ interItems 0 (deltas (fun _ => 257) (fun _ => 0) 1) := by
  decide +kernel

theorem item_ne_nil {s : State} {t : TableId} {i : Instr} {sym : Nat} (ht : s.TableReady t)
    (hi : symbolOf i = some (t, sym)) (hs : sym < t.symbols) : ¬ itemBits (s.table t).contents i <+: [] := by
  intro h
  have h1 := (code_length ht hs).1
  have h2 := h.length_le
  rw [itemBits_eq ht.2 hi hs, List.length_append, List.length_nil] at h2
  omega

/-- A port whose input has ended. -/
def ended : Port := { Port.reset with tinEos := true }

/-- A port with one raw pixel and nothing more. -/
def rawOnly : Port := { Port.reset with brAcc := 0xBEEF0000, brN := 16 }

theorem rawOnly_inv : rawOnly.Inv := ⟨by decide, by decide, by decide, by decide⟩

theorem no_intra_item {s : State} (h : s.TableReady .intra) (item : Instr) (hi : isIntraItem item = true) :
    ¬ itemBits (s.table .intra).contents item <+: [] := by
  cases item with
  | direct0 sym => exact item_ne_nil h rfl (Nat.lt_of_le_of_lt (of_decide_eq_true hi) (by decide))
  | esc0 raw => exact item_ne_nil h rfl (by decide)
  | _ => cases hi

theorem no_inter_item {s : State} (h : s.TableReady .inter) (item : Instr) (hi : isInterItem item = true) :
    ¬ itemBits (s.table .inter).contents item <+: [] := by
  cases item with
  | direct1 sym => exact item_ne_nil h rfl (Nat.lt_of_le_of_lt (of_decide_eq_true hi) (by decide))
  | esc1 raw => exact item_ne_nil h rfl (by decide)
  | run len =>
    have := of_decide_eq_true (Bool.and_eq_true_iff.mp hi).2
    exact item_ne_nil h rfl (Nat.lt_of_le_of_lt (Nat.add_le_add_left this _) (by decide))
  | _ => cases hi

/-- No bit at all for one pixel; the raw first pixel of two; 1 by 1 grids with no bit and with 15 bits of the raw pixel. -/
theorem witness_DecompressorsStopWhereTheInputStops :
    (firstFailure (demo 2 ended 1 1 []) (.xcDecompress 2 11 0) = none ∧ (demo 2 ended 1 1 []).TableReady .inter ∧
      ((demo 2 ended 1 1 []).port 2).Inv ∧ ((demo 2 ended 1 1 []).port 2).tinEos = true ∧
      InterStops ((demo 2 ended 1 1 []).table .inter).contents ((demo 2 ended 1 1 []).pixel 0)
        ((demo 2 ended 1 1 []).opW.toNat * (demo 2 ended 1 1 []).opH.toNat) ((demo 2 ended 1 1 []).port 2).inBits []) ∧
    (firstFailure (demo 2 rawOnly 2 1 []) (.icDecompress 2 11) = none ∧ (demo 2 rawOnly 2 1 []).TableReady .intra ∧
      ((demo 2 rawOnly 2 1 []).port 2).Inv ∧ ((demo 2 rawOnly 2 1 []).port 2).tinEos = false ∧
      IntraStops ((demo 2 rawOnly 2 1 []).table .intra).contents
        ((demo 2 rawOnly 2 1 []).opW.toNat * (demo 2 rawOnly 2 1 []).opH.toNat) ((demo 2 rawOnly 2 1 []).port 2).inBits
        (some (0xBEEF, []))) ∧
    ∀ p ∈ [ended, { rawOnly with brN := 15, brAcc := 0xBEEE0000 }], p.Inv ∧
      firstFailure (demo 2 p 1 1 []) (.icDecompress 2 11) = none ∧ (demo 2 p 1 1 []).TableReady .intra ∧
      IntraStops ((demo 2 p 1 1 []).table .intra).contents
        ((demo 2 p 1 1 []).opW.toNat * (demo 2 p 1 1 []).opH.toNat) ((demo 2 p 1 1 []).port 2).inBits none := by
  refine ⟨⟨by decide +kernel, demo_ready _ _ _ _ _ _, ?_, ?_, by decide, by decide +kernel, [], ?_,
      no_inter_item (demo_ready _ _ _ _ _ _)⟩,
    ⟨by decide +kernel, demo_ready _ _ _ _ _ _, ?_, ?_, by decide, by decide +kernel, [], ?_,
      no_intra_item (demo_ready _ _ _ _ _ _)⟩, fun p hp => ⟨?_, ?_, demo_ready _ _ _ _ _ _, ?_⟩⟩
  · rw [demo_port]; exact Port.reset_inv.of_regs rfl rfl rfl rfl
  · rw [demo_port]; rfl
  · rw [demo_port]; rfl
  · rw [demo_port]; exact rawOnly_inv
  · rw [demo_port]; rfl
  · rw [demo_port, intraBits, itemsBits]; decide +kernel
  · fin_cases hp
    · exact Port.reset_inv.of_regs rfl rfl rfl rfl
    · exact ⟨by decide, by decide, by decide, by decide⟩
  · fin_cases hp <;> decide +kernel
  · show List.length _ < 16
    rw [demo_port]
    fin_cases hp <;> decide

/-- The last pixel of an intra frame; a run that ends an inter frame exactly. -/
theorem witness_SymbolsActAtTheCursor :
    (∃ s : State, s.cursor = some (cursorAt .intra 3) ∧ (cursorAt .intra 3).table = .intra ∧
      0 < (cursorAt .intra 3).pos ∧ (cursorAt .intra 3).pos < (cursorAt .intra 3).count ∧
      isIntraItem (.direct0 512) = true ∧ isIntraItem (.esc0 0x8000) = true) ∧
    ∃ s : State, s.cursor = some (cursorAt .inter 1) ∧ (cursorAt .inter 1).table = .inter ∧
      (cursorAt .inter 1).pos < (cursorAt .inter 1).count ∧ isInterItem (.run 3) = true ∧
      isInterItem (.direct1 512) = true ∧ isInterItem (.esc1 0) = true ∧
      (cursorAt .inter 1).pos + (interPixels (s.pixel 1) 1 (.run 3)).length ≤ (cursorAt .inter 1).count :=
  ⟨⟨{ start with cursor := some (cursorAt .intra 3) }, rfl, rfl, by decide, by decide, by decide, by decide⟩,
    { start with cursor := some (cursorAt .inter 1) }, rfl, rfl, by decide, by decide, by decide, by decide, by decide⟩

/-- No cursor; a complete frame; the raw pixel; numbers outside their class; a run one pixel too long, for a codec
command and for `FS_RECV`. -/
theorem witness_SymbolsStopOutsideAFrame :
    (symbolOf (.direct0 0) = some (.intra, 0) ∧ start.cursor = none) ∧
    (cursorAt .inter 4).count ≤ (cursorAt .inter 4).pos ∧ (cursorAt .intra 0).pos = 0 ∧
    (symbolOf (.direct0 513) = some (.intra, 513) ∧ (Instr.direct0 513).wf = false ∧ symbolOf (.run 0) = some (.inter, 513) ∧
      (Instr.run 0).wf = false ∧ (cursorAt .intra 1).table = .intra ∧ (cursorAt .inter 1).table = .inter ∧
      (cursorAt .inter 1).pos < (cursorAt .inter 1).count ∧ 0 < (cursorAt .inter 1).pos) ∧
    ({ start with cursor := some (cursorAt .inter 2) } : State).cursor = some (cursorAt .inter 2) ∧
    1 ≤ (3 : BitVec 10).toNat ∧ (3 : BitVec 10).toNat ≤ 512 ∧
    (cursorAt .inter 2).count < (cursorAt .inter 2).pos + (3 : BitVec 10).toNat ∧
    ({ cursorAt .inter 2 with op := 0x54 } : Cursor).op = 0x54 := by decide +kernel

theorem witness_DecompressorsExecuteTheirSymbols :
    ∃ (s : State) (cu : Cursor) (rest : List Bool), s.cursor = some cu ∧ cu.pos < cu.count ∧
      (cu.table = .intra → 0 < cu.pos) ∧ symbolOf (.direct1 0) = some (cu.table, 0) ∧ (Instr.direct1 0).wf = true ∧
      (∀ len, Instr.direct1 0 = .run len → cu.pos + len.toNat ≤ cu.count) ∧ s.TableReady cu.table ∧
      (s.port cu.port).Inv ∧ (s.port cu.port).inBits = itemBits (s.table cu.table).contents (.direct1 0) ++ rest := by
  refine ⟨{ demo 0 zeros 4 1 [] with cursor := some (cursorAt .inter 3) }, cursorAt .inter 3, List.replicate 21 false, rfl,
    by decide, fun h => (by cases h), rfl, rfl, fun len h => (by cases h), ready_table .inter _ rfl, ?_, ?_⟩
  · show ((demo 0 zeros 4 1 []).port 0).Inv
    rw [demo_port]; exact zeros_inv
  · show ((demo 0 zeros 4 1 []).port 0).inBits = itemBits ((demo 0 zeros 4 1 []).table .inter).contents (.direct1 0) ++ _
    rw [demo_port, demo_inter, item_inter_zero]
    decide +kernel

/-! ### Witnesses: the frame sequencer -/

/-- An encoder channel in a given state; with a failed transport or not. -/
def encoder (st : ChState) (failed : Bool) : Port := { Port.reset with chst := st, toutErr := failed }

theorem encoder_inv (st : ChState) (failed : Bool) : (encoder st failed).Inv :=
  Port.reset_inv.of_regs rfl rfl rfl rfl

/-- A decoder channel in a given state with given input. -/
def decoder (st : ChState) (tin : List Word) : Port := { Port.reset with chst := st, role := .decoder, tin := tin }

theorem decoder_inv (st : ChState) (tin : List Word) : (decoder st tin).Inv := Port.reset_inv.of_regs rfl rfl rfl rfl

theorem witness_OpenStartsAChannel :
    firstFailure ready (.fsOpen 3 0) = some .badArg ∧
    firstFailure (demo 2 (encoder .inter false) 0 0 []) (.fsOpen 2 1) = some .badState ∧
    (2 : PortNo).toNat < ready.cfg.nCh ∧ (ready.port 2).chst = .closed := by decide +kernel

theorem witness_AcknowledgeComparesTheMagic :
    firstFailure ready (.fsAck 3 0) = some .badArg ∧ firstFailure ready (.fsAck 2 0) = some .badState ∧
    (2 : PortNo).toNat < (demo 2 (encoder .start false) 0 0 []).cfg.nCh ∧
    ((demo 2 (encoder .start false) 0 0 []).port 2).chst = .start ∧
    (0x78563412 : Word) = ready.magic.extractLsb' 0 8 ++ ready.magic.extractLsb' 8 8 ++ ready.magic.extractLsb' 16 8 ++
      ready.magic.extractLsb' 24 8 ∧
    (0x12345678 : Word) = ready.magic ∧ (0x78563412 : Word) ≠ ready.magic ∧
    ((0x12345679 : Word) ≠ ready.magic ∧ (0x12345679 : Word) ≠ 0x78563412) := by decide +kernel

theorem witness_MessageTokensOtherThanZeroClose :
    firstFailure ready (.fsMsg 3 0) = some .badArg ∧ firstFailure ready (.fsMsg 2 0) = some .badState ∧
    (2 : PortNo).toNat < (demo 2 (encoder .inter false) 0 0 []).cfg.nCh ∧
    ((demo 2 (encoder .inter false) 0 0 []).port 2).role = .encoder ∧
    ((demo 2 (encoder .inter false) 0 0 []).port 2).chst = .inter ∧ (0 : BitVec 16) = 0 ∧ (1 : BitVec 16) ≠ 0 := by
  decide +kernel

/-- The smallest grid; each state of a channel that sends; a failed transport. -/
theorem witness_SendEmitsATriplet :
    firstFailure ready (.fsSend 2) = some .badState ∧
    firstFailure (demo 2 (encoder .intra false) 2 1 []) (.fsSend 2) = some .badDim ∧
    (firstFailure (demo 2 (encoder .start false) 0 0 []) (.fsSend 2) = none ∧
      ((demo 2 (encoder .start false) 0 0 []).port 2).chst = .start) ∧
    (firstFailure (demo 2 (encoder .intra false) 2 2 []) (.fsSend 2) = none ∧
      ((demo 2 (encoder .intra false) 2 2 []).port 2).Inv ∧ ((demo 2 (encoder .intra false) 2 2 []).port 2).chst = .intra ∧
      (demo 2 (encoder .intra false) 2 2 []).TableReady .intra ∧
      ((demo 2 (encoder .intra false) 2 2 []).port 2).toutErr = false) ∧
    firstFailure (demo 2 (encoder .inter true) 32 2 []) (.fsSend 2) = none ∧
    ((demo 2 (encoder .inter true) 32 2 []).port 2).Inv ∧ ((demo 2 (encoder .inter true) 32 2 []).port 2).chst = .inter ∧
    (demo 2 (encoder .inter true) 32 2 []).TableReady .inter ∧
    ((demo 2 (encoder .inter true) 32 2 []).port 2).toutErr = true := by
  refine ⟨by decide +kernel, by decide +kernel, by decide +kernel,
    ⟨by decide +kernel, ?_, by decide +kernel, demo_ready _ _ _ _ _ _, by decide +kernel⟩,
    by decide +kernel, ?_, by decide +kernel, demo_ready _ _ _ _ _ _, by decide +kernel⟩ <;> rw [demo_port]
  · exact encoder_inv .intra false
  · exact encoder_inv .inter true

/-- A decoder channel with five words of zeros. -/
def zeroStream (st : ChState) : State := demo 2 (decoder st [0, 0, 0, 0, 0]) 2 2 []

/-- Planes of 1, 4 and 4 pixels: each frame with its padding is 1, 2 and 2 words of zeros, 160 bits. -/
theorem witness_ReceiveRebuildsATriplet :
    firstFailure ready (.fsRecv 2) = some .badState ∧
    (∃ (items : Nat → List Instr) (frame rest : Nat → List Bool),
      firstFailure (zeroStream .intra) (.fsRecv 2) = none ∧ ((zeroStream .intra).port 2).Inv ∧
      ((zeroStream .intra).port 2).inBits = frame 0 ++ rest 0 ∧ afterAlign (rest 0) = frame 1 ++ rest 1 ∧
      afterAlign (rest 1) = frame 2 ++ rest 2 ∧ ((zeroStream .intra).port 2).chst = .intra ∧
      (zeroStream .intra).TableReady .intra ∧ ∀ k, k < 3 →
        (∀ item ∈ items k, isIntraItem item = true) ∧
        (items k).length + 1 = planeW (zeroStream .intra) k * planeH (zeroStream .intra) k ∧
        frame k = intraBits ((zeroStream .intra).table .intra).contents 0 (items k)) ∧
    ∃ (items : Nat → List Instr) (frame rest : Nat → List Bool),
      firstFailure (zeroStream .inter) (.fsRecv 2) = none ∧ ((zeroStream .inter).port 2).Inv ∧
      ((zeroStream .inter).port 2).inBits = frame 0 ++ rest 0 ∧ afterAlign (rest 0) = frame 1 ++ rest 1 ∧
      afterAlign (rest 1) = frame 2 ++ rest 2 ∧ ((zeroStream .inter).port 2).chst = .inter ∧
      (zeroStream .inter).TableReady .inter ∧ ∀ k, k < 3 →
        (∀ item ∈ items k, isInterItem item = true) ∧
        (interRebuilt ((zeroStream .inter).pixel (refOf 2 k)) 0 (items k)).length =
          planeW (zeroStream .inter) k * planeH (zeroStream .inter) k ∧
        frame k = itemsBits ((zeroStream .inter).table .inter).contents (items k) := by
  refine ⟨by decide +kernel,
    ⟨fun k => if k = 0 then [] else [.direct0 0, .direct0 0, .direct0 0],
      fun k => List.replicate (if k = 0 then 16 else 46) false,
      fun k => List.replicate (if k = 0 then 144 else if k = 1 then 82 else 18) false, by decide +kernel, ?_,
      by decide +kernel, by decide +kernel, by decide +kernel, by decide +kernel, demo_ready _ _ _ _ _ _, fun k hk => ?_⟩,
    ⟨fun k => if k = 0 then [.direct1 0] else [.direct1 0, .direct1 0, .direct1 0, .direct1 0],
      fun k => List.replicate (if k = 0 then 11 else 44) false,
      fun k => List.replicate (if k = 0 then 149 else if k = 1 then 84 else 20) false, by decide +kernel, ?_,
      by decide +kernel, by decide +kernel, by decide +kernel, by decide +kernel, demo_ready _ _ _ _ _ _, fun k hk => ?_⟩⟩
  · unfold zeroStream; rw [demo_port]; exact decoder_inv _ _
  · rw [zeroStream, demo_intra, intraBits]
    match k, hk with
    | 0, _ => exact ⟨by decide, by decide +kernel, by decide⟩
    | 1, _ | 2, _ =>
      refine ⟨by decide, by decide +kernel, ?_⟩
      show _ = _ ++ itemsBits _ [.direct0 0, .direct0 0, .direct0 0]
      rw [itemsBits]; simp only [List.flatMap_cons, List.flatMap_nil, item_intra_zero]
      decide
  · unfold zeroStream; rw [demo_port]; exact decoder_inv _ _
  · rw [zeroStream, demo_inter]
    match k, hk with
    | 0, _ =>
      refine ⟨by decide, by decide +kernel, ?_⟩
      show _ = itemsBits _ [.direct1 0]
      rw [itemsBits]; simp only [List.flatMap_cons, List.flatMap_nil, item_inter_zero]
      decide
    | 1, _ | 2, _ =>
      refine ⟨by decide, by decide +kernel, ?_⟩
      show _ = itemsBits _ [.direct1 0, .direct1 0, .direct1 0, .direct1 0]
      rw [itemsBits]; simp only [List.flatMap_cons, List.flatMap_nil, item_inter_zero]
      decide

/-- What the statements about a triplet that fails in plane `k` assume of the command, and of the planes before `k`. -/
def UpToPlane (st : ChState) (tab : TableId) (s : State) (k : Nat) (bits : List Bool) (plane : Nat → List Bool → List Bool → Prop) :
    Prop :=
  ∃ input rest : Nat → List Bool, firstFailure s (.fsRecv 2) = none ∧ (s.port 2).Inv ∧ (s.port 2).chst = st ∧
    s.TableReady tab ∧ k < 3 ∧ input 0 = (s.port 2).inBits ∧
    (∀ j, j < k → plane j (input j) (rest j) ∧ input (j + 1) = afterAlign (rest j)) ∧ input k = bits

/-- `UpToPlane` for a first triplet with given items, every raw first pixel 0. -/
def FirstUpTo (s : State) (k : Nat) (bits : List Bool) (items : Nat → List Instr) : Prop :=
  UpToPlane .intra .intra s k bits fun j input rest => (∀ item ∈ items j, isIntraItem item = true) ∧
    (items j).length + 1 = planeW s j * planeH s j ∧ input = intraBits (s.table .intra).contents 0 (items j) ++ rest

/-- `UpToPlane` for a later triplet with given items. -/
def LaterUpTo (s : State) (k : Nat) (bits : List Bool) (items : Nat → List Instr) : Prop :=
  UpToPlane .inter .inter s k bits fun j input rest => (∀ item ∈ items j, isInterItem item = true) ∧
    (interRebuilt (s.pixel (refOf 2 j)) 0 (items j)).length = planeW s j * planeH s j ∧
    input = itemsBits (s.table .inter).contents (items j) ++ rest

/-- In plane 0 nothing comes before. -/
theorem upToPlane_zero {st : ChState} {tab : TableId} {p : Port} {w h : Word} {plane : Nat → List Bool → List Bool → Prop}
    (hf : firstFailure (demo 2 p w h []) (.fsRecv 2) = none) (hp : p.Inv) (hst : p.chst = st) :
    UpToPlane st tab (demo 2 p w h []) 0 p.inBits plane :=
  ⟨fun _ => p.inBits, fun _ => [], hf, by rw [demo_port]; exact hp, by rw [demo_port]; exact hst, demo_ready _ _ _ _ _ _,
    by decide, by rw [demo_port], fun _ h => absurd h (Nat.not_lt_zero _), rfl⟩

/-- A decoder channel with given held bits and no word. -/
def held (st : ChState) (acc : Word) (n : Nat) : Port := { decoder st [] with brAcc := acc, brN := n }

/-- A first triplet that stops in plane 0, before its raw pixel, inside it and after an item; and in plane 2, at the end of
the input. -/
theorem witness_FirstTripletStopsWhereTheInputStops :
    (∀ p ∈ [held .intra 0 0, held .intra 0xBEEE0000 15], FirstUpTo (demo 2 p 2 2 []) 0 p.inBits (fun _ => []) ∧
      IntraStops ((demo 2 p 2 2 []).table .intra).contents
        (planeW (demo 2 p 2 2 []) 0 * planeH (demo 2 p 2 2 []) 0) p.inBits none ∧ p.tinEos = false) ∧
    (∀ p ∈ [held .intra 0xBEEF0000 26], FirstUpTo (demo 2 p 4 2 []) 0 p.inBits (fun _ => []) ∧
      IntraStops ((demo 2 p 4 2 []).table .intra).contents
        (planeW (demo 2 p 4 2 []) 0 * planeH (demo 2 p 4 2 []) 0) p.inBits (some (0xBEEF, [.direct0 0]))) ∧
    ∀ p ∈ [{ decoder .intra [0, 0, 0] with tinEos := true }],
      FirstUpTo (demo 2 p 2 2 []) 2 [] (fun j => if j = 0 then [] else [.direct0 0, .direct0 0, .direct0 0]) ∧
      IntraStops ((demo 2 p 2 2 []).table .intra).contents
        (planeW (demo 2 p 2 2 []) 2 * planeH (demo 2 p 2 2 []) 2) [] none ∧ p.tinEos = true := by
  refine ⟨fun p hp => ?_, fun p hp => ?_, fun p hp => ?_⟩
  · fin_cases hp
    · exact ⟨upToPlane_zero (by decide +kernel) (decoder_inv _ _) rfl, by show List.length _ < 16; decide, rfl⟩
    · exact ⟨upToPlane_zero (by decide +kernel) ⟨by decide, by decide, by decide, by decide⟩ rfl,
        by show List.length _ < 16; decide, rfl⟩
  · obtain rfl := List.mem_singleton.mp hp
    refine ⟨upToPlane_zero (by decide +kernel) ⟨by decide, by decide, by decide, by decide⟩ rfl, by decide,
      by decide +kernel, [], ?_, no_intra_item (demo_ready _ _ _ _ _ _)⟩
    rw [demo_intra, intraBits, itemsBits, List.flatMap_singleton, item_intra_zero]; decide +kernel
  · obtain rfl := List.mem_singleton.mp hp
    refine ⟨⟨fun k => List.replicate (if k = 0 then 96 else if k = 1 then 64 else 0) false,
      fun k => List.replicate (if k = 0 then 80 else 18) false, by decide +kernel, ?_, by decide +kernel,
      demo_ready _ _ _ _ _ _, by decide, by decide +kernel, fun j hj => ?_, rfl⟩, by show List.length _ < 16; decide, rfl⟩
    · rw [demo_port]; exact Port.reset_inv.of_regs rfl rfl rfl rfl
    · simp only [demo_intra, intraBits]
      match j, hj with
      | 0, _ => exact ⟨⟨by decide, by decide +kernel, by decide +kernel⟩, by decide +kernel⟩
      | 1, _ =>
        refine ⟨⟨by decide, by decide +kernel, ?_⟩, by decide +kernel⟩
        show _ = _ ++ itemsBits _ [.direct0 0, .direct0 0, .direct0 0] ++ _
        rw [itemsBits]; simp only [List.flatMap_cons, List.flatMap_nil, item_intra_zero]
        decide +kernel

/-- Planes 0 and 1 of a smallest later triplet, all zeros, then the words `more`. -/
theorem twoPlanes_upTo (more : List Word) (eos : Bool) :
    LaterUpTo (demo 2 { decoder .inter (0 :: 0 :: 0 :: more) with tinEos := eos } 2 2 []) 2 (more.flatMap wordBits)
      (fun j => if j = 0 then [.direct1 0] else [.direct1 0, .direct1 0, .direct1 0, .direct1 0]) := by
  have hdrop : ∀ n, n < 96 → afterAlign (List.replicate n false ++ more.flatMap wordBits) =
      List.replicate (n - n % 32) false ++ more.flatMap wordBits := by
    intro n hn
    rw [afterAlign, List.length_append, List.length_replicate, length_flatMap_wordBits, Nat.add_mul_mod_self_left,
      List.drop_append_of_le_length (by rw [List.length_replicate]; exact Nat.mod_le _ _), List.drop_replicate]
  refine ⟨fun k => List.replicate (if k = 0 then 96 else if k = 1 then 64 else 0) false ++ more.flatMap wordBits,
    fun k => List.replicate (if k = 0 then 85 else 20) false ++ more.flatMap wordBits, rfl, ?_, ?_,
    demo_ready _ _ _ _ _ _, by decide, ?_, fun j hj => ?_, rfl⟩
  · rw [demo_port]; exact Port.reset_inv.of_regs rfl rfl rfl rfl
  · rw [demo_port]; rfl
  · rw [demo_port]; rfl
  · rw [demo_inter]
    match j, hj with
    | 0, _ =>
      refine ⟨⟨by decide, rfl, ?_⟩, (hdrop 85 (by decide)).symm⟩
      show _ = itemsBits _ [.direct1 0] ++ _
      rw [itemsBits, List.flatMap_singleton, item_inter_zero, ← List.append_assoc]
      rfl
    | 1, _ =>
      refine ⟨⟨by decide, rfl, ?_⟩, (hdrop 20 (by decide)).symm⟩
      show _ = itemsBits _ [.direct1 0, .direct1 0, .direct1 0, .direct1 0] ++ _
      rw [itemsBits]; simp only [List.flatMap_cons, List.flatMap_nil, item_inter_zero]
      rw [← List.append_assoc]
      rfl

/-- Two words: `RUN(2)`, `D(-256)`, `RUN(2)`, 33 bits, and 31 bits left over. -/
def overrunWords : List Word := [0x40600101, 0x80000000]

/-- A later triplet that stops in plane 0 after an item, and in plane 2 at the end of the input; a run that passes the end
in plane 0 (the shape of 95 section 8.3), and in plane 2 after three of four pixels. -/
theorem witness_LaterTripletStopsWhereItFails :
    (∀ p ∈ [held .inter 0 11], LaterUpTo (demo 2 p 3 2 []) 0 p.inBits (fun _ => []) ∧
      InterStops ((demo 2 p 3 2 []).table .inter).contents ((demo 2 p 3 2 []).pixel (refOf 2 0))
        (planeW (demo 2 p 3 2 []) 0 * planeH (demo 2 p 3 2 []) 0) p.inBits [.direct1 0] ∧ p.tinEos = false) ∧
    (∀ p ∈ [{ decoder .inter [0, 0, 0] with tinEos := true }], (∃ items, LaterUpTo (demo 2 p 2 2 []) 2 [] items) ∧
      InterStops ((demo 2 p 2 2 []).table .inter).contents ((demo 2 p 2 2 []).pixel (refOf 2 2))
        (planeW (demo 2 p 2 2 []) 2 * planeH (demo 2 p 2 2 []) 2) [] [] ∧ p.tinEos = true) ∧
    (∀ p ∈ [decoder .inter [0x00080C00, 7]], LaterUpTo (demo 2 p 3 2 []) 0 p.inBits (fun _ => []) ∧
      InterOverruns ((demo 2 p 3 2 []).table .inter).contents ((demo 2 p 3 2 []).pixel (refOf 2 0))
        (planeW (demo 2 p 3 2 []) 0 * planeH (demo 2 p 3 2 []) 0) p.inBits [.direct1 0]
        (List.replicate 10 false ++ wordBits 7)) ∧
    ∀ p ∈ [decoder .inter (0 :: 0 :: 0 :: overrunWords)],
      (∃ items, LaterUpTo (demo 2 p 2 2 []) 2 (overrunWords.flatMap wordBits) items) ∧
      InterOverruns ((demo 2 p 2 2 []).table .inter).contents ((demo 2 p 2 2 []).pixel (refOf 2 2))
        (planeW (demo 2 p 2 2 []) 2 * planeH (demo 2 p 2 2 []) 2) (overrunWords.flatMap wordBits)
        [.run 2, .direct1 0] (List.replicate 31 false) := by
  refine ⟨fun p hp => ?_, fun p hp => ?_, fun p hp => ?_, fun p hp => ?_⟩ <;> obtain rfl := List.mem_singleton.mp hp
  · refine ⟨upToPlane_zero (by decide +kernel) ⟨by decide, by decide, by decide, by decide⟩ rfl,
      ⟨by decide, by decide +kernel, [], ?_, no_inter_item (demo_ready _ _ _ _ _ _)⟩, rfl⟩
    rw [demo_inter, itemsBits, List.flatMap_singleton, item_inter_zero]; decide +kernel
  · exact ⟨⟨_, twoPlanes_upTo [] true⟩,
      ⟨by decide, by decide +kernel, [], rfl, no_inter_item (demo_ready _ _ _ _ _ _)⟩, rfl⟩
  · refine ⟨upToPlane_zero (by decide +kernel) (decoder_inv _ _) rfl, by decide, by decide +kernel, 2, by decide, by decide,
      by decide +kernel, ?_⟩
    rw [demo_inter, itemsBits, List.singleton_append, List.flatMap_cons, List.flatMap_singleton, item_inter_zero, item_run2]
    decide +kernel
  · refine ⟨⟨_, twoPlanes_upTo overrunWords false⟩, by decide, by decide +kernel, 2, by decide, by decide, by decide +kernel,
      ?_⟩
    show _ = itemsBits _ [.run 2, .direct1 0, .run 2] ++ _
    rw [demo_inter, itemsBits]
    simp only [List.flatMap_cons, List.flatMap_nil, item_inter_zero, item_run2]
    decide +kernel

theorem witness_CloseEmptiesTheRegisters :
    firstFailure ready (.fsClose 3) = some .badArg ∧ (2 : PortNo).toNat < ready.cfg.nCh := by decide +kernel

/-- The planes of a smallest triplet, in the `CUR` buffers, and as the references of channel `c`. -/
def planes (first : Nat) : Cells 16 :=
  cells first [7] ++ cells (first + 1) [5, 5, 5, 5] ++ cells (first + 2) [6, 6, 6, 6]

/-- The sender, in `INTRA` or `INTER`, with the current planes also as the references of channel 2. -/
def sender (st : ChState) : State := demo 2 (encoder st false) 2 2 (planes 0 ++ planes 9)

/-- The reader with given input, with the same references on channel 1. -/
def receiver (st : ChState) (tin : List Word) : State := demo 1 (decoder st tin) 2 2 (planes 6)

theorem same_references : ∀ k, k < 3 → ∀ x, x < (if k = 0 then 1 else 4) →
    (receiver .intra []).pixel (refOf 1 k) x = (sender .intra).pixel (refOf 2 k) x := by decide +kernel

theorem witness_TripletRoundTrip (st : ChState) (h : st = .intra ∨ st = .inter) :
    ∃ (s t s' : State) (data : Word) (words rest : List Word),
    (s.port 2).Inv ∧ (s.port 2).bwN = 0 ∧
    ((s.port 2).chst = .intra ∧ s.TableReady .intra ∨ (s.port 2).chst = .inter ∧ s.TableReady .inter) ∧
    exec (.fsSend 2) s = .next t ∧ EndsOk s t data ∧ (t.port 2).tout = (s.port 2).tout ++ words ∧
    (s'.port 1).Inv ∧ (s'.port 1).brN = 0 ∧ (s'.port 1).tin = words ++ rest ∧ (s'.port 1).chst = (s.port 2).chst ∧
    s'.gridW = s.gridW ∧ s'.gridH = s.gridH ∧ (∀ tab, s'.table tab = s.table tab) ∧
    ((s.port 2).chst = .inter → ∀ k x, k < 3 → x < planeW s k * planeH s k →
      s'.pixel (refOf 1 k) x = s.pixel (refOf 2 k) x) ∧
    firstFailure s' (.fsRecv 1) = none := by
  have hport : (sender st).port 2 = encoder st false := demo_port _ _ _ _ _
  have hsend : exec (.fsSend 2) (sender st) = .next (after (.fsSend 2) (sender st)) := rfl
  generalize hwords : ((after (.fsSend 2) (sender st)).port 2).tout = words
  have hrecv : (receiver st (words ++ [0])).port 1 = decoder st (words ++ [0]) := demo_port _ _ _ _ _
  refine ⟨sender st, after (.fsSend 2) (sender st), receiver st (words ++ [0]), if st = .intra then 5 else 3, words, [0],
    ?_, ?_, ?_, hsend, ?_, ?_, ?_, ?_, ?_, ?_, rfl, rfl, fun tab => by cases tab <;> rfl, fun _ k x hk hx => ?_, ?_⟩
  · rw [hport]; exact encoder_inv _ _
  · rw [hport]; rfl
  · rw [hport]; exact h.imp (fun h => ⟨h, demo_ready _ _ _ _ _ _⟩) fun h => ⟨h, demo_ready _ _ _ _ _ _⟩
  · rcases h with rfl | rfl <;>
    exact endsOk_of (by decide +kernel) (by decide +kernel) (by decide +kernel) (by decide +kernel) (by decide +kernel)
  · rw [hport, hwords]; exact (List.nil_append _).symm
  · rw [hrecv]; exact decoder_inv _ _
  · rw [hrecv]; rfl
  · rw [hrecv]; rfl
  · rw [hport, hrecv]; rfl
  · exact same_references k hk x (by
      match k, hk with
      | 0, _ => exact hx
      | 1, _ => exact hx
      | 2, _ => exact hx)
  · rw [show firstFailure (receiver st (words ++ [0])) (.fsRecv 1) = firstFailure (receiver st []) (.fsRecv 1) from rfl]
    rcases h with rfl | rfl <;> decide +kernel

/-! ### Witnesses: the rules about every command, the encoding, the step, the invariant -/

theorem ready_inv : ready.Inv := by
  have h := demo_inv (c := 0) 0 0 (pix := []) (by decide) Port.reset_inv rfl fun _ h => (by cases h)
  have he : demo 0 Port.reset 0 0 [] = ready := by
    rw [demo, ← show ready.port 0 = Port.reset from rfl, setPort_port]; rfl
  rwa [he] at h

theorem witness_ChecksComeFirst :
    (Instr.bwWrite 2 33 0).isCommand = true ∧ ready.cfg.nCh ≤ 16 ∧
    firstFailure ready (.bwWrite 2 33 0) = some .badArg ∧ ready.Inv ∧ firstFailure ready (.bwWrite 2 32 0) = none ∧
    exec (.bwWrite 2 32 0) ready = .next (after (.bwWrite 2 32 0) ready) ∧ Status.badArg ∈ [Status.badArg, .badState, .noTable, .badDim] :=
  ⟨rfl, by decide, by decide +kernel, ready_inv, by decide +kernel, rfl, by decide⟩

theorem witness_CommandsEndWithTheirStatuses : (Instr.brRead 2 1).isCommand = true ∧ ready.Inv := ⟨rfl, ready_inv⟩

theorem answers_of {t : State} {e : Status} {data : Word} (h : t.rsp = some (responseWord e data))
    (h4 : statusField (responseWord e data) = e.code ∧ reservedField (responseWord e data) = 0 ∧
      dataField (responseWord e data) = data) : t.Answers e data := ⟨_, h, h4.1, h4.2.1, h4.2.2⟩

/-- A read at the end of the input, an unknown token, a run past the end of plane 0. -/
theorem witness_FailuresKillOnlyTheirPort :
    (portOf (.brRead 2 1) = some 2 ∧ (demo 2 ended 0 0 []).Inv ∧
      exec (.brRead 2 1) (demo 2 ended 0 0 []) = .next (after (.brRead 2 1) (demo 2 ended 0 0 [])) ∧
      (after (.brRead 2 1) (demo 2 ended 0 0 [])).Answers .transport 0) ∧
    (portOf (.fsMsg 2 1) = some 2 ∧ (demo 2 (encoder .intra false) 0 0 []).Inv ∧
      (after (.fsMsg 2 1) (demo 2 (encoder .intra false) 0 0 [])).Answers .protocol 0) ∧
    (portOf (.fsRecv 2) = some 2 ∧ (demo 2 (decoder .inter [0x40600000]) 2 2 []).Inv ∧
      (after (.fsRecv 2) (demo 2 (decoder .inter [0x40600000]) 2 2 [])).Answers .runOverrun 0) :=
  ⟨⟨rfl, demo_inv _ _ (by decide) (Port.reset_inv.of_regs rfl rfl rfl rfl) rfl fun _ h => (by cases h), rfl,
      answers_of (by decide +kernel) (by decide +kernel)⟩,
    ⟨rfl, demo_inv _ _ (by decide) (encoder_inv _ _) rfl fun _ h => (by cases h),
      answers_of (by decide +kernel) (by decide +kernel)⟩,
    rfl, demo_inv _ _ (by decide) (decoder_inv _ _) rfl fun _ h => (by cases h),
      answers_of (by decide +kernel) (by decide +kernel)⟩

theorem witness_PortsAreIsolated :
    portOf (.fsSend 2) = some 2 ∧ (1 : PortNo) ≠ 2 ∧
    exec (.fsSend 2) (sender .intra) = .next (after (.fsSend 2) (sender .intra)) := ⟨rfl, by decide, rfl⟩

theorem witness_TransportsKeepTheirOrder :
    (Instr.bwFlush 2).isCommand = true ∧ (demo 2 busy 0 0 []).Inv ∧
    exec (.bwFlush 2) (demo 2 busy 0 0 []) = .next (after (.bwFlush 2) (demo 2 busy 0 0 [])) ∧
    Instr.bwFlush 2 ≠ .reset ∧ ∀ role, Instr.bwFlush 2 ≠ .fsOpen 2 role :=
  ⟨rfl, demo_inv _ _ (by decide) busy_inv rfl fun _ h => (by cases h), rfl, by decide, fun _ h => by cases h⟩

theorem sender_inv : (sender .intra).Inv := demo_inv _ _ (by decide) (encoder_inv _ _) (by decide) (by decide)

theorem witness_ChannelsMoveForwardOrClose :
    (Instr.fsSend 2).isCommand = true ∧ (sender .intra).Inv ∧
    exec (.fsSend 2) (sender .intra) = .next (after (.fsSend 2) (sender .intra)) ∧
    ((sender .intra).port 2).chst = .intra ∧ ((after (.fsSend 2) (sender .intra)).port 2).chst = .inter :=
  ⟨rfl, sender_inv, rfl, by decide +kernel, by decide +kernel⟩

theorem witness_LastErrRecordsTheLastError :
    (ready.Inv ∧ exec .nop ready = .next (after .nop ready) ∧ (after .nop ready).Answers .ok 0 ∧ Instr.nop ≠ .reset ∧
      ∀ value, Instr.nop ≠ .csrWr 2 value) ∧
    ((after .reset ready).Answers .ok 0 ∧ (after (.csrWr 2 7) ready).Answers .ok 0) ∧
    (after (.bwWrite 2 33 0) ready).Answers .badArg 0 ∧
    decode 0xFF00000000000000 = none ∧ ∃ t, issue 0xFF00000000000000 ready = .next t :=
  ⟨⟨ready_inv, rfl, answers_of (by decide +kernel) (by decide +kernel), by decide, fun _ h => by cases h⟩,
    ⟨answers_of (by decide +kernel) (by decide +kernel), answers_of (by decide +kernel) (by decide +kernel)⟩,
    answers_of (by decide +kernel) (by decide +kernel), by decide, _, rfl⟩

theorem witness_OnlyTheNamedCommandsChangeState :
    (Instr.pxWr 0 63 1).isCommand = true ∧ ready.Inv ∧ exec (.pxWr 0 63 1) ready = .next (after (.pxWr 0 63 1) ready) ∧
    Instr.pxWr 0 63 1 ≠ .reset ∧ (∀ n : BitVec 4, n.toNat = tableNumber .intra → Instr.pxWr 0 63 1 ≠ .pcBuild n) ∧
    (∀ n sym f, Instr.pxWr 0 63 1 ≠ .fqWr n sym f) ∧ (∀ addr value, Instr.pxWr 0 63 1 ≠ .csrWr addr value) ∧
    ¬ mayWrite ready 0 62 (.pxWr 0 63 1) :=
  ⟨rfl, ready_inv, rfl, by decide, fun _ _ h => (by cases h), fun _ _ _ h => (by cases h), fun _ _ h => (by cases h), by
    simp [mayWrite]⟩

theorem witness_HoldsWaitForTheHost :
    (exec (.brRead 2 1) ready = .next (after (.brRead 2 1) ready) ∧
      (after (.brRead 2 1) ready).holding = some (.brRead 2 1)) ∧
    (∀ host ∈ [[], [HostAct.command 0], [.inputWord 2 5], [.inputEnd 2], [.outputError 2], [.inputWord 3 5],
      [.inputEnd 15], [.outputError 3]],
      ({ ready with holding := some (.brRead 2 1), host := host } : State).holding = some (.brRead 2 1)) ∧
    (2 : PortNo).toNat < ready.cfg.nCh ∧ ready.cfg.nCh ≤ (3 : PortNo).toNat ∧ ready.cfg.nCh ≤ (15 : PortNo).toNat :=
  ⟨⟨rfl, rfl⟩, fun _ _ => rfl, by decide, by decide, by decide⟩

theorem witness_CommandWordsRoundTrip :
    (Instr.pxWr 255 0xFFFFFFFF 0xFFFF).isCommand = true ∧
    decode 0x62FFFFFFFFFFFFFF = some (.pxWr 255 0xFFFFFFFF 0xFFFF) := by decide

theorem witness_WordsMatchTheOpcodeTable :
    decode 0x2201020200000000 = some (.pcEncode 0 1 514) ∧
    ("PC_ENCODE", 0x2200000000000000, 0xff000000ffffffff) ∈ opcodeRows ∧ decode 0x0300000000000000 = none := by decide

theorem witness_StreamSymbolsRoundTrip :
    TableWF ((fullTree 10).toTable 1026) TableId.inter.symbols ∧
    (symbolOf (.run 2) = some (.inter, 515) ∧ (Instr.run 2).wf = true) ∧
    decodeItem .inter ((fullTree 10).toTable 1026) pathRun2 = some (.run 2, []) ∧ 48 ≤ (List.replicate 48 true).length :=
  ⟨wf_inter, ⟨rfl, by decide⟩, by decide +kernel, by decide⟩

theorem witness_StepExecutesTheCommandWord :
    (decode 0x6200000100000000 = some (.pxWr 0 0 1) ∧ decode 0xFF00000000000000 = none) ∧
    (∀ host ∈ [[], [HostAct.command 0x6200000100000000], [.command 0xFF00000000000000], [.inputWord 2 5], [.inputEnd 2],
      [.outputError 2], [.inputWord 3 5], [.inputEnd 15], [.outputError 3]],
      ({ ready with host := host } : State).holding = none) ∧
    (2 : PortNo).toNat < ready.cfg.nCh ∧ ready.cfg.nCh ≤ (3 : PortNo).toNat ∧ ready.cfg.nCh ≤ (15 : PortNo).toNat :=
  ⟨by decide, fun _ _ => rfl, by decide, by decide, by decide⟩

theorem witness_EveryStepKeepsTheInvariant : ready.Inv ∧ step ready = .next ready := ⟨ready_inv, rfl⟩

theorem legal_with {tab : CodeTable} (h : TableWF tab TableId.intra.symbols) :
    LegalConfig ⟨16, 2 ^ 32 - 1, some tab, none⟩ :=
  ⟨(by decide : 1 ≤ 16 ∧ 16 ≤ 16), (by decide : 1 ≤ 2 ^ 32 - 1 ∧ 2 ^ 32 - 1 < 2 ^ 32),
    fun _ h' => Option.some.inj h' ▸ h, fun _ h => by cases h⟩

/-- The smallest and the largest legal instance. -/
theorem witness_ResetSatisfiesTheInvariant :
    LegalConfig ⟨1, 1, none, none⟩ ∧ LegalConfig ⟨16, 2 ^ 32 - 1, some ((fullTree 9).toTable 514), none⟩ :=
  ⟨⟨by decide, by decide, fun _ h => (by cases h), fun _ h => (by cases h)⟩, legal_with wf_intra⟩

/-- `withFetchWord` presents a word that the very next step executes (log 1). -/
theorem test_fetch : step (State.reset.withFetchWord 64 0x6200000900000005) = exec (.pxWr 0 5 9) State.reset := by rfl

end Sys2Proof.Tests
end

section
/-! SUPPORT. The invariant of a state (10 R22 to R42, 20 R66, 41 R152): one rule for each update of the state, and that what
the builder makes is well-formed. -/

namespace Sys2Proof.Machine

variable {c : PortNo} {s t : State}

/-! ### Tables from the builder (41 R152, R154) -/

theorem CodeTree.map_fst_codes (T : CodeTree) (bits length : Nat) :
    (T.codes bits length).map (·.1) = T.leafSymbols := by
  induction T generalizing bits length with
  | leaf sym => rfl
  | node x y hx hy => simp [CodeTree.codes, CodeTree.leafSymbols, hx, hy]

/-- A merge keeps the symbols on the leaves, so the tree has those of the nodes it was built from. -/
theorem BuildsTree.leafSymbols_perm {next : Nat} {q : List QNode} {tree : CodeTree} (h : BuildsTree next q tree) :
    tree.leafSymbols.Perm (q.flatMap fun z => z.tree.leafSymbols) := by
  induction h with
  | root next z => simp
  | merge next q x y tree hx hy _ ih =>
    have hq : q.Perm (x :: y :: (q.erase x).erase y) :=
      (List.perm_cons_erase hx.1).trans ((List.perm_cons_erase hy.1).cons x)
    have hsyms := hq.flatMap_right fun z => z.tree.leafSymbols
    refine ih.trans ?_
    simpa [CodeTree.leafSymbols] using hsyms.symm

theorem leafNodes_symbols (pairs : List (Nat × Nat)) :
    ((leafNodes pairs).flatMap fun z => z.tree.leafSymbols) = pairs.map Prod.fst := by
  have hsingle : ((leafNodes pairs).flatMap fun z => z.tree.leafSymbols) = pairs.zipIdx.map fun p => p.1.1 := by
    rw [leafNodes, List.flatMap_map, ← List.flatMap_pure_eq_map]
    rfl
  rw [hsingle]
  conv_rhs => rw [← List.zipIdx_map_fst 0 pairs, List.map_map]
  rfl

/-- What the builder makes is well-formed for the symbols it was given frequencies of. -/
theorem build_wf {freqs : List Nat} {tab : CodeTable} (h : build freqs = some tab) : TableWF tab freqs.length := by
  unfold build at h
  split at h
  · rename_i tree htree
    split at h
    · cases h
    · rename_i hdepth
      cases h
      have hne : (List.range freqs.length).zip freqs ≠ [] := by
        intro hnil
        rw [hnil] at htree
        cases htree
      obtain ⟨tree', htree', hbuilds⟩ := buildTree_builds _ hne
      obtain rfl : tree = tree' := Option.some.inj (htree.symm.trans htree')
      refine tree.toTable_wf _ ?_ (Nat.le_of_not_lt hdepth)
      have hperm := hbuilds.leafSymbols_perm
      rw [leafNodes_symbols, List.map_fst_zip (by simp)] at hperm
      rwa [CodeTree.map_fst_codes]
  · cases h

/-- The codes of a well-formed table have at most 32 bits (10 R36). -/
theorem TableWF.length_le {tab : CodeTable} {n : Nat} (h : TableWF tab n) {e : CodeEntry} (he : e ∈ tab.enc) :
    e.length ≤ 32 := by
  obtain ⟨sym, hsym, rfl⟩ := List.getElem_of_mem he
  obtain ⟨e', path, -, hget, -, -, hlen, hle, -⟩ := h.code (h.entries ▸ hsym)
  obtain rfl : tab.enc[sym] = e' := Option.some.inj ((List.getElem?_eq_getElem hsym).symm.trans hget)
  omega

/-! ### The invariant inside a command, one rule for each update -/

/-- The invariant, whatever cursor stands in the state and whatever command holds. -/
def State.InvInside (s : State) : Prop := ({ s with cursor := none, holding := none } : State).Inv

theorem State.Inv.inside (h : s.Inv) : s.InvInside :=
  { h with noCursor := rfl, holder := fun _ hi => by cases hi }

theorem table_inside (s : State) (tab : TableId) :
    ({ s with cursor := none, holding := none } : State).table tab = s.table tab := by cases tab <;> rfl

/-- A command starts with both tables fit for the writer (10 R36). -/
theorem State.InvInside.codesFit (h : s.InvInside) : CodesFit s := fun tab => table_inside s tab ▸ h.lengths tab

/-- The cell `x` of buffer `b` exists (10 R34, 20 R66). -/
def CellExists (s : State) (b x : Nat) : Prop := b < bufferCount s.cfg ∧ x < s.cfg.maxPix

theorem port_ne_of_absent {d : PortNo} (hc : portOk s c = true) (hd : s.cfg.nCh ≤ d.toNat) : d ≠ c := by
  rintro rfl
  exact absurd (of_decide_eq_true hc) (Nat.not_lt.mpr hd)

theorem State.InvInside.setPort {p : Port} (h : s.InvInside) (hc : portOk s c = true) (hp : p.Inv) :
    (s.setPort c p).InvInside :=
  { h with
    ports := fun d => by
      show ((s.setPort c p).port d).Inv
      by_cases hd : d = c
      · rw [hd, port_setPort_self]; exact hp
      · rw [port_setPort_ne s p hd]; exact h.ports d
    absent := fun d hd => (port_setPort_ne s p (port_ne_of_absent hc hd)).trans (h.absent d hd) }

theorem Moves.cfg {B : Nat → Nat → Prop} (m : Moves c B s t) : t.cfg = s.cfg := by rw [m.rest]; rfl
theorem Moves.freq {B : Nat → Nat → Prop} (m : Moves c B s t) : t.freq = s.freq := by rw [m.rest]; rfl
theorem Moves.lastErr {B : Nat → Nat → Prop} (m : Moves c B s t) : t.lastErr = s.lastErr := by rw [m.rest]; rfl

/-- What moves only a port that exists and pixels that exist keeps the invariant. -/
theorem State.InvInside.moves {B : Nat → Nat → Prop} (h : s.InvInside) (m : Moves c B s t) (hc : portOk s c = true)
    (hB : ∀ b x, B b x → CellExists s b x) : t.InvInside where
  legal := m.cfg.symm ▸ h.legal
  ports d := by
    by_cases hd : d = c
    · exact hd ▸ m.inv h.codesFit (h.ports c)
    · exact (m.port_ne hd).symm ▸ h.ports d
  absent d hd := (m.port_ne (port_ne_of_absent hc (m.cfg ▸ hd))).trans (h.absent d (m.cfg ▸ hd))
  pixelForm := m.form h.pixelForm
  pixelRange e he := m.cfg.symm ▸ (m.cells e he).elim (h.pixelRange e) (hB _ _)
  freqForm := m.freq.symm ▸ h.freqForm
  freqRange := m.freq.symm ▸ h.freqRange
  lengths tab := m.codesFit h.codesFit tab
  tables tab := (m.table tab).symm ▸ h.tables tab
  lastErr := m.lastErr.symm ▸ h.lastErr
  noCursor := rfl
  holder := fun _ hi => by cases hi

theorem State.InvInside.setPixel {b x : Nat} {v : Pixel} (h : s.InvInside) (hb : CellExists s b x) :
    (s.setPixel b x v).InvInside :=
  { h with
    pixelForm := setPixel_wf s b x v h.pixelForm
    pixelRange := fun e he => by
      rcases mem_put he with rfl | he
      · exact hb
      · exact h.pixelRange e he }

theorem State.InvInside.setFreq {tab : TableId} {sym : Nat} {f : Word} (h : s.InvInside) (hs : sym < tab.symbols) :
    (s.setFreq tab sym f).InvInside :=
  { h with
    freqForm := setFreq_wf s tab sym f h.freqForm
    freqRange := fun e he => by
      rcases mem_put he with rfl | he
      · exact ⟨tab, rfl, hs⟩
      · exact h.freqRange e he }

theorem State.InvInside.setTable {tab : TableId} {code : CodeTable} (h : s.InvInside) (hwf : TableWF code tab.symbols) :
    (s.setTable tab ⟨code.enc, code.tree, true⟩).InvInside where
  legal := (setTable_cfg s tab _).symm ▸ h.legal
  ports d := (setTable_port s tab _ d).symm ▸ h.ports d
  absent d hd := (setTable_port s tab _ d).trans (h.absent d (setTable_cfg s tab _ ▸ hd))
  pixelForm := (setTable_pix s tab _).symm ▸ h.pixelForm
  pixelRange := by
    show ∀ entry ∈ (s.setTable tab _).pix, CellExists (s.setTable tab _) _ _
    simpa [CellExists] using h.pixelRange
  freqForm := (setTable_freq s tab _).symm ▸ h.freqForm
  freqRange := (setTable_freq s tab _).symm ▸ h.freqRange
  lengths u := by
    rw [table_inside]
    by_cases hu : u = tab
    · subst hu
      rw [setTable_self]
      exact fun e he => hwf.length_le he
    · rw [setTable_ne s _ hu]
      exact h.codesFit u
  tables u := by
    rw [table_inside]
    by_cases hu : u = tab
    · subst hu
      rw [setTable_self]
      exact fun _ => hwf
    · rw [setTable_ne s _ hu, ← table_inside]
      exact h.tables u
  lastErr := (setTable_lastErr s tab _).symm ▸ h.lastErr
  noCursor := rfl
  holder := fun _ hi => by cases hi

/-- The registers of dimensions and of the magic number may hold anything. -/
theorem State.InvInside.setRegs (h : s.InvInside) (gridW gridH opW opH magic : Word) :
    ({ s with gridW := gridW, gridH := gridH, opW := opW, opH := opH, magic := magic } : State).InvInside :=
  { h with }

theorem State.InvInside.setLastErr {err : Word} (h : s.InvInside) (herr : err.toNat < 2 ^ 16 ∧ err.toNat % 256 ≤ 9) :
    ({ s with lastErr := err } : State).InvInside := { h with lastErr := herr }

theorem Table.ofInit_wf {init : Option CodeTable} {n : Nat} (h : ∀ tab, init = some tab → TableWF tab n) :
    ((Table.ofInit init).valid = true → TableWF (Table.ofInit init).contents n) ∧
      ∀ e ∈ (Table.ofInit init).enc, e.length ≤ 32 := by
  cases init with
  | none => exact ⟨nofun, nofun⟩
  | some tab => exact ⟨fun _ => h tab rfl, fun _ he => (h tab rfl).length_le he⟩

/-- A reset state meets the invariant (10 R55). -/
theorem resetOf_inv {cfg : Config} (epoch : Nat) (h : LegalConfig cfg) : (State.resetOf cfg epoch).Inv where
  legal := h
  ports c := (resetOf_port cfg epoch c).symm ▸ Port.reset_inv
  absent c _ := resetOf_port cfg epoch c
  pixelForm := rfl
  pixelRange _ he := by cases he
  freqForm := rfl
  freqRange _ he := by cases he
  lengths t := by
    cases t
    · exact (Table.ofInit_wf h.init0).2
    · exact (Table.ofInit_wf h.init1).2
  tables t := by
    cases t
    · exact (Table.ofInit_wf h.init0).1
    · exact (Table.ofInit_wf h.init1).1
  lastErr := ⟨Nat.two_pow_pos 16, Nat.zero_le 9⟩
  noCursor := rfl
  holder _ hi := by cases hi

theorem resetState_inside (h : s.InvInside) : (resetState s).InvInside :=
  { (resetOf_inv (s.epoch + 1) h.legal).inside with }

end Sys2Proof.Machine
end

section
/-! SUPPORT. The body of every command, said once: it leaves the invariant, `LAST_ERR` as 10 R42 says, and raises errors only
(60 R271, R274). -/

namespace Sys2Proof.Machine

variable {c : PortNo} {s t : State} {α β : Type}

/-! ### How a stretch of a command ends -/

/-- A stretch of a command leaves the invariant; where it goes on `LAST_ERR` holds `err`, and what it raises is an
error (10 R42, 60 R274). -/
def Res.Sound (err : Word) : Res α → Prop
  | .done _ t => t.InvInside ∧ t.lastErr = err
  | .raise e t => t.InvInside ∧ e ≠ .ok
  | .hold => True

theorem sound_check {ok : Bool} {e : Status} {err : Word} {k : State → Res α} (h : s.InvInside) (he : e ≠ .ok)
    (hk : ok = true → (k s).Sound err) : ((check ok e s).andThen k).Sound err := by
  cases ok with
  | true => exact hk rfl
  | false => exact ⟨h, he⟩

theorem sound_withTable {n : BitVec 4} {err : Word} {k : TableId → Res α} (h : s.InvInside) (hk : ∀ tab, (k tab).Sound err) :
    (withTable n s k).Sound err := by
  unfold withTable
  split
  · exact hk _
  · exact ⟨h, by decide⟩

theorem andThen_andThen (r : Res Unit) (k : State → Res Unit) (k' : State → Res α) :
    (r.andThen k).andThen k' = r.andThen fun s => (k s).andThen k' := by cases r <;> rfl

section Port
variable {es kills : List Status} {r : Res α}

/-- A stretch on a port that exists, over cells that exist. -/
theorem Ends.sound (hE : Ends c (CellExists s) es kills s r) (h : s.InvInside) (hc : portOk s c = true) (hes : .ok ∉ es) :
    r.Sound s.lastErr := by
  cases r with
  | done a t => exact ⟨h.moves hE.1 hc fun _ _ => id, hE.1.lastErr⟩
  | raise e t => exact ⟨h.moves hE.2.1 hc fun _ _ => id, fun he => hes (he ▸ hE.1)⟩
  | hold => trivial

theorem Ends.bind_sound {k : α → State → Res β} (hE : Ends c (CellExists s) es kills s r) (h : s.InvInside)
    (hc : portOk s c = true) (hes : .ok ∉ es)
    (hk : ∀ a t, Moves c (CellExists s) s t → (k a t).Sound s.lastErr) : (r.bind k).Sound s.lastErr := by
  cases r with
  | done a t => exact hk a t hE.1
  | raise e t => exact hE.sound h hc hes
  | hold => trivial

/-- A stretch on a port followed by nothing but the response data. -/
theorem Ends.respond {data : α → State → β} (hE : Ends c (CellExists s) es kills s r) (h : s.InvInside)
    (hc : portOk s c = true) (hes : .ok ∉ es) : (r.bind fun a t => .done (data a t) t).Sound s.lastErr :=
  hE.bind_sound h hc hes fun _ _ m => ⟨h.moves m hc fun _ _ => id, m.lastErr⟩

end Port

/-! ### Cells of a frame (42 R189, 43 R204, 44 R222) -/

theorem opCell_exists {b : BitVec 8} {x : Nat} (hb : bufferOk s b = true) (hd : opDimsOk s = true)
    (hx : x < s.opW.toNat * s.opH.toNat) : CellExists s b.toNat x := by
  simp only [bufferOk, opDimsOk, Bool.and_eq_true, decide_eq_true_eq] at hb hd
  exact ⟨hb, by omega⟩

theorem planePixels_le (s : State) (k : Nat) : planePixels s k ≤ s.gridW.toNat * s.gridH.toNat := by
  unfold planePixels planeWidth planeHeight
  split
  · exact Nat.mul_le_mul (Nat.sub_le _ _) (Nat.sub_le _ _)
  · exact le_refl _

theorem refCell_exists {k x : Nat} (hc : portOk s c = true) (hd : gridDimsOk s = true) (hk : k < 3)
    (hx : x < planePixels s k) : CellExists s (refBuffer c k) x := by
  simp only [portOk, gridDimsOk, Bool.and_eq_true, decide_eq_true_eq] at hc hd
  have := planePixels_le s k
  refine ⟨?_, by omega⟩
  unfold refBuffer bufferCount
  omega

theorem Moves.portOk {B : Nat → Nat → Prop} (m : Moves c B s t) : portOk t c = portOk s c := by
  unfold Machine.portOk
  rw [m.cfg]

theorem Moves.planePixels {B : Nat → Nat → Prop} (m : Moves c B s t) (k : Nat) : planePixels t k = planePixels s k := by
  rw [m.rest]; rfl

/-- The update of a reference moves the cells of that reference alone (44 R228). -/
theorem moves_updateReference (c : PortNo) (k : Nat) (s : State) :
    Moves c (fun b x => b = refBuffer c k ∧ x < Machine.planePixels s k) s (updateReference c k s) := by
  have m : Moves c (fun b x => b = refBuffer c k ∧ x < Machine.planePixels s k) s
      { updateReference c k s with cursor := s.cursor } :=
    moves_copy s.cursor fun x _ hx => ⟨rfl, by omega⟩
  have hframe : ({ updateReference c k s with cursor := s.cursor } : State) = updateReference c k s := by
    unfold updateReference
    rw [copyCells_frame]
  rwa [hframe] at m

/-! ### The commands on the bit registers -/

theorem portOk_left {b : Bool} (h : (portOk s c && b) = true) : portOk s c = true := (Bool.and_eq_true_iff.mp h).1

theorem runBwWrite_sound (k : BitVec 16) (v : Word) (h : s.InvInside) : (runBwWrite c k v s).Sound s.lastErr :=
  sound_check h (by decide) fun hok =>
    (ends_write _ v (of_decide_eq_true (Bool.and_eq_true_iff.mp hok).2)).respond h (portOk_left hok) (by decide)

theorem runBwFlush_sound (h : s.InvInside) : (runBwFlush c s).Sound s.lastErr :=
  sound_check h (by decide) fun hok => (ends_flush _).respond h hok (by decide)

theorem runBrRead_sound (k : BitVec 16) (h : s.InvInside) : (runBrRead c k s).Sound s.lastErr :=
  sound_check h (by decide) fun hok =>
    (ends_read _ (of_decide_eq_true (Bool.and_eq_true_iff.mp hok).2)).sound h (portOk_left hok) (by decide)

theorem runBrReadbit_sound (h : s.InvInside) : (runBrReadbit c s).Sound s.lastErr :=
  sound_check h (by decide) fun hok => (ends_read _ (by decide)).sound h hok (by decide)

theorem runBrAlign_sound (h : s.InvInside) : (runBrAlign c s).Sound s.lastErr :=
  sound_check h (by decide) fun hok => ⟨h.moves (moves_align (CellExists s)).1 hok fun _ _ => id, rfl⟩

/-! ### The commands on the tables -/

theorem runFqWr_sound (n : BitVec 4) (sym : BitVec 16) (f : Word) (h : s.InvInside) : (runFqWr n sym f s).Sound s.lastErr :=
  sound_withTable h fun _ => sound_check h (by decide) fun hok => ⟨h.setFreq (of_decide_eq_true hok), rfl⟩

theorem length_frequencies (s : State) (tab : TableId) : (frequencies s tab).length = tab.symbols := by
  simp [frequencies]

theorem runPcBuild_sound (n : BitVec 4) (h : s.InvInside) : (runPcBuild n s).Sound s.lastErr :=
  sound_withTable h fun tab => by
    split
    · rename_i code hcode
      exact ⟨h.setTable (length_frequencies s tab ▸ build_wf hcode), setTable_lastErr s tab _⟩
    · exact ⟨h, by decide⟩

theorem runPcEncode_sound (n : BitVec 4) (sym : BitVec 16) (h : s.InvInside) : (runPcEncode c n sym s).Sound s.lastErr :=
  sound_check h (by decide) fun hok => sound_withTable h fun tab =>
    sound_check h (by decide) fun _ => sound_check h (by decide) fun _ =>
      (ends_encode _ h.codesFit tab _).respond h hok (by decide)

theorem runPcDecode_sound (n : BitVec 4) (h : s.InvInside) : (runPcDecode c n s).Sound s.lastErr :=
  sound_check h (by decide) fun hok => sound_withTable h fun tab =>
    sound_check h (by decide) fun _ => (ends_decode _ tab).respond h hok (by decide)

theorem runPcQbits_sound (n : BitVec 4) (sym : BitVec 16) (h : s.InvInside) : (runPcQbits n sym s).Sound s.lastErr :=
  sound_withTable h fun _ => sound_check h (by decide) fun _ => sound_check h (by decide) fun _ => ⟨h, rfl⟩

theorem runPcQlen_sound (n : BitVec 4) (sym : BitVec 16) (h : s.InvInside) : (runPcQlen n sym s).Sound s.lastErr :=
  sound_withTable h fun _ => sound_check h (by decide) fun _ => sound_check h (by decide) fun _ => ⟨h, rfl⟩

/-! ### The codecs -/

theorem sound_intraChecks {b : BitVec 8} {err : Word} {k : State → Res α} (h : s.InvInside)
    (hk : portOk s c = true → bufferOk s b = true → opDimsOk s = true → (k s).Sound err) :
    ((intraChecks c b s).andThen k).Sound err := by
  unfold intraChecks
  rw [andThen_andThen]
  refine sound_check h (by decide) fun hok => ?_
  rw [andThen_andThen]
  obtain ⟨hc, hb⟩ := Bool.and_eq_true_iff.mp hok
  exact sound_check h (by decide) fun _ => sound_check h (by decide) fun hd => hk hc hb hd

theorem sound_interChecks {b r : BitVec 8} {err : Word} {k : State → Res α} (h : s.InvInside)
    (hk : portOk s c = true → bufferOk s b = true → opDimsOk s = true → (k s).Sound err) :
    ((interChecks c b r s).andThen k).Sound err := by
  unfold interChecks
  rw [andThen_andThen]
  refine sound_check h (by decide) fun hok => ?_
  rw [andThen_andThen]
  obtain ⟨hcb, -⟩ := Bool.and_eq_true_iff.mp hok
  obtain ⟨hc, hb⟩ := Bool.and_eq_true_iff.mp hcb
  exact sound_check h (by decide) fun _ => sound_check h (by decide) fun hd => hk hc hb hd

theorem runIcCompress_sound (src : BitVec 8) (h : s.InvInside) : (runIcCompress c src s).Sound s.lastErr :=
  sound_intraChecks h fun hc _ _ => (ends_intraCompress _ _ _ _ h.codesFit).respond h hc (by decide)

theorem runXcCompress_sound (src ref : BitVec 8) (h : s.InvInside) : (runXcCompress c src ref s).Sound s.lastErr :=
  sound_interChecks h fun hc _ _ => (ends_interCompress _ _ _ _ h.codesFit).respond h hc (by decide)

theorem Ends.onCells {B : Nat → Nat → Prop} {es kills : List Status} {r : Res α} (hE : Ends c B es kills t r)
    (hB : ∀ b x, B b x → CellExists s b x) : Ends c (CellExists s) es kills t r :=
  hE.mono hB (fun _ => id) fun _ _ => Iff.rfl

theorem runIcDecompress_sound (dst : BitVec 8) (h : s.InvInside) : (runIcDecompress c dst s).Sound s.lastErr :=
  sound_intraChecks h fun hc hb hd =>
    ((ends_intraDecompress _ _ _ _).onCells fun _ _ ⟨hdst, hx⟩ => hdst ▸ opCell_exists hb hd hx).respond h hc (by decide)

theorem runXcDecompress_sound (dst ref : BitVec 8) (h : s.InvInside) : (runXcDecompress c dst ref s).Sound s.lastErr :=
  sound_interChecks h fun hc hb hd =>
    ((ends_interDecompress _ _ _ _).onCells fun _ _ ⟨hdst, hx⟩ => hdst ▸ opCell_exists hb hd hx).respond h hc (by decide)

/-! ### The frame sequencer -/

theorem runFsOpen_sound (role : BitVec 1) (h : s.InvInside) : (runFsOpen c role s).Sound s.lastErr :=
  sound_check h (by decide) fun hok => sound_check h (by decide) fun _ => ⟨h.setPort hok (openedPort_inv _ _), rfl⟩

/-- The invariant does not see the fields of a channel (10 R28). -/
theorem State.InvInside.setChannel (h : s.InvInside) (hc : portOk s c = true) (st : ChState) (swap : Bool) :
    (s.setPort c { s.port c with swap := swap, chst := st }).InvInside :=
  h.setPort hc (Port.Inv.of_regs (h.ports c) rfl rfl rfl rfl)

theorem State.InvInside.closeChannel (h : s.InvInside) (hc : portOk s c = true) : (closeChannel c s).InvInside :=
  h.setPort hc (closedPort_inv _)

theorem runFsAck_sound (v : Word) (h : s.InvInside) : (runFsAck c v s).Sound s.lastErr :=
  sound_check h (by decide) fun hok => sound_check h (by decide) fun _ => by
    split
    · exact ⟨h.setChannel hok _ _, rfl⟩
    split
    · exact ⟨h.setChannel hok _ _, rfl⟩
    · exact ⟨h.closeChannel hok, by decide⟩

theorem runFsMsg_sound (token : BitVec 16) (h : s.InvInside) : (runFsMsg c token s).Sound s.lastErr :=
  sound_check h (by decide) fun hok => sound_check h (by decide) fun _ => by
    split
    · exact ⟨h, rfl⟩
    · exact ⟨h.closeChannel hok, by decide⟩

/-- The end of a triplet: the channel is in `INTER` (44 R228, R230). -/
theorem inter_sound {data : Word} (h : s.InvInside) (hc : portOk s c = true) (m : Moves c (CellExists s) s t) :
    (Res.done data (setChannelState c .inter t)).Sound s.lastErr :=
  ⟨(h.moves m hc fun _ _ => id).setChannel (m.portOk.trans hc) _ _, m.lastErr⟩

theorem runFsSend_sound (h : s.InvInside) : (runFsSend c s).Sound s.lastErr :=
  sound_check h (by decide) fun hok => sound_check h (by decide) fun _ => by
    split
    · exact ⟨h, rfl⟩
    refine sound_check h (by decide) fun _ => sound_check h (by decide) fun hd => ?_
    have hplanes : Ends c (CellExists s) transportOnly transportOnly s (forPlanes (sendPlane c) s) :=
      ends_forPlanes (ends_sendPlane _ 0 h.codesFit) (fun _ m => ends_sendPlane _ 1 (m.codesFit h.codesFit))
        fun _ m => ends_sendPlane _ 2 (m.codesFit h.codesFit)
    have hupdate : ∀ {u : State} (k : Nat), k < 3 → Moves c (CellExists s) s u →
        Moves c (CellExists s) s (updateReference c k u) := fun {u} k hk m =>
      m.trans ((moves_updateReference c k u).mono fun _ _ ⟨hb, hx⟩ =>
        hb ▸ refCell_exists hok hd hk (m.planePixels k ▸ hx))
    exact hplanes.bind_sound h hok (by decide) fun _ _ m =>
      inter_sound h hok (hupdate 2 (by decide) (hupdate 1 (by decide) (hupdate 0 (by decide) m)))

theorem runFsRecv_sound (h : s.InvInside) : (runFsRecv c s).Sound s.lastErr :=
  sound_check h (by decide) fun hok => sound_check h (by decide) fun _ =>
    sound_check h (by decide) fun _ => sound_check h (by decide) fun hd => by
      have hplane : ∀ {u : State} (k : Nat), k < 3 → Moves c (CellExists s) s u →
          Ends c (CellExists s) streamStatuses streamStatuses u (recvPlane c k u) := fun k hk m =>
        (ends_recvPlane k).onCells fun _ _ ⟨hb, hx⟩ => hb ▸ refCell_exists hok hd hk (m.planePixels k ▸ hx)
      have hplanes : Ends c (CellExists s) streamStatuses streamStatuses s (forPlanes (recvPlane c) s) :=
        ends_forPlanes (hplane 0 (by decide) (Moves.refl _ _ _)) (fun _ => hplane 1 (by decide)) fun _ => hplane 2 (by decide)
      exact hplanes.bind_sound h hok (by decide) fun _ _ m => inter_sound h hok m

theorem runFsClose_sound (h : s.InvInside) : (runFsClose c s).Sound s.lastErr :=
  sound_check h (by decide) fun hok => ⟨h.closeChannel hok, rfl⟩

/-! ### The system commands -/

theorem runCsrRd_sound (addr : BitVec 16) (h : s.InvInside) : (runCsrRd addr s).Sound s.lastErr := by
  unfold runCsrRd
  split
  · exact ⟨h, rfl⟩
  · exact ⟨h, by decide⟩

theorem runPxWr_sound (b : BitVec 8) (index : Word) (pix : Pixel) (h : s.InvInside) :
    (runPxWr b index pix s).Sound s.lastErr :=
  sound_check h (by decide) fun hok => by
    obtain ⟨hb, hx⟩ := Bool.and_eq_true_iff.mp hok
    exact ⟨h.setPixel ⟨of_decide_eq_true hb, of_decide_eq_true hx⟩, rfl⟩

theorem runPxRd_sound (b : BitVec 8) (index : Word) (h : s.InvInside) : (runPxRd b index s).Sound s.lastErr :=
  sound_check h (by decide) fun _ => ⟨h, rfl⟩

theorem csrAt_two (s : State) : csrAt s 2 = some .lastErr := rfl

/-- `LAST_ERR` stands at address 2 alone (45 R251). -/
theorem csrAt_eq_lastErr {addr : BitVec 16} (h : csrAt s addr = some .lastErr) : addr = 2 := by
  have hports : ∀ {make : PortNo → Csr} {base a : Nat}, (∀ c, make c ≠ .lastErr) → portCsr s make base a ≠ some .lastErr := by
    intro make base a hmake
    unfold portCsr
    split
    · exact fun heq => hmake _ (Option.some.inj heq)
    · nofun
  unfold csrAt at h
  split at h
  case h_3 hn => exact BitVec.eq_of_toNat_eq hn
  case h_11 =>
    split at h
    · rename_i r hr
      exact absurd (hr.trans h) (hports nofun)
    split at h
    · rename_i r hr
      exact absurd (hr.trans h) (hports nofun)
    · exact absurd h (hports nofun)
  all_goals cases h

/-- What a command that ends `OK` leaves in `LAST_ERR` (10 R42). -/
def lastErrAfter (s : State) : Instr → Word
  | .reset => 0
  | .csrWr addr _ => if addr = 2 then 0 else s.lastErr
  | _ => s.lastErr

/-- A write to a register that is not read-only (45 R253). -/
theorem writeCsr_inside {r : Csr} {value : Word} (h : s.InvInside) (hw : writeCsr value s r = some t) :
    t.InvInside ∧ t.lastErr = if r = .lastErr then 0 else s.lastErr := by
  cases r with
  | lastErr => cases hw; exact ⟨h.setLastErr (by decide), rfl⟩
  | gridW => cases hw; exact ⟨h.setRegs value s.gridH s.opW s.opH s.magic, rfl⟩
  | gridH => cases hw; exact ⟨h.setRegs s.gridW value s.opW s.opH s.magic, rfl⟩
  | opW => cases hw; exact ⟨h.setRegs s.gridW s.gridH value s.opH s.magic, rfl⟩
  | opH => cases hw; exact ⟨h.setRegs s.gridW s.gridH s.opW value s.magic, rfl⟩
  | magic => cases hw; exact ⟨h.setRegs s.gridW s.gridH s.opW s.opH value, rfl⟩
  | _ => cases hw

theorem runCsrWr_sound (addr : BitVec 16) (value : Word) (h : s.InvInside) :
    (runCsrWr addr value s).Sound (lastErrAfter s (.csrWr addr value)) := by
  unfold runCsrWr
  split
  · rename_i t hw
    obtain ⟨r, hr, hw⟩ := Option.bind_eq_some_iff.mp hw
    obtain ⟨hinv, herr⟩ := writeCsr_inside h hw
    have hiff : r = .lastErr ↔ addr = 2 :=
      ⟨fun he => csrAt_eq_lastErr (he ▸ hr), fun ha => Option.some.inj (hr.symm.trans (ha ▸ csrAt_two s))⟩
    refine ⟨hinv, ?_⟩
    simp only [herr, hiff, lastErrAfter]
  · exact ⟨h, by decide⟩

/-! ### Every command -/

/-- The body of a command, before its end is recorded; a stream symbol has none. -/
def commandRun (s : State) : Instr → Res Word
  | .nop => .done 0 s
  | .bwWrite c k v => runBwWrite c k v s
  | .bwFlush c => runBwFlush c s
  | .brRead c k => runBrRead c k s
  | .brReadbit c => runBrReadbit c s
  | .brAlign c => runBrAlign c s
  | .fqWr t sym f => runFqWr t sym f s
  | .pcBuild t => runPcBuild t s
  | .pcEncode c t sym => runPcEncode c t sym s
  | .pcDecode c t => runPcDecode c t s
  | .pcQbits t sym => runPcQbits t sym s
  | .pcQlen t sym => runPcQlen t sym s
  | .icCompress c src => runIcCompress c src s
  | .icDecompress c dst => runIcDecompress c dst s
  | .xcCompress c src ref => runXcCompress c src ref s
  | .xcDecompress c dst ref => runXcDecompress c dst ref s
  | .fsOpen c role => runFsOpen c role s
  | .fsAck c v => runFsAck c v s
  | .fsMsg c token => runFsMsg c token s
  | .fsSend c => runFsSend c s
  | .fsRecv c => runFsRecv c s
  | .fsClose c => runFsClose c s
  | .csrRd addr => runCsrRd addr s
  | .csrWr addr value => runCsrWr addr value s
  | .pxWr b index pix => runPxWr b index pix s
  | .pxRd b index => runPxRd b index s
  | .reset => .done 0 (resetState s)
  | .direct0 _ | .esc0 _ | .direct1 _ | .esc1 _ | .run _ => .hold

theorem exec_command {i : Instr} (hi : i.isCommand = true) (s : State) :
    exec i s = .next (complete i s (commandRun s i)) := by
  cases i with
  | direct0 | esc0 | direct1 | esc1 | run => cases hi
  | _ => rfl

/-- The body of every command leaves the invariant, and `LAST_ERR` as 10 R42 says. -/
theorem commandRun_sound (i : Instr) (h : s.InvInside) : (commandRun s i).Sound (lastErrAfter s i) := by
  cases i with
  | nop => exact ⟨h, rfl⟩
  | bwWrite c k v => exact runBwWrite_sound k v h
  | bwFlush c => exact runBwFlush_sound h
  | brRead c k => exact runBrRead_sound k h
  | brReadbit c => exact runBrReadbit_sound h
  | brAlign c => exact runBrAlign_sound h
  | fqWr t sym f => exact runFqWr_sound t sym f h
  | pcBuild t => exact runPcBuild_sound t h
  | pcEncode c t sym => exact runPcEncode_sound t sym h
  | pcDecode c t => exact runPcDecode_sound t h
  | pcQbits t sym => exact runPcQbits_sound t sym h
  | pcQlen t sym => exact runPcQlen_sound t sym h
  | icCompress c src => exact runIcCompress_sound src h
  | icDecompress c dst => exact runIcDecompress_sound dst h
  | xcCompress c src ref => exact runXcCompress_sound src ref h
  | xcDecompress c dst ref => exact runXcDecompress_sound dst ref h
  | fsOpen c role => exact runFsOpen_sound role h
  | fsAck c v => exact runFsAck_sound v h
  | fsMsg c token => exact runFsMsg_sound token h
  | fsSend c => exact runFsSend_sound h
  | fsRecv c => exact runFsRecv_sound h
  | fsClose c => exact runFsClose_sound h
  | csrRd addr => exact runCsrRd_sound addr h
  | csrWr addr value => exact runCsrWr_sound addr value h
  | pxWr b index pix => exact runPxWr_sound b index pix h
  | pxRd b index => exact runPxRd_sound b index h
  | reset => exact ⟨resetState_inside h, rfl⟩
  | _ => trivial

end Sys2Proof.Machine
end

section
/-! SUPPORT. Every command and every act of the host keeps the invariant (10 R22 to R42, 30 R90, 40 R137). -/

namespace Sys2Proof.Machine

variable {c : PortNo} {s t : State}

/-! ### The end of a command -/

theorem succeed_inv (data : Word) (h : s.InvInside) : (succeed data s).Inv := { h with }

theorem lastErrWord_toNat (op : BitVec 8) (e : Status) :
    (lastErrWord op e).toNat = op.toNat * 256 + e.code.toNat := by
  obtain ⟨-, herr, -⟩ := takeError_endsWith op e State.reset
  exact herr

theorem Status.code_le (e : Status) : e.code.toNat ≤ 9 := by cases e <;> decide

theorem takeError_inv (op : BitVec 8) (e : Status) (h : s.InvInside) : (takeError op e s).Inv :=
  { h with
    lastErr := by
      show (lastErrWord op e).toNat < 2 ^ 16 ∧ (lastErrWord op e).toNat % 256 ≤ 9
      have hop := op.isLt
      have hcode := e.code_le
      rw [lastErrWord_toNat]
      omega }

theorem waitForInput_inv {i : Instr} (hi : i.isCommand = true) (h : s.Inv) : (waitForInput i s).Inv :=
  { h with holder := fun _ hj => Option.some.inj hj ▸ hi }

/-- Every command keeps the invariant. -/
theorem exec_inv {i : Instr} (hi : i.isCommand = true) (h : s.Inv) (ht : exec i s = .next t) : t.Inv := by
  rw [exec_command hi] at ht
  obtain rfl := Host.Outcome.next.inj ht
  have hsound := commandRun_sound i h.inside
  cases hr : commandRun s i with
  | done data u => rw [hr] at hsound; exact succeed_inv data hsound.1
  | raise e u => rw [hr] at hsound; exact takeError_inv _ e hsound.1
  | hold => exact waitForInput_inv hi h

/-! ### The step -/

/-- The decoder names commands only (30 R95). -/
theorem decode_isCommand {w : CmdWord} {i : Instr} (h : decode w = some i) : i.isCommand = true := by
  have hwhen : ∀ {zeros : Bool} {j : Instr}, j.isCommand = true → commandWhen zeros j = some i → i.isCommand = true := by
    intro zeros j hj hw
    cases zeros with
    | true => exact Option.some.inj hw ▸ hj
    | false => cases hw
  unfold decode decodeFields at h
  split at h
  case h_25 => exact Option.some.inj h ▸ rfl
  case h_28 => cases h
  all_goals exact hwhen rfl h

theorem issue_inv {w : CmdWord} (h : s.Inv) (ht : issue w s = .next t) : t.Inv := by
  unfold issue at ht
  split at ht
  · rename_i i hi
    exact exec_inv (decode_isCommand hi) h ht
  · cases ht
    exact takeError_inv _ _ h.inside

/-- An act on a transport reaches the queues and flags of a port that exists (10 R26, R27; log 14). -/
theorem onTransport_inv {act : Port → Port} (hact : ∀ p : Port, p.Inv → (act p).Inv) (h : s.Inv)
    (ht : onTransport c act s = .next t) : t.Inv := by
  unfold onTransport at ht
  split at ht
  · rename_i hc
    cases ht
    exact { h.inside.setPort hc (hact _ (h.ports c)) with noCursor := h.noCursor, holder := h.holder }
  · cases ht

theorem appendInput_inv (w : Word) (p : Port) (h : p.Inv) : (appendInput w p).Inv := h.of_regs rfl rfl rfl rfl
theorem endInput_inv (p : Port) (h : p.Inv) : (endInput p).Inv := h.of_regs rfl rfl rfl rfl
theorem failOutput_inv (p : Port) (h : p.Inv) : (failOutput p).Inv := h.of_regs rfl rfl rfl rfl

theorem takeAct_inv {act : HostAct} (h : s.Inv) (ht : takeAct act s = .next t) : t.Inv := by
  cases act with
  | command w => exact issue_inv h ht
  | inputWord c w => exact onTransport_inv (appendInput_inv w) h ht
  | inputEnd c => exact onTransport_inv endInput_inv h ht
  | outputError c => exact onTransport_inv failOutput_inv h ht

/-- A held command that is tried again after an act on a transport. -/
theorem resume_inv {i : Instr} {r : Out} (hi : i.isCommand = true) (hr : ∀ u, r = .next u → u.Inv)
    (ht : resume i r = .next t) : t.Inv := by
  cases r with
  | next u => exact exec_inv hi (hr u rfl) ht
  | fault f => cases ht
  | refused f => cases ht

theorem takeActHolding_inv {i : Instr} {act : HostAct} {before : State} (hi : i.isCommand = true) (hb : before.Inv)
    (h : s.Inv) (ht : takeActHolding i act before s = .next t) : t.Inv := by
  cases act with
  | command w => cases ht; exact hb
  | inputWord c w => exact resume_inv hi (fun _ => onTransport_inv (appendInput_inv w) h) ht
  | inputEnd c => exact resume_inv hi (fun _ => onTransport_inv endInput_inv h) ht
  | outputError c => exact resume_inv hi (fun _ => onTransport_inv failOutput_inv h) ht

/-- Settles O57: the body of every command leaves the invariant (`commandRun_sound`), its end restores what only a
command in progress may break, and an act of the host reaches queues and flags alone. -/
theorem everyStepKeepsTheInvariant : Obligations.EveryStepKeepsTheInvariant := by
  intro s t h ht
  have hrest : ∀ rest, ({ s with host := rest } : State).Inv := fun _ => { h with }
  unfold step hostStep at ht
  split at ht
  · cases ht; exact h
  · split at ht
    · exact takeAct_inv (hrest _) ht
    · rename_i i hi
      exact takeActHolding_inv (h.holder i hi) h (hrest _) ht

end Sys2Proof.Machine
end

section
/-! SUPPORT. The registers that show errors and flags, `LAST_ERR` (10 R42), `STATUS` (R41) and `CHSTAT[c]` (R50). -/

namespace Sys2Proof.Machine

variable {c : PortNo} {s t : State}

/-! ### Fields of a word from the number it stands for -/

section Fields
variable {w i len : Nat} {v : BitVec w}

theorem getLsbD_of_toNat {b : Bool} (h : v.toNat / 2 ^ i % 2 = b.toNat) : v.getLsbD i = b := by
  rw [BitVec.getLsbD, Nat.testBit_eq_decide_div_mod_eq, h]
  cases b <;> rfl

theorem toNat_field (v : BitVec w) (i len : Nat) : (v.extractLsb' i len).toNat = v.toNat / 2 ^ i % 2 ^ len := by
  rw [BitVec.extractLsb'_toNat, Nat.shiftRight_eq_div_pow]

theorem field_eq_zero (h : v.toNat / 2 ^ i % 2 ^ len = 0) : v.extractLsb' i len = 0 :=
  BitVec.eq_of_toNat_eq ((toNat_field v i len).trans (h.trans BitVec.toNat_zero.symm))

end Fields

/-! ### `LAST_ERR` (10 R42) -/

theorem lastErrWord_fields (op : BitVec 8) (e : Status) :
    (lastErrWord op e).extractLsb' 0 8 = e.code ∧ (lastErrWord op e).extractLsb' 8 8 = op ∧
      (lastErrWord op e).extractLsb' 16 16 = 0 := by
  have hop := op.isLt
  have hcode := e.code_le
  have hnat := lastErrWord_toNat op e
  generalize lastErrWord op e = v at *
  exact ⟨BitVec.eq_of_toNat_eq (by rw [toNat_field]; omega), BitVec.eq_of_toNat_eq (by rw [toNat_field]; omega),
    field_eq_zero (by omega)⟩

theorem State.Answers.status_eq {e e' : Status} {data data' : Word} (h : t.Answers e data) (h' : t.Answers e' data') : e = e' := by
  obtain ⟨r, hr, hstatus, -⟩ := h
  obtain ⟨r', hr', hstatus', -⟩ := h'
  obtain rfl : r = r' := Option.some.inj (hr.symm.trans hr')
  exact code_injective (hstatus.symm.trans hstatus')

/-- A command that answers `OK` ended its body so; one that answers an error took that error. -/
theorem exec_answers {i : Instr} {e : Status} {data : Word} (hi : i.isCommand = true) (h : s.Inv)
    (ht : exec i s = .next t) (ha : t.Answers e data) :
    (e = .ok ∧ t.lastErr = lastErrAfter s i) ∨ (e ≠ .ok ∧ t.lastErr = lastErrWord (opcodeOf i) e) := by
  rw [exec_command hi] at ht
  obtain rfl := Host.Outcome.next.inj ht
  have hsound := commandRun_sound i h.inside
  cases hr : commandRun s i with
  | done d u =>
    rw [hr] at hsound ha
    exact .inl ⟨State.Answers.status_eq ha (succeed_answers d u), hsound.2⟩
  | raise e' u =>
    rw [hr] at hsound ha
    obtain rfl := State.Answers.status_eq ha (takeError_answers _ e' u)
    exact .inr ⟨hsound.2, rfl⟩
  | hold =>
    rw [hr] at ha
    obtain ⟨r, hr, -⟩ := ha
    cases hr

theorem lastErrAfter_keeps {i : Instr} (hr : i ≠ .reset) (hw : ∀ value, i ≠ .csrWr 2 value) :
    lastErrAfter s i = s.lastErr := by
  cases i with
  | reset => exact absurd rfl hr
  | csrWr addr value =>
    have hne : addr ≠ 2 := fun ha => hw value (by rw [ha])
    exact if_neg hne
  | _ => rfl

theorem lastErrAfter_clears {i : Instr} (h : i = .reset ∨ ∃ value, i = .csrWr 2 value) : lastErrAfter s i = 0 := by
  rcases h with rfl | ⟨value, rfl⟩ <;> rfl

/-- Settles O49: the end of a command is its answer (`exec_answers`), and an illegal word takes `E_BAD_CMD`. -/
theorem lastErrRecordsTheLastError : Obligations.LastErrRecordsTheLastError := by
  refine ⟨fun i s t e data hi h ht ha => ?_, fun w s t hw ht => ?_⟩
  · rcases exec_answers hi h ht ha with ⟨he, herr⟩ | ⟨he, herr⟩
    · exact ⟨fun _ hr hc => herr.trans (lastErrAfter_keeps hr hc), fun _ hclear => herr.trans (lastErrAfter_clears hclear),
        fun hne => absurd he hne⟩
    · exact ⟨fun hok => absurd hok he, fun hok => absurd hok he, fun _ => herr ▸ lastErrWord_fields _ e⟩
  · have hissue : issue w s = .next (takeError (opcodeOfWord w) .badCmd s) := by
      unfold issue
      rw [hw]
    obtain rfl := Host.Outcome.next.inj (hissue.symm.trans ht)
    exact lastErrWord_fields (opcodeOfWord w) .badCmd

/-! ### The status registers (10 R41, R50) -/

theorem exec_csrRd {addr : BitVec 16} {r : Csr} (h : csrAt s addr = some r) :
    exec (.csrRd addr) s = .next (succeed (readCsr s r) s) := by
  rw [exec_command rfl]
  simp only [commandRun, runCsrRd, h, complete_done]

theorem csrAt_chstat (h : c.toNat < s.cfg.nCh) : csrAt s (BitVec.ofNat 16 (0x10 + c.toNat)) = some (.chstat c) := by
  have hc := c.isLt
  have haddr : (BitVec.ofNat 16 (0x10 + c.toNat)).toNat = 0x10 + c.toNat := by
    rw [BitVec.toNat_ofNat, Nat.mod_eq_of_lt (by omega)]
  have hport : portCsr s .chstat 0x10 (0x10 + c.toNat) = some (.chstat c) := by
    unfold portCsr
    rw [if_pos (by omega), Nat.add_sub_cancel_left, BitVec.ofNat_toNat, BitVec.setWidth_eq]
  unfold csrAt
  rw [haddr]
  split
  case h_11 => rw [hport]
  all_goals omega

theorem ChState.code_lt (st : ChState) : st.code < 4 := by cases st <;> decide

theorem Role.code_eq (r : Role) : r.code = (decide (r = .decoder)).toNat := by cases r <;> rfl

/-- Every field of `CHSTAT[c]` holds its value whole (10 R22, R23, R50). -/
theorem chstat_bounds {p : Port} (h : p.Inv) : p.chst.code < 4 ∧ (decide (p.role = .decoder)).toNat ≤ 1 ∧
    p.swap.toNat ≤ 1 ∧ p.toutErr.toNat ≤ 1 ∧ p.tinEos.toNat ≤ 1 ∧ p.bwN ≤ 32 ∧ p.brN ≤ 32 :=
  ⟨p.chst.code_lt, Bool.toNat_le _, Bool.toNat_le _, Bool.toNat_le _, Bool.toNat_le _, h.writerCount, h.readerCount⟩

/-- `CHSTAT[c]` as a number: the 6-bit counts of a register of 0 to 32 bits are whole (10 R22, R23, R50). -/
theorem chstatWord_toNat {p : Port} (h : p.Inv) : (chstatWord p).toNat =
    p.chst.code + 4 * (decide (p.role = .decoder)).toNat + 8 * p.swap.toNat + 16 * p.toutErr.toNat + 32 * p.tinEos.toNat
      + 2 ^ 8 * p.bwN + 2 ^ 16 * p.brN := by
  have hbounds := chstat_bounds h
  unfold chstatWord
  rw [Role.code_eq, BitVec.toNat_ofNat]
  omega

/-- The fields of `CHSTAT[c]` (10 R50). -/
theorem chstatWord_fields {p : Port} (h : p.Inv) :
    ((chstatWord p).extractLsb' 0 2).toNat = p.chst.code ∧
    (chstatWord p).getLsbD 2 = decide (p.role = .decoder) ∧ (chstatWord p).getLsbD 3 = p.swap ∧
    (chstatWord p).getLsbD 4 = p.toutErr ∧ (chstatWord p).getLsbD 5 = p.tinEos ∧ (chstatWord p).extractLsb' 6 2 = 0 ∧
    ((chstatWord p).extractLsb' 8 6).toNat = p.bwN ∧ (chstatWord p).extractLsb' 14 2 = 0 ∧
    ((chstatWord p).extractLsb' 16 6).toNat = p.brN ∧ (chstatWord p).extractLsb' 22 10 = 0 := by
  have hnat := chstatWord_toNat h
  have hbounds := chstat_bounds h
  generalize chstatWord p = v at *
  simp only [toNat_field]
  exact ⟨by omega, getLsbD_of_toNat (by omega), getLsbD_of_toNat (by omega), getLsbD_of_toNat (by omega),
    getLsbD_of_toNat (by omega), field_eq_zero (by omega), by omega, field_eq_zero (by omega), by omega,
    field_eq_zero (by omega)⟩

theorem chstatWord_reset (h : IsReset s) : chstatWord (s.port c) = 0 := by
  obtain ⟨hst, hrole, hswap⟩ := h.channels c
  rw [chstatWord, hst, hrole, hswap, (h.outputs c).2, (h.inputs c).2, (h.writers c).2, (h.readers c).2]
  rfl

theorem statusWord_toNat (s : State) : (statusWord s).toNat = s.tab0.valid.toNat + 2 * s.tab1.valid.toNat := by
  have h0 := s.tab0.valid.toNat_le
  have h1 := s.tab1.valid.toNat_le
  rw [statusWord, BitVec.toNat_ofNat, Nat.mod_eq_of_lt (by omega)]

/-- The fields of `STATUS` (10 R41). -/
theorem statusWord_fields (s : State) : (statusWord s).getLsbD 0 = s.tab0.valid ∧
    (statusWord s).getLsbD 1 = s.tab1.valid ∧ (statusWord s).extractLsb' 2 30 = 0 := by
  have hnat := statusWord_toNat s
  have h0 := s.tab0.valid.toNat_le
  have h1 := s.tab1.valid.toNat_le
  generalize statusWord s = v at *
  exact ⟨getLsbD_of_toNat (by omega), getLsbD_of_toNat (by omega), field_eq_zero (by omega)⟩

/-- After reset a table is valid exactly when it is built in (10 R55). -/
theorem valid_of_isReset (h : IsReset s) : s.tab0.valid = s.cfg.init0.isSome ∧ s.tab1.valid = s.cfg.init1.isSome := by
  constructor
  · cases hinit : s.cfg.init0 with
    | none => exact h.noTable0 hinit
    | some tab => rw [h.builtIn0 tab hinit]; rfl
  · cases hinit : s.cfg.init1 with
    | none => exact h.noTable1 hinit
    | some tab => rw [h.builtIn1 tab hinit]; rfl

/-- Settles O3: a read of either register ends `OK` with its word, whose fields are those of the port or the tables. -/
theorem statusRegistersShowTheFlags : Obligations.StatusRegistersShowTheFlags := by
  refine ⟨fun s c hc hp => ?_, fun s => ?_⟩
  · obtain ⟨hst, hrole, hswap, herr, heos, hz6, hwn, hz14, hrn, hz22⟩ := chstatWord_fields hp
    exact ⟨_, chstatWord (s.port c), exec_csrRd (csrAt_chstat hc), succeed_endsOk _ rfl, rfl,
      BitVec.eq_of_toNat_eq (hst.trans (by cases (s.port c).chst <;> rfl)), hrole, hswap, herr, heos, hz6, hwn, hz14, hrn,
      hz22, chstatWord_reset⟩
  · obtain ⟨hv0, hv1, hz⟩ := statusWord_fields s
    refine ⟨_, statusWord s, exec_csrRd (r := .status) rfl, succeed_endsOk _ rfl, rfl, hv0, hv1, hz, fun hreset => ?_⟩
    obtain ⟨hi0, hi1⟩ := valid_of_isReset hreset
    exact ⟨hv0.trans hi0, hv1.trans hi1⟩

end Sys2Proof.Machine
end

section
/-! SUPPORT. The order of the transports (20 R73, 10 R26, R27): what the body of every command does to `TOUT`, `TIN` and
their flags on every port. -/

namespace Sys2Proof.Machine

variable {c d : PortNo} {s t u : State} {α β : Type}

/-! ### The states a stretch of a command can end in -/

/-- Where the stretch goes on or raises an error, its state satisfies `P`; a hold has no state of its own. -/
def Res.EndsIn (P : State → Prop) : Res α → Prop
  | .done _ t => P t
  | .raise _ t => P t
  | .hold => True

section EndsIn
variable {P Q : State → Prop} {r : Res α}

theorem Res.EndsIn.bind {k : α → State → Res β} (h : r.EndsIn Q) (hQ : ∀ t, Q t → P t)
    (hk : ∀ a t, Q t → (k a t).EndsIn P) : (r.bind k).EndsIn P := by
  cases r with
  | done a t => exact hk a t h
  | raise e t => exact hQ t h
  | hold => trivial

theorem Res.EndsIn.mono (h : r.EndsIn Q) (hQ : ∀ t, Q t → P t) : r.EndsIn P := by
  cases r with
  | done a t => exact hQ t h
  | raise e t => exact hQ t h
  | hold => trivial

/-- A stretch followed by nothing but the response data. -/
theorem Res.EndsIn.respond {data : α → State → β} (h : r.EndsIn P) : (r.bind fun a t => .done (data a t) t).EndsIn P :=
  h.bind (fun _ => id) fun _ _ => id

theorem endsIn_check {ok : Bool} {e : Status} {k : State → Res α} (hs : P s) (hk : ok = true → (k s).EndsIn P) :
    ((check ok e s).andThen k).EndsIn P := by
  cases ok with
  | true => exact hk rfl
  | false => exact hs

theorem endsIn_withTable {n : BitVec 4} {k : TableId → Res α} (hs : P s) (hk : ∀ tab, (k tab).EndsIn P) :
    (withTable n s k).EndsIn P := by
  unfold withTable
  split
  · exact hk _
  · exact hs

theorem endsIn_intraChecks {b : BitVec 8} {k : State → Res α} (hs : P s) (hk : (k s).EndsIn P) :
    ((intraChecks c b s).andThen k).EndsIn P := by
  unfold intraChecks
  rw [andThen_andThen]
  refine endsIn_check hs fun _ => ?_
  rw [andThen_andThen]
  exact endsIn_check hs fun _ => endsIn_check hs fun _ => hk

theorem endsIn_interChecks {b b' : BitVec 8} {k : State → Res α} (hs : P s) (hk : (k s).EndsIn P) :
    ((interChecks c b b' s).andThen k).EndsIn P := by
  unfold interChecks
  rw [andThen_andThen]
  refine endsIn_check hs fun _ => ?_
  rw [andThen_andThen]
  exact endsIn_check hs fun _ => endsIn_check hs fun _ => hk

theorem Ends.endsIn {B : Nat → Nat → Prop} {es kills : List Status} (h : Ends c B es kills s r) :
    r.EndsIn (Moves c B s) := by
  cases r with
  | done a t => exact h.1
  | raise e t => exact h.2.1
  | hold => trivial

/-- The end of a command leaves the ports as its body left them; a hold leaves those of the state it was issued in. -/
theorem Res.EndsIn.complete {r : Res Word} (h : r.EndsIn P) (hs : P s) (i : Instr) :
    ∃ t, P t ∧ ∀ d, (complete i s r).port d = t.port d := by
  cases r with
  | done data t => exact ⟨t, h, fun _ => rfl⟩
  | raise e t => exact ⟨t, h, fun _ => rfl⟩
  | hold => exact ⟨s, hs, fun _ => rfl⟩

end EndsIn

/-! ### What a command may do to the transports of a port -/

/-- From `p` to `q` words were only appended to `TOUT`, only taken from the head of `TIN`, and both flags stayed. -/
structure Port.TransportsKept (p q : Port) : Prop where
  tout : p.tout <+: q.tout
  tin : q.tin <:+ p.tin
  toutErr : q.toutErr = p.toutErr
  tinEos : q.tinEos = p.tinEos

theorem Port.TransportsKept.refl (p : Port) : p.TransportsKept p := ⟨List.prefix_refl _, List.suffix_refl _, rfl, rfl⟩

theorem Port.TransportsKept.trans {p q r : Port} (h : p.TransportsKept q) (h' : q.TransportsKept r) : p.TransportsKept r :=
  ⟨h.tout.trans h'.tout, h'.tin.trans h.tin, h'.toutErr.trans h.toutErr, h'.tinEos.trans h.tinEos⟩

/-- The transports of every port are kept so. -/
def State.KeepsTransports (s t : State) : Prop := ∀ d, (s.port d).TransportsKept (t.port d)

namespace State.KeepsTransports

theorem refl (s : State) : s.KeepsTransports s := fun _ => .refl _

theorem trans (h : s.KeepsTransports t) (h' : t.KeepsTransports u) : s.KeepsTransports u := fun d => (h d).trans (h' d)

theorem of_ports (h : ∀ d, t.port d = s.port d) : s.KeepsTransports t := fun d => h d ▸ .refl _

theorem setPort {p : Port} (h : (s.port c).TransportsKept p) : s.KeepsTransports (s.setPort c p) := fun d => by
  by_cases hd : d = c
  · rw [hd, port_setPort_self]; exact h
  · rw [port_setPort_ne s p hd]; exact .refl _

theorem of_moves {B : Nat → Nat → Prop} (m : Moves c B s t) : s.KeepsTransports t := fun d => by
  by_cases hd : d = c
  · obtain ⟨herr, heos, -, -⟩ := m.flags
    exact hd ▸ ⟨m.tout, m.tin, herr, heos⟩
  · exact m.port_ne hd ▸ .refl _

/-- The fields of the channel record are no part of a transport (10 R28). -/
theorem setChannel (c : PortNo) (s : State) (swap : Bool) (st : ChState) :
    s.KeepsTransports (s.setPort c { s.port c with swap := swap, chst := st }) :=
  setPort ⟨List.prefix_refl _, List.suffix_refl _, rfl, rfl⟩

theorem closeChannel (c : PortNo) (s : State) : s.KeepsTransports (Machine.closeChannel c s) :=
  of_moves (moves_close (fun _ _ => False) c s)

theorem updateReferences (c : PortNo) (s : State) :
    s.KeepsTransports (updateReference c 2 (updateReference c 1 (updateReference c 0 s))) :=
  (of_moves (moves_updateReference c 0 _)).trans <|
    (of_moves (moves_updateReference c 1 _)).trans (of_moves (moves_updateReference c 2 _))

end State.KeepsTransports

open State.KeepsTransports (refl of_ports of_moves setChannel)

theorem Ends.keepsTransports {B : Nat → Nat → Prop} {es kills : List Status} {r : Res α} (h : Ends c B es kills s r) :
    r.EndsIn s.KeepsTransports := h.endsIn.mono fun _ => of_moves

/-! ### The commands -/

theorem runFsAck_keepsTransports (v : Word) : (runFsAck c v s).EndsIn s.KeepsTransports :=
  endsIn_check (refl s) fun _ => endsIn_check (refl s) fun _ => by
    split
    · exact setChannel c s false .intra
    split
    · exact setChannel c s true .intra
    · exact State.KeepsTransports.closeChannel c s

theorem runFsMsg_keepsTransports (token : BitVec 16) : (runFsMsg c token s).EndsIn s.KeepsTransports :=
  endsIn_check (refl s) fun _ => endsIn_check (refl s) fun _ => by
    split
    · exact refl s
    · exact State.KeepsTransports.closeChannel c s

theorem sendPlanes_keepsTransports (hf : CodesFit s) : (forPlanes (sendPlane c) s).EndsIn s.KeepsTransports :=
  Ends.keepsTransports (B := fun _ _ => False) (ends_forPlanes (ends_sendPlane _ 0 hf)
    (fun _ m => ends_sendPlane _ 1 (m.codesFit hf)) fun _ m => ends_sendPlane _ 2 (m.codesFit hf))

theorem runFsSend_keepsTransports (hf : CodesFit s) : (runFsSend c s).EndsIn s.KeepsTransports :=
  endsIn_check (refl s) fun _ => endsIn_check (refl s) fun _ => by
    split
    · exact refl s
    exact endsIn_check (refl s) fun _ => endsIn_check (refl s) fun _ =>
      (sendPlanes_keepsTransports hf).bind (fun _ => id) fun _ t h =>
        (h.trans (.updateReferences c t)).trans (setChannel c _ _ .inter)

theorem recvPlanes_keepsTransports : (forPlanes (recvPlane c) s).EndsIn s.KeepsTransports :=
  have hplane : ∀ {t : State} (k : Nat), Ends c (fun _ _ => True) streamStatuses streamStatuses t (recvPlane c k t) :=
    fun k => (ends_recvPlane k).mono (fun _ _ _ => trivial) (fun _ => id) fun _ _ => Iff.rfl
  (ends_forPlanes (hplane 0) (fun _ _ => hplane 1) fun _ _ => hplane 2).keepsTransports

theorem runFsRecv_keepsTransports : (runFsRecv c s).EndsIn s.KeepsTransports :=
  endsIn_check (refl s) fun _ => endsIn_check (refl s) fun _ => endsIn_check (refl s) fun _ => endsIn_check (refl s) fun _ =>
    recvPlanes_keepsTransports.bind (fun _ => id) fun _ _ h => h.trans (setChannel c _ _ .inter)

theorem writeCsr_port {r : Csr} {value : Word} (h : writeCsr value s r = some t) (d : PortNo) : t.port d = s.port d := by
  cases r with
  | lastErr | gridW | gridH | opW | opH | magic => cases h; rfl
  | _ => cases h

theorem runCsrWr_keepsTransports (addr : BitVec 16) (value : Word) : (runCsrWr addr value s).EndsIn s.KeepsTransports := by
  unfold runCsrWr
  split
  · rename_i t ht
    obtain ⟨r, -, hw⟩ := Option.bind_eq_some_iff.mp ht
    exact of_ports (writeCsr_port hw)
  · exact refl s

theorem runPcBuild_keepsTransports (n : BitVec 4) : (runPcBuild n s).EndsIn s.KeepsTransports :=
  endsIn_withTable (refl s) fun tab => by
    split
    · exact of_ports fun d => setTable_port s tab _ d
    · exact refl s

/-- `FS_OPEN` answers in the state it was issued in, or with the port opened, its words in `TOUT` kept (44 R223). -/
theorem runFsOpen_endsIn (c : PortNo) (role : BitVec 1) (s : State) :
    (runFsOpen c role s).EndsIn fun t => t = s ∨ t = s.setPort c (openedPort (roleOfBit role) (s.port c)) :=
  endsIn_check (.inl rfl) fun _ => endsIn_check (.inl rfl) fun _ => .inr rfl

/-- The body of every command but `RESET` and `FS_OPEN` keeps the transports of every port. -/
theorem commandRun_keepsTransports {i : Instr} (hf : CodesFit s) (hreset : i ≠ .reset)
    (hopen : ∀ c role, i ≠ .fsOpen c role) : (commandRun s i).EndsIn s.KeepsTransports := by
  have bits : ∀ {b : Bool} {k : BitVec 16}, (b && bitCountOk k) = true → k.toNat ≤ 32 := fun h =>
    of_decide_eq_true (Bool.and_eq_true_iff.mp h).2
  cases i with
  | nop => exact refl s
  | bwWrite c k v =>
    exact endsIn_check (refl s) fun hok => (ends_write (fun _ _ => False) v (bits hok)).keepsTransports.respond
  | bwFlush c => exact endsIn_check (refl s) fun _ => (ends_flush fun _ _ => False).keepsTransports.respond
  | brRead c k => exact endsIn_check (refl s) fun hok => (ends_read (fun _ _ => False) (bits hok)).keepsTransports
  | brReadbit c => exact endsIn_check (refl s) fun _ => (ends_read (fun _ _ => False) (by decide)).keepsTransports
  | brAlign c => exact endsIn_check (refl s) fun _ => of_moves (moves_align fun _ _ => False).1
  | fqWr n sym f =>
    exact endsIn_withTable (refl s) fun tab => endsIn_check (refl s) fun _ => of_ports (setFreq_port s tab sym.toNat f)
  | pcBuild n => exact runPcBuild_keepsTransports n
  | pcEncode c n sym =>
    exact endsIn_check (refl s) fun _ => endsIn_withTable (refl s) fun tab => endsIn_check (refl s) fun _ =>
      endsIn_check (refl s) fun _ => (ends_encode (fun _ _ => False) hf tab _).keepsTransports.respond
  | pcDecode c n =>
    exact endsIn_check (refl s) fun _ => endsIn_withTable (refl s) fun tab => endsIn_check (refl s) fun _ =>
      (ends_decode (fun _ _ => False) tab).keepsTransports.respond
  | pcQbits n sym | pcQlen n sym =>
    exact endsIn_withTable (refl s) fun _ => endsIn_check (refl s) fun _ => endsIn_check (refl s) fun _ => refl s
  | icCompress c src =>
    exact endsIn_intraChecks (refl s) (ends_intraCompress (fun _ _ => False) _ _ _ hf).keepsTransports.respond
  | icDecompress c dst => exact endsIn_intraChecks (refl s) (ends_intraDecompress _ _ _ _).keepsTransports.respond
  | xcCompress c src ref =>
    exact endsIn_interChecks (refl s) (ends_interCompress (fun _ _ => False) _ _ _ hf).keepsTransports.respond
  | xcDecompress c dst ref => exact endsIn_interChecks (refl s) (ends_interDecompress _ _ _ _).keepsTransports.respond
  | fsOpen c role => exact absurd rfl (hopen c role)
  | fsAck c v => exact runFsAck_keepsTransports v
  | fsMsg c token => exact runFsMsg_keepsTransports token
  | fsSend c => exact runFsSend_keepsTransports hf
  | fsRecv c => exact runFsRecv_keepsTransports
  | fsClose c => exact endsIn_check (refl s) fun _ => State.KeepsTransports.closeChannel c s
  | csrRd addr =>
    show (runCsrRd addr s).EndsIn _
    unfold runCsrRd
    split <;> exact refl s
  | csrWr addr value => exact runCsrWr_keepsTransports addr value
  | pxWr b index pix => exact endsIn_check (refl s) fun _ => of_ports (setPixel_port s b.toNat index.toNat pix)
  | pxRd b index => exact endsIn_check (refl s) fun _ => refl s
  | reset => exact absurd rfl hreset
  | _ => trivial

/-- Every command but `RESET` and `FS_OPEN` keeps the transports of every port. -/
theorem exec_keepsTransports {i : Instr} (hi : i.isCommand = true) (h : s.Inv) (ht : exec i s = .next t)
    (hreset : i ≠ .reset) (hopen : ∀ c role, i ≠ .fsOpen c role) : s.KeepsTransports t := by
  rw [exec_command hi] at ht
  obtain rfl := Host.Outcome.next.inj ht
  obtain ⟨u, hu, hport⟩ := (commandRun_keepsTransports h.inside.codesFit hreset hopen).complete (refl s) i
  exact hu.trans (of_ports hport)

/-- `FS_OPEN c` keeps the words of `TOUT[c]`, and every other port whole (44 R223). -/
theorem execFsOpen_ports {role : BitVec 1} (ht : exec (.fsOpen c role) s = .next t) :
    (t.port c).tout = (s.port c).tout ∧ ∀ d, d ≠ c → t.port d = s.port d := by
  rw [exec_command rfl] at ht
  obtain rfl := Host.Outcome.next.inj ht
  obtain ⟨u, hu, hport⟩ := (runFsOpen_endsIn c role s).complete (.inl rfl) (.fsOpen c role)
  show ((complete _ s (runFsOpen c role s)).port c).tout = _ ∧ ∀ d, d ≠ c → (complete _ s (runFsOpen c role s)).port d = _
  simp only [hport]
  rcases hu with rfl | rfl
  · exact ⟨rfl, fun _ _ => rfl⟩
  · exact ⟨by rw [port_setPort_self]; rfl, fun _ hd => port_setPort_ne s _ hd⟩

/-- Every command but `RESET` keeps the transports of a port that it does not open. -/
theorem exec_transportsKept {i : Instr} (hi : i.isCommand = true) (h : s.Inv) (ht : exec i s = .next t)
    (hreset : i ≠ .reset) (hopen : ∀ role, i ≠ .fsOpen d role) : (s.port d).TransportsKept (t.port d) := by
  by_cases hother : ∃ c role, i = .fsOpen c role
  · obtain ⟨c, role, rfl⟩ := hother
    obtain ⟨-, hports⟩ := execFsOpen_ports ht
    exact hports d (fun hd => hopen role (hd ▸ rfl)) ▸ .refl _
  · exact exec_keepsTransports hi h ht hreset (fun c role hi => hother ⟨c, role, hi⟩) d

/-- Settles O47: the body of every command keeps the transports (`commandRun_keepsTransports`) but for `RESET`, and for
`FS_OPEN` on the port that it opens. -/
theorem transportsKeepTheirOrder : Obligations.TransportsKeepTheirOrder := by
  intro i s t d hi h ht hreset
  by_cases hopen : ∃ role, i = .fsOpen d role
  · obtain ⟨role, rfl⟩ := hopen
    obtain ⟨htout, -⟩ := execFsOpen_ports ht
    exact ⟨htout ▸ List.prefix_refl _, fun hne => absurd rfl (hne role)⟩
  · obtain ⟨htout, htin, herr, heos⟩ := exec_transportsKept hi h ht hreset fun role hi => hopen ⟨role, hi⟩
    exact ⟨htout, fun _ => ⟨htin, herr, heos⟩⟩

end Sys2Proof.Machine
end

section
/-! SUPPORT. Transport words as bytes (20 R61). -/

namespace Sys2Proof.Machine

/-! ### Lists of blocks of one length -/

theorem getElem?_flatMap_block {α β : Type} {f : α → List β} {n r : Nat} (hlen : ∀ a, (f a).length = n) (hr : r < n)
    (l : List α) (j : Nat) : (l.flatMap f)[n * j + r]? = l[j]?.bind fun a => (f a)[r]? := by
  induction l generalizing j with
  | nil => rfl
  | cons a l ih =>
    cases j with
    | zero => rw [List.flatMap_cons, Nat.mul_zero, Nat.zero_add, List.getElem?_append_left (hlen a ▸ hr)]; rfl
    | succ j =>
      rw [List.flatMap_cons, List.getElem?_append_right (by rw [hlen, Nat.mul_succ]; omega), hlen,
        show n * (j + 1) + r - n = n * j + r by rw [Nat.mul_succ]; omega, ih]
      rfl

theorem getElem?_bitsOf (v : Nat) {k r : Nat} (h : r < k) : (bitsOf v k)[r]? = some (v.testBit (k - 1 - r)) := by
  induction k generalizing r with
  | zero => omega
  | succ k ih =>
    cases r with
    | zero => rfl
    | succ r => rw [bitsOf, List.getElem?_cons_succ, ih (by omega)]; congr 2; omega

/-! ### The bytes of a word -/

theorem length_wordBytes (w : Word) : (wordBytes w).length = 4 := rfl

theorem getElem?_wordBytes (w : Word) {b : Nat} (h : b < 4) : (wordBytes w)[b]? = some (w.extractLsb' (24 - 8 * b) 8) := by
  interval_cases b <;> rfl

/-- The bytes of word `j` of `TOUT[c]` stand at `4 j` to `4 j + 3`. -/
theorem getElem?_outputBytes (s : State) (c : PortNo) (j : Nat) {b : Nat} (h : b < 4) :
    (outputBytes s c)[4 * j + b]? = (s.port c).tout[j]?.map fun w => w.extractLsb' (24 - 8 * b) 8 := by
  rw [outputBytes, getElem?_flatMap_block length_wordBytes h, Option.map_eq_bind]
  simp only [getElem?_wordBytes _ h, Function.comp_def]

/-- Bit `r` of a word in stream order is bit `7 - r mod 8` of its byte `r div 8`. -/
theorem getElem?_wordBits (w : Word) {r : Nat} (h : r < 32) :
    (wordBits w)[r]? = some ((w.extractLsb' (24 - 8 * (r / 8)) 8).getLsbD (7 - r % 8)) := by
  rw [wordBits, getElem?_bitsOf _ h, BitVec.getLsbD_extractLsb', decide_eq_true (by omega), Bool.true_and, BitVec.getLsbD]
  congr 2
  omega

theorem wordOfBytes_extract (w : Word) :
    wordOfBytes (w.extractLsb' 24 8) (w.extractLsb' 16 8) (w.extractLsb' 8 8) (w.extractLsb' 0 8) = w := by
  have hw := w.isLt
  refine BitVec.eq_of_toNat_eq ?_
  simp only [wordOfBytes, toNat_field, BitVec.toNat_ofNat]
  omega

/-- The stream bits of `TOUT[c]`, read from its bytes. -/
theorem getElem?_outputBits (s : State) (c : PortNo) (q : Nat) : ((s.port c).tout.flatMap wordBits)[q]? =
    (outputBytes s c)[q / 8]?.map fun byte => byte.getLsbD (7 - q % 8) := by
  have hr : q % 32 < 32 := Nat.mod_lt _ (by decide)
  have hbit : q = 32 * (q / 32) + q % 32 := by omega
  have hbyte : q / 8 = 4 * (q / 32) + q % 32 / 8 := by omega
  have hlow : q % 32 % 8 = q % 8 := by omega
  rw [hbyte, getElem?_outputBytes s c _ (by omega), Option.map_map]
  conv_lhs => rw [hbit, getElem?_flatMap_block length_wordBits hr]
  rw [Option.map_eq_bind]
  simp only [getElem?_wordBits _ hr, hlow, Function.comp_def]

/-- Settles O13: bytes and bits of `TOUT[c]` are found word by word, and the four bytes of a word are its four digits to
base 256. -/
theorem transportBytesAreMostSignificantFirst : Obligations.TransportBytesAreMostSignificantFirst := by
  refine ⟨fun s c j w hw => ?_, fun s c q _ => getElem?_outputBits s c q, wordOfBytes_extract⟩
  have hbyte : ∀ {b : Nat}, b < 4 → (outputBytes s c)[4 * j + b]? = some (w.extractLsb' (24 - 8 * b) 8) := fun hb => by
    rw [getElem?_outputBytes s c j hb, hw]; rfl
  exact ⟨hbyte (b := 0) (by decide), hbyte (b := 1) (by decide), hbyte (b := 2) (by decide), hbyte (b := 3) (by decide)⟩

end Sys2Proof.Machine
end

section
/-! SUPPORT. Command words and commands (30_encoding.md rules R91 to R95): the decoder's rows undo the encoder's, and the
zero fields a row of the decoder asks for are the mask and match of that row in opcode_table.json. -/

namespace Sys2Proof.Machine

/-! ### The decoder undoes the encoder (30 R91, R92) -/

theorem commandWhen_eq_some {zeros : Bool} {i j : Instr} : commandWhen zeros j = some i ↔ zeros = true ∧ j = i := by
  cases zeros <;> simp [commandWhen]

/-- The role bit of an `FS_OPEN` word, and the bits of `aux` above it (30 R92). -/
theorem role_extract (role : BitVec 1) :
    (role.setWidth 16).extractLsb' 0 1 = role ∧ (role.setWidth 16).extractLsb' 1 15 = 0#15 := by
  revert role; decide

theorem setWidth_role {aux : BitVec 16} (h : aux.extractLsb' 1 15 = 0#15) : (aux.extractLsb' 0 1).setWidth 16 = aux := by
  have hlt := aux.isLt
  have hnat := congrArg BitVec.toNat h
  rw [toNat_field, BitVec.toNat_ofNat] at hnat
  apply BitVec.eq_of_toNat_eq
  rw [BitVec.toNat_setWidth, toNat_field]
  omega

theorem auxOf_low {aux : BitVec 16} (h : auxHigh aux = 0#8) : auxOf (auxLow aux) 0#8 = aux := h ▸ auxOf_halves aux

theorem eq_ofNat_of_toNat {w k : Nat} {v : BitVec w} (h : v.toNat = k) : v = BitVec.ofNat w k := by
  rw [← h, BitVec.ofNat_toNat, BitVec.setWidth_eq]

theorem exists_fieldsOf {i : Instr} (h : i.isCommand = true) : ∃ f, fieldsOf i = some f := by
  cases i
  case direct0 | esc0 | direct1 | esc1 | run => cases h
  all_goals exact ⟨_, rfl⟩

/-- A row of the decoder reads back the operands the encoder wrote; those it wrote into a part of a field (a buffer
number, a role) need the lemma about that part. -/
theorem decodeFields_fieldsOf {i : Instr} {f : Fields} (h : fieldsOf i = some f) : decodeFields f = some i := by
  cases i with
  | direct0 _ | esc0 _ | direct1 _ | esc1 _ | run _ => cases h
  | icCompress _ buffer | icDecompress _ buffer =>
    cases h
    simp [decodeFields, commandWhen, aux_halves buffer 0#8]
  | xcCompress _ buffer ref | xcDecompress _ buffer ref =>
    cases h
    simp [decodeFields, commandWhen, aux_halves buffer ref]
  | fsOpen _ role =>
    cases h
    simp [decodeFields, commandWhen, role_extract role]
  | pxWr b _ _ | pxRd b _ =>
    cases h
    simp [decodeFields, commandWhen, bufferField_halves]
  | _ => cases h; rfl

/-- Fields that decode hold nothing but the opcode and the operands: every other field is one that the row of the decoder
requires to be zero. -/
theorem fieldsOf_decodeFields {f : Fields} {i : Instr} (h : decodeFields f = some i) : fieldsOf i = some f := by
  obtain ⟨op, c, t, aux, val⟩ := f
  unfold decodeFields at h
  split at h
  case h_28 => cases h
  all_goals
    rename_i hop
    obtain rfl := eq_ofNat_of_toNat hop
  case h_25 =>
    obtain rfl := Option.some.inj h
    simp [fieldsOf, halves_bufferField]
  all_goals
    obtain ⟨hz, rfl⟩ := commandWhen_eq_some.mp h
    simp only [Bool.and_eq_true, decide_eq_true_eq, BitVec.ofNat_eq_ofNat] at hz
    simp_all [fieldsOf, halves_bufferField, auxOf_halves, auxOf_low, setWidth_role]

/-- A word decodes to a command exactly when its fields are those that encode the command. -/
theorem decode_eq_some_iff {w : CmdWord} {i : Instr} : decode w = some i ↔ fieldsOf i = some (fieldsOfWord w) :=
  ⟨fieldsOf_decodeFields, decodeFields_fieldsOf⟩

/-- Settles O52: decoding and encoding are inverse on fields (`decode_eq_some_iff`), and words and fields are one to one. -/
theorem commandWordsRoundTrip : Obligations.CommandWordsRoundTrip := by
  refine ⟨fun i hi => ?_, fun w i h => ?_⟩
  · obtain ⟨f, hf⟩ := exists_fieldsOf hi
    exact ⟨wordOfFields f, by rw [encode, hf]; rfl, decode_eq_some_iff.mpr (by rw [hf, fieldsOfWord_wordOfFields])⟩
  · have hf := decode_eq_some_iff.mp h
    refine ⟨?_, decode_isCommand h, ?_⟩
    · rw [encode, hf, Option.map_some, wordOfFields_fieldsOfWord]
    · rw [opcodeOf, hf]
      rfl

/-- Settles O55: the decoder evaluated on the fourteen words. -/
theorem writtenOutWordsDecode : Obligations.WrittenOutWordsDecode := by
  unfold Obligations.WrittenOutWordsDecode
  decide

/-! ### The rows of the opcode table (30 R95) -/

theorem fieldsOfWord_injective {u v : CmdWord} (h : fieldsOfWord u = fieldsOfWord v) : u = v := by
  rw [← wordOfFields_fieldsOfWord u, h, wordOfFields_fieldsOfWord]

/-- Fields under a mask. -/
def maskFields (f m : Fields) : Fields := ⟨f.op &&& m.op, f.c &&& m.c, f.t &&& m.t, f.aux &&& m.aux, f.val &&& m.val⟩

theorem fieldsOfWord_and (w m : CmdWord) : fieldsOfWord (w &&& m) = maskFields (fieldsOfWord w) (fieldsOfWord m) := by
  simp only [fieldsOfWord, maskFields, BitVec.extractLsb'_and]

/-- Fields that meet the mask and match of a row of the opcode table (30 R95). -/
def MeetsRow (f : Fields) (row : String × CmdWord × CmdWord) : Prop :=
  maskFields f (fieldsOfWord row.2.2) = fieldsOfWord row.2.1

theorem meetsRow_iff (w : CmdWord) (row : String × CmdWord × CmdWord) :
    MeetsRow (fieldsOfWord w) row ↔ w &&& row.2.2 = row.2.1 := by
  rw [MeetsRow, ← fieldsOfWord_and]
  exact ⟨fieldsOfWord_injective, congrArg _⟩

theorem and_mask_full {w : Nat} {v m : BitVec w} (h : m = BitVec.allOnes w) : v &&& m = v := by
  rw [h, BitVec.and_allOnes]

/-- The bits of `v` from bit `i` up are zero exactly when the mask of those bits clears it. -/
theorem and_mask_high_iff {w : Nat} (v : BitVec w) (i : Nat) :
    v &&& BitVec.allOnes w <<< i = 0#w ↔ v.extractLsb' i (w - i) = 0#(w - i) := by
  constructor
  · intro h
    ext j hj
    have := congrArg (BitVec.getLsbD · (i + j)) h
    simpa [show i + j < w by omega] using this
  · intro h
    ext j hj
    by_cases hij : j < i
    · simp [hij]
    · have := congrArg (BitVec.getLsbD · (j - i)) h
      simpa [show j - i < w - i by omega, show i + (j - i) = j by omega, hij, BitVec.getLsbD_eq_getElem hj] using this

theorem mask_auxHigh_iff (aux : BitVec 16) : aux &&& 65280#16 = 0#16 ↔ auxHigh aux = 0#8 := and_mask_high_iff aux 8

theorem mask_role_iff (aux : BitVec 16) : aux &&& 65534#16 = 0#16 ↔ aux.extractLsb' 1 15 = 0#15 := and_mask_high_iff aux 1

/-- The fields that encode a command meet the row with its mnemonic. -/
theorem row_of_fieldsOf {i : Instr} {f : Fields} (h : fieldsOf i = some f) :
    ∃ row, opcodeRows.find? (fun row => row.1 == mnemonicOf i) = some row ∧ MeetsRow f row := by
  cases i
  case direct0 | esc0 | direct1 | esc1 | run => cases h
  all_goals
    cases h
    refine ⟨_, rfl, ?_⟩
    simp [MeetsRow, fieldsOfWord, maskFields, mask_auxHigh_iff, mask_role_iff, aux_halves, role_extract]

/-- Fields that meet a row of the opcode table decode to a command with that row's mnemonic. -/
theorem decodeFields_of_row {f : Fields} {row : String × CmdWord × CmdWord} (hrow : row ∈ opcodeRows)
    (h : MeetsRow f row) : ∃ i, decodeFields f = some i ∧ row.1 = mnemonicOf i := by
  obtain ⟨op, c, t, aux, val⟩ := f
  simp only [opcodeRows] at hrow
  fin_cases hrow
  all_goals
    simp (disch := decide) [MeetsRow, fieldsOfWord, maskFields, mask_auxHigh_iff, mask_role_iff, and_mask_full] at h
    simp [decodeFields, commandWhen, mnemonicOf, h]

theorem opcodeRows_mnemonics_nodup : (opcodeRows.map Prod.fst).Nodup := by decide

/-- A word that decodes meets the row of its command and no other. -/
theorem meetsRow_iff_mnemonic {w : CmdWord} {i : Instr} (h : decode w = some i) {row : String × CmdWord × CmdWord}
    (hrow : row ∈ opcodeRows) : w &&& row.2.2 = row.2.1 ↔ row.1 = mnemonicOf i := by
  rw [← meetsRow_iff]
  constructor
  · intro hmeets
    obtain ⟨j, hj, hname⟩ := decodeFields_of_row hrow hmeets
    obtain rfl : j = i := Option.some.inj (hj.symm.trans h)
    exact hname
  · intro hname
    obtain ⟨own, hfind, hmeets⟩ := row_of_fieldsOf (decode_eq_some_iff.mp h)
    have hown : own.1 = mnemonicOf i := by simpa using List.find?_some hfind
    obtain rfl : row = own := List.inj_on_of_nodup_map opcodeRows_mnemonics_nodup hrow (List.mem_of_find?_eq_some hfind)
      (hname.trans hown.symm)
    exact hmeets

/-- A word is illegal exactly when it meets no row. -/
theorem decode_eq_none_iff (w : CmdWord) : decode w = none ↔ ∀ row ∈ opcodeRows, w &&& row.2.2 ≠ row.2.1 := by
  constructor
  · intro h row hrow hmeets
    obtain ⟨i, hi, -⟩ := decodeFields_of_row hrow ((meetsRow_iff w row).mpr hmeets)
    rw [decode, hi] at h
    cases h
  · intro h
    cases hd : decode w with
    | none => rfl
    | some i =>
      obtain ⟨row, hfind, hmeets⟩ := row_of_fieldsOf (decode_eq_some_iff.mp hd)
      exact absurd ((meetsRow_iff w row).mp hmeets) (h row (List.mem_of_find?_eq_some hfind))

/-! ### A word at the command port (30 R90, R93) -/

theorem issue_command {w : CmdWord} {i : Instr} (s : State) (h : decode w = some i) : issue w s = exec i s := by
  rw [issue, h]

theorem sameState_takeError (op : BitVec 8) (e : Status) (s : State) : SameState s (takeError op e s) := rfl

/-- An illegal word fails with `E_BAD_CMD` and changes nothing else (30 R93, 60 R274). -/
theorem issue_illegal {w : CmdWord} (s : State) (h : decode w = none) :
    ∃ t, issue w s = .next t ∧ EndsWith (opcodeOfWord w) .badCmd t ∧ SameState s t :=
  ⟨takeError (opcodeOfWord w) .badCmd s, by rw [issue, h], takeError_endsWith _ _ s, sameState_takeError _ _ s⟩

/-- Settles O53: a word that decodes meets its own row alone, one that does not meets none. -/
theorem wordsMatchTheOpcodeTable : Obligations.WordsMatchTheOpcodeTable :=
  ⟨fun _ _ h _ hrow => meetsRow_iff_mnemonic h hrow, decode_eq_none_iff, fun _ s h => issue_illegal s h⟩

end Sys2Proof.Machine
end

section
/-! SUPPORT. The step while no command holds (30 R90, 10 R26, R27): it takes the host's next act. -/

namespace Sys2Proof.Machine

variable {c : PortNo} {s : State}

theorem step_idle (h : s.host = []) : step s = .next s := by
  rw [step, hostStep, h]

theorem step_act {act : HostAct} {rest : List HostAct} (hhold : s.holding = none) (hhost : s.host = act :: rest) :
    step s = takeAct act { s with host := rest } := by
  rw [step, hostStep, hhost, hhold]

theorem onTransport_present (act : Port → Port) (h : c.toNat < s.cfg.nCh) :
    onTransport c act s = .next (s.setPort c (act (s.port c))) := if_pos (decide_eq_true h)

/-- A transport at or beyond `N_CH` does not exist (10 R20; log 14). -/
theorem onTransport_absent (act : Port → Port) (h : s.cfg.nCh ≤ c.toNat) :
    onTransport c act s = .refused .noSuchTransport :=
  if_neg (by rw [portOk, decide_eq_true_eq]; omega)

/-- Settles O56: the step is the host's next act, which is a word issued or an act on a transport. -/
theorem stepExecutesTheCommandWord : Obligations.StepExecutesTheCommandWord := by
  refine fun s hhold => ⟨step_idle, fun rest => ?_⟩
  have hact : ∀ {act}, s.host = act :: rest → step s = takeAct act { s with host := rest } := step_act hhold
  refine ⟨fun w i hhost hw => ?command, fun w hhost hw => ?illegal,
    fun c => ⟨fun hc => ?present, fun hc hhost => ?absent⟩⟩
  case command => exact (hact hhost).trans (issue_command _ hw)
  case illegal =>
    rw [hact hhost]
    exact issue_illegal _ hw
  case present =>
    exact ⟨fun w hhost => (hact hhost).trans (onTransport_present (appendInput w) hc),
      fun hhost => (hact hhost).trans (onTransport_present endInput hc),
      fun hhost => (hact hhost).trans (onTransport_present failOutput hc)⟩
  case absent =>
    rcases hhost with ⟨w, hhost⟩ | hhost | hhost
    · exact (hact hhost).trans (onTransport_absent (appendInput w) hc)
    · exact (hact hhost).trans (onTransport_absent endInput hc)
    · exact (hact hhost).trans (onTransport_absent failOutput hc)

end Sys2Proof.Machine
end

section
/-! SUPPORT. Stream symbols and their bits (30_encoding.md rules R101 to R107): the numbers of a table and its symbols
correspond, and a walk in a well-formed table needs at most 32 bits. -/

namespace Sys2Proof.Machine

variable {t : TableId} {tab : CodeTable} {n sym : Nat} {raw : Pixel} {i : Instr} {bits rest : List Bool}

/-! ### Symbols and their numbers (30 R102, R103, R106) -/

/-- The raw bits that follow the code of symbol number `sym`: 16 after an escape, none otherwise (30 R106). -/
def immediateOf (sym : Nat) (raw : Pixel) : List Bool := if sym = symEsc then bitsOf raw.toNat 16 else []

theorem itemOf_direct (h : sym ≤ 512) (raw : Pixel) : itemOf t sym raw = some (directItem t (BitVec.ofNat 10 sym)) := by
  cases t <;> exact if_pos h

theorem itemOf_escape (raw : Pixel) : itemOf t symEsc raw = some (escapeItem t raw) := by
  cases t <;> rfl

theorem itemOf_run {len : Nat} (h1 : 1 ≤ len) (h512 : len ≤ 512) (raw : Pixel) :
    itemOf .inter (symRun0 + len) raw = some (runItem len) := by
  simp only [itemOf]
  rw [if_neg (by unfold symRun0 codeMax; omega), if_neg (by unfold symRun0 symEsc; omega),
    if_pos (by unfold runMax; omega), Nat.add_sub_cancel_left]
  rfl

/-- The classes of symbols: direct, escape and, in table 1, runs (30 R102, R103). -/
theorem symbol_classes (h : sym < t.symbols) :
    sym ≤ 512 ∨ sym = symEsc ∨ t = .inter ∧ ∃ len, 1 ≤ len ∧ len ≤ 512 ∧ sym = symRun0 + len := by
  cases t with
  | intra =>
    simp only [TableId.symbols] at h
    unfold symEsc
    omega
  | inter =>
    simp only [TableId.symbols] at h
    by_cases hrun : 513 < sym
    · exact .inr (.inr ⟨rfl, sym - 513, by omega, by omega, by unfold symRun0; omega⟩)
    · unfold symEsc
      omega

/-- Every number of an alphabet, with a raw value, is a well-formed symbol that has that number and that immediate. -/
theorem itemOf_spec (h : sym < t.symbols) (raw : Pixel) : ∃ i, itemOf t sym raw = some i ∧ i.wf = true ∧
    symbolOf i = some (t, sym) ∧ immediateBits i = immediateOf sym raw := by
  rcases symbol_classes h with hdirect | rfl | ⟨rfl, len, h1, h512, rfl⟩
  · have hnat : (BitVec.ofNat 10 sym).toNat = sym := by rw [BitVec.toNat_ofNat, Nat.mod_eq_of_lt (by omega)]
    have hwf : (directItem t (BitVec.ofNat 10 sym)).wf = directNumberOk (BitVec.ofNat 10 sym) := by cases t <;> rfl
    refine ⟨_, itemOf_direct hdirect raw, ?_, by rw [symbolOf_directItem, hnat], ?_⟩
    · rw [hwf, directNumberOk, hnat]
      exact decide_eq_true hdirect
    · rw [immediateBits_directItem, immediateOf, if_neg (by unfold symEsc; omega)]
  · refine ⟨_, itemOf_escape raw, by cases t <;> rfl, symbolOf_escapeItem t raw, ?_⟩
    rw [immediateBits_escapeItem, immediateOf, if_pos rfl]
  · have hnat : (BitVec.ofNat 10 len).toNat = len := by rw [BitVec.toNat_ofNat, Nat.mod_eq_of_lt (by omega)]
    refine ⟨_, itemOf_run h1 h512 raw, ?_, by rw [runItem, symbolOf, hnat], ?_⟩
    · simp [runItem, Instr.wf, runLengthOk, runMax, hnat, h1, h512]
    · rw [immediateOf, if_neg (by unfold symRun0 symEsc; omega)]
      rfl

/-- A well-formed symbol has a number of its alphabet. -/
theorem symbolOf_lt (hi : symbolOf i = some (t, sym)) (hw : i.wf = true) : sym < t.symbols := by
  cases i with
  | direct0 s => exact (Laws.Coding.direct0 s).2.2 hw t sym hi
  | esc0 s => exact (Laws.Coding.esc0 s).2.2 hw t sym hi
  | direct1 s => exact (Laws.Coding.direct1 s).2.2 hw t sym hi
  | esc1 s => exact (Laws.Coding.esc1 s).2.2 hw t sym hi
  | run len => exact (Laws.Coding.run len).2.2 hw t sym hi
  | _ => cases hi

/-- A symbol is known by its number and its immediate. -/
theorem itemOf_symbolOf (hi : symbolOf i = some (t, sym)) (hw : i.wf = true) :
    ∃ raw, itemOf t sym raw = some i ∧ (sym ≠ symEsc → raw = 0) := by
  cases i with
  | direct0 s | direct1 s =>
    cases hi
    have hle : s.toNat ≤ 512 := of_decide_eq_true hw
    refine ⟨0, (itemOf_direct hle 0).trans ?_, fun _ => rfl⟩
    rw [BitVec.ofNat_toNat, BitVec.setWidth_eq]
    rfl
  | esc0 raw | esc1 raw =>
    cases hi
    exact ⟨raw, itemOf_escape raw, fun hne => absurd rfl hne⟩
  | run len =>
    cases hi
    obtain ⟨h1, h512⟩ : 1 ≤ len.toNat ∧ len.toNat ≤ runMax := by
      simpa only [Instr.wf, runLengthOk, Bool.and_eq_true, decide_eq_true_eq] using hw
    refine ⟨0, (itemOf_run h1 h512 0).trans ?_, fun _ => rfl⟩
    rw [runItem, BitVec.ofNat_toNat, BitVec.setWidth_eq]
  | _ => cases hi

/-! ### Raw values and their 16 bits (30 R106) -/

theorem bitsOf_rawValue (h : bits.length = 16) : bitsOf (BitVec.ofNat 16 (natOfBits bits)).toNat 16 = bits := by
  have hlt := natOfBits_lt bits
  have hbits := bitsOf_natOfBits bits
  rw [h] at hlt hbits
  rw [BitVec.toNat_ofNat, Nat.mod_eq_of_lt hlt, hbits]

theorem rawValue_bitsOf (raw : Pixel) : BitVec.ofNat 16 (natOfBits (bitsOf raw.toNat 16)) = raw := by
  rw [natOfBits_bitsOf, Nat.mod_eq_of_lt raw.isLt, BitVec.ofNat_toNat, BitVec.setWidth_eq]

/-- Sixteen bits hold the immediate of any symbol. -/
theorem exists_immediate (sym : Nat) (h : 16 ≤ bits.length) :
    ∃ raw rest, bits = immediateOf sym raw ++ rest ∧ (sym ≠ symEsc → raw = 0) := by
  by_cases hesc : sym = symEsc
  · refine ⟨BitVec.ofNat 16 (natOfBits (bits.take 16)), bits.drop 16, ?_, fun hne => absurd hesc hne⟩
    rw [immediateOf, if_pos hesc, bitsOf_rawValue (by rw [List.length_take]; omega), List.take_append_drop]
  · exact ⟨0, bits, by rw [immediateOf, if_neg hesc, List.nil_append], fun _ => rfl⟩

/-! ### Decoding a symbol (30 R101) -/

/-- A walk that ends before an immediate decodes the symbol with that immediate. -/
theorem decodeItem_of_walk (h : walkBits tab.tree 0 bits = some (sym, immediateOf sym raw ++ rest))
    (hraw : sym ≠ symEsc → raw = 0) : decodeItem t tab bits = (itemOf t sym raw).map fun i => (i, rest) := by
  rw [decodeItem, h]
  by_cases hesc : sym = symEsc
  · have himm : immediateOf sym raw = bitsOf raw.toNat 16 := if_pos hesc
    have hlen : (bitsOf raw.toNat 16).length = 16 := length_bitsOf _ _
    simp only [himm, if_pos hesc]
    rw [if_neg (by rw [List.length_append]; omega), List.take_left' hlen, List.drop_left' hlen, rawValue_bitsOf]
  · obtain rfl := hraw hesc
    have himm : immediateOf sym 0 = [] := if_neg hesc
    simp only [himm, if_neg hesc, List.nil_append]

/-- What decodes is a walk, then an immediate. -/
theorem walk_of_decodeItem (h : decodeItem t tab bits = some (i, rest)) :
    ∃ sym raw, walkBits tab.tree 0 bits = some (sym, immediateOf sym raw ++ rest) ∧ itemOf t sym raw = some i := by
  unfold decodeItem at h
  split at h
  · cases h
  · rename_i sym left hwalk
    split at h
    · rename_i hesc
      split at h
      · cases h
      · obtain ⟨j, hj, heq⟩ := Option.map_eq_some_iff.mp h
        cases heq
        refine ⟨sym, _, ?_, hj⟩
        rw [hwalk, immediateOf, if_pos hesc, bitsOf_rawValue (by rw [List.length_take]; omega), List.take_append_drop]
    · rename_i hesc
      obtain ⟨j, hj, heq⟩ := Option.map_eq_some_iff.mp h
      cases heq
      exact ⟨sym, 0, by rw [hwalk, immediateOf, if_neg hesc, List.nil_append], hj⟩

/-! ### A walk needs at most 32 bits (30 R107 (d)) -/

theorem follow_concat (tree : List Node) (i : Nat) (path : List Bool) (b : Bool) :
    follow tree i (path ++ [b]) = (follow tree i path).bind fun j => follow tree j [b] := by
  induction path generalizing i with
  | nil => rfl
  | cons a path ih =>
    rw [List.cons_append, follow, follow]
    split
    · exact ih _
    · rfl
    · rfl

/-- The index before the last branch of a path is the parent of the index at its end. -/
theorem parent_of_follow {tree : List Node} {i k : Nat} {path : List Bool} {b : Bool}
    (h : follow tree i (path ++ [b]) = some k) : ∃ j, follow tree i path = some j ∧ IsChild tree j k := by
  rw [follow_concat] at h
  obtain ⟨j, hj, hstep⟩ := Option.bind_eq_some_iff.mp h
  refine ⟨j, hj, ?_⟩
  rw [follow] at hstep
  split at hstep
  · rename_i c0 c1 hnode
    refine ⟨c0, c1, hnode, ?_⟩
    cases Option.some.inj hstep
    cases b
    · exact .inl rfl
    · exact .inr rfl
  · cases hstep
  · cases hstep

theorem TableWF.child_bounds (h : TableWF tab n) {j k : Nat} (hc : IsChild tab.tree j k) : 1 ≤ k ∧ k ≤ 2 * n - 2 := by
  obtain ⟨c0, c1, hnode, hk⟩ := hc
  have := h.children j c0 c1 hnode
  omega

theorem TableWF.follow_concat_ne_root (h : TableWF tab n) (path : List Bool) (b : Bool) :
    follow tab.tree 0 (path ++ [b]) ≠ some 0 := fun hf => by
  obtain ⟨j, -, hchild⟩ := parent_of_follow hf
  have := h.child_bounds hchild
  omega

/-- All paths from the root to an index have one length: parents are unique and the root has none. -/
theorem TableWF.path_length_unique (h : TableWF tab n) {p q : List Bool} {k : Nat} (hp : follow tab.tree 0 p = some k)
    (hq : follow tab.tree 0 q = some k) : p.length = q.length := by
  induction p using List.reverseRecOn generalizing q k with
  | nil =>
    cases hp
    cases q using List.reverseRecOn with
    | nil => rfl
    | append_singleton q b => exact absurd hq (h.follow_concat_ne_root q b)
  | append_singleton p a ih =>
    cases q using List.reverseRecOn with
    | nil =>
      cases hq
      exact absurd hp (h.follow_concat_ne_root p a)
    | append_singleton q b =>
      obtain ⟨j, hj, hchild⟩ := parent_of_follow hp
      obtain ⟨j', hj', hchild'⟩ := parent_of_follow hq
      obtain ⟨hk1, hk2⟩ := h.child_bounds hchild
      obtain ⟨i, -, honly⟩ := h.oneParent k hk1 hk2
      obtain rfl : j = j' := (honly j hchild).trans (honly j' hchild').symm
      simp [ih hj hj']

/-- The tree has a depth. -/
theorem TableWF.paths_bounded (h : TableWF tab n) :
    ∃ depth, ∀ path k, follow tab.tree 0 path = some k → path.length ≤ depth := by
  choose! pathTo hpath using h.reached
  refine ⟨(Finset.range (2 * n - 1)).sup fun k => (pathTo k).length, fun path k hk => ?_⟩
  have hle : k ≤ 2 * n - 2 := by
    cases path using List.reverseRecOn with
    | nil => cases hk; omega
    | append_singleton p b =>
      obtain ⟨j, -, hchild⟩ := parent_of_follow hk
      exact (h.child_bounds hchild).2
  rw [h.path_length_unique hk (hpath k hle)]
  have := h.someSymbol
  exact Finset.le_sup (f := fun k => (pathTo k).length) (Finset.mem_range.mpr (by omega))

/-- A walk that meets no leaf has followed all its bits. -/
theorem TableWF.follow_of_walk_none (h : TableWF tab n) {i : Nat} (hi : i < tab.tree.length)
    (hw : walkBits tab.tree i bits = none) : ∃ k, follow tab.tree i bits = some k := by
  induction bits generalizing i with
  | nil => exact ⟨i, rfl⟩
  | cons b bits ih =>
    have hnode := List.getElem?_eq_getElem hi
    rw [walkBits.eq_def, List.getD_eq_getElem?_getD, hnode] at hw
    cases hn : tab.tree[i] with
    | leaf sym => simp [hn] at hw
    | node c0 c1 =>
      simp only [hn, Option.getD_some] at hw
      rw [hn] at hnode
      have hc := h.children i c0 c1 hnode
      obtain ⟨k, hk⟩ := ih (by rw [h.nodes]; split <;> omega) hw
      exact ⟨k, by simp only [follow, hnode]; exact hk⟩

theorem TableWF.code_length (h : TableWF tab n) (hs : sym < n) : (symbolCode tab sym).length ≤ 32 := by
  obtain ⟨e, path, i, -, -, -, -, h32, hcode⟩ := h.code hs
  rwa [hcode]

/-- Any 32 bits begin with a code: bits that meet no leaf, continued beyond the depth of the tree, meet one at the end of
a code longer than they are. -/
theorem TableWF.walk_of_length (h : TableWF tab n) (hlen : 32 ≤ bits.length) :
    ∃ sym rest, walkBits tab.tree 0 bits = some (sym, rest) := by
  obtain ⟨depth, hdepth⟩ := h.paths_bounded
  have hpos : 0 < tab.tree.length := by rw [h.nodes]; have := h.someSymbol; omega
  cases hw : walkBits tab.tree 0 (bits ++ List.replicate (depth + 1) false) with
  | none =>
    obtain ⟨k, hk⟩ := h.follow_of_walk_none hpos hw
    have hle := hdepth _ k hk
    rw [List.length_append, List.length_replicate] at hle
    omega
  | some found =>
    obtain ⟨hs, hbits⟩ := h.code_of_walk (sym := found.1) (rest := found.2) hw
    have hcode := h.code_length hs
    have hprefix : symbolCode tab found.1 <+: bits :=
      List.prefix_of_prefix_length_le ⟨_, hbits.symm⟩ (List.prefix_append _ _) (by omega)
    obtain ⟨rest, rfl⟩ := hprefix
    exact ⟨found.1, rest, h.walk_code hs rest⟩

/-! ### Symbols and bits -/

/-- The bits of a symbol decode to it: the walk takes its code, its immediate comes next. -/
theorem decodeItem_itemBits (h : TableWF tab t.symbols) (hi : symbolOf i = some (t, sym)) (hw : i.wf = true)
    (rest : List Bool) : decodeItem t tab (itemBits tab i ++ rest) = some (i, rest) := by
  have hs := symbolOf_lt hi hw
  obtain ⟨raw, hitem, hraw⟩ := itemOf_symbolOf hi hw
  obtain ⟨j, hj, -, -, himm⟩ := itemOf_spec hs raw
  obtain rfl : i = j := Option.some.inj (hitem.symm.trans hj)
  have hwalk := h.walk_code hs (immediateOf sym raw ++ rest)
  rw [← List.append_assoc, ← himm, ← itemBits_eq h hi hs, himm] at hwalk
  rw [decodeItem_of_walk hwalk hraw, hitem]
  rfl

/-- What decodes is a symbol of the table: the walk went along its code. -/
theorem itemBits_of_decodeItem (h : TableWF tab t.symbols) (hd : decodeItem t tab bits = some (i, rest)) :
    i.wf = true ∧ (∃ sym, symbolOf i = some (t, sym)) ∧ bits = itemBits tab i ++ rest := by
  obtain ⟨sym, raw, hwalk, hitem⟩ := walk_of_decodeItem hd
  obtain ⟨hs, hbits⟩ := h.code_of_walk hwalk
  obtain ⟨j, hj, hw, hi, himm⟩ := itemOf_spec hs raw
  obtain rfl : i = j := Option.some.inj (hitem.symm.trans hj)
  exact ⟨hw, ⟨sym, hi⟩, by rw [itemBits_eq h hi hs, himm, List.append_assoc, hbits]⟩

/-- A code takes at most 32 bits and an immediate at most 16. -/
theorem decodeItem_of_length (h : TableWF tab t.symbols) (hlen : 48 ≤ bits.length) : decodeItem t tab bits ≠ none := by
  obtain ⟨sym, left, hwalk⟩ := h.walk_of_length (bits := bits) (by omega)
  obtain ⟨hs, hbits⟩ := h.code_of_walk hwalk
  have hcode := h.code_length hs
  have hleft : 16 ≤ left.length := by rw [hbits, List.length_append] at hlen; omega
  obtain ⟨raw, rest, rfl, hraw⟩ := exists_immediate sym hleft
  obtain ⟨i, hi, -⟩ := itemOf_spec hs raw
  rw [decodeItem_of_walk hwalk hraw, hi]
  exact Option.some_ne_none _

/-- Settles O54: the three lemmas above, for each table. -/
theorem streamSymbolsRoundTrip : Obligations.StreamSymbolsRoundTrip := fun _ _ h =>
  ⟨fun _ _ rest hi hw => decodeItem_itemBits h hi hw rest, fun _ _ _ hd => itemBits_of_decodeItem h hd,
    fun _ hlen => decodeItem_of_length h hlen⟩

end Sys2Proof.Machine
end

section
/-! SUPPORT. A symbol that a decompressor decodes does what the symbol does as an instruction (42_intra_codec.md rule R188,
43_inter_codec.md rule R205; log 9). -/

namespace Sys2Proof.Machine

variable {s : State} {cu : Cursor} {i : Instr} {sym : Nat}

/-- A symbol of the cursor's table, executed where the cursor stands at a pixel that takes one (30 R104, R105), acts
there. -/
theorem exec_symbol (hcu : s.cursor = some cu) (hlt : cu.pos < cu.count) (hraw : cu.table = .intra → 0 < cu.pos)
    (hi : symbolOf i = some (cu.table, sym)) (hw : i.wf = true)
    (hfit : ∀ len, i = .run len → cu.pos + len.toNat ≤ cu.count) : exec i s = .next (applyItem cu i s) := by
  have hcursor : ∀ t x, symbolOf i = some (t, x) → symbolCursor t s = some cu := fun t x h => by
    obtain rfl : cu.table = t := congrArg Prod.fst (Option.some.inj (hi.symm.trans h))
    rw [symbolCursor, hcu]
    exact if_pos ⟨rfl, hlt, hraw⟩
  cases i with
  | direct0 a =>
    simp only [exec, execDirect0, hcursor .intra _ rfl]
    exact if_pos hw
  | esc0 raw => simp only [exec, execEsc0, hcursor .intra _ rfl, applyItem]
  | direct1 a =>
    simp only [exec, execDirect1, hcursor .inter _ rfl]
    exact if_pos hw
  | esc1 raw => simp only [exec, execEsc1, hcursor .inter _ rfl, applyItem]
  | run len =>
    have hok : runLengthOk len = true := hw
    have hfits : runFits cu len = true := decide_eq_true (hfit len rfl)
    simp only [exec, execRun, hcursor .inter _ rfl, hok, hfits, applyItem, Bool.not_true, Bool.false_eq_true, if_false,
      if_true]
  | _ => cases hi

theorem isIntraItem_of_symbol (hi : symbolOf i = some (.intra, sym)) (hw : i.wf = true) : isIntraItem i = true := by
  cases i with
  | direct0 _ | esc0 _ => exact hw
  | _ => cases hi

theorem isInterItem_of_symbol (hi : symbolOf i = some (.inter, sym)) (hw : i.wf = true) : isInterItem i = true := by
  cases i with
  | direct1 _ | esc1 _ | run _ => exact hw
  | _ => cases hi

/-- The next item of a frame, where the input begins with a symbol: the bits of the symbol are consumed and it acts at the
cursor. -/
theorem frameItem_symbol {rest : List Bool} (hraw : cu.table = .intra → 0 < cu.pos)
    (hi : symbolOf i = some (cu.table, sym)) (hw : i.wf = true)
    (hfit : ∀ len, i = .run len → cu.pos + len.toNat ≤ cu.count) (ht : s.TableReady cu.table)
    (hp : (s.port cu.port).Inv) (hin : (s.port cu.port).inBits = itemBits (s.table cu.table).contents i ++ rest) :
    ∃ q, frameItem cu s = .done () (applyItem cu i (s.setPort cu.port q)) ∧
      (s.port cu.port).Consumes q (itemBits (s.table cu.table).contents i).length := by
  unfold frameItem
  cases htab : cu.table with
  | intra =>
    rw [htab] at hi ht hin
    obtain ⟨q, hq, hc, -⟩ := intraItem_symbol ht hp (Nat.ne_of_gt (hraw htab))
      (isIntraItem_cases (isIntraItem_of_symbol hi hw)) hin
    exact ⟨q, hq, hc⟩
  | inter =>
    rw [htab] at hi ht hin
    obtain ⟨q, hq, hc, -⟩ := interItem_symbol_done ht hp (isInterItem_of_symbol hi hw) hfit hin
    exact ⟨q, hq, hc⟩

/-- Settles O35: the decompressor's item (`frameItem_symbol`) and the execution of the symbol (`exec_symbol`) are the same
act at the same cursor. -/
theorem decompressorsExecuteTheirSymbols : Obligations.DecompressorsExecuteTheirSymbols := by
  intro s cu i sym rest hcu hlt hraw hi hw hfit ht hp hin
  obtain ⟨q, hitem, hconsumes⟩ := frameItem_symbol hraw hi hw hfit ht hp hin
  exact ⟨q, _, hitem, exec_symbol (s := s.setPort cu.port q) hcu hlt hraw hi hw hfit, hconsumes⟩

end Sys2Proof.Machine
end

section
/-! SUPPORT. The commands on the bit registers of a port (40_bitstream.md): their checks, and how what `write`, `flush`,
`read` and `align` do ends the command. -/

namespace Sys2Proof.Machine

variable {c : PortNo} {s : State} {i : Instr}

/-! ### The checks -/

theorem firstOf_pair (a b : Bool) (e : Status) :
    firstOf [(a, e), (b, e)] = if (a && b) = true then none else some e := by
  cases a <;> rfl

/-- A command whose one check is what `firstFailure` says: it is rejected, or its body runs (60 R273). -/
theorem exec_checked {ok : Bool} {k : State → Res Word} (hi : i.isCommand = true)
    (hfail : firstFailure s i = if ok = true then none else some .badArg)
    (hrun : commandRun s i = (check ok .badArg s).andThen k) :
    (∀ e, firstFailure s i = some e → Rejects i s e) ∧
      (firstFailure s i = none → ok = true ∧ exec i s = .next (complete i s (k s))) := by
  rw [exec_command hi, hfail, hrun]
  cases ok with
  | true => exact ⟨nofun, fun _ => ⟨rfl, rfl⟩⟩
  | false =>
    refine ⟨fun e he => ?_, nofun⟩
    obtain rfl : Status.badArg = e := Option.some.inj he
    exact ⟨_, (exec_command hi s).trans (by rw [hrun]; rfl), takeError_endsWith _ _ s, sameState_takeError _ _ s⟩

/-- `BW_WRITE` (40 R132). -/
theorem exec_bwWrite (s : State) (c : PortNo) (k : BitVec 16) (v : Word) :
    (∀ e, firstFailure s (.bwWrite c k v) = some e → Rejects (.bwWrite c k v) s e) ∧
      (firstFailure s (.bwWrite c k v) = none → k.toNat ≤ 32 ∧ exec (.bwWrite c k v) s =
        .next (complete (.bwWrite c k v) s ((write c v k.toNat s).andThen fun t => .done 0 t))) := by
  obtain ⟨hrej, hgo⟩ := exec_checked (s := s) (i := .bwWrite c k v) rfl (firstOf_pair _ _ _) rfl
  refine ⟨hrej, fun h => ?_⟩
  obtain ⟨hok, hexec⟩ := hgo h
  exact ⟨of_decide_eq_true (Bool.and_eq_true_iff.mp hok).2, hexec⟩

/-- `BW_FLUSH` (40 R135). -/
theorem exec_bwFlush (s : State) (c : PortNo) :
    (∀ e, firstFailure s (.bwFlush c) = some e → Rejects (.bwFlush c) s e) ∧
      (firstFailure s (.bwFlush c) = none → exec (.bwFlush c) s =
        .next (complete (.bwFlush c) s ((flush c s).andThen fun t => .done 0 t))) := by
  obtain ⟨hrej, hgo⟩ := exec_checked (s := s) (i := .bwFlush c) (ok := portOk s c) rfl rfl rfl
  exact ⟨hrej, fun h => (hgo h).2⟩

/-- `BR_READ` (40 R138). -/
theorem exec_brRead (s : State) (c : PortNo) (k : BitVec 16) :
    (∀ e, firstFailure s (.brRead c k) = some e → Rejects (.brRead c k) s e) ∧
      (firstFailure s (.brRead c k) = none →
        k.toNat ≤ 32 ∧ exec (.brRead c k) s = .next (complete (.brRead c k) s (read c k.toNat s))) := by
  obtain ⟨hrej, hgo⟩ := exec_checked (s := s) (i := .brRead c k) rfl (firstOf_pair _ _ _) rfl
  refine ⟨hrej, fun h => ?_⟩
  obtain ⟨hok, hexec⟩ := hgo h
  exact ⟨of_decide_eq_true (Bool.and_eq_true_iff.mp hok).2, hexec⟩

/-- `BR_ALIGN` (40 R140). -/
theorem exec_brAlign (s : State) (c : PortNo) :
    (∀ e, firstFailure s (.brAlign c) = some e → Rejects (.brAlign c) s e) ∧
      (firstFailure s (.brAlign c) = none → exec (.brAlign c) s = .next (succeed 0 (align c s))) := by
  obtain ⟨hrej, hgo⟩ := exec_checked (s := s) (i := .brAlign c) (ok := portOk s c) rfl rfl rfl
  exact ⟨hrej, fun h => (hgo h).2⟩

/-! ### The ends of a command on one port -/

/-- A success after a change of port `c` alone. -/
theorem sameButPort_succeed (data : Word) (s : State) (c : PortNo) (q : Port) :
    SameButPort c s (succeed data (s.setPort c q)) := by
  rw [SameButPort, succeed_port, port_setPort_self]
  rfl

/-- `E_TRANSPORT` after the death of port `c` (40 R145). -/
theorem closeChannel_fails (op : BitVec 8) (c : PortNo) (s : State) :
    SameButPort c s (takeError op .transport (closeChannel c s)) ∧
      (s.port c).Dead ((takeError op .transport (closeChannel c s)).port c) := by
  rw [SameButPort, takeError_port, closeChannel, port_setPort_self]
  exact ⟨rfl, closedPort_dead _⟩

theorem failsOutput_of (h : exec i s = .next (complete i s (.raise .transport (closeChannel c s)))) : FailsOutput i c s := by
  obtain ⟨hsame, hdead⟩ := closeChannel_fails (opcodeOf i) c s
  exact ⟨_, h, takeError_endsWith _ _ _, hsame, hdead⟩

/-- With nothing left in `TIN[c]` a command dies or waits (40 R137, R145). -/
theorem lacksInput_of (ht : (s.port c).tin = [])
    (h : exec i s = .next (complete i s
      (if (s.port c).tinEos then .raise .transport (closeChannel c s) else .hold))) : LacksInput i c s := by
  refine ⟨_, h, ?_⟩
  split
  · obtain ⟨hsame, hdead⟩ := closeChannel_fails (opcodeOf i) c s
    exact ⟨takeError_endsWith _ _ _, hsame, by rw [← ht]; exact hdead⟩
  · rfl

/-- A port with fewer than 32 bits at hand has no word left to fetch. -/
theorem Port.Inv.tin_eq_nil {p : Port} (h : p.Inv) (hlt : p.inBits.length < 32) : p.tin = [] := by
  rw [h.length_inBits] at hlt
  exact List.eq_nil_of_length_eq_zero (by omega)

/-! ### The statements -/

/-- Settles O7, by what `write` does with a register in range (`write_done`, `write_fails`). -/
theorem writeAppendsTheLowBits : Obligations.WriteAppendsTheLowBits := by
  intro s c k v
  obtain ⟨hrej, hgo⟩ := exec_bwWrite s c k v
  refine ⟨hrej, fun hok hp => ?_⟩
  obtain ⟨hk, hexec⟩ := hgo hok
  refine ⟨fun hfits => ?_, fun ⟨herr, hfull⟩ => ?_⟩
  · obtain ⟨q, hq, happ, hinv, hlen⟩ := write_done (c := c) v hp hk hfits
    rw [hq, andThen_done, complete_done] at hexec
    refine ⟨_, hexec, succeed_endsOk 0 rfl, sameButPort_succeed 0 s c q, ?_⟩
    rw [succeed_port, port_setPort_self]
    exact ⟨happ, hinv, hlen⟩
  · rw [write_fails v hp.writerCount herr hfull, andThen_raise] at hexec
    exact failsOutput_of hexec

/-- Settles O8, by what `flush` does with a register in range (`flush_done`, `flush_fails`). -/
theorem flushPadsToAWord : Obligations.FlushPadsToAWord := by
  intro s c
  obtain ⟨hrej, hgo⟩ := exec_bwFlush s c
  refine ⟨hrej, fun hok hp => ?_⟩
  have hexec := hgo hok
  refine ⟨fun hfits => ?_, fun ⟨herr, hpending⟩ => ?_⟩
  · obtain ⟨q, hq, hsame, -, hpad, hkept⟩ := flush_done (c := c) hp hfits
    rw [hq, andThen_done, complete_done] at hexec
    refine ⟨_, hexec, succeed_endsOk 0 rfl, sameButPort_succeed 0 s c q, ?_⟩
    rw [succeed_port, port_setPort_self]
    exact ⟨hsame, hpad, hkept⟩
  · rw [flush_fails herr hpending, andThen_raise] at hexec
    exact failsOutput_of hexec

theorem natOfBits_take_lt (bits : List Bool) {k : Nat} (hk : k ≤ 32) : natOfBits (bits.take k) < 2 ^ 32 :=
  (natOfBits_lt _).trans_le (Nat.pow_le_pow_right (by decide) ((List.length_take_le k bits).trans hk))

/-- Settles O9, by what `read` does with enough bits at hand (`read_done`) and without (`read_short`). -/
theorem readReturnsTheNextBits : Obligations.ReadReturnsTheNextBits := by
  intro s c k
  obtain ⟨hrej, hgo⟩ := exec_brRead s c k
  refine ⟨hrej, fun hok hp => ?_⟩
  obtain ⟨hk, hexec⟩ := hgo hok
  refine ⟨fun hbits => ?_, fun hshort => ?_⟩
  · obtain ⟨q, hq, hconsumes, hinv⟩ := read_done hp hk hbits
    rw [hq, complete_done] at hexec
    refine ⟨_, _, hexec, succeed_endsOk _ rfl, sameButPort_succeed _ s c q, ?_, ?_⟩
    · rw [BitVec.toNat_ofNat, Nat.mod_eq_of_lt (natOfBits_take_lt _ hk)]
    · rw [succeed_port, port_setPort_self]
      exact ⟨hconsumes, hinv⟩
  · rw [read_short hp hk hshort] at hexec
    exact lacksInput_of (hp.tin_eq_nil (by omega)) hexec

/-- The body of `BR_READBIT c` is that of `BR_READ c, 1` (40 R141). -/
theorem runBrReadbit_eq (c : PortNo) (s : State) : runBrReadbit c s = runBrRead c 1 s := by
  have hcount : (portOk s c && bitCountOk 1) = portOk s c := Bool.and_true _
  rw [runBrRead, hcount]
  rfl

/-- Two commands with the same body differ at their ends by the opcode byte and the command that waits. -/
theorem complete_congr (i j : Instr) (s : State) (r : Res Word) :
    complete i s r = { complete j s r with lastErr := (complete i s r).lastErr, holding := (complete i s r).holding } ∧
      (complete i s r).rsp = (complete j s r).rsp ∧
      ((complete i s r).holding = none ↔ (complete j s r).holding = none) := by
  cases r with
  | done data t => exact ⟨rfl, rfl, Iff.rfl⟩
  | raise e t => exact ⟨rfl, rfl, Iff.rfl⟩
  | hold => exact ⟨rfl, rfl, by simp⟩

/-- Settles O10: the bit by `read_done`, the equivalence by `runBrReadbit_eq`. -/
theorem readBitIsAReadOfOneBit : Obligations.ReadBitIsAReadOfOneBit := by
  have hexec : ∀ s c, exec (.brReadbit c) s = .next (complete (.brReadbit c) s (runBrRead c 1 s)) := fun s c => by
    rw [← runBrReadbit_eq]
    exact exec_command rfl s
  refine ⟨fun s c b rest hok hp hin => ?_, fun s c => ?_⟩
  · obtain ⟨-, hgo⟩ := exec_checked (s := s) (i := .brReadbit c) (ok := portOk s c) rfl rfl rfl
    obtain ⟨q, hq, hconsumes, -⟩ := read_done (k := 1) hp (by decide) (by rw [hin]; exact Nat.le_add_left 1 _)
    have hbit : BitVec.ofNat 32 (natOfBits ((s.port c).inBits.take 1)) = if b then 1 else 0 := by
      rw [hin]
      cases b <;> rfl
    obtain ⟨-, hdone⟩ := hgo hok
    rw [hq, hbit, complete_done] at hdone
    refine ⟨_, hdone, succeed_endsOk _ rfl, sameButPort_succeed _ s c q, ?_⟩
    rw [succeed_port, port_setPort_self]
    exact hconsumes
  · exact ⟨_, _, hexec s c, exec_command rfl s, complete_congr _ _ s _⟩

/-- Settles O11: `align` is the update of one port (`align_eq`). -/
theorem alignDropsTheHeldBits : Obligations.AlignDropsTheHeldBits := by
  intro s c
  obtain ⟨hrej, hgo⟩ := exec_brAlign s c
  refine ⟨hrej, fun hok => ⟨_, hgo hok, succeed_endsOk 0 rfl, ?_⟩⟩
  rw [align_eq]
  exact ⟨sameButPort_succeed 0 s c _, by rw [succeed_port, port_setPort_self]⟩

end Sys2Proof.Machine
end

section
/-! SUPPORT. The errors that kill a port (40 R145, 44 R232): where the body of a command raises one, its own port is dead and
every other port is as it was. -/

namespace Sys2Proof.Machine

variable {c : PortNo} {s t : State} {α β : Type}

/-! ### Stretches that kill -/

/-- From `s` to `t` port `c` died: its words in `TOUT` stay, those in `TIN` are only taken from the head, and no other port
changed. -/
structure Killed (c : PortNo) (s t : State) : Prop where
  dead : IsDead (t.port c)
  tout : (s.port c).tout <+: (t.port c).tout
  tin : (t.port c).tin <:+ (s.port c).tin
  others : ∀ d, d ≠ c → t.port d = s.port d

/-- Where the stretch raises a status of `deadly`, port `c` died. -/
def Res.Kills (deadly : List Status) (c : PortNo) (s : State) : Res α → Prop
  | .raise e t => e ∈ deadly → Killed c s t
  | .done _ _ => True
  | .hold => True

section Kills
variable {deadly es killing : List Status} {r : Res α}

theorem Res.Kills.mono {deadly' : List Status} (h : r.Kills deadly c s) (hsub : ∀ e ∈ deadly', e ∈ deadly) :
    r.Kills deadly' c s := by
  cases r with
  | done a t => trivial
  | raise e t => exact fun hmem => h (hsub e hmem)
  | hold => trivial

theorem kills_check {ok : Bool} {e : Status} {k : State → Res α} (he : e ∉ deadly) (hk : (k s).Kills deadly c s) :
    ((check ok e s).andThen k).Kills deadly c s := by
  cases ok with
  | true => exact hk
  | false => exact fun hmem => absurd hmem he

theorem kills_withTable {n : BitVec 4} {k : TableId → Res α} (he : .badArg ∉ deadly)
    (hk : ∀ tab, (k tab).Kills deadly c s) : (withTable n s k).Kills deadly c s := by
  unfold withTable
  split
  · exact hk _
  · exact fun hmem => absurd hmem he

/-- What follows a stretch and raises nothing. -/
theorem Res.Kills.respond {data : α → State → β} {next : α → State → State} (h : r.Kills deadly c s) :
    (r.bind fun a t => .done (data a t) (next a t)).Kills deadly c s := by
  cases r with
  | done a t => trivial
  | raise e t => exact h
  | hold => trivial

/-- A stretch on port `c` that kills it for every deadly status it raises. -/
theorem Ends.kills {B : Nat → Nat → Prop} (h : Ends c B es killing s r) (hsub : ∀ e ∈ es, e ∈ deadly → e ∈ killing) :
    r.Kills deadly c s := by
  cases r with
  | done a t => trivial
  | raise e t =>
    obtain ⟨hes, hmoves, hdead, -⟩ := h
    exact fun hmem => ⟨hdead (hsub e hes hmem), hmoves.tout, hmoves.tin, fun d hd => hmoves.port_ne hd⟩
  | hold => trivial

theorem kills_intraChecks {b : BitVec 8} {k : State → Res α} (he : ∀ e ∈ [Status.badArg, .noTable, .badDim], e ∉ deadly)
    (hk : (k s).Kills deadly c s) : ((intraChecks c b s).andThen k).Kills deadly c s := by
  unfold intraChecks
  rw [andThen_andThen]
  refine kills_check (he _ (by decide)) ?_
  rw [andThen_andThen]
  exact kills_check (he _ (by decide)) (kills_check (he _ (by decide)) hk)

theorem kills_interChecks {b b' : BitVec 8} {k : State → Res α}
    (he : ∀ e ∈ [Status.badArg, .noTable, .badDim], e ∉ deadly) (hk : (k s).Kills deadly c s) :
    ((interChecks c b b' s).andThen k).Kills deadly c s := by
  unfold interChecks
  rw [andThen_andThen]
  refine kills_check (he _ (by decide)) ?_
  rw [andThen_andThen]
  exact kills_check (he _ (by decide)) (kills_check (he _ (by decide)) hk)

end Kills

theorem killed_closeChannel (c : PortNo) (s : State) : Killed c s (closeChannel c s) where
  dead := by simp [closeChannel, closedPort, IsDead]
  tout := (moves_close (fun _ _ => False) c s).tout
  tin := (moves_close (fun _ _ => False) c s).tin
  others _ hd := port_setPort_ne s _ hd

/-! ### The commands -/

/-- A frame that a decompress command reads: of its own statuses only `E_TRANSPORT` is deadly. -/
theorem transport_of_stream (op : BitVec 8) :
    ∀ e ∈ streamStatuses, e ∈ [Status.transport, .protocol] → e ∈ killsOf op := by
  intro e hstream hdeadly
  obtain rfl : e = .transport := by revert e; decide
  exact transport_mem_killsOf op

theorem runFsAck_kills (v : Word) : (runFsAck c v s).Kills [.transport, .protocol] c s :=
  kills_check (by decide) <| kills_check (by decide) <| by
    split
    · trivial
    split
    · trivial
    · exact fun _ => killed_closeChannel c s

theorem runFsMsg_kills (token : BitVec 16) : (runFsMsg c token s).Kills [.transport, .protocol] c s :=
  kills_check (by decide) <| kills_check (by decide) <| by
    split
    · trivial
    · exact fun _ => killed_closeChannel c s

theorem ends_sendPlanes (B : Nat → Nat → Prop) (hf : CodesFit s) :
    Ends c B transportOnly transportOnly s (forPlanes (sendPlane c) s) :=
  ends_forPlanes (ends_sendPlane B 0 hf) (fun _ m => ends_sendPlane B 1 (m.codesFit hf))
    fun _ m => ends_sendPlane B 2 (m.codesFit hf)

theorem ends_recvPlanes :
    Ends c (fun _ _ => True) streamStatuses streamStatuses s (forPlanes (recvPlane c) s) :=
  have hplane : ∀ {t : State} (k : Nat), Ends c (fun _ _ => True) streamStatuses streamStatuses t (recvPlane c k t) :=
    fun k => (ends_recvPlane k).mono (fun _ _ _ => trivial) (fun _ => id) fun _ _ => Iff.rfl
  ends_forPlanes (hplane 0) (fun _ _ => hplane 1) fun _ _ => hplane 2

theorem runFsSend_kills (hf : CodesFit s) : (runFsSend c s).Kills [.transport, .protocol] c s :=
  kills_check (by decide) <| kills_check (by decide) <| by
    split
    · trivial
    · exact kills_check (by decide) <| kills_check (by decide) <|
        ((ends_sendPlanes (fun _ _ => False) hf).kills fun _ he _ => he).respond

theorem runFsRecv_kills : (runFsRecv c s).Kills [.transport, .protocol, .runOverrun] c s :=
  kills_check (by decide) <| kills_check (by decide) <| kills_check (by decide) <| kills_check (by decide) <|
    (ends_recvPlanes.kills fun _ he _ => he).respond

/-- The body of every command that names port `c` kills it with `E_TRANSPORT` and `E_PROTOCOL` (40 R145, 44 R232). -/
theorem commandRun_kills {i : Instr} (hf : CodesFit s) (hc : portOf i = some c) :
    (commandRun s i).Kills [.transport, .protocol] c s := by
  have bits : ∀ {ok : Bool} {k : BitVec 16} {run : State → Res Word},
      (k.toNat ≤ 32 → (run s).Kills [.transport, .protocol] c s) →
      ((check (ok && bitCountOk k) .badArg s).andThen run).Kills [.transport, .protocol] c s := by
    intro ok k run hk
    cases hok : ok && bitCountOk k with
    | true => exact hk (of_decide_eq_true (Bool.and_eq_true_iff.mp hok).2)
    | false => exact fun hmem => absurd hmem (by decide)
  have only : ∀ e ∈ transportOnly, e ∈ [Status.transport, .protocol] → e ∈ transportOnly := fun _ he _ => he
  cases i with
  | bwWrite d k v =>
    obtain rfl := Option.some.inj hc
    exact bits fun hk => ((ends_write (fun _ _ => False) v hk).kills only).respond
  | bwFlush d =>
    obtain rfl := Option.some.inj hc
    exact kills_check (by decide) ((ends_flush fun _ _ => False).kills only).respond
  | brRead d k =>
    obtain rfl := Option.some.inj hc
    exact bits fun hk => (ends_read (fun _ _ => False) hk).kills only
  | brReadbit d =>
    obtain rfl := Option.some.inj hc
    exact kills_check (by decide) ((ends_read (fun _ _ => False) (by decide)).kills only)
  | brAlign d => exact kills_check (by decide) trivial
  | pcEncode d n sym =>
    obtain rfl := Option.some.inj hc
    exact kills_check (by decide) <| kills_withTable (by decide) fun tab => kills_check (by decide) <|
      kills_check (by decide) ((ends_encode (fun _ _ => False) hf tab _).kills only).respond
  | pcDecode d n =>
    obtain rfl := Option.some.inj hc
    exact kills_check (by decide) <| kills_withTable (by decide) fun tab => kills_check (by decide)
      ((ends_decode (fun _ _ => False) tab).kills only).respond
  | icCompress d src =>
    obtain rfl := Option.some.inj hc
    exact kills_intraChecks (by decide) ((ends_intraCompress (fun _ _ => False) _ _ _ hf).kills only).respond
  | xcCompress d src ref =>
    obtain rfl := Option.some.inj hc
    exact kills_interChecks (by decide) ((ends_interCompress (fun _ _ => False) _ _ _ hf).kills only).respond
  | icDecompress d dst =>
    obtain rfl := Option.some.inj hc
    exact kills_intraChecks (by decide) ((ends_intraDecompress _ _ _ _).kills (transport_of_stream _)).respond
  | xcDecompress d dst ref =>
    obtain rfl := Option.some.inj hc
    exact kills_interChecks (by decide) ((ends_interDecompress _ _ _ _).kills (transport_of_stream _)).respond
  | fsOpen d role => exact kills_check (by decide) (kills_check (by decide) trivial)
  | fsAck d v =>
    obtain rfl := Option.some.inj hc
    exact runFsAck_kills v
  | fsMsg d token =>
    obtain rfl := Option.some.inj hc
    exact runFsMsg_kills token
  | fsSend d =>
    obtain rfl := Option.some.inj hc
    exact runFsSend_kills hf
  | fsRecv d =>
    obtain rfl := Option.some.inj hc
    exact runFsRecv_kills.mono (by decide)
  | fsClose d => exact kills_check (by decide) trivial
  | _ => cases hc

/-- A command that answers an error raised it in its body. -/
theorem commandRun_of_answers {i : Instr} {e : Status} {data : Word} (hi : i.isCommand = true) (ht : exec i s = .next t)
    (ha : t.Answers e data) (he : e ≠ .ok) : ∃ u, commandRun s i = .raise e u ∧ t = takeError (opcodeOf i) e u := by
  rw [exec_command hi] at ht
  obtain rfl := Host.Outcome.next.inj ht
  cases hr : commandRun s i with
  | done d u =>
    rw [hr] at ha
    exact absurd (State.Answers.status_eq ha (succeed_answers d u)) he
  | raise e' u =>
    rw [hr] at ha
    obtain rfl := State.Answers.status_eq ha (takeError_answers _ e' u)
    exact ⟨u, rfl, rfl⟩
  | hold =>
    rw [hr] at ha
    obtain ⟨r, hnone, -⟩ := ha
    cases hnone

/-- Settles O45: the error was raised in the body of the command, which then killed its port (`commandRun_kills`, and
`runFsRecv_kills` for an overrun). -/
theorem failuresKillOnlyTheirPort : Obligations.FailuresKillOnlyTheirPort := by
  intro i s t c e hi h hc ht ha he
  have herror : e ≠ .ok := by rintro rfl; simp at he
  obtain ⟨u, hrun, rfl⟩ := commandRun_of_answers hi ht ha herror
  have hkilled : Killed c s u := by
    have hkills := commandRun_kills h.inside.codesFit hc
    rw [hrun] at hkills
    rcases he with rfl | rfl | ⟨rfl, rfl⟩
    · exact hkills (by decide)
    · exact hkills (by decide)
    · have hrecv := runFsRecv_kills (c := c) (s := s)
      rw [show runFsRecv c s = .raise .runOverrun u from hrun] at hrecv
      exact hrecv (by decide)
  obtain ⟨⟨hacc, hn, hracc, hrn, hchst⟩, htout, htin, hothers⟩ := hkilled
  exact ⟨hacc, hn, hracc, hrn, hchst, htout, htin, hothers⟩

end Sys2Proof.Machine
end

section
/-! SUPPORT. A stream written by hand is read back (40_bitstream.md rules R142, R143, 41_prefix_code.md rule R170): the bits an
element puts on the stream depend on the position alone, and a reader at that position holds exactly the bits up to the next
word boundary. -/

namespace Sys2Proof.Machine

variable {c : PortNo} {s t u : State} {p q : Port} {n : Nat} {xs ys rest : List Bool}

/-! ### The bits of a stream -/

/-- The bits that an element puts on a stream of which `n` bits stand before it. -/
def StreamItem.code (tables : TableId → Table) (n : Nat) : StreamItem → List Bool
  | .bits k v => bitsOf v.toNat k.toNat
  | .symbol number sym => ((tableOfField number).map fun tab => symbolCode (tables tab).contents sym.toNat).getD []
  | .flush => List.replicate ((32 - n % 32) % 32) false

/-- The bits that a sequence of elements puts on a stream of which `n` bits stand before it. -/
def streamBits (tables : TableId → Table) : (n : Nat) → List StreamItem → List Bool
  | _, [] => []
  | n, item :: items => item.code tables n ++ streamBits tables (n + (item.code tables n).length) items

theorem streamBits_append (tables : TableId → Table) (n : Nat) (items items' : List StreamItem) :
    streamBits tables n (items ++ items') =
      streamBits tables n items ++ streamBits tables (n + (streamBits tables n items).length) items' := by
  induction items generalizing n with
  | nil => rfl
  | cons item items ih =>
    rw [List.cons_append, streamBits, ih, streamBits, List.append_assoc, List.length_append, Nat.add_assoc]

theorem length_streamBits_of_isBits (tables : TableId → Table) (n : Nat) {items : List StreamItem}
    (h : ∀ item ∈ items, item.isBits = true) : (streamBits tables n items).length = (items.map StreamItem.width).sum := by
  induction items generalizing n with
  | nil => rfl
  | cons item items ih =>
    obtain ⟨hitem, hitems⟩ := List.forall_mem_cons.mp h
    have hlen : (item.code tables n).length = item.width := by
      cases item with
      | bits k v => exact length_bitsOf _ _
      | symbol number sym => cases hitem
      | flush => cases hitem
    rw [streamBits, List.length_append, ih _ hitems, hlen, List.map_cons, List.sum_cons]

theorem tableOfField_of_number {tab : TableId} {number : BitVec 4} (h : tableNumber tab = number.toNat) :
    tableOfField number = some tab := by
  cases tab with
  | intra =>
    obtain rfl : number = 0 := BitVec.eq_of_toNat_eq h.symm
    rfl
  | inter =>
    obtain rfl : number = 1 := BitVec.eq_of_toNat_eq h.symm
    rfl

theorem code_symbol (tables : TableId → Table) (n : Nat) {tab : TableId} {number : BitVec 4} (sym : BitVec 16)
    (h : tableNumber tab = number.toNat) :
    (StreamItem.symbol number sym).code tables n = symbolCode (tables tab).contents sym.toNat := by
  rw [StreamItem.code, tableOfField_of_number h]
  rfl

/-- What can be written depends on the tables alone. -/
theorem StreamItem.Legal.congr {item : StreamItem} (h : item.Legal s) (ht : t.table = s.table) : item.Legal t := by
  cases item with
  | bits k v => exact h
  | symbol number sym =>
    obtain ⟨tab, hnum, hsym, hready⟩ := h
    exact ⟨tab, hnum, hsym, by rw [State.TableReady, ht]; exact hready⟩
  | flush => trivial

/-! ### One command of a sequence -/

/-- A success lets the sequence go on. -/
theorem runAll_cons {i : Instr} {is : List Instr} {data : Word} {ds : List Word} (h : exec i s = .next (succeed data t))
    (hrest : runAll is (succeed data t) = some (ds, u)) : runAll (i :: is) s = some (data :: ds, u) := by
  obtain ⟨hstatus, -, hdata⟩ := responseWord_fields .ok data
  have hzero : statusField (responseWord .ok data) = 0 := hstatus
  simp only [runAll, h, succeed_rsp, hzero, if_true, hrest, hdata, Option.map_some]

/-- The checks of `BW_WRITE` and `BR_READ` (40 R132, R138). -/
theorem bitChecks_pass {k : BitVec 16} (hc : c.toNat < s.cfg.nCh) (hk : k.toNat ≤ 32) :
    firstOf [(portExists s c, .badArg), (decide (k.toNat ≤ 32), .badArg)] = none := by
  have hport : portExists s c = true := decide_eq_true hc
  rw [firstOf_pair, hport, decide_eq_true hk]
  rfl

theorem table_succeed_setPort (data : Word) (s : State) (c : PortNo) (p : Port) :
    (succeed data (s.setPort c p)).table = s.table := by
  funext tab
  rw [succeed_table, setPort_table]

/-! ### Writing -/

/-- From `s` to `t` port `c` appended `bits`, its transport still works, and the tables and the parameters are the same. -/
structure Wrote (c : PortNo) (s t : State) (bits : List Bool) : Prop where
  inv : (t.port c).Inv
  works : (t.port c).toutErr = false
  out : (t.port c).outBits = (s.port c).outBits ++ bits
  kept : (s.port c).tout <+: (t.port c).tout
  table : t.table = s.table
  cfg : t.cfg = s.cfg

theorem Wrote.trans (h : Wrote c s t xs) (h' : Wrote c t u ys) : Wrote c s u (xs ++ ys) where
  inv := h'.inv
  works := h'.works
  out := by rw [h'.out, h.out, List.append_assoc]
  kept := h.kept.trans h'.kept
  table := h'.table.trans h.table
  cfg := h'.cfg.trans h.cfg

theorem wrote_setPort (data : Word) (hi : q.Inv) (he : q.toutErr = false) (ho : q.outBits = (s.port c).outBits ++ xs)
    (hk : (s.port c).tout <+: q.tout) : Wrote c s (succeed data (s.setPort c q)) xs := by
  have hq : (succeed data (s.setPort c q)).port c = q := by rw [succeed_port, port_setPort_self]
  exact ⟨by rwa [hq], by rwa [hq], by rwa [hq], by rwa [hq], table_succeed_setPort data s c q, rfl⟩

theorem Port.Appends.wrote (data : Word) (h : (s.port c).Appends q xs) (hi : q.Inv) (he : (s.port c).toutErr = false) :
    Wrote c s (succeed data (s.setPort c q)) xs :=
  wrote_setPort data hi (by rw [h.same]; exact he) h.out h.kept

/-- `PC_ENCODE` on a table that is ready is `encode` (41 R165). -/
theorem exec_pcEncode {tab : TableId} {number : BitVec 4} {sym : BitVec 16} (hc : c.toNat < s.cfg.nCh)
    (hnum : tableNumber tab = number.toNat) (hsym : sym.toNat < tab.symbols) (hready : s.TableReady tab) :
    exec (.pcEncode c number sym) s =
      .next (complete (.pcEncode c number sym) s ((encodeSymbol c tab sym.toNat s).andThen fun t => .done 0 t)) := by
  have hport : portOk s c = true := decide_eq_true hc
  have hok : symbolOk tab sym = true := decide_eq_true hsym
  obtain ⟨hvalid, -⟩ := hready
  rw [exec_command rfl, commandRun, runPcEncode, hport, check_true, andThen_done, withTable, tableOfField_of_number hnum]
  simp only [hok, hvalid, check_true, andThen_done]

theorem exec_flush_wrote (hc : c.toNat < s.cfg.nCh) (hp : (s.port c).Inv) (he : (s.port c).toutErr = false) :
    ∃ t, exec (.bwFlush c) s = .next (succeed 0 t) ∧ (t.port c).bwN = 0 ∧
      Wrote c s (succeed 0 t) (StreamItem.flush.code s.table (s.port c).outBits.length) := by
  have hok : firstFailure s (.bwFlush c) = none := if_pos (decide_eq_true hc)
  obtain ⟨q, hq, hsame, hi, hpad, hkept⟩ := flush_done (c := c) hp (.inl he)
  have hexec := (exec_bwFlush s c).2 hok
  rw [hq, andThen_done, complete_done] at hexec
  exact ⟨_, hexec, by rw [port_setPort_self, hsame], wrote_setPort 0 hi (by rw [hsame]; exact he) hpad hkept⟩

/-- A legal element is written, and puts its code on the port. -/
theorem exec_writeOn {item : StreamItem} (hc : c.toNat < s.cfg.nCh) (hp : (s.port c).Inv) (he : (s.port c).toutErr = false)
    (hitem : item.Legal s) : ∃ t, exec (item.writeOn c) s = .next (succeed 0 t) ∧
      Wrote c s (succeed 0 t) (item.code s.table (s.port c).outBits.length) := by
  cases item with
  | bits k v =>
    obtain ⟨q, hq, happ, hi, -⟩ := write_done (c := c) v hp hitem (.inl he)
    obtain ⟨-, hexec⟩ := (exec_bwWrite s c k v).2 (bitChecks_pass hc hitem)
    rw [hq, andThen_done, complete_done] at hexec
    exact ⟨_, hexec, happ.wrote 0 hi he⟩
  | symbol number sym =>
    obtain ⟨tab, hnum, hsym, hready⟩ := hitem
    obtain ⟨q, hq, happ, hi⟩ := encodeSymbol_done (c := c) hready hsym hp he
    have hexec := exec_pcEncode (c := c) hc hnum hsym hready
    rw [hq, andThen_done, complete_done] at hexec
    exact ⟨_, hexec, by rw [code_symbol _ _ _ hnum]; exact happ.wrote 0 hi he⟩
  | flush =>
    obtain ⟨t, hexec, -, hwrote⟩ := exec_flush_wrote hc hp he
    exact ⟨t, hexec, hwrote⟩

/-- A sequence of legal elements and a final flush are written, and leave the writer empty. -/
theorem runAll_write {items : List StreamItem} (hc : c.toNat < s.cfg.nCh) (hp : (s.port c).Inv)
    (he : (s.port c).toutErr = false) (hitems : ∀ item ∈ items, item.Legal s) :
    ∃ t ds, runAll ((items ++ [StreamItem.flush]).map (StreamItem.writeOn c)) s = some (ds, t) ∧ (t.port c).bwN = 0 ∧
      Wrote c s t (streamBits s.table (s.port c).outBits.length (items ++ [StreamItem.flush])) := by
  induction items generalizing s with
  | nil =>
    obtain ⟨t, hexec, hempty, hwrote⟩ := exec_flush_wrote hc hp he
    exact ⟨_, _, runAll_cons hexec rfl, hempty, by rw [List.nil_append, streamBits, streamBits, List.append_nil]; exact hwrote⟩
  | cons item items ih =>
    obtain ⟨hitem, hitems⟩ := List.forall_mem_cons.mp hitems
    obtain ⟨t, hexec, hfirst⟩ := exec_writeOn hc hp he hitem
    obtain ⟨u, ds, hrun, hempty, hmore⟩ := ih (s := succeed 0 t) (hfirst.cfg.symm ▸ hc) hfirst.inv hfirst.works
      fun i hi => (hitems i hi).congr hfirst.table
    rw [hfirst.out, List.length_append, hfirst.table] at hmore
    exact ⟨u, _, runAll_cons hexec hrun, hempty, hfirst.trans hmore⟩

/-! ### Reading -/

/-- The port reads at bit `n` of a stream of which `bits` are to come: it holds the bits up to the next word boundary
(40 R136). -/
structure Port.ReadsAt (p : Port) (n : Nat) (bits : List Bool) : Prop where
  inv : p.Inv
  held : p.brN = (32 - n % 32) % 32
  bits : p.inBits = bits

/-- Bits consumed, with no word fetched before a bit of it was needed. -/
theorem Port.ReadsAt.consumes (h : p.ReadsAt n (xs ++ ys)) (hc : p.Consumes q xs.length) (hq : q.Inv) :
    q.ReadsAt (n + xs.length) ys where
  inv := hq
  held := by
    have hleft := congrArg List.length hc.bits
    have hall := congrArg List.length h.bits
    have hheld := h.held
    rw [List.length_drop, hq.length_inBits, h.inv.length_inBits, hc.lazy, List.length_drop] at hleft
    rw [h.inv.length_inBits, List.length_append] at hall
    unfold wordsToRead at hleft
    omega
  bits := by rw [hc.bits, h.bits, List.drop_left]

/-- `align` drops the padding up to the next word boundary (40 R139). -/
theorem Port.ReadsAt.align {tables : TableId → Table} (h : p.ReadsAt n (StreamItem.flush.code tables n ++ ys)) :
    Port.ReadsAt { p with brAcc := 0, brN := 0 } (n + (StreamItem.flush.code tables n).length) ys := by
  have hlen : (StreamItem.flush.code tables n).length = (32 - n % 32) % 32 := List.length_replicate
  refine ⟨⟨h.inv.writerCount, h.inv.writerBits, Nat.zero_le 32, rfl⟩, ?_, ?_⟩
  · rw [hlen]
    show 0 = _
    omega
  · have hbits : p.fetchedBits ++ p.tin.flatMap wordBits = StreamItem.flush.code tables n ++ ys := h.bits
    exact (List.append_inj hbits (by rw [h.inv.length_fetchedBits, hlen, h.held])).2

/-- `PC_DECODE` on a table that is ready is `decode` (41 R167). -/
theorem exec_pcDecode {tab : TableId} {number : BitVec 4} (hc : c.toNat < s.cfg.nCh)
    (hnum : tableNumber tab = number.toNat) (hready : s.TableReady tab) :
    exec (.pcDecode c number) s = .next (complete (.pcDecode c number) s
      ((decodeSymbol c tab s).bind fun sym t => .done (BitVec.ofNat 32 sym) t)) := by
  have hport : portOk s c = true := decide_eq_true hc
  obtain ⟨hvalid, -⟩ := hready
  rw [exec_command rfl, commandRun, runPcDecode, hport, check_true, andThen_done, withTable, tableOfField_of_number hnum]
  simp only [hvalid, check_true, andThen_done]

/-- A reader that stands at the code of an element gets the element's value. -/
theorem exec_readOn {item : StreamItem} (hc : c.toNat < s.cfg.nCh) (hitem : item.Legal s)
    (h : (s.port c).ReadsAt n (item.code s.table n ++ rest)) :
    ∃ q, exec (item.readOn c) s = .next (succeed item.value (s.setPort c q)) ∧
      q.ReadsAt (n + (item.code s.table n).length) rest := by
  cases item with
  | bits k v =>
    have hlen : (bitsOf v.toNat k.toNat).length = k.toNat := length_bitsOf _ _
    have hin : (s.port c).inBits = bitsOf v.toNat k.toNat ++ rest := h.bits
    obtain ⟨q, hq, hconsumes, hi⟩ := read_done h.inv hitem (by rw [hin, List.length_append, hlen]; omega)
    obtain ⟨-, hexec⟩ := (exec_brRead s c k).2 (bitChecks_pass hc hitem)
    rw [hq, complete_done, hin, List.take_left' hlen, natOfBits_bitsOf] at hexec
    exact ⟨q, hexec, h.consumes (hlen.symm ▸ hconsumes) hi⟩
  | symbol number sym =>
    obtain ⟨tab, hnum, hsym, hready⟩ := hitem
    rw [code_symbol _ _ _ hnum] at h ⊢
    obtain ⟨q, hq, hconsumes, -, hi⟩ := decodeSymbol_done (t := tab) (sym := sym.toNat) (rest := rest) h.inv
      (by rw [h.bits]; exact hready.2.walk_code hsym rest)
    have hexec := exec_pcDecode (c := c) hc hnum hready
    have hvalue : BitVec.ofNat 32 sym.toNat = sym.setWidth 32 := BitVec.eq_of_toNat_eq (by simp)
    rw [hq, bind_done, complete_done, hvalue] at hexec
    rw [h.bits, List.length_append, Nat.add_sub_cancel] at hconsumes
    exact ⟨q, hexec, h.consumes hconsumes hi⟩
  | flush =>
    have hok : firstFailure s (.brAlign c) = none := if_pos (decide_eq_true hc)
    exact ⟨_, (exec_brAlign s c).2 hok, h.align⟩

/-- A reader that stands at the bits of a sequence of elements gets their values. -/
theorem runAll_read {items : List StreamItem} (hc : c.toNat < s.cfg.nCh) (hitems : ∀ item ∈ items, item.Legal s)
    (h : (s.port c).ReadsAt n (streamBits s.table n items ++ rest)) :
    ∃ u, runAll (items.map (StreamItem.readOn c)) s = some (items.map StreamItem.value, u) := by
  induction items generalizing s n with
  | nil => exact ⟨s, rfl⟩
  | cons item items ih =>
    obtain ⟨hitem, hitems⟩ := List.forall_mem_cons.mp hitems
    rw [streamBits, List.append_assoc] at h
    obtain ⟨q, hexec, hq⟩ := exec_readOn hc hitem h
    have htable := table_succeed_setPort item.value s c q
    obtain ⟨u, hrun⟩ := ih (s := succeed item.value (s.setPort c q)) hc (fun i hi => (hitems i hi).congr htable)
      (by rw [succeed_port, port_setPort_self, htable]; exact hq)
    exact ⟨u, runAll_cons hexec hrun⟩

/-! ### The round trip -/

theorem Port.outBits_of_empty (h : p.bwN = 0) : p.outBits = p.tout.flatMap wordBits := by
  rw [Port.outBits, Port.pendingBits, h]
  exact List.append_nil _

/-- The words emitted from an empty writer to an empty writer carry the bits appended. -/
theorem Wrote.words (h : Wrote c s t xs) (hs : (s.port c).bwN = 0) (ht : (t.port c).bwN = 0) :
    ∃ words, (t.port c).tout = (s.port c).tout ++ words ∧ words.flatMap wordBits = xs := by
  obtain ⟨words, hwords⟩ := h.kept
  have hout := h.out
  rw [Port.outBits_of_empty hs, Port.outBits_of_empty ht, ← hwords, List.flatMap_append] at hout
  exact ⟨words, hwords.symm, List.append_cancel_left hout⟩

/-- Settles O12: writer and reader meet at the bits of the stream (`runAll_write`, `runAll_read`), whose length gives the
number of words. -/
theorem whatIsWrittenIsReadBack : Obligations.WhatIsWrittenIsReadBack := by
  intro s c items hc hp hempty he hitems
  obtain ⟨t, ds, hrun, hflushed, hwrote⟩ := runAll_write hc hp he hitems
  obtain ⟨words, htout, hwords⟩ := hwrote.words hempty hflushed
  have hstart : (s.port c).outBits.length = 32 * (s.port c).tout.length := by rw [length_outBits, hempty, Nat.add_zero]
  rw [streamBits_append] at hwords
  refine ⟨t, ds, words, hrun, htout, fun hbits => ?_, fun s' c' rest hc' hp' hempty' htin htables => ?_⟩
  · have hlen := congrArg List.length hwords
    rw [length_flatMap_wordBits, List.length_append, length_streamBits_of_isBits _ _ hbits, streamBits, streamBits,
      List.append_nil, StreamItem.code, List.length_replicate] at hlen
    omega
  · have htable : s'.table = s.table := funext htables
    have hin : (s'.port c').inBits = (words ++ rest).flatMap wordBits := by
      rw [Port.inBits, Port.fetchedBits, hempty', htin]
      rfl
    rw [List.flatMap_append, hwords, List.append_assoc] at hin
    have hat : (s'.port c').ReadsAt (s.port c).outBits.length (s'.port c').inBits := ⟨hp', by omega, rfl⟩
    rw [hin, ← htable] at hat
    exact runAll_read hc' (fun item hi => (hitems item hi).congr htable) hat

end Sys2Proof.Machine
end

section
/-! SUPPORT. The builder's tree (41_prefix_code.md rules R153 to R161): it is the only one that the extraction rule makes, and
its shape decides what is exported and whether `Build` fails. -/

namespace Sys2Proof.Machine

/-! ### The extraction rule makes one tree (41 R154, R155) -/

/-- The sequence numbers in `Q` differ, and `next` is beyond them all. -/
def FreshQ (next : Nat) (q : List QNode) : Prop := (q.map QNode.seq).Nodup ∧ ∀ x ∈ q, x.seq < next

theorem FreshQ.erase {next : Nat} {q : List QNode} (h : FreshQ next q) (x : QNode) : FreshQ next (q.erase x) :=
  ⟨h.1.sublist (List.erase_sublist.map _), fun y hy => h.2 y (List.mem_of_mem_erase hy)⟩

theorem FreshQ.cons {next : Nat} {q : List QNode} (h : FreshQ next q) (freq : Nat) (tree : CodeTree) :
    FreshQ (next + 1) (⟨freq, next, tree⟩ :: q) := by
  constructor
  · refine List.nodup_cons.mpr ⟨fun hmem => ?_, h.1⟩
    obtain ⟨x, hx, hseq⟩ := List.mem_map.mp hmem
    exact absurd hseq (Nat.ne_of_lt (h.2 x hx))
  · intro x hx
    rcases List.mem_cons.mp hx with rfl | hx
    · exact Nat.lt_succ_self next
    · exact Nat.lt_succ_of_lt (h.2 x hx)

theorem leafNodes_fresh (pairs : List (Nat × Nat)) : FreshQ pairs.length (leafNodes pairs) := by
  have hseq : (leafNodes pairs).map QNode.seq = List.range pairs.length := by
    rw [leafNodes, List.map_map, List.range_eq_range', ← List.zipIdx_map_snd]
    rfl
  refine ⟨hseq ▸ List.nodup_range, fun x hx => ?_⟩
  have hmem := List.mem_map_of_mem (f := QNode.seq) hx
  rwa [hseq, List.mem_range] at hmem

/-- Two nodes extracted next carry one sequence number. -/
theorem IsMin.unique {next : Nat} {q : List QNode} {x y : QNode} (hq : FreshQ next q) (hx : IsMin x q) (hy : IsMin y q) :
    x = y := by
  have hxy := hx.2 y hy.1
  have hyx := hy.2 x hx.1
  exact List.inj_on_of_nodup_map hq.1 hx.1 hy.1 (by omega)

/-- One node is not merged. -/
theorem not_isMin_erase_singleton {x y z : QNode} (hx : IsMin x [z]) : ¬ IsMin y ([z].erase x) := by
  obtain rfl := List.mem_singleton.mp hx.1
  intro hy
  simpa using hy.1

theorem BuildsTree.unique {next : Nat} {q : List QNode} {tree tree' : CodeTree} (hq : FreshQ next q)
    (h : BuildsTree next q tree) (h' : BuildsTree next q tree') : tree = tree' := by
  induction h with
  | root next z =>
    cases h' with
    | root => rfl
    | merge _ _ x y _ hx hy _ => exact absurd hy (not_isMin_erase_singleton hx)
  | merge next q x y tree hx hy _ ih =>
    cases h' with
    | root _ z => exact absurd hy (not_isMin_erase_singleton hx)
    | merge _ _ x' y' _ hx' hy' h' =>
      obtain rfl := hx.unique hq hx'
      obtain rfl := hy.unique (hq.erase x) hy'
      exact ih (((hq.erase x).erase y).cons _ _) h'

/-- `Build-tree` makes the tree of the extraction rule, and its leaves hold the symbols given. -/
theorem buildTree_spec {pairs : List (Nat × Nat)} (hne : pairs ≠ []) :
    ∃ tree, buildTree pairs = some tree ∧ tree.leafSymbols.Perm (pairs.map Prod.fst) ∧
      ∀ tree', BuildsTree pairs.length (leafNodes pairs) tree' ↔ tree' = tree := by
  obtain ⟨tree, htree, hbuilds⟩ := buildTree_builds pairs hne
  refine ⟨tree, htree, ?_, fun tree' => ⟨fun h' => h'.unique (leafNodes_fresh pairs) hbuilds, fun h' => h' ▸ hbuilds⟩⟩
  rw [← leafNodes_symbols]
  exact hbuilds.leafSymbols_perm

/-! ### The shape of a tree -/

/-- A tree of `N` leaves has `2N - 1` nodes. -/
theorem CodeTree.size_add_one (tree : CodeTree) : tree.size + 1 = 2 * tree.leafSymbols.length := by
  rw [tree.size_eq 0 0, ← tree.map_fst_codes 0 0, List.length_map]

/-- Each branch of a longest path leaves a subtree aside. -/
theorem CodeTree.depth_lt_leaves (tree : CodeTree) : tree.depth < tree.leafSymbols.length := by
  induction tree with
  | leaf sym => exact Nat.one_pos
  | node x y hx hy =>
    rw [CodeTree.depth, CodeTree.leafSymbols, List.length_append]
    omega

theorem CodeTree.exists_path_gt_iff (tree : CodeTree) (d : Nat) :
    (∃ path sym, tree.subtree path = some (.leaf sym) ∧ d < path.length) ↔ d < tree.depth := by
  constructor
  · rintro ⟨path, sym, h, hlt⟩
    exact hlt.trans_le (tree.subtree_length_le h)
  · intro hlt
    obtain ⟨path, sym, h, hlen⟩ := tree.exists_deepest
    exact ⟨path, sym, h, hlen ▸ hlt⟩

@[simp] theorem CodeTree.subtree_nil (tree : CodeTree) : tree.subtree [] = some tree := by cases tree <;> rfl

/-- A subtree and the subtree with its index in the layout. -/
theorem CodeTree.sub_of_subtree {tree sub : CodeTree} {path : List Bool} (i : Nat) (h : tree.subtree path = some sub) :
    ∃ j, tree.sub i path = some (sub, j) := by
  induction path generalizing tree i with
  | nil =>
    obtain rfl : tree = sub := Option.some.inj (tree.subtree_nil.symm.trans h)
    exact ⟨i, tree.sub_nil i⟩
  | cons b rest ih =>
    cases tree with
    | leaf sym => cases h
    | node x y =>
      cases b with
      | false => exact ih (i + 1) h
      | true => exact ih (i + 1 + x.size) h

theorem CodeTree.subtree_of_sub {tree sub : CodeTree} {path : List Bool} {i j : Nat} (h : tree.sub i path = some (sub, j)) :
    tree.subtree path = some sub := by
  induction path generalizing tree i with
  | nil =>
    rw [CodeTree.sub_nil] at h
    cases h
    exact subtree_nil _
  | cons b rest ih =>
    cases tree with
    | leaf sym => cases h
    | node x y =>
      cases b with
      | false => exact ih (tree := x) h
      | true => exact ih (tree := y) h

/-! ### The exported tables (41 R157, R160) -/

section Exported
variable {tree sub : CodeTree} {n : Nat} {path : List Bool}

theorem CodeTree.toTable_tableWF (hperm : tree.leafSymbols.Perm (List.range n)) (hdepth : tree.depth ≤ 32) :
    TableWF (tree.toTable n) n :=
  tree.toTable_wf n (by rwa [tree.map_fst_codes]) hdepth

/-- The walk along a path reaches the top of the subtree there. -/
theorem CodeTree.toTable_follow (n : Nat) (h : tree.subtree path = some sub) :
    ∃ i, follow (tree.toTable n).tree 0 path = some i ∧ (tree.toTable n).tree[i]? = some (sub.top i) := by
  obtain ⟨i, hi⟩ := sub_of_subtree 0 h
  exact ⟨i, follow_of_sub [] (tree.sub_nil 0) hi, layout_get hi⟩

/-- The entry of a leaf is its path. -/
theorem CodeTree.toTable_entry (hperm : tree.leafSymbols.Perm (List.range n)) (hdepth : tree.depth ≤ 32) {sym : Nat}
    (h : tree.subtree path = some (.leaf sym)) :
    (tree.toTable n).enc[sym]? = some ⟨BitVec.ofNat 32 (natOfBits path), path.length⟩ := by
  obtain ⟨i, hfollow, hleaf⟩ := toTable_follow n h
  obtain ⟨e, he, hlen, -, hbits⟩ := (toTable_tableWF hperm hdepth).codes path i sym hfollow hleaf
  rw [he, ← hlen, ← hbits, BitVec.ofNat_toNat, BitVec.setWidth_eq]

/-- An entry of the encoding table is that of a leaf. -/
theorem CodeTree.leaf_of_mem_enc (hperm : tree.leafSymbols.Perm (List.range n)) (hdepth : tree.depth ≤ 32) {e : CodeEntry}
    (he : e ∈ (tree.toTable n).enc) : ∃ path sym, tree.subtree path = some (.leaf sym) ∧ e.length = path.length := by
  have hwf := toTable_tableWF hperm hdepth
  obtain ⟨sym, hsym, rfl⟩ := List.getElem_of_mem he
  obtain ⟨e', path, i, hget, hfollow, hleaf, hlen, -⟩ := hwf.code (hwf.entries ▸ hsym)
  obtain rfl := Option.some.inj ((List.getElem?_eq_getElem hsym).symm.trans hget)
  obtain ⟨sub, hsub⟩ := sub_of_follow hfollow
  have htop : some (Node.leaf sym) = some (sub.top i) := hleaf.symm.trans (layout_get hsub)
  cases sub with
  | leaf sym' => exact ⟨path, sym', subtree_of_sub hsub, hlen⟩
  | node x y => cases htop

end Exported

/-- Settles O16: the walk by `toTable_follow`, the entry of a leaf by `toTable_entry`. -/
theorem exportedTablesFollowTheTree : Obligations.ExportedTablesFollowTheTree := by
  intro n tree hperm hdepth
  refine ⟨tree.length_layout 0, fun path sub h => ?_⟩
  obtain ⟨i, hfollow, htop⟩ := CodeTree.toTable_follow n h
  refine ⟨i, hfollow, ?_⟩
  cases sub with
  | leaf sym => exact ⟨htop, CodeTree.toTable_entry hperm hdepth h⟩
  | node x y => exact htop

/-- Settles O15: `buildTree_spec`, and the count of the nodes by `size_add_one`. -/
theorem treeFollowsTheExtractionOrder : Obligations.TreeFollowsTheExtractionOrder := by
  intro pairs hne
  obtain ⟨tree, htree, hperm, honly⟩ := buildTree_spec hne
  have hsize := tree.size_add_one
  rw [hperm.length_eq, List.length_map] at hsize
  exact ⟨tree, htree, by omega, hperm, honly⟩

/-! ### The longest code (41 R163) -/

theorem foldl_max_le_iff (enc : List CodeEntry) (m d : Nat) :
    enc.foldl (fun m e => max m e.length) m ≤ d ↔ m ≤ d ∧ ∀ e ∈ enc, e.length ≤ d := by
  induction enc generalizing m with
  | nil => simp
  | cons e enc ih =>
    rw [List.foldl_cons, ih, Nat.max_le, List.forall_mem_cons, and_assoc]

theorem longestCode_le_iff (enc : List CodeEntry) (d : Nat) : longestCode enc ≤ d ↔ ∀ e ∈ enc, e.length ≤ d := by
  rw [longestCode, foldl_max_le_iff]
  exact and_iff_right (Nat.zero_le d)

/-- The longest code of an exported table is as long as its tree is deep. -/
theorem CodeTree.longestCode_toTable {tree : CodeTree} {n : Nat} (hperm : tree.leafSymbols.Perm (List.range n))
    (hdepth : tree.depth ≤ 32) : longestCode (tree.toTable n).enc = tree.depth := by
  refine Nat.le_antisymm ((longestCode_le_iff _ _).mpr fun e he => ?_) ?_
  · obtain ⟨path, sym, h, hlen⟩ := leaf_of_mem_enc hperm hdepth he
    exact hlen ▸ tree.subtree_length_le h
  · obtain ⟨path, sym, h, hlen⟩ := tree.exists_deepest
    have hentry := List.mem_of_getElem? (toTable_entry hperm hdepth h)
    exact hlen ▸ (longestCode_le_iff _ _).mp (Nat.le_refl _) _ hentry

/-! ### Build (41 R153, R159) -/

section Build
variable {freqs : List Nat} {tree : CodeTree}

theorem build_of_tree (h : buildTree ((List.range freqs.length).zip freqs) = some tree) :
    build freqs = if 32 < tree.depth then none else some (tree.toTable freqs.length) := by
  rw [build, h]
  rfl

theorem build_eq_none_iff (h : buildTree ((List.range freqs.length).zip freqs) = some tree) :
    build freqs = none ↔ 32 < tree.depth := by
  simp [build_of_tree h]

/-- The tree of a non-empty list of frequencies has the symbols 0, 1, ... on its leaves. -/
theorem exists_tree_of_freqs (hne : freqs ≠ []) :
    ∃ tree, buildTree ((List.range freqs.length).zip freqs) = some tree ∧
      tree.leafSymbols.Perm (List.range freqs.length) := by
  have hpairs : (List.range freqs.length).zip freqs ≠ [] := by simpa using hne
  obtain ⟨tree, htree, hperm, -⟩ := buildTree_spec hpairs
  rw [List.map_fst_zip (by simp)] at hperm
  exact ⟨tree, htree, hperm⟩

/-- A tree of at most 33 leaves has no path longer than 32. -/
theorem build_ne_none (hne : freqs ≠ []) (hlen : freqs.length ≤ 33) : build freqs ≠ none := by
  obtain ⟨tree, htree, hperm⟩ := exists_tree_of_freqs hne
  have hdepth := tree.depth_lt_leaves
  rw [hperm.length_eq, List.length_range] at hdepth
  rw [Ne, build_eq_none_iff htree]
  omega

end Build

/-- Fibonacci frequencies merge one leaf at a time, so the 34th makes a path of 33 (41 R159, 60 R278). -/
theorem build_fib34 : build ((List.range 34).map fun j => Nat.fib (j + 1)) = none := by decide +kernel

theorem build_fib33 :
    (build ((List.range 33).map fun j => Nat.fib (j + 1))).map (fun tab => longestCode tab.enc) = some 32 := by
  decide +kernel

/-! ### No code of a well-formed table begins another (41 R161) -/

/-- A code that begins another walks to both symbols. -/
theorem TableWF.code_not_begins {tab : CodeTable} {n a b : Nat} (h : TableWF tab n) (ha : a < n) (hb : b < n) (hne : a ≠ b) :
    ¬ symbolCode tab a <+: symbolCode tab b := by
  rintro ⟨rest, hrest⟩
  have hwalk := h.walk_code hb []
  rw [List.append_nil, ← hrest, h.walk_code ha rest] at hwalk
  exact hne (congrArg Prod.fst (Option.some.inj hwalk))

/-- Settles O17: `build_wf`, and the walk along a code, which no other code begins. -/
theorem builtTablesAreWellFormed : Obligations.BuiltTablesAreWellFormed :=
  ⟨fun _ _ h => build_wf h, fun _ _ h =>
    ⟨fun _ _ ha hb hne => h.code_not_begins ha hb hne, fun _ rest hs => h.walk_code hs rest⟩⟩

end Sys2Proof.Machine
end

section
/-! SUPPORT. The commands on the code tables (41_prefix_code.md rules R162 to R169): their checks, and how what the builder,
`encode`, `decode` and the entries of a table give ends the command. -/

namespace Sys2Proof.Machine

variable {c : PortNo} {s : State} {t : BitVec 4} {tab : TableId} {sym : BitVec 16} {i : Instr} {e : Status}
  {checks : List (Bool × Status)} {r : Res Word}

/-! ### The checks (60 R273) -/

/-- A body after a list of checks, each of which ends the command in the state it was issued in. -/
def guarded (s : State) : List (Bool × Status) → Res Word → Res Word
  | [], r => r
  | (ok, e) :: rest, r => (check ok e s).andThen fun _ => guarded s rest r

theorem guarded_fails (h : firstOf checks = some e) : guarded s checks r = .raise e s := by
  induction checks with
  | nil => cases h
  | cons first rest ih =>
    obtain ⟨ok, e'⟩ := first
    cases ok with
    | true => exact ih h
    | false =>
      obtain rfl := Option.some.inj h
      rfl

theorem guarded_passes (h : firstOf checks = none) : guarded s checks r = r := by
  induction checks with
  | nil => rfl
  | cons first rest ih =>
    obtain ⟨ok, e⟩ := first
    cases ok with
    | true => exact ih h
    | false => cases h

/-- A command whose checks are those of `firstFailure` is rejected, or its body runs. -/
theorem exec_guarded (hi : i.isCommand = true) (hfail : firstFailure s i = firstOf checks)
    (hrun : commandRun s i = guarded s checks r) :
    (∀ e, firstFailure s i = some e → Rejects i s e) ∧
      (firstFailure s i = none → exec i s = .next (complete i s r)) := by
  rw [hfail]
  refine ⟨fun e he => ?_, fun hpass => ?_⟩
  · rw [guarded_fails he] at hrun
    exact ⟨_, (exec_command hi s).trans (by rw [hrun, complete_raise]), takeError_endsWith _ _ s, sameState_takeError _ _ s⟩
  · rw [exec_command hi, hrun, guarded_passes hpass]

theorem check_guarded {ok : Bool} {k : State → Res Word} (h : k s = guarded s checks r) :
    (check ok e s).andThen k = guarded s ((ok, e) :: checks) r := by
  cases ok with
  | true => exact h
  | false => rfl

theorem check_of_pass {first : Bool × Status} (h : firstOf checks = none) (hmem : first ∈ checks) : first.1 = true := by
  induction checks with
  | nil => cases hmem
  | cons head rest ih =>
    obtain ⟨ok, e⟩ := head
    cases ok with
    | true =>
      rcases List.mem_cons.mp hmem with rfl | hmem
      · rfl
      · exact ih h hmem
    | false => cases h

/-! ### The table that a command names (30 R91, R93) -/

/-- The table that a legal `t` field names. -/
def namedTable (t : BitVec 4) : TableId := if t = 0 then .intra else .inter

theorem namedTable_of_number (h : tableNumber tab = t.toNat) : namedTable t = tab := by
  cases tab with
  | intra => exact if_pos (BitVec.eq_of_toNat_eq h.symm)
  | inter => exact if_neg fun ht => by subst ht; cases h

theorem tableOfField_eq (t : BitVec 4) : tableOfField t = if tableExists t = true then some (namedTable t) else none := by
  revert t
  decide

theorem withTable_guarded {k : TableId → Res Word} (h : k (namedTable t) = guarded s checks r) :
    withTable t s k = guarded s ((tableExists t, .badArg) :: checks) r := by
  rw [withTable, tableOfField_eq]
  cases tableExists t with
  | true => exact h
  | false => rfl

theorem withTable_of_number {α : Type} {k : TableId → Res α} (h : tableNumber tab = t.toNat) :
    withTable t s k = k tab := by
  rw [withTable, tableOfField_of_number h]

theorem tableExists_of_number (h : tableNumber tab = t.toNat) : tableExists t = true := by
  refine decide_eq_true (h ▸ ?_)
  cases tab <;> decide

theorem symbolExists_eq (t : BitVec 4) (sym : BitVec 16) : symbolExists t sym = symbolOk (namedTable t) sym := by
  unfold symbolExists symbolOk namedTable
  split <;> rfl

theorem tableValid_eq (s : State) (t : BitVec 4) : tableValid s t = (s.table (namedTable t)).valid := by
  unfold tableValid namedTable
  split <;> rfl

/-! ### The commands -/

/-- `FQ_WR` (41 R162). -/
theorem exec_fqWr (s : State) (t : BitVec 4) (sym : BitVec 16) (f : Word) :
    (∀ e, firstFailure s (.fqWr t sym f) = some e → Rejects (.fqWr t sym f) s e) ∧
      (firstFailure s (.fqWr t sym f) = none →
        exec (.fqWr t sym f) s = .next (succeed 0 (s.setFreq (namedTable t) sym.toNat f))) := by
  refine exec_guarded (i := .fqWr t sym f) (r := .done 0 (s.setFreq (namedTable t) sym.toNat f)) rfl rfl ?_
  rw [symbolExists_eq]
  exact withTable_guarded (check_guarded rfl)

/-- `PC_ENCODE` (41 R165). -/
theorem exec_pcEncode_checked (s : State) (c : PortNo) (t : BitVec 4) (sym : BitVec 16) :
    (∀ e, firstFailure s (.pcEncode c t sym) = some e → Rejects (.pcEncode c t sym) s e) ∧
      (firstFailure s (.pcEncode c t sym) = none → exec (.pcEncode c t sym) s = .next (complete (.pcEncode c t sym) s
        ((encodeSymbol c (namedTable t) sym.toNat s).andThen fun u => .done 0 u))) := by
  refine exec_guarded (i := .pcEncode c t sym) rfl rfl ?_
  rw [symbolExists_eq, tableValid_eq]
  exact check_guarded (withTable_guarded (check_guarded (check_guarded rfl)))

/-- `PC_DECODE` (41 R167). -/
theorem exec_pcDecode_checked (s : State) (c : PortNo) (t : BitVec 4) :
    (∀ e, firstFailure s (.pcDecode c t) = some e → Rejects (.pcDecode c t) s e) ∧
      (firstFailure s (.pcDecode c t) = none → exec (.pcDecode c t) s = .next (complete (.pcDecode c t) s
        ((decodeSymbol c (namedTable t) s).bind fun sym u => .done (BitVec.ofNat 32 sym) u))) := by
  refine exec_guarded (i := .pcDecode c t) rfl rfl ?_
  rw [tableValid_eq]
  exact check_guarded (withTable_guarded (check_guarded rfl))

/-- `PC_QBITS` (41 R168). -/
theorem exec_pcQbits (s : State) (t : BitVec 4) (sym : BitVec 16) :
    (∀ e, firstFailure s (.pcQbits t sym) = some e → Rejects (.pcQbits t sym) s e) ∧
      (firstFailure s (.pcQbits t sym) = none →
        exec (.pcQbits t sym) s = .next (succeed (codeEntry s (namedTable t) sym.toNat).bits s)) := by
  refine exec_guarded (i := .pcQbits t sym) (r := .done (codeEntry s (namedTable t) sym.toNat).bits s) rfl rfl ?_
  rw [symbolExists_eq, tableValid_eq]
  exact withTable_guarded (check_guarded (check_guarded rfl))

/-- `PC_QLEN` (41 R169). -/
theorem exec_pcQlen (s : State) (t : BitVec 4) (sym : BitVec 16) :
    (∀ e, firstFailure s (.pcQlen t sym) = some e → Rejects (.pcQlen t sym) s e) ∧
      (firstFailure s (.pcQlen t sym) = none → exec (.pcQlen t sym) s =
        .next (succeed (BitVec.ofNat 32 (codeEntry s (namedTable t) sym.toNat).length) s)) := by
  refine exec_guarded (i := .pcQlen t sym) (r := .done (BitVec.ofNat 32 (codeEntry s (namedTable t) sym.toNat).length) s)
    rfl rfl ?_
  rw [symbolExists_eq, tableValid_eq]
  exact withTable_guarded (check_guarded (check_guarded rfl))

/-- `PC_BUILD` of a table number beyond 1 (41 R163). -/
theorem pcBuild_rejects (h : firstFailure s (.pcBuild t) = some e) : Rejects (.pcBuild t) s e :=
  (exec_guarded (i := .pcBuild t) rfl rfl (withTable_guarded rfl)).1 e h

/-- `PC_BUILD` where the builder answers a table (41 R163). -/
theorem exec_pcBuild_some {code : CodeTable} (hnum : tableNumber tab = t.toNat)
    (h : build (frequencies s tab) = some code) : exec (.pcBuild t) s =
      .next (succeed (BitVec.ofNat 32 (longestCode code.enc)) (s.setTable tab ⟨code.enc, code.tree, true⟩)) := by
  rw [exec_command rfl, commandRun, runPcBuild, withTable_of_number hnum, h]
  rfl

/-- `PC_BUILD` where a code would be too long keeps the table (41 R159, R163). -/
theorem pcBuild_tooLong (hnum : tableNumber tab = t.toNat) (h : build (frequencies s tab) = none) :
    Rejects (.pcBuild t) s .codeTooLong := by
  have hexec : exec (.pcBuild t) s = .next (takeError (opcodeOf (.pcBuild t)) .codeTooLong s) := by
    rw [exec_command rfl, commandRun, runPcBuild, withTable_of_number hnum, h]
    rfl
  exact ⟨_, hexec, takeError_endsWith _ _ s, sameState_takeError _ _ s⟩

/-! ### Frequencies and the entries of a table -/

/-- Settles O14, by what a frequency reads as after a write (`freqCell_setFreq`). -/
theorem frequencyWriteSetsOneCell : Obligations.FrequencyWriteSetsOneCell := by
  intro s t sym f
  obtain ⟨hrej, hgo⟩ := exec_fqWr s t sym f
  refine ⟨hrej, fun tab hnum hsym => ?_⟩
  have hname := namedTable_of_number hnum
  have hsymbol : symbolExists t sym = true := by
    rw [symbolExists_eq, hname]
    exact decide_eq_true hsym
  have hpass : firstFailure s (.fqWr t sym f) = none := by
    rw [firstFailure, tableExists_of_number hnum, hsymbol]
    rfl
  rw [hname] at hgo
  exact ⟨_, hgo hpass, succeed_endsOk 0 rfl, rfl, fun tab' x => freqCell_setFreq s tab tab' sym.toNat x f⟩

theorem codeEntry_eq {n : Nat} {entry : CodeEntry} (h : (s.table tab).enc[n]? = some entry) : codeEntry s tab n = entry := by
  rw [codeEntry, List.getD_eq_getElem?_getD, h, Option.getD_some]

/-- Settles O22: both commands have the same checks, and answer with a part of the same entry. -/
theorem queriesReturnTheEntry : Obligations.QueriesReturnTheEntry := by
  intro s t sym
  obtain ⟨hrejBits, hbits⟩ := exec_pcQbits s t sym
  obtain ⟨hrejLen, hlen⟩ := exec_pcQlen s t sym
  refine ⟨fun e he => ⟨hrejBits e he, hrejLen e he⟩, fun tab entry hpass hnum hentry hle => ?_⟩
  rw [namedTable_of_number hnum, codeEntry_eq hentry] at hbits hlen
  refine ⟨⟨_, hbits hpass, succeed_endsOk _ rfl, rfl⟩, _, _, hlen hpass, succeed_endsOk _ rfl, rfl, ?_⟩
  rw [BitVec.toNat_ofNat, Nat.mod_eq_of_lt (by omega)]

/-! ### Building (41 R159, R163) -/

theorem frequencies_eq (s : State) (tab : TableId) : frequencies s tab = (freqPairs s tab).map Prod.snd := by
  rw [freqPairs, List.map_map]
  rfl

theorem map_fst_freqPairs (s : State) (tab : TableId) : (freqPairs s tab).map Prod.fst = List.range tab.symbols := by
  rw [freqPairs, List.map_map]
  exact List.map_id _

theorem length_freqPairs (s : State) (tab : TableId) : (freqPairs s tab).length = tab.symbols := by
  rw [freqPairs, List.length_map, List.length_range]

/-- `PC_BUILD` gives the builder the symbols in order, each with its frequency (41 R163). -/
theorem zip_frequencies (s : State) (tab : TableId) :
    (List.range (frequencies s tab).length).zip (frequencies s tab) = freqPairs s tab := by
  rw [length_frequencies]
  exact (List.zip_of_prod (map_fst_freqPairs s tab) (frequencies_eq s tab).symm).symm

/-- The tree of the extraction rule is the one that the builder exports. -/
theorem buildTree_frequencies {tree : CodeTree} (h : BuildsTree tab.symbols (leafNodes (freqPairs s tab)) tree) :
    buildTree ((List.range (frequencies s tab).length).zip (frequencies s tab)) = some tree ∧
      tree.leafSymbols.Perm (List.range tab.symbols) := by
  have hne : freqPairs s tab ≠ [] := fun hnil => by
    have hlen := length_freqPairs s tab
    rw [hnil] at hlen
    cases tab <;> cases hlen
  obtain ⟨tree', htree, hperm, honly⟩ := buildTree_spec hne
  rw [length_freqPairs] at honly
  obtain rfl := (honly tree).mp h
  rw [map_fst_freqPairs] at hperm
  rw [zip_frequencies]
  exact ⟨htree, hperm⟩

/-- Settles O18: `Build` fails with the depth of its tree (`build_eq_none_iff`), which is below the number of leaves
(`build_ne_none`); the Fibonacci frequencies show that both bounds are met. -/
theorem onlyLongCodesFailToBuild : Obligations.OnlyLongCodesFailToBuild := by
  refine ⟨fun freqs tree htree => ?_, fun freqs => build_ne_none, build_fib34, build_fib33, fun s t tab hnum hnone => ?_⟩
  · rw [build_eq_none_iff htree, tree.exists_path_gt_iff]
  · rw [← frequencies_eq] at hnone
    exact pcBuild_tooLong hnum hnone

theorem sameButTable_succeed (data : Word) (s : State) (tab : TableId) (contents : Table) :
    SameButTable tab s (succeed data (s.setTable tab contents)) := by
  rw [SameButTable, succeed_table, setTable_self]
  rfl

/-- Settles O19: the tree of the extraction rule is the builder's (`buildTree_frequencies`), and its depth is the longest
code of its table (`longestCode_toTable`). -/
theorem buildLoadsTheTable : Obligations.BuildLoadsTheTable := by
  refine fun s t => ⟨fun e he => pcBuild_rejects he, fun tab tree hnum hbuilds => ?_⟩
  obtain ⟨htree, hperm⟩ := buildTree_frequencies hbuilds
  refine ⟨fun hshort => ?_, fun hlong => ?_⟩
  · have hdepth : tree.depth ≤ 32 := by
      obtain ⟨path, sym, hleaf, hlen⟩ := tree.exists_deepest
      exact hlen ▸ hshort path sym hleaf
    have hbuild : build (frequencies s tab) = some (tree.toTable tab.symbols) := by
      rw [build_of_tree htree, if_neg (by omega), length_frequencies]
    have hexec := exec_pcBuild_some hnum hbuild
    rw [CodeTree.longestCode_toTable hperm hdepth] at hexec
    have hdata : (BitVec.ofNat 32 tree.depth).toNat = tree.depth := by
      rw [BitVec.toNat_ofNat, Nat.mod_eq_of_lt (by omega)]
    refine ⟨_, _, hexec, succeed_endsOk _ (setTable_lastErr s tab _), sameButTable_succeed _ s tab _, ?_, ?_, ?_⟩
    · rw [succeed_table, setTable_self]
    · rw [hdata]
      exact tree.exists_deepest
    · intro path sym hleaf
      rw [hdata]
      exact tree.subtree_length_le hleaf
  · exact pcBuild_tooLong hnum ((build_eq_none_iff htree).mpr ((tree.exists_path_gt_iff 32).mp hlong))

/-! ### Encoding (41 R165) -/

/-- `encode` under a ready table is a `write` of the code. -/
theorem encodeSymbol_eq_write {n : Nat} (c : PortNo) (hready : s.TableReady tab) (hn : n < tab.symbols) :
    ∃ entry : CodeEntry, encodeSymbol c tab n s = write c entry.bits entry.length s ∧ entry.length ≤ 32 ∧
      symbolCode (s.table tab).contents n = bitsOf entry.bits.toNat entry.length := by
  obtain ⟨entry, path, -, hget, -, -, hlen, hle, -⟩ := hready.2.code hn
  exact ⟨entry, by rw [encodeSymbol, codeEntry_eq hget], by omega, by rw [symbolCode, hget]⟩

/-- What a passed check of `PC_ENCODE` says of its symbol. -/
theorem symbol_lt_of_pass (hnum : tableNumber tab = t.toNat) (hpass : firstFailure s (.pcEncode c t sym) = none) :
    sym.toNat < tab.symbols := by
  have hsymbol : symbolExists t sym = true := check_of_pass (first := (symbolExists t sym, .badArg)) hpass (by simp)
  rw [symbolExists_eq, namedTable_of_number hnum] at hsymbol
  exact of_decide_eq_true hsymbol

/-- Settles O20: `encode` is a `write` of the code (`encodeSymbol_eq_write`), which appends it (`write_done`) or fails
(`write_fails`). -/
theorem encodeAppendsTheCode : Obligations.EncodeAppendsTheCode := by
  intro s c t sym
  obtain ⟨hrej, hgo⟩ := exec_pcEncode_checked s c t sym
  refine ⟨hrej, fun tab code hpass hnum hready hp hcode => ?_⟩
  obtain ⟨entry, hencode, hle, hbits⟩ := encodeSymbol_eq_write c hready (symbol_lt_of_pass hnum hpass)
  have hexec := hgo hpass
  rw [namedTable_of_number hnum, hencode] at hexec
  rw [hcode, hbits, length_bitsOf]
  refine ⟨fun hfits => ?_, fun ⟨herr, hfull⟩ => ?_⟩
  · obtain ⟨q, hq, happ, hinv, -⟩ := write_done entry.bits hp hle hfits
    rw [hq, andThen_done, complete_done] at hexec
    refine ⟨_, hexec, succeed_endsOk 0 rfl, sameButPort_succeed 0 s c q, ?_⟩
    rw [succeed_port, port_setPort_self]
    exact ⟨happ, hinv⟩
  · rw [write_fails entry.bits hp.writerCount herr hfull, andThen_raise] at hexec
    exact failsOutput_of hexec

/-! ### Decoding (41 R166, R167) -/

/-- Where no code is at hand whole, fewer than 32 bits are at hand and the walk over them meets no leaf. -/
theorem TableWF.walk_none {code : CodeTable} {n : Nat} {bits : List Bool} (h : TableWF code n)
    (hnone : ∀ sym, sym < n → ¬ symbolCode code sym <+: bits) :
    walkBits code.tree 0 bits = none ∧ bits.length < 32 := by
  have hwalk : walkBits code.tree 0 bits = none := by
    cases hw : walkBits code.tree 0 bits with
    | none => rfl
    | some found =>
      obtain ⟨hsym, hbits⟩ := h.code_of_walk (sym := found.1) (rest := found.2) hw
      exact absurd ⟨found.2, hbits.symm⟩ (hnone found.1 hsym)
  refine ⟨hwalk, Nat.lt_of_not_le fun hlen => ?_⟩
  obtain ⟨sym, rest, hw⟩ := h.walk_of_length hlen
  rw [hwalk] at hw
  cases hw

/-- Settles O21: the walk ends at the symbol whose code comes next (`walk_code`), or meets no leaf with no word left to
fetch (`walk_none`). -/
theorem decodeReturnsTheNextSymbol : Obligations.DecodeReturnsTheNextSymbol := by
  intro s c t
  obtain ⟨hrej, hgo⟩ := exec_pcDecode_checked s c t
  refine ⟨hrej, fun tab hpass hnum hready hp => ?_⟩
  have hexec := hgo hpass
  rw [namedTable_of_number hnum] at hexec
  refine ⟨fun sym rest hsym hin => ?_, fun hnone => ?_⟩
  · have hwalk : walkBits (s.table tab).tree 0 (s.port c).inBits = some (sym, rest) := by
      rw [hin]
      exact hready.2.walk_code hsym rest
    obtain ⟨q, hq, hconsumes, -, hinv⟩ := decodeSymbol_done hp hwalk
    rw [hin, List.length_append, Nat.add_sub_cancel] at hconsumes
    rw [hq, bind_done, complete_done] at hexec
    refine ⟨_, hexec, succeed_endsOk _ rfl, sameButPort_succeed _ s c q, ?_⟩
    rw [succeed_port, port_setPort_self]
    exact ⟨hconsumes, hinv⟩
  · obtain ⟨hwalk, hlen⟩ := hready.2.walk_none hnone
    have htin := hp.tin_eq_nil hlen
    have hsame : ({ s.port c with tin := [] } : Port) = s.port c := by rw [← htin]
    refine lacksInput_of htin ?_
    rw [hexec, decodeSymbol_short hp hwalk, hsame]
    split <;> rfl

end Sys2Proof.Machine
end

section
/-! SUPPORT. The scan as a list of steps and the prediction case by case (42_intra_codec.md rules R181 to R186). -/

namespace Sys2Proof.Machine

variable {w h p : Nat}

/-! ### The scan (42 R181) -/

/-- Step `p` of the scan. -/
theorem getElem?_scan (hp : p < w * h) : (scan w h)[p]? = some (scanColumn w p, scanRow w p) := by
  rw [scan_eq, List.getElem?_map, List.getElem?_range hp, Option.map_some]

theorem lt_of_getElem?_scan {xy : Nat × Nat} (hxy : (scan w h)[p]? = some xy) : p < w * h :=
  length_scan w h ▸ (List.getElem?_eq_some_iff.mp hxy).1

/-- What stands at a place of the scan is the column and the row of that step. -/
theorem eq_of_getElem?_scan {xy : Nat × Nat} (hxy : (scan w h)[p]? = some xy) : xy = (scanColumn w p, scanRow w p) :=
  Option.some.inj (hxy.symm.trans (getElem?_scan (lt_of_getElem?_scan hxy)))

theorem scan_nodup (w h : Nat) : (scan w h).Nodup := by
  rw [scan_eq]
  refine List.nodup_range.map_on fun p hp q _ heq => ?_
  have hw : 0 < w := Nat.pos_of_mul_pos_right (Nat.zero_lt_of_lt (List.mem_range.mp hp))
  obtain ⟨hcolumn, hrow⟩ := Prod.mk.inj heq
  rw [← scanStep_column_row p hw, hcolumn, hrow, scanStep_column_row q hw]

theorem mem_scan (w h x y : Nat) : (x, y) ∈ scan w h ↔ x < w ∧ y < h := by
  rw [scan_eq, List.mem_map]
  constructor
  · rintro ⟨p, hp, heq⟩
    have hlt := List.mem_range.mp hp
    obtain ⟨rfl, rfl⟩ := Prod.mk.inj heq
    exact ⟨scanColumn_lt p (Nat.pos_of_mul_pos_right (Nat.zero_lt_of_lt hlt)), scanRow_lt hlt⟩
  · rintro ⟨hx, hy⟩
    refine ⟨scanStep w x y, List.mem_range.mpr (scanStep_lt hx hy), ?_⟩
    rw [scanColumn_step y hx, scanRow_step y hx]

/-- Step `y * w + j` of the scan is the pixel at place `j` of row `y`. -/
theorem getElem?_scan_row {y j : Nat} (hy : y < h) (hj : j < w) :
    (scan w h)[y * w + j]? = some (if y % 2 = 0 then j else w - 1 - j, y) := by
  have hx : (if y % 2 = 0 then j else w - 1 - j) < w := by split <;> omega
  have hstep : scanStep w (if y % 2 = 0 then j else w - 1 - j) y = y * w + j := by
    unfold scanStep
    split <;> omega
  rw [← hstep, getElem?_scan (scanStep_lt hx hy), scanColumn_step y hx, scanRow_step y hx]

/-- Settles O23: the steps of the scan are numbered (`scan_eq`), one to one with the pixels; the row turn is the first
place of row `y` and the last of row `y - 1`. -/
theorem scanIsSerpentine : Obligations.ScanIsSerpentine := by
  intro w h
  refine ⟨scan_nodup w h, mem_scan w h, fun y j hy hj => getElem?_scan_row hy hj, fun y hpos hy hw => ⟨?_, ?_⟩⟩
  · simpa using getElem?_scan_row hy hw
  · obtain ⟨z, rfl⟩ : ∃ z, y = z + 1 := ⟨y - 1, by omega⟩
    have hlast : (z + 1) * w - 1 = z * w + (w - 1) := by rw [Nat.succ_mul]; omega
    rw [hlast, getElem?_scan_row (by omega) (by omega), Nat.add_sub_cancel]
    congr 2
    split <;> split <;> omega

/-! ### The prediction (42 R183 to R186) -/

theorem predict_row_zero (g : Nat → Pixel) (w x : Nat) : predict g w x 0 = g (x - 1) := by
  rw [predict, if_pos rfl, cellIndex, Nat.zero_mul, Nat.zero_add]

theorem predict_first (g : Nat → Pixel) (w : Nat) {y : Nat} (hy : 1 ≤ y) :
    predict g w (firstColumn w y) y = g ((y - 1) * w + firstColumn w y) := by
  rw [predict, if_neg (by omega), if_pos rfl]
  rfl

theorem predict_paeth (g : Nat → Pixel) {w x y : Nat} (hy : 1 ≤ y) (hx : x ≠ firstColumn w y) :
    predict g w x y = paeth (g (y * w + previousColumn x y)) (g ((y - 1) * w + x))
      (g ((y - 1) * w + previousColumn x y)) := by
  rw [predict, if_neg (by omega), if_neg hx]
  rfl

/-- The choice of `paeth`: the nearest to `a + b - c` over the integers, ties in the order a, b, c. -/
theorem paeth_eq (a b c : Pixel) :
    paeth a b c =
      if |(a.toNat : Int) + b.toNat - c.toNat - a.toNat| ≤ |(a.toNat : Int) + b.toNat - c.toNat - b.toNat| ∧
          |(a.toNat : Int) + b.toNat - c.toNat - a.toNat| ≤ |(a.toNat : Int) + b.toNat - c.toNat - c.toNat| then a
      else if |(a.toNat : Int) + b.toNat - c.toNat - b.toNat| ≤ |(a.toNat : Int) + b.toNat - c.toNat - c.toNat| then b
      else c := by
  simp only [paeth, Int.abs_eq_natAbs, Int.ofNat_le]

/-- Settles O24: the three cases are the branches of `predict`, the choice is `paeth_eq`, and `predictAt_congr` says what a
prediction reads. -/
theorem predictionFollowsTheScan : Obligations.PredictionFollowsTheScan := by
  refine ⟨fun g w x _ => predict_row_zero g w x, ?_, ?_, ?_⟩
  · rintro g w y first hy rfl
    exact predict_first g w hy
  · rintro g w x y before a b c p hy - hx rfl ha hb hc rfl
    have hchoice : predict g w x y = paeth a b c := by
      rw [ha, hb, hc]
      exact predict_paeth g hy hx
    rw [hchoice, paeth_eq]
    refine ⟨fun hnear => if_pos hnear, fun ⟨hab, hbc⟩ => ?_, fun ⟨hac, hbc⟩ => ?_⟩
    · rw [if_neg fun hnear => absurd hnear.1 (not_le.mpr hab), if_pos hbc]
    · rw [if_neg fun hnear => absurd hnear.2 (not_le.mpr hac), if_neg (not_le.mpr hbc)]
  · intro f g w h q xy hq hxy hbefore
    have hlt := lt_of_getElem?_scan hxy
    rw [eq_of_getElem?_scan hxy]
    refine predictAt_congr (Nat.pos_of_mul_pos_right (Nat.zero_lt_of_lt hlt)) hq fun r hr => ?_
    exact hbefore r _ hr (getElem?_scan (hr.trans hlt))

end Sys2Proof.Machine
end

section
/-! SUPPORT. The codecs as commands (42_intra_codec.md rules R189 to R192): the checks of both codecs, and how what the intra
compressor and decompressor do with a frame ends the command. -/

namespace Sys2Proof.Machine

variable {c : PortNo} {s t : State} {i : Instr} {e : Status} {checks : List (Bool × Status)} {r : Res Word}

/-! ### The checks (42 R189, 43 R204, 60 R273) -/

/-- A check of two conditions is two checks with one status. -/
theorem check_and_guarded {a b : Bool} {k : State → Res Word} (h : (check b e s).andThen k = guarded s checks r) :
    (check (a && b) e s).andThen k = guarded s ((a, e) :: checks) r := by
  cases a with
  | true => exact h
  | false => rfl

theorem opDimsOk_eq (s : State) : opDimsOk s = codecDims s := by
  simp only [opDimsOk, codecDims, Nat.one_le_iff_ne_zero, Bool.decide_and, Bool.and_assoc]

theorem intraChecks_guarded {b : BitVec 8} {k : State → Res Word} : (intraChecks c b s).andThen k =
    guarded s [(portExists s c, .badArg), (bufferExists s b, .badArg), (s.tab0.valid, .noTable), (codecDims s, .badDim)]
      (k s) := by
  rw [intraChecks, andThen_andThen, ← opDimsOk_eq]
  refine check_and_guarded (check_guarded ?_)
  rw [andThen_andThen]
  exact check_guarded (check_guarded rfl)

theorem interChecks_guarded {b b' : BitVec 8} {k : State → Res Word} : (interChecks c b b' s).andThen k =
    guarded s [(portExists s c, .badArg), (bufferExists s b, .badArg), (bufferExists s b', .badArg),
      (s.tab1.valid, .noTable), (codecDims s, .badDim)] (k s) := by
  rw [interChecks, andThen_andThen, ← opDimsOk_eq, Bool.and_assoc]
  refine check_and_guarded (check_and_guarded (check_guarded ?_))
  rw [andThen_andThen]
  exact check_guarded (check_guarded rfl)

/-- `IC_COMPRESS` (42 R190). -/
theorem exec_icCompress (s : State) (c : PortNo) (src : BitVec 8) :
    (∀ e, firstFailure s (.icCompress c src) = some e → Rejects (.icCompress c src) s e) ∧
      (firstFailure s (.icCompress c src) = none → exec (.icCompress c src) s = .next (complete (.icCompress c src) s
        ((intraCompress c src.toNat s.opW.toNat s.opH.toNat s).andThen fun u =>
          .done (wordCount (wordsEmitted c s u)) u))) :=
  exec_guarded (i := .icCompress c src) rfl rfl intraChecks_guarded

/-- `IC_DECOMPRESS` (42 R191). -/
theorem exec_icDecompress (s : State) (c : PortNo) (dst : BitVec 8) :
    (∀ e, firstFailure s (.icDecompress c dst) = some e → Rejects (.icDecompress c dst) s e) ∧
      (firstFailure s (.icDecompress c dst) = none → exec (.icDecompress c dst) s = .next (complete (.icDecompress c dst) s
        ((intraDecompress 0x31 c dst.toNat s.opW.toNat s.opH.toNat s).andThen fun u =>
          .done (wordCount (wordsConsumed c s u)) u))) :=
  exec_guarded (i := .icDecompress c dst) rfl rfl intraChecks_guarded

/-- `XC_DECOMPRESS` (43 R206). -/
theorem exec_xcDecompress (s : State) (c : PortNo) (dst ref : BitVec 8) :
    (∀ e, firstFailure s (.xcDecompress c dst ref) = some e → Rejects (.xcDecompress c dst ref) s e) ∧
      (firstFailure s (.xcDecompress c dst ref) = none →
        exec (.xcDecompress c dst ref) s = .next (complete (.xcDecompress c dst ref) s
          ((interDecompress 0x41 c dst.toNat ref.toNat (s.opW.toNat * s.opH.toNat) s).andThen fun u =>
            .done (wordCount (wordsConsumed c s u)) u))) :=
  exec_guarded (i := .xcDecompress c dst ref) rfl rfl interChecks_guarded

/-- The grid of a codec command that passed its checks has a pixel (42 R189). -/
theorem pixels_pos_of_pass (hdims : (codecDims s, .badDim) ∈ checks) (hpass : firstOf checks = none) :
    0 < s.opW.toNat * s.opH.toNat := by
  obtain ⟨hw, hh, -⟩ := of_decide_eq_true (check_of_pass hpass hdims)
  exact Nat.mul_pos hw hh

/-! ### Counts of words (30 R92) -/

theorem counts_wordCount (n : Nat) : Counts (wordCount n) n := by
  intro hn
  rw [wordCount, if_pos hn, BitVec.toNat_ofNat, Nat.mod_eq_of_lt hn]

/-- A reader that has the bits at hand finds the words that hold them in its transport. -/
theorem Port.Inv.wordsToRead_le {p : Port} {k : Nat} (hp : p.Inv) (hk : k ≤ p.inBits.length) :
    wordsToRead p.brN k ≤ p.tin.length := by
  rw [hp.length_inBits] at hk
  unfold wordsToRead
  omega

/-! ### Compressing (42 R190) -/

/-- Settles O25: the compressor puts the frame and pads it (`intraCompress_done`), or its first word cannot leave
(`intraCompress_fails`). -/
theorem intraCompressEmitsTheFrame : Obligations.IntraCompressEmitsTheFrame := by
  intro s c src
  obtain ⟨hrej, hgo⟩ := exec_icCompress s c src
  refine ⟨hrej, fun hpass hready hp => ?_⟩
  have hexec := hgo hpass
  have hn := pixels_pos_of_pass (s := s) (by simp) hpass
  refine ⟨fun herr => ?_, fun herr => ?_⟩
  · obtain ⟨q, hq, hsame, -, hout, hkept⟩ := intraCompress_done hready hp herr hn
    rw [hq, andThen_done, complete_done] at hexec
    refine ⟨_, _, hexec, succeed_endsOk _ rfl, sameButPort_succeed _ s c q, ?_⟩
    rw [wordsEmitted, succeed_port, port_setPort_self]
    exact ⟨hsame, hkept, counts_wordCount _, hout⟩
  · rw [intraCompress_fails hready hp herr hn, andThen_raise] at hexec
    exact failsOutput_of hexec

/-! ### Decompressing (42 R191) -/

/-- The port of a state that differs from `s` by port `c`, the pixels and the cursor. -/
theorem port_of_same {q : Port} {m : Cells 16} {cu : Option Cursor} (h : t = { s.setPort c q with pix := m, cursor := cu }) :
    t.port c = q := by
  rw [h]
  exact port_setPort_self s c q

/-- A success in a state that differs from `s` by port `c`, the pixels and the cursor. -/
theorem sameButPortPixels_succeed {q : Port} {m : Cells 16} {cu : Option Cursor} (data : Word)
    (h : t = { s.setPort c q with pix := m, cursor := cu }) : SameButPortPixels c s (succeed data t) := by
  rw [SameButPortPixels, succeed_port, port_of_same h, h]
  rfl

/-- `IC_DECOMPRESS` of the frame of any items that rebuild the grid `g` (42 R191). -/
theorem icDecompress_items {dst : BitVec 8} {g : Nat → Pixel} {raw : Pixel} {items : List Instr} {bits rest : List Bool}
    (hpass : firstFailure s (.icDecompress c dst) = none) (hready : s.TableReady .intra) (hp : (s.port c).Inv)
    (hok : ∀ item ∈ items, isIntraItem item = true) (hg : IntraRebuilds g s.opW.toNat s.opH.toNat raw items)
    (hbits : bits = intraBits (s.table .intra).contents raw items) (hin : (s.port c).inBits = bits ++ rest) :
    ∃ t data, exec (.icDecompress c dst) s = .next t ∧ EndsOk s t data ∧ SameButPortPixels c s t ∧
      t.port c = { s.port c with
        brAcc := 0, brN := 0, tin := (s.port c).tin.drop (wordsToRead (s.port c).brN bits.length) } ∧
      Counts data (wordsToRead (s.port c).brN bits.length) ∧
      ∀ b x, t.pixel b x = if b = dst.toNat ∧ x < s.opW.toNat * s.opH.toNat then g x else s.pixel b x := by
  subst hbits
  obtain ⟨q, u, hu, hsame, hq, -, hpix⟩ := intraDecompress_items 0x31 (b := dst.toNat) hready hp hok hg hin
  obtain ⟨-, hgo⟩ := exec_icDecompress s c dst
  have hexec := hgo hpass
  have hport : u.port c = q := port_of_same hsame
  have hle := hp.wordsToRead_le (k := (intraBits (s.table .intra).contents raw items).length) (by rw [hin]; simp)
  have hcount : wordsConsumed c s u = wordsToRead (s.port c).brN (intraBits (s.table .intra).contents raw items).length := by
    rw [wordsConsumed, hport, hq, List.length_drop]
    omega
  rw [hu, andThen_done, complete_done, hcount] at hexec
  exact ⟨_, _, hexec, succeed_endsOk _ (by rw [hsame]; rfl),
    sameButPortPixels_succeed _ hsame, hport.trans hq, counts_wordCount _, hpix⟩

/-- Settles O26: the items rebuild a grid (`exists_intraRebuilds`), and the decompressor writes it (`icDecompress_items`). -/
theorem intraDecompressRebuildsTheGrid : Obligations.IntraDecompressRebuildsTheGrid := by
  intro s c dst
  refine ⟨(exec_icDecompress s c dst).1, fun raw items bits rest hpass hready hp hok hcount hbits hin => ?_⟩
  obtain ⟨g, hg⟩ := exists_intraRebuilds raw items hcount
  obtain ⟨t, data, hexec, hends, hframe, hport, hdata, hpix⟩ := icDecompress_items hpass hready hp hok hg hbits hin
  refine ⟨t, data, hexec, hends, hframe, hport, hdata, hg.congr fun x hx => ?_, fun b x hout => ?_⟩
  · rw [hpix, if_pos ⟨rfl, hx⟩]
  · rw [hpix, if_neg hout]

/-! ### The round trip (42 R192) -/

/-- A status that a check answers is the status of that check. -/
theorem firstOf_mem (h : firstOf checks = some e) : ∃ ok, (ok, e) ∈ checks := by
  induction checks with
  | nil => cases h
  | cons first rest ih =>
    obtain ⟨ok, e'⟩ := first
    cases ok with
    | true =>
      obtain ⟨ok', hmem⟩ := ih h
      exact ⟨ok', List.mem_cons_of_mem _ hmem⟩
    | false =>
      obtain rfl := Option.some.inj h
      exact ⟨false, List.mem_cons_self⟩

/-- A command that ended `OK` passed its checks, which answer errors only. -/
theorem pass_of_endsOk {data : Word} (hfail : firstFailure s i = firstOf checks) (hne : ∀ first ∈ checks, first.2 ≠ .ok)
    (hrej : ∀ e, firstFailure s i = some e → Rejects i s e) (hexec : exec i s = .next t) (hends : EndsOk s t data) :
    firstFailure s i = none := by
  by_contra hsome
  obtain ⟨e, he⟩ := Option.ne_none_iff_exists'.mp hsome
  obtain ⟨ok, hmem⟩ := firstOf_mem (hfail.symm.trans he)
  obtain ⟨u, hu, ⟨hanswer, -⟩, -⟩ := hrej e he
  obtain rfl := Host.Outcome.next.inj (hexec.symm.trans hu)
  exact hne _ hmem (hanswer.status_eq hends.1)

/-- A command that ended `OK` found a working transport where a failed one would have stopped it. -/
theorem working_of_endsOk {data : Word} (hfails : (s.port c).toutErr = true → FailsOutput i c s)
    (hexec : exec i s = .next t) (hends : EndsOk s t data) : (s.port c).toutErr = false := by
  by_contra herr
  obtain ⟨u, hu, ⟨hanswer, -⟩, -⟩ := hfails (Bool.eq_true_of_not_eq_false herr)
  obtain rfl := Host.Outcome.next.inj (hexec.symm.trans hu)
  cases hanswer.status_eq hends.1

/-- Whole words in front of a stream do not move its word boundary (20 R65). -/
theorem padToWord_append {xs : List Bool} (ys : List Bool) (h : xs.length % 32 = 0) :
    padToWord (xs ++ ys) = xs ++ padToWord ys := by
  rw [padToWord, padToWord, List.append_assoc, List.length_append, Nat.add_mod, h, Nat.zero_add, Nat.mod_mod]

/-- The words emitted from an empty writer to an empty writer carry the padded bits, and a reader that starts with them
fetches them all. -/
theorem words_of_padded {p q : Port} {bits : List Bool} {words : List Word} (hp : p.bwN = 0) (hq : q.bwN = 0)
    (hout : q.outBits = padToWord (p.outBits ++ bits)) (hwords : q.tout = p.tout ++ words) :
    (∃ zeros, words.flatMap wordBits = bits ++ zeros) ∧ wordsToRead 0 bits.length = words.length := by
  have hwhole : p.outBits.length % 32 = 0 := by rw [length_outBits, hp]; omega
  rw [padToWord_append _ hwhole, Port.outBits_of_empty hp, Port.outBits_of_empty hq, hwords, List.flatMap_append] at hout
  have hbits := List.append_cancel_left hout
  refine ⟨⟨_, hbits⟩, ?_⟩
  have hlen := congrArg List.length hbits
  rw [length_flatMap_wordBits, padToWord, List.length_append, List.length_replicate] at hlen
  unfold wordsToRead
  omega

/-- An empty reader reads the words of its transport. -/
theorem Port.inBits_of_empty {p : Port} (h : p.brN = 0) : p.inBits = p.tin.flatMap wordBits := by
  rw [Port.inBits, Port.fetchedBits, h]
  rfl

/-- Settles O27: the words carry the frame of the grid and its padding (`intraCompressEmitsTheFrame`, `words_of_padded`), and
the items of a grid rebuild it (`intraItems_rebuild`, `icDecompress_items`). -/
theorem intraRoundTrip : Obligations.IntraRoundTrip := by
  intro s t s' c c' src dst data words rest hp hempty hready hexec hends htout hp' hempty' htin hw hh htab hpass'
  obtain ⟨hrej, hcompress⟩ := intraCompressEmitsTheFrame s c src
  have hpass := pass_of_endsOk rfl (by simp) hrej hexec hends
  obtain ⟨hworks, hfails⟩ := hcompress hpass hready hp
  obtain ⟨t₀, -, hexec₀, -, -, hport, -, -, hout⟩ := hworks (working_of_endsOk hfails hexec hends)
  obtain rfl := Host.Outcome.next.inj (hexec.symm.trans hexec₀)
  generalize hframe : intraFrame (s.table .intra).contents (s.pixel src.toNat) s.opW.toNat s.opH.toNat = frame at hout
  obtain ⟨⟨zeros, hbits⟩, hfetch⟩ := words_of_padded hempty (congrArg Port.bwN hport) hout htout
  have hin : (s'.port c').inBits = frame ++ (zeros ++ rest.flatMap wordBits) := by
    rw [Port.inBits_of_empty hempty', htin, List.flatMap_append, hbits, List.append_assoc]
  have htable : s'.table .intra = s.table .intra := htab
  have hready' : s'.TableReady .intra := by
    unfold State.TableReady
    rw [htable]
    exact hready
  obtain ⟨hrebuilds, hok⟩ := intraItems_rebuild (s.pixel src.toNat) (pixels_pos_of_pass (s := s) (by simp) hpass)
  obtain ⟨t', data', hexec', hends', -, hport', hcount, hpix⟩ := icDecompress_items hpass' hready' hp' hok
    (by rw [hw, hh]; exact hrebuilds) (by rw [htable]; exact hframe.symm) hin
  rw [hempty', hfetch] at hport' hcount
  refine ⟨t', data', hexec', hends', hcount, ?_, fun i hi => ?_⟩
  · rw [hport', htin]
    exact List.drop_left
  · rw [hpix, if_pos ⟨rfl, by rw [hw, hh]; exact hi⟩]

end Sys2Proof.Machine
end

section
/-! SUPPORT. Decompress commands whose input ends inside the frame (42_intra_codec.md rule R191, 43_inter_codec.md rule R206,
40_bitstream.md rule R145), and the stream symbols at the cursor (log 9). -/

namespace Sys2Proof.Machine

variable {c : PortNo} {s t : State} {cu : Cursor} {i : Instr}

/-! ### The end of the input inside a frame -/

/-- An error in a state that differs from `s` by port `c`, the pixels and the cursor. -/
theorem sameButPortPixels_takeError {q : Port} {m : Cells 16} {cu : Option Cursor} (op : BitVec 8) (e : Status)
    (h : t = { s.setPort c q with pix := m, cursor := cu }) : SameButPortPixels c s (takeError op e t) := by
  rw [SameButPortPixels, takeError_port, port_of_same h, h]
  rfl

/-- A command whose stretch met the end of the input: it ends with `E_TRANSPORT` and the pixels written by then, its port
dead and every word consumed, or it waits. -/
theorem ends_at_endOfInput {ended : Bool} {u : State} {k : State → Res Word} {m : Cells 16} {cu : Option Cursor}
    (hexec : exec i s = .next (complete i s ((if ended then Res.raise .transport u else .hold).andThen k)))
    (hsame : u = { s.setPort c (closedPort { s.port c with tin := [] }) with pix := m, cursor := cu }) :
    ∃ t, exec i s = .next t ∧
      (ended = true → EndsWith (opcodeOf i) .transport t ∧ SameButPortPixels c s t ∧
        Port.Dead { s.port c with tin := [] } (t.port c) ∧ t.pixel = u.pixel) ∧
      (ended ≠ true → Waits i s t) := by
  refine ⟨_, hexec, ?_⟩
  cases ended with
  | true =>
    have hdead : Port.Dead { s.port c with tin := [] } (u.port c) := port_of_same hsame ▸ closedPort_dead _
    exact ⟨fun _ => ⟨takeError_endsWith _ _ u, sameButPortPixels_takeError _ _ hsame, hdead, rfl⟩, fun h => absurd rfl h⟩
  | false => exact ⟨nofun, fun _ => rfl⟩

/-- Settles O32, by where the frame stops (`interDecompress_stops`, `intraDecompress_stops`) and how that ends the command
(`ends_at_endOfInput`). -/
theorem decompressorsStopWhereTheInputStops : Obligations.DecompressorsStopWhereTheInputStops := by
  refine ⟨fun s c dst ref items hpass hready hp hstop => ?_, fun s c dst got hpass hready hp hstop => ?_⟩
  · obtain ⟨-, hgo⟩ := exec_xcDecompress s c dst ref
    obtain ⟨u, hu, hsame, hpix⟩ := interDecompress_stops 0x41 (b := dst.toNat) hready hp hstop
    have hexec := hgo hpass
    rw [hu] at hexec
    obtain ⟨t, ht, hended, hwaits⟩ := ends_at_endOfInput hexec hsame
    refine ⟨t, ht, ?_⟩
    split_ifs with heos
    · obtain ⟨hwith, hframe, hdead, hpixels⟩ := hended heos
      exact ⟨hwith, hframe, hdead, hpixels ▸ hpix⟩
    · exact hwaits heos
  · obtain ⟨-, hgo⟩ := exec_icDecompress s c dst
    obtain ⟨u, hu, hsame, hstarts, hothers⟩ :=
      intraDecompress_stops 0x31 (b := dst.toNat) hready hp (pixels_pos_of_pass (s := s) (by simp) hpass) hstop
    have hexec := hgo hpass
    rw [hu] at hexec
    obtain ⟨t, ht, hended, hwaits⟩ := ends_at_endOfInput hexec hsame
    refine ⟨t, ht, ?_⟩
    split_ifs with heos
    · obtain ⟨hwith, hframe, hdead, hpixels⟩ := hended heos
      exact ⟨hwith, hframe, hdead, hpixels ▸ ⟨hstarts, hothers⟩⟩
    · exact hwaits heos

/-! ### The symbols at the cursor (42 R188, 43 R205) -/

/-- An item of table 0 is a well-formed symbol of that table, and no run. -/
theorem intraItem_wf (h : isIntraItem i = true) :
    (∃ sym, symbolOf i = some (.intra, sym)) ∧ i.wf = true ∧ ∀ len, i ≠ .run len := by
  cases i with
  | direct0 sym => exact ⟨⟨_, rfl⟩, h, nofun⟩
  | esc0 raw => exact ⟨⟨_, rfl⟩, rfl, nofun⟩
  | _ => cases h

/-- An item of table 1 is a well-formed symbol of that table. -/
theorem interItem_wf (h : isInterItem i = true) : (∃ sym, symbolOf i = some (.inter, sym)) ∧ i.wf = true := by
  cases i with
  | direct1 sym => exact ⟨⟨_, rfl⟩, h⟩
  | esc1 raw => exact ⟨⟨_, rfl⟩, rfl⟩
  | run len => exact ⟨⟨_, rfl⟩, h⟩
  | _ => cases h

/-- Settles O33: an executed symbol acts at the cursor (`exec_symbol`), by a prediction (`applyItem_intra`) or from the
reference (`applyItem_inter`). -/
theorem symbolsActAtTheCursor : Obligations.SymbolsActAtTheCursor := by
  refine ⟨fun s cu i hcu htab hpos hlt hi => ?_, fun s cu i out hcu htab hlt hi hout hfits => ?_⟩
  · obtain ⟨⟨sym, hsym⟩, hwf, hrun⟩ := intraItem_wf hi
    have hexec := exec_symbol hcu hlt (fun _ => hpos) (by rw [htab]; exact hsym) hwf fun len he => absurd he (hrun len)
    rw [applyItem_intra hi] at hexec
    exact ⟨_, hexec, rfl, rfl, rfl, rfl, rfl, fun b x => pixel_setPixel s _ _ b x _⟩
  · subst hout
    obtain ⟨⟨sym, hsym⟩, hwf⟩ := interItem_wf hi
    have hrun : ∀ len, i = .run len → cu.pos + len.toNat ≤ cu.count := by
      rintro len rfl
      simpa [interPixels] using hfits
    have hexec := exec_symbol hcu hlt (fun h => by rw [htab] at h; cases h) (by rw [htab]; exact hsym) hwf hrun
    obtain ⟨hframe, hpixels⟩ := applyItem_inter (s := s) (cu := cu) (R := s.pixel cu.ref) hi fun _ _ _ => rfl
    exact ⟨_, hexec, by rw [hframe]; rfl, by rw [hframe], by rw [hframe], by rw [hframe], by rw [hframe], hpixels⟩

end Sys2Proof.Machine
end

section
/-! SUPPORT. The checks at the head of every command (60_exceptions.md rules R273 to R277): the body of a command is its list of
checks and then a stretch that answers no status of a check. -/

namespace Sys2Proof.Machine

variable {c : PortNo} {s : State} {i : Instr} {e : Status} {checks : List (Bool × Status)} {α β : Type}

/-! ### What follows the checks -/

/-- The statuses of the checks (60 R273 (3) to (6)). -/
abbrev checkStatuses : List Status := [.badArg, .badState, .noTable, .badDim]

/-- The stretch raises no status of a check. -/
def Res.Late : Res α → Prop
  | .raise e _ => e ∉ checkStatuses
  | .done _ _ => True
  | .hold => True

/-- What follows a stretch and raises nothing. -/
theorem Res.Late.respond {r : Res α} {data : α → State → β} {next : α → State → State} (h : r.Late) :
    (r.bind fun a t => .done (data a t) (next a t)).Late := by
  cases r with
  | done a t => trivial
  | raise e t => exact h
  | hold => trivial

/-- A stretch that raises statuses of a port or of a frame only. -/
theorem Ends.late {B : Nat → Nat → Prop} {es kills : List Status} {r : Res α} (h : Ends c B es kills s r)
    (hes : ∀ e ∈ es, e ∉ checkStatuses) : r.Late := by
  cases r with
  | done a t => trivial
  | raise e t => exact hes e h.1
  | hold => trivial

/-- The body `run` is a list of checks and then a late stretch. -/
def Checked (s : State) (checks : List (Bool × Status)) (run : Res Word) : Prop :=
  ∃ r, run = guarded s checks r ∧ (firstOf checks = none → CodesFit s → r.Late)

theorem checked_late {run : Res Word} (h : CodesFit s → run.Late) : Checked s [] run := ⟨run, rfl, fun _ => h⟩

/-- What follows a check may rest on its success. -/
theorem checked_check {ok : Bool} {k : State → Res Word} (h : ok = true → Checked s checks (k s)) :
    Checked s ((ok, e) :: checks) ((check ok e s).andThen k) := by
  cases ok with
  | true => exact h rfl
  | false => exact ⟨.hold, rfl, nofun⟩

theorem checked_and {a b : Bool} {k : State → Res Word} (h : Checked s checks ((check b e s).andThen k)) :
    Checked s ((a, e) :: checks) ((check (a && b) e s).andThen k) := by
  cases a with
  | true => exact h
  | false => exact ⟨.hold, rfl, nofun⟩

theorem checked_withTable {t : BitVec 4} {k : TableId → Res Word} (h : Checked s checks (k (namedTable t))) :
    Checked s ((tableExists t, .badArg) :: checks) (withTable t s k) := by
  obtain ⟨r, hr, hlate⟩ := h
  refine ⟨r, withTable_guarded hr, ?_⟩
  cases tableExists t with
  | true => exact hlate
  | false => exact nofun

/-! ### The control registers that exist (45 R251, R253) -/

theorem portCsr_isSome (s : State) (make : PortNo → Csr) (base a : Nat) :
    (portCsr s make base a).isSome = true ↔ base ≤ a ∧ a < base + s.cfg.nCh ∧ a < base + 16 := by
  unfold portCsr
  split <;> simp [*]

/-- The first ten addresses name one register each; a higher one names a register of a port. -/
theorem csrAt_cases (s : State) (addr : BitVec 16) :
    (∃ k : Fin 10, addr = BitVec.ofNat 16 k) ∨ 10 ≤ addr.toNat ∧
      csrAt s addr = ((portCsr s .chstat 0x10 addr.toNat).or (portCsr s .bwacc 0x20 addr.toNat)).or
        (portCsr s .bracc 0x30 addr.toNat) := by
  by_cases hlow : addr.toNat < 10
  · exact .inl ⟨⟨addr.toNat, hlow⟩, by rw [BitVec.ofNat_toNat, BitVec.setWidth_eq]⟩
  · refine .inr ⟨Nat.le_of_not_lt hlow, ?_⟩
    unfold csrAt
    split
    case h_11 => cases portCsr s .chstat 0x10 addr.toNat <;> cases portCsr s .bwacc 0x20 addr.toNat <;> rfl
    all_goals omega

theorem csrValues_any (hn : s.cfg.nCh ≤ 16) (addr : BitVec 16) :
    (csrValues s).any (fun row => row.1 == addr.toNat) = (csrAt s addr).isSome := by
  rcases csrAt_cases s addr with ⟨k, rfl⟩ | ⟨hhigh, hat⟩
  · fin_cases k <;> rfl
  · rw [hat, Bool.eq_iff_iff]
    have hfamily : ∀ base, (∃ x, x < s.cfg.nCh ∧ base + x = addr.toNat) ↔ base ≤ addr.toNat ∧ addr.toNat < base + s.cfg.nCh :=
      fun base => ⟨fun ⟨x, hx, he⟩ => by omega, fun h => ⟨addr.toNat - base, by omega, by omega⟩⟩
    simp only [csrValues, BitVec.ofNat_eq_ofNat, List.cons_append, List.nil_append, List.append_assoc, List.any_cons,
      List.any_append, List.any_map, Bool.or_eq_true, beq_iff_eq, List.any_eq_true, List.mem_range, Function.comp_apply,
      hfamily, Option.isSome_or, portCsr_isSome]
    omega

theorem portCsr_eq_some {make : PortNo → Csr} {base a : Nat} {reg : Csr} (h : portCsr s make base a = some reg) :
    ∃ d, reg = make d := by
  unfold portCsr at h
  split at h
  · exact ⟨_, (Option.some.inj h).symm⟩
  · cases h

/-- The registers that can be written stand at six of the first ten addresses. -/
theorem csrWr_writable (s : State) (addr : BitVec 16) (value : Word) :
    [2, 3, 4, 5, 6, 9].contains addr.toNat = ((csrAt s addr).bind (writeCsr value s)).isSome := by
  rcases csrAt_cases s addr with ⟨k, rfl⟩ | ⟨hhigh, hat⟩
  · fin_cases k <;> rfl
  · have hreadonly : (csrAt s addr).bind (writeCsr value s) = none := by
      refine Option.bind_eq_none_iff.mpr fun reg hreg => ?_
      rw [hat, Option.or_eq_some_iff, Option.or_eq_some_iff] at hreg
      rcases hreg with (h | ⟨-, h⟩) | ⟨-, h⟩ <;> obtain ⟨d, rfl⟩ := portCsr_eq_some h <;> rfl
    rw [hreadonly, Option.isSome_none, Bool.eq_false_iff, ne_eq, List.contains_iff_mem]
    simp only [List.mem_cons, List.not_mem_nil, or_false]
    omega

/-! ### The commands -/

/-- The cells of a stretch that writes no pixel. -/
abbrev noCell : Nat → Nat → Prop := fun _ _ => False

/-- `CSR_RD` (45 R252). -/
theorem csrRd_checked (s : State) (addr : BitVec 16) :
    Checked s [((csrAt s addr).isSome, .badArg)] (runCsrRd addr s) := by
  unfold runCsrRd
  cases csrAt s addr with
  | some reg => exact ⟨.done (readCsr s reg) s, rfl, fun _ _ => trivial⟩
  | none => exact ⟨.hold, rfl, nofun⟩

/-- `CSR_WR` (45 R253). -/
theorem csrWr_checked (s : State) (addr : BitVec 16) (value : Word) :
    Checked s [(((csrAt s addr).bind (writeCsr value s)).isSome, .badArg)] (runCsrWr addr value s) := by
  unfold runCsrWr
  cases (csrAt s addr).bind (writeCsr value s) with
  | some t => exact ⟨.done 0 t, rfl, fun _ _ => trivial⟩
  | none => exact ⟨.hold, rfl, nofun⟩

/-- `FS_ACK` (44 R224). -/
theorem fsAck_checked (s : State) (c : PortNo) (v : Word) :
    Checked s [(portExists s c, .badArg), ((s.port c).chst == .start, .badState)] (runFsAck c v s) := by
  refine checked_check fun _ => checked_check fun _ => checked_late fun _ => ?_
  split
  · trivial
  split
  · trivial
  · exact (by decide : Status.protocol ∉ checkStatuses)

/-- `FS_MSG` (44 R226). -/
theorem fsMsg_checked (s : State) (c : PortNo) (token : BitVec 16) :
    Checked s [(portExists s c, .badArg), ((s.port c).role == .encoder && isStreaming s c, .badState)]
      (runFsMsg c token s) := by
  refine checked_check fun _ => checked_check fun _ => checked_late fun _ => ?_
  split
  · trivial
  · exact (by decide : Status.protocol ∉ checkStatuses)

theorem gridDimsOk_eq (s : State) : gridDimsOk s = tripletDims s := by
  simp only [gridDimsOk, tripletDims, Bool.decide_and, Bool.and_assoc]

/-- A channel that streams needs the table of its state (60 R276). -/
theorem neededTableValid_eq (h : (s.port c).chst = .intra ∨ (s.port c).chst = .inter) :
    neededTableValid s c = streamTable s c := by
  unfold neededTableValid streamTable
  rcases h with h | h <;> rw [h] <;> rfl

/-- `FS_SEND` (44 R228): only a channel that streams has its table and its dimensions checked. -/
theorem fsSend_checked (s : State) (c : PortNo) :
    Checked s [(portExists s c, .badArg), ((s.port c).role == .encoder && (s.port c).chst != .closed, .badState),
      ((s.port c).chst == .start || streamTable s c, .noTable), ((s.port c).chst == .start || tripletDims s, .badDim)]
      (runFsSend c s) := by
  have hopen : ((s.port c).chst != .closed) = decide ((s.port c).chst ≠ .closed) := decide_not.symm
  rw [hopen]
  refine checked_check fun _ => checked_check fun hok => ?_
  by_cases hstart : (s.port c).chst = .start
  · have hfree : ∀ b : Bool, ((s.port c).chst == .start || b) = true := fun b => by rw [hstart]; rfl
    rw [hfree, hfree, if_pos hstart]
    exact ⟨.done 0 s, rfl, fun _ _ => trivial⟩
  · have hbound : ∀ b : Bool, ((s.port c).chst == .start || b) = b := fun b => by simp [hstart]
    have hstream : (s.port c).chst = .intra ∨ (s.port c).chst = .inter := by
      have hclosed : (s.port c).chst ≠ .closed := of_decide_eq_true (Bool.and_eq_true_iff.mp hok).2
      cases h : (s.port c).chst with
      | closed => exact absurd h hclosed
      | start => exact absurd h hstart
      | intra => exact .inl rfl
      | inter => exact .inr rfl
    rw [hbound, hbound, if_neg hstart, neededTableValid_eq hstream, ← gridDimsOk_eq]
    exact checked_check fun _ => checked_check fun _ => checked_late fun hf =>
      ((ends_sendPlanes noCell hf).late (by decide)).respond

/-- `FS_RECV` (44 R230). -/
theorem fsRecv_checked (s : State) (c : PortNo) :
    Checked s [(portExists s c, .badArg), ((s.port c).role == .decoder && isStreaming s c, .badState),
      (streamTable s c, .noTable), (tripletDims s, .badDim)] (runFsRecv c s) := by
  refine checked_check fun _ => checked_check fun hok => ?_
  have hstream : (s.port c).chst = .intra ∨ (s.port c).chst = .inter := by
    simpa [isStreaming] using (Bool.and_eq_true_iff.mp hok).2
  rw [neededTableValid_eq hstream, ← gridDimsOk_eq]
  exact checked_check fun _ => checked_check fun _ => checked_late fun _ => (ends_recvPlanes.late (by decide)).respond

/-- Every command is the checks of `firstFailure` and then a late stretch (60 R273). -/
theorem command_checked (hi : i.isCommand = true) (hn : s.cfg.nCh ≤ 16) :
    ∃ checks, firstFailure s i = firstOf checks ∧ Checked s checks (commandRun s i) := by
  cases i with
  | nop => exact ⟨[], rfl, checked_late fun _ => trivial⟩
  | reset => exact ⟨[], rfl, checked_late fun _ => trivial⟩
  | bwWrite c k v =>
    exact ⟨_, rfl, checked_and <| checked_check fun hk => checked_late fun _ =>
      ((ends_write noCell v (of_decide_eq_true hk)).late (by decide)).respond⟩
  | bwFlush c =>
    exact ⟨_, rfl, checked_check fun _ => checked_late fun _ => ((ends_flush noCell).late (by decide)).respond⟩
  | brRead c k =>
    exact ⟨_, rfl, checked_and <| checked_check fun hk => checked_late fun _ =>
      (ends_read noCell (of_decide_eq_true hk)).late (by decide)⟩
  | brReadbit c =>
    exact ⟨_, rfl, checked_check fun _ => checked_late fun _ => (ends_read noCell (by decide)).late (by decide)⟩
  | brAlign c => exact ⟨_, rfl, checked_check fun _ => checked_late fun _ => trivial⟩
  | fqWr t sym f =>
    refine ⟨_, rfl, ?_⟩
    rw [symbolExists_eq]
    exact checked_withTable <| checked_check fun _ => checked_late fun _ => trivial
  | pcBuild t =>
    refine ⟨_, rfl, checked_withTable <| checked_late fun _ => ?_⟩
    split
    · trivial
    · exact (by decide : Status.codeTooLong ∉ checkStatuses)
  | pcEncode c t sym =>
    refine ⟨_, rfl, ?_⟩
    rw [symbolExists_eq, tableValid_eq]
    exact checked_check fun _ => checked_withTable <| checked_check fun _ => checked_check fun _ =>
      checked_late fun hf => ((ends_encode noCell hf _ _).late (by decide)).respond
  | pcDecode c t =>
    refine ⟨_, rfl, ?_⟩
    rw [tableValid_eq]
    exact checked_check fun _ => checked_withTable <| checked_check fun _ => checked_late fun _ =>
      ((ends_decode noCell _).late (by decide)).respond
  | pcQbits t sym | pcQlen t sym =>
    refine ⟨_, rfl, ?_⟩
    rw [symbolExists_eq, tableValid_eq]
    exact checked_withTable <| checked_check fun _ => checked_check fun _ => checked_late fun _ => trivial
  | icCompress c src =>
    exact ⟨_, rfl, _, intraChecks_guarded, fun _ hf =>
      ((ends_intraCompress noCell _ _ _ hf).late (by decide)).respond⟩
  | icDecompress c dst =>
    exact ⟨_, rfl, _, intraChecks_guarded, fun _ _ => ((ends_intraDecompress _ _ _ _).late (by decide)).respond⟩
  | xcCompress c src ref =>
    exact ⟨_, rfl, _, interChecks_guarded, fun _ hf =>
      ((ends_interCompress noCell _ _ _ hf).late (by decide)).respond⟩
  | xcDecompress c dst ref =>
    exact ⟨_, rfl, _, interChecks_guarded, fun _ _ => ((ends_interDecompress _ _ _ _).late (by decide)).respond⟩
  | fsOpen c role => exact ⟨_, rfl, checked_check fun _ => checked_check fun _ => checked_late fun _ => trivial⟩
  | fsAck c v => exact ⟨_, rfl, fsAck_checked s c v⟩
  | fsMsg c token => exact ⟨_, rfl, fsMsg_checked s c token⟩
  | fsSend c => exact ⟨_, rfl, fsSend_checked s c⟩
  | fsRecv c => exact ⟨_, rfl, fsRecv_checked s c⟩
  | fsClose c => exact ⟨_, rfl, checked_check fun _ => checked_late fun _ => trivial⟩
  | csrRd addr =>
    refine ⟨_, rfl, ?_⟩
    rw [csrValues_any hn]
    exact csrRd_checked s addr
  | csrWr addr value =>
    refine ⟨_, rfl, ?_⟩
    rw [csrWr_writable s addr value]
    exact csrWr_checked s addr value
  | pxWr b index pix => exact ⟨_, rfl, checked_check fun _ => checked_late fun _ => trivial⟩
  | pxRd b index => exact ⟨_, rfl, checked_check fun _ => checked_late fun _ => trivial⟩
  | _ => cases hi

/-- Settles O43: the checks of a command come first (`command_checked`), and what follows them answers no status of a
check. -/
theorem checksComeFirst : Obligations.ChecksComeFirst := by
  refine fun i s hi => ⟨fun hn => ?_, fun hinv hpass t e ht he ha => ?_⟩
  · obtain ⟨checks, hfail, r, hrun, -⟩ := command_checked hi hn
    exact (exec_guarded hi hfail hrun).1
  · obtain ⟨checks, hfail, r, hrun, hlate⟩ := command_checked hi hinv.legal.channels.2
    rw [hfail] at hpass
    obtain ⟨u, hraise, -⟩ := commandRun_of_answers hi ht ha (by rintro rfl; simp at he)
    rw [hrun, guarded_passes hpass] at hraise
    subst hraise
    exact hlate hpass hinv.inside.codesFit he

end Sys2Proof.Machine
end

section
/-! SUPPORT. The stream symbols where they do not act (43_inter_codec.md rule R207, 44_frame_sequencer.md rule R232; log 9). -/

namespace Sys2Proof.Machine

variable {c : PortNo} {s : State} {cu : Cursor} {i : Instr} {tab : TableId} {sym : Nat}

/-! ### Where a symbol finds no cursor, or a cursor that would take it -/

/-- The cursor that takes a symbol of table `tab` (30 R104, R105). -/
theorem symbolCursor_eq_some (hcu : s.cursor = some cu) (htab : cu.table = tab) (hlt : cu.pos < cu.count)
    (hraw : tab = .intra → 0 < cu.pos) : symbolCursor tab s = some cu := by
  rw [symbolCursor, hcu]
  exact if_pos ⟨htab, hlt, hraw⟩

/-- No cursor, or one that takes no symbol of table `tab`. -/
theorem symbolCursor_eq_none
    (h : ∀ cu, s.cursor = some cu → cu.table ≠ tab ∨ cu.count ≤ cu.pos ∨ (tab = .intra ∧ cu.pos = 0)) :
    symbolCursor tab s = none := by
  unfold symbolCursor
  cases hcu : s.cursor with
  | none => rfl
  | some cu =>
    refine if_neg fun ⟨htab, hlt, hraw⟩ => ?_
    rcases h cu hcu with hother | hend | ⟨hintra, hzero⟩
    · exact hother htab
    · omega
    · exact absurd hzero (Nat.ne_of_gt (hraw hintra))

/-- The cursor for the table that a symbol belongs to. -/
theorem symbolCursor_of_symbolOf {found : Option Cursor} {t : TableId} {x : Nat} (hsym : symbolOf i = some (tab, sym))
    (hfound : symbolCursor tab s = found) (ht : symbolOf i = some (t, x)) : symbolCursor t s = found := by
  obtain rfl : tab = t := congrArg Prod.fst (Option.some.inj (hsym.symm.trans ht))
  exact hfound

/-- A symbol without its cursor. -/
theorem exec_symbol_noFrame (hsym : symbolOf i = some (tab, sym)) (hnone : symbolCursor tab s = none) :
    exec i s = .fault .noFrame := by
  cases i with
  | direct0 a => rw [exec, execDirect0, symbolCursor_of_symbolOf hsym hnone rfl]
  | esc0 raw => rw [exec, execEsc0, symbolCursor_of_symbolOf hsym hnone rfl]
  | direct1 a => rw [exec, execDirect1, symbolCursor_of_symbolOf hsym hnone rfl]
  | esc1 raw => rw [exec, execEsc1, symbolCursor_of_symbolOf hsym hnone rfl]
  | run len => rw [exec, execRun, symbolCursor_of_symbolOf hsym hnone rfl]
  | _ => cases hsym

/-- A symbol with a number outside its class, at a cursor that would take it (30 R102, R103). -/
theorem exec_symbol_noSuchSymbol (hsym : symbolOf i = some (tab, sym)) (hwf : i.wf = false)
    (hsome : symbolCursor tab s = some cu) : exec i s = .fault .noSuchSymbol := by
  cases i with
  | direct0 a =>
    simp only [exec, execDirect0, symbolCursor_of_symbolOf hsym hsome rfl]
    exact if_neg (Bool.eq_false_iff.mp hwf)
  | direct1 a =>
    simp only [exec, execDirect1, symbolCursor_of_symbolOf hsym hsome rfl]
    exact if_neg (Bool.eq_false_iff.mp hwf)
  | run len =>
    have hbad : (!runLengthOk len) = true := congrArg Bool.not hwf
    simp only [exec, execRun, symbolCursor_of_symbolOf hsym hsome rfl]
    exact if_pos hbad
  | esc0 _ | esc1 _ => cases hwf
  | _ => cases hsym

/-! ### A run past the end (43 R207, 44 R232) -/

/-- The lengths of a run (43 R202). -/
theorem runLengthOk_iff (len : BitVec 10) : runLengthOk len = true ↔ 1 ≤ len.toNat ∧ len.toNat ≤ 512 := by
  rw [runLengthOk, Bool.and_eq_true, decide_eq_true_iff, decide_eq_true_iff, runMax]

theorem exec_run_overrun {len : BitVec 10} (hsome : symbolCursor .inter s = some cu) (hlen : runLengthOk len = true)
    (hover : cu.count < cu.pos + len.toNat) :
    exec (.run len) s = .next (takeError cu.op .runOverrun (runPastEnd cu s)) := by
  have hfit : runFits cu len = false := decide_eq_false (Nat.not_le.mpr hover)
  simp only [exec, execRun, hsome, hlen, hfit, Bool.not_true, Bool.false_eq_true, if_false]

/-- A run past the end changes at most the port of its cursor. -/
theorem runPastEnd_eq (cu : Cursor) (s : State) : runPastEnd cu s =
    s.setPort cu.port (if cu.op = opFsRecv then closedPort (s.port cu.port) else s.port cu.port) := by
  simpa using runPastEnd_setPort (cu := cu) (s := s) (s.port cu.port)

/-- An error after a change of port `c` alone. -/
theorem sameButPort_takeError (op : BitVec 8) (e : Status) (s : State) (c : PortNo) (q : Port) :
    SameButPort c s (takeError op e (s.setPort c q)) := by
  rw [SameButPort, takeError_port, port_setPort_self]
  rfl

/-- Settles O34: `symbolCursor` says whether a symbol is taken, the class whether it exists, and `runPastEnd_eq` what a run
past the end leaves. -/
theorem symbolsStopOutsideAFrame : Obligations.SymbolsStopOutsideAFrame := by
  refine ⟨fun s i tab sym hsym hout => exec_symbol_noFrame hsym (symbolCursor_eq_none hout),
    fun s i tab sym cu hsym hwf hcu htab hlt hpos =>
      exec_symbol_noSuchSymbol hsym hwf (symbolCursor_eq_some hcu htab hlt fun _ => hpos),
    fun s len cu hcu htab hlt h1 h512 hover => ?_⟩
  have hexec := exec_run_overrun (symbolCursor_eq_some hcu htab hlt nofun) ((runLengthOk_iff len).mpr ⟨h1, h512⟩) hover
  rw [runPastEnd_eq] at hexec
  refine ⟨_, hexec, takeError_endsWith _ _ _, sameButPort_takeError _ _ s _ _, ?_⟩
  rw [takeError_port, port_setPort_self]
  by_cases hop : cu.op = opFsRecv
  · rw [if_pos hop]
    exact (if_pos hop).mpr (closedPort_dead _)
  · rw [if_neg hop]
    exact (if_neg hop).mpr rfl

end Sys2Proof.Machine
end

section
/-! SUPPORT. The items of a compressed inter frame (43_inter_codec.md rules R202, R203, R209): what stands among them, in
which order, and the symbols of a stretch of zero deltas. -/

namespace Sys2Proof.Machine

variable {run : Nat} {item : Instr}

/-! ### The items (43 R203) -/

/-- The item of a delta is direct, or the escape of a delta outside the direct range. -/
theorem errorItem_inter_cases (e : Pixel) : (∃ sym, errorItem .inter e = .direct1 sym) ∨
    (errorItem .inter e = .esc1 e ∧ (e.toInt < -256 ∨ 256 < e.toInt)) := by
  unfold errorItem
  split
  · exact .inl ⟨_, rfl⟩
  · exact .inr ⟨rfl, by omega⟩

/-- Symbol 256 of table 1 adds nothing to the reference, so it is the item of no other delta than 0. -/
theorem errorItem_ne_direct_zero {e : Pixel} (he : e ≠ 0) : errorItem .inter e ≠ .direct1 256 := by
  intro heq
  have hpixels := interPixels_error (fun _ => 0) 0 e
  rw [heq] at hpixels
  exact he (by simpa [interPixels] using hpixels.symm)

/-- The items of deltas are runs and the items of the deltas that are not 0. -/
theorem mem_interItems {es : List Pixel} (h : item ∈ interItems run es) :
    (∃ L, item = runItem L) ∨ ∃ e, e ≠ 0 ∧ item = errorItem .inter e := by
  have hpending : ∀ run, item ∈ pendingRun run → ∃ L, item = runItem L := by
    intro run hmem
    unfold pendingRun at hmem
    split at hmem
    · cases hmem
    · exact ⟨run, List.mem_singleton.mp hmem⟩
  induction es generalizing run with
  | nil => exact .inl (hpending run h)
  | cons e rest ih =>
    rw [interItems] at h
    split_ifs at h with hzero hcap
    · rcases List.mem_cons.mp h with rfl | hrest
      · exact .inl ⟨512, rfl⟩
      · exact ih hrest
    · exact ih h
    · rcases List.mem_append.mp h with hrun | hmem
      · exact .inl (hpending run hrun)
      · rcases List.mem_cons.mp hmem with rfl | hrest
        · exact .inr ⟨e, hzero, rfl⟩
        · exact ih hrest

/-- An item of a frame is no direct 0 and no escape of a delta in the direct range (43 R209). -/
theorem interItems_canonical {es : List Pixel} (h : item ∈ interItems run es) :
    item ≠ .direct1 256 ∧ ∀ raw, item = .esc1 raw → raw.toInt < -256 ∨ 256 < raw.toInt := by
  rcases mem_interItems h with ⟨L, rfl⟩ | ⟨e, he, rfl⟩
  · exact ⟨nofun, nofun⟩
  · refine ⟨errorItem_ne_direct_zero he, fun raw hraw => ?_⟩
    rcases errorItem_inter_cases e with ⟨sym, hsym⟩ | ⟨hesc, hrange⟩
    · cases hsym.symm.trans hraw
    · obtain rfl := Instr.esc1.inj (hesc.symm.trans hraw)
      exact hrange

/-! ### Their order (43 R202, R209) -/

/-- Item `x` may stand directly before item `y`: a run before a run is a full one. -/
def MayPrecede (x y : Instr) : Prop := ∀ a b, x = .run a → y = .run b → a.toNat = 512

theorem mayPrecede_of_fullRun (y : Instr) : MayPrecede (runItem 512) y := by
  rintro a b hrun -
  obtain rfl := Instr.run.inj hrun
  rfl

theorem errorItem_ne_run (e : Pixel) (len : BitVec 10) : errorItem .inter e ≠ .run len := by
  rcases errorItem_inter_cases e with ⟨sym, hsym⟩ | ⟨hesc, -⟩
  · exact hsym ▸ nofun
  · exact hesc ▸ nofun

/-- The coder starts a run anew after a full run and after a non-zero delta, so that no short run comes before a run. -/
theorem interItems_isChain (run : Nat) (es : List Pixel) : (interItems run es).IsChain MayPrecede := by
  have hpending : ∀ run, (pendingRun run).IsChain MayPrecede := by
    intro run
    unfold pendingRun
    split
    · exact .nil
    · exact .singleton _
  induction es generalizing run with
  | nil => exact hpending run
  | cons e rest ih =>
    rw [interItems]
    split_ifs with hzero hcap
    · exact List.isChain_cons.mpr ⟨fun y _ => mayPrecede_of_fullRun y, ih 0⟩
    · exact ih (run + 1)
    · refine List.isChain_append.mpr ⟨hpending run, List.isChain_cons.mpr ⟨fun y _ a _ herr _ => ?_, ih 0⟩,
        fun x _ y hy _ b _ hrun => ?_⟩
      · exact absurd herr (errorItem_ne_run e a)
      · obtain rfl := Option.some.inj hy
        exact absurd hrun (errorItem_ne_run e b)

/-! ### A stretch of zero deltas (43 R202) -/

/-- A stretch of zero deltas gives full runs and what is left of it. -/
theorem interItems_zeros (hrun : run < 512) (z : Nat) : interItems run (List.replicate z 0) =
    List.replicate ((run + z) / 512) (runItem 512) ++ pendingRun ((run + z) % 512) := by
  induction z generalizing run with
  | zero => rw [Nat.add_zero, Nat.div_eq_of_lt hrun, Nat.mod_eq_of_lt hrun]; rfl
  | succ z ih =>
    rw [List.replicate_succ, interItems, if_pos rfl]
    split_ifs with hcap
    · have hsum : run + (z + 1) = z + 512 := by omega
      rw [ih (by decide), hsum, Nat.add_div_right z (by decide), Nat.add_mod_right, Nat.zero_add, List.replicate_succ]
      rfl
    · rw [ih (by omega), show run + 1 + z = run + (z + 1) by omega]

/-- Settles O31, by what stands among the items (`interItems_ok`, `interItems_canonical`), their order
(`interItems_isChain`), what they rebuild (`interRebuilt_deltas`) and the zeros (`interItems_zeros`). -/
theorem interItemsHaveTheCanonicalShape : Obligations.InterItemsHaveTheCanonicalShape := by
  refine ⟨?_, fun z => ?_⟩
  · rintro new ref n items rfl
    refine ⟨fun item hmem => ⟨interItems_ok (by decide) _ item hmem, interItems_canonical hmem⟩, fun j a b ha hb => ?_,
      interRebuilt_deltas new ref n⟩
    obtain ⟨_, hxa⟩ := List.getElem?_eq_some_iff.mp ha
    obtain ⟨hj, hxb⟩ := List.getElem?_eq_some_iff.mp hb
    exact (interItems_isChain 0 _).getElem j hj a b hxa hxb
  · rw [interItems_zeros (by decide), Nat.zero_add]
    rfl

end Sys2Proof.Machine
end

section
/-! SUPPORT. The commands of the inter codec (43_inter_codec.md rules R204 to R208): how what the inter compressor and
decompressor do with a frame ends the command. -/

namespace Sys2Proof.Machine

variable {c : PortNo} {s : State}

/-! ### Compressing (43 R204) -/

/-- `XC_COMPRESS` (43 R204). -/
theorem exec_xcCompress (s : State) (c : PortNo) (src ref : BitVec 8) :
    (∀ e, firstFailure s (.xcCompress c src ref) = some e → Rejects (.xcCompress c src ref) s e) ∧
      (firstFailure s (.xcCompress c src ref) = none →
        exec (.xcCompress c src ref) s = .next (complete (.xcCompress c src ref) s
          ((interCompress c src.toNat ref.toNat (s.opW.toNat * s.opH.toNat) s).andThen fun u =>
            .done (wordCount (wordsEmitted c s u)) u))) :=
  exec_guarded (i := .xcCompress c src ref) rfl rfl interChecks_guarded

/-- Settles O28: the compressor puts the frame and pads it (`interCompress_done`), or its first word cannot leave
(`interCompress_fails`). -/
theorem interCompressEmitsTheFrame : Obligations.InterCompressEmitsTheFrame := by
  intro s c src ref
  obtain ⟨hrej, hgo⟩ := exec_xcCompress s c src ref
  refine ⟨hrej, fun hpass hready hp => ?_⟩
  have hexec := hgo hpass
  refine ⟨fun herr => ?_, fun herr => ?_⟩
  · obtain ⟨q, hq, hsame, -, hout, hkept⟩ := interCompress_done hready hp herr
    rw [hq, andThen_done, complete_done] at hexec
    refine ⟨_, _, hexec, succeed_endsOk _ rfl, sameButPort_succeed _ s c q, ?_⟩
    rw [wordsEmitted, succeed_port, port_setPort_self]
    exact ⟨hsame, hkept, counts_wordCount _, hout⟩
  · rw [interCompress_fails hready hp herr (pixels_pos_of_pass (s := s) (by simp) hpass), andThen_raise] at hexec
    exact failsOutput_of hexec

/-! ### Decompressing (43 R206, R207) -/

/-- A port whose transport is the one before without its first `n` words has consumed `n` of them. -/
theorem wordsConsumed_eq {u : State} {n : Nat} (htin : (u.port c).tin = (s.port c).tin.drop n)
    (hle : n ≤ (s.port c).tin.length) : wordsConsumed c s u = n := by
  rw [wordsConsumed, htin, List.length_drop]
  omega

/-- `XC_DECOMPRESS` of any items that rebuild the grid (43 R206). -/
theorem xcDecompress_items {dst ref : BitVec 8} {items : List Instr} {bits rest : List Bool}
    (hpass : firstFailure s (.xcDecompress c dst ref) = none) (hready : s.TableReady .inter) (hp : (s.port c).Inv)
    (hok : ∀ item ∈ items, isInterItem item = true)
    (hlen : (interRebuilt (s.pixel ref.toNat) 0 items).length = s.opW.toNat * s.opH.toNat)
    (hbits : bits = itemsBits (s.table .inter).contents items) (hin : (s.port c).inBits = bits ++ rest) :
    ∃ t data, exec (.xcDecompress c dst ref) s = .next t ∧ EndsOk s t data ∧ SameButPortPixels c s t ∧
      t.port c = { s.port c with
        brAcc := 0, brN := 0, tin := (s.port c).tin.drop (wordsToRead (s.port c).brN bits.length) } ∧
      Counts data (wordsToRead (s.port c).brN bits.length) ∧
      ∀ b x, t.pixel b x =
        if b = dst.toNat then (interRebuilt (s.pixel ref.toNat) 0 items)[x]?.getD (s.pixel b x) else s.pixel b x := by
  subst hbits
  obtain ⟨q, u, hu, hsame, hq, -, hpix⟩ := interDecompress_done 0x41 (b := dst.toNat) hready hp hok hlen hin
  obtain ⟨-, hgo⟩ := exec_xcDecompress s c dst ref
  have hexec := hgo hpass
  have hport : u.port c = q := port_of_same hsame
  have hle := hp.wordsToRead_le (k := (itemsBits (s.table .inter).contents items).length) (by rw [hin]; simp)
  rw [hu, andThen_done, complete_done, wordsConsumed_eq (by rw [hport, hq]) hle] at hexec
  exact ⟨_, _, hexec, succeed_endsOk _ (by rw [hsame]; rfl), sameButPortPixels_succeed _ hsame, hport.trans hq,
    counts_wordCount _, hpix⟩

/-- `XC_DECOMPRESS` at a run that passes the end (43 R207). -/
theorem xcDecompress_overruns {dst ref : BitVec 8} {items : List Instr} {len : BitVec 10} {bits rest : List Bool}
    (hpass : firstFailure s (.xcDecompress c dst ref) = none) (hready : s.TableReady .inter) (hp : (s.port c).Inv)
    (hok : ∀ item ∈ items, isInterItem item = true) (h1 : 1 ≤ len.toNat) (h512 : len.toNat ≤ 512)
    (hlt : (interRebuilt (s.pixel ref.toNat) 0 items).length < s.opW.toNat * s.opH.toNat)
    (hover : s.opW.toNat * s.opH.toNat < (interRebuilt (s.pixel ref.toNat) 0 items).length + len.toNat)
    (hbits : bits = itemsBits (s.table .inter).contents (items ++ [.run len])) (hin : (s.port c).inBits = bits ++ rest) :
    ∃ t, exec (.xcDecompress c dst ref) s = .next t ∧ EndsWith 0x41 .runOverrun t ∧ SameButPortPixels c s t ∧
      (s.port c).Consumes (t.port c) bits.length ∧
      ∀ b x, t.pixel b x =
        if b = dst.toNat then (interRebuilt (s.pixel ref.toNat) 0 items)[x]?.getD (s.pixel b x) else s.pixel b x := by
  obtain ⟨q, u, hu, hsame, ⟨k, -, hconsumes, hk⟩, -, -, hpix⟩ := interDecompress_overruns 0x41 (b := dst.toNat)
    (rest := rest) hready hp ⟨hok, hlt, len, h1, h512, hover, by rw [hin, hbits]⟩
  rw [if_neg (show (0x41 : BitVec 8) ≠ opFsRecv by decide)] at hsame
  obtain rfl : k = bits.length := by
    rw [hin, List.length_append] at hk
    omega
  obtain ⟨-, hgo⟩ := exec_xcDecompress s c dst ref
  have hexec := hgo hpass
  rw [hu, andThen_raise, complete_raise] at hexec
  refine ⟨_, hexec, takeError_endsWith _ _ u, sameButPortPixels_takeError _ _ hsame, ?_, fun b x => ?_⟩
  · rw [takeError_port, port_of_same hsame]
    exact hconsumes
  · rw [takeError_pixel]
    exact hpix b x

/-- Settles O29: the items fill the grid (`xcDecompress_items`), or a run passes its end (`xcDecompress_overruns`). -/
theorem interDecompressRebuildsTheGrid : Obligations.InterDecompressRebuildsTheGrid := by
  intro s c dst ref
  refine ⟨(exec_xcDecompress s c dst ref).1, ?_⟩
  rintro items bits rest out hpass hready hp hok rfl
  exact ⟨fun hlen hbits hin => xcDecompress_items hpass hready hp hok hlen hbits hin,
    fun len h1 h512 hlt hover hbits hin => xcDecompress_overruns hpass hready hp hok h1 h512 hlt hover hbits hin⟩

/-! ### The round trip (43 R208) -/

/-- The deltas are those of the first `n` pixels of the reference. -/
theorem deltas_congr (new : Nat → Pixel) {ref ref' : Nat → Pixel} {n : Nat} (h : ∀ i, i < n → ref' i = ref i) :
    deltas new ref' n = deltas new ref n :=
  List.map_congr_left fun i hi => by rw [h i (List.mem_range.mp hi)]

/-- Settles O30: the words carry the frame of the grid and its padding (`interCompressEmitsTheFrame`, `words_of_padded`), and
the items of the deltas rebuild the grid from an equal reference (`interRebuilt_deltas`, `xcDecompress_items`). -/
theorem interRoundTrip : Obligations.InterRoundTrip := by
  intro s t s' c c' src ref dst ref' data words rest hp hempty hready hexec hends htout hp' hempty' htin hn htab href hpass'
  obtain ⟨hrej, hcompress⟩ := interCompressEmitsTheFrame s c src ref
  have hpass := pass_of_endsOk rfl (by simp) hrej hexec hends
  obtain ⟨hworks, hfails⟩ := hcompress hpass hready hp
  obtain ⟨t₀, -, hexec₀, -, -, hport, -, -, hout⟩ := hworks (working_of_endsOk hfails hexec hends)
  obtain rfl := Host.Outcome.next.inj (hexec.symm.trans hexec₀)
  generalize hframe : interFrame (s.table .inter).contents (s.pixel src.toNat) (s.pixel ref.toNat)
    (s.opW.toNat * s.opH.toNat) = frame at hout
  obtain ⟨⟨zeros, hbits⟩, hfetch⟩ := words_of_padded hempty (congrArg Port.bwN hport) hout htout
  have hin : (s'.port c').inBits = frame ++ (zeros ++ rest.flatMap wordBits) := by
    rw [Port.inBits_of_empty hempty', htin, List.flatMap_append, hbits, List.append_assoc]
  have htable : s'.table .inter = s.table .inter := htab
  have hready' : s'.TableReady .inter := by
    unfold State.TableReady
    rw [htable]
    exact hready
  have hrebuilds := interRebuilt_deltas (s.pixel src.toNat) (s'.pixel ref'.toNat) (s.opW.toNat * s.opH.toNat)
  rw [deltas_congr _ href] at hrebuilds
  obtain ⟨t', data', hexec', hends', -, hport', hcount, hpix⟩ := xcDecompress_items hpass' hready' hp'
    (interItems_ok (run := 0) (by decide) _) (by rw [hrebuilds, List.length_map, List.length_range, hn])
    (by rw [htable]; exact hframe.symm) hin
  rw [hempty', hfetch] at hport' hcount
  refine ⟨t', data', hexec', hends', hcount, ?_, fun i hi => ?_⟩
  · rw [hport', htin]
    exact List.drop_left
  · rw [hpix, if_pos rfl, hrebuilds, List.getElem?_map, List.getElem?_range hi]
    rfl

end Sys2Proof.Machine
end

section
/-! SUPPORT. The commands of the frame sequencer that move no frame (44_frame_sequencer.md rules R223 to R226, R231): their
checks, and how opening, acknowledging, a message and closing end the command. -/

namespace Sys2Proof.Machine

variable {c : PortNo} {s : State} {i : Instr}

/-! ### The commands -/

/-- `FS_OPEN` (44 R223). -/
theorem exec_fsOpen (s : State) (c : PortNo) (role : BitVec 1) :
    (∀ e, firstFailure s (.fsOpen c role) = some e → Rejects (.fsOpen c role) s e) ∧
      (firstFailure s (.fsOpen c role) = none → exec (.fsOpen c role) s =
        .next (succeed 0 (s.setPort c (openedPort (roleOfBit role) (s.port c))))) :=
  exec_guarded (i := .fsOpen c role) rfl rfl (check_guarded (check_guarded rfl))

/-- `FS_ACK` (44 R224). -/
theorem exec_fsAck (s : State) (c : PortNo) (v : Word) :
    (∀ e, firstFailure s (.fsAck c v) = some e → Rejects (.fsAck c v) s e) ∧
      (firstFailure s (.fsAck c v) = none → exec (.fsAck c v) s = .next (complete (.fsAck c v) s
        (if v = s.magic then .done 0 (acknowledge c false s)
        else if v = bswap32 s.magic then .done 0 (acknowledge c true s)
        else .raise .protocol (closeChannel c s)))) :=
  exec_guarded (i := .fsAck c v) rfl rfl (check_guarded (check_guarded rfl))

/-- `FS_MSG` (44 R226). -/
theorem exec_fsMsg (s : State) (c : PortNo) (token : BitVec 16) :
    (∀ e, firstFailure s (.fsMsg c token) = some e → Rejects (.fsMsg c token) s e) ∧
      (firstFailure s (.fsMsg c token) = none → exec (.fsMsg c token) s = .next (complete (.fsMsg c token) s
        (if token = 0 then .done 0 s else .raise .protocol (closeChannel c s)))) :=
  exec_guarded (i := .fsMsg c token) rfl rfl (check_guarded (check_guarded rfl))

/-- `FS_CLOSE` (44 R231). -/
theorem exec_fsClose (s : State) (c : PortNo) :
    (∀ e, firstFailure s (.fsClose c) = some e → Rejects (.fsClose c) s e) ∧
      (firstFailure s (.fsClose c) = none → exec (.fsClose c) s = .next (succeed 0 (closeChannel c s))) :=
  exec_guarded (i := .fsClose c) rfl rfl (check_guarded rfl)

/-! ### The ends of a command on one channel -/

/-- A success after a change of port `c` alone. -/
theorem endsOk_with_port {data : Word} {q : Port} (hexec : exec i s = .next (succeed data (s.setPort c q))) :
    ∃ t, exec i s = .next t ∧ EndsOk s t data ∧ SameButPort c s t ∧ t.port c = q :=
  ⟨_, hexec, succeed_endsOk _ rfl, sameButPort_succeed data s c q, port_setPort_self s c q⟩

/-- An error with `close(c)` performed (44 R225, R232). -/
theorem endsWith_closed {e : Status} (hexec : exec i s = .next (complete i s (.raise e (closeChannel c s)))) :
    ∃ t, exec i s = .next t ∧ EndsWith (opcodeOf i) e t ∧ SameButPort c s t ∧ (s.port c).Dead (t.port c) :=
  ⟨_, hexec, takeError_endsWith _ _ _, sameButPort_takeError _ _ s c _,
    (port_setPort_self s c (closedPort (s.port c))).symm ▸ closedPort_dead _⟩

/-! ### The byte swap (44 R224) -/

theorem wordOfBytes_eq_append (b0 b1 b2 b3 : BitVec 8) : wordOfBytes b0 b1 b2 b3 = b0 ++ b1 ++ b2 ++ b3 := by
  have append : ∀ (n : Nat) (x : BitVec n) (b : BitVec 8), (x ++ b).toNat = x.toNat * 2 ^ 8 + b.toNat := fun n x b => by
    rw [BitVec.toNat_append, Nat.shiftLeft_eq, Nat.mul_comm, Nat.two_pow_add_eq_or_of_lt b.isLt]
  have hlt := (b0 ++ b1 ++ b2 ++ b3).isLt
  refine BitVec.eq_of_toNat_eq ?_
  simp only [wordOfBytes, append, BitVec.toNat_ofNat] at hlt ⊢
  omega

theorem bswap32_eq_append (x : Word) :
    bswap32 x = x.extractLsb' 0 8 ++ x.extractLsb' 8 8 ++ x.extractLsb' 16 8 ++ x.extractLsb' 24 8 :=
  wordOfBytes_eq_append _ _ _ _

/-! ### The statements -/

/-- Settles O36, by what `FS_OPEN` makes of the port (`exec_fsOpen`). -/
theorem openStartsAChannel : Obligations.OpenStartsAChannel := by
  intro s c role
  obtain ⟨hrej, hgo⟩ := exec_fsOpen s c role
  refine ⟨hrej, fun hc hclosed => ?_⟩
  have hpass : firstFailure s (.fsOpen c role) = none := by simp [firstFailure, firstOf, portExists, hc, hclosed]
  exact endsOk_with_port (hgo hpass)

/-- Settles O37, by the three branches of `FS_ACK`, the swapped magic written as its bytes (`bswap32_eq_append`). -/
theorem acknowledgeComparesTheMagic : Obligations.AcknowledgeComparesTheMagic := by
  intro s c v swapped
  obtain ⟨hrej, hgo⟩ := exec_fsAck s c v
  refine ⟨hrej, fun hc hstart hswapped => ?_⟩
  have hpass : firstFailure s (.fsAck c v) = none := by simp [firstFailure, firstOf, portExists, hc, hstart]
  have hexec := hgo hpass
  rw [bswap32_eq_append, ← hswapped] at hexec
  refine ⟨fun hmagic => ?_, fun ⟨hne, hswap⟩ => ?_, fun ⟨hne, hnswap⟩ => ?_⟩
  · rw [if_pos hmagic] at hexec
    exact endsOk_with_port hexec
  · rw [if_neg hne, if_pos hswap] at hexec
    exact endsOk_with_port hexec
  · rw [if_neg hne, if_neg hnswap] at hexec
    exact endsWith_closed hexec

/-- Settles O38, by the two branches of `FS_MSG`. -/
theorem messageTokensOtherThanZeroClose : Obligations.MessageTokensOtherThanZeroClose := by
  intro s c token
  obtain ⟨hrej, hgo⟩ := exec_fsMsg s c token
  refine ⟨hrej, fun hc hrole hstream => ?_⟩
  have hpass : firstFailure s (.fsMsg c token) = none := by
    rcases hstream with hst | hst <;> simp [firstFailure, firstOf, portExists, isStreaming, hc, hrole, hst]
  have hexec := hgo hpass
  refine ⟨fun hzero => ?_, fun hne => ?_⟩
  · rw [if_pos hzero] at hexec
    exact ⟨_, hexec, succeed_endsOk _ rfl, rfl⟩
  · rw [if_neg hne] at hexec
    exact endsWith_closed hexec

/-- Settles O41, by what `FS_CLOSE` makes of the port (`exec_fsClose`). -/
theorem closeEmptiesTheRegisters : Obligations.CloseEmptiesTheRegisters := by
  intro s c
  obtain ⟨hrej, hgo⟩ := exec_fsClose s c
  refine ⟨hrej, fun hc => ?_⟩
  have hpass : firstFailure s (.fsClose c) = none := by simp [firstFailure, firstOf, portExists, hc]
  obtain ⟨t, hexec, hends, hsame, hport⟩ := endsOk_with_port (hgo hpass)
  exact ⟨t, hexec, hends, hsame, hport ▸ closedPort_dead _⟩

end Sys2Proof.Machine
end

section
/-! SUPPORT. Isolation (44_frame_sequencer.md rule R233, 10_state.md rule R24): the functions of files 40 to 44 that work on
port `c` give the same answer whatever record stands at another port `d`, and leave that record where it is. -/

namespace Sys2Proof.Machine

variable {c d : PortNo} {s : State} {p : Port} {α β : Type}

/-! ### Stretches beside another record -/

/-- The same end of a stretch, with the record `p` at port `d`. -/
def Res.withPort (d : PortNo) (p : Port) : Res α → Res α
  | .done a s => .done a (s.setPort d p)
  | .raise e s => .raise e (s.setPort d p)
  | .hold => .hold

theorem bind_withPort {r r' : Res α} {k k' : α → State → Res β} (hr : r' = r.withPort d p)
    (hk : ∀ a u, r = .done a u → k' a (u.setPort d p) = (k a u).withPort d p) : r'.bind k' = (r.bind k).withPort d p := by
  subst hr
  cases r with
  | done a u => exact hk a u rfl
  | raise e u => rfl
  | hold => rfl

theorem andThen_withPort {r r' : Res Unit} {k k' : State → Res β} (hr : r' = r.withPort d p)
    (hk : ∀ u, r = .done () u → k' (u.setPort d p) = (k u).withPort d p) : r'.andThen k' = (r.andThen k).withPort d p :=
  bind_withPort hr fun _ u hu => hk u hu

theorem check_withPort {ok ok' : Bool} {e : Status} {k k' : State → Res β} (hok : ok' = ok)
    (hk : k' (s.setPort d p) = (k s).withPort d p) :
    (check ok' e (s.setPort d p)).andThen k' = ((check ok e s).andThen k).withPort d p := by
  subst hok
  cases ok' with
  | true => exact hk
  | false => rfl

theorem withTable_withPort {t : BitVec 4} {k k' : TableId → Res β} (hk : ∀ tab, k' tab = (k tab).withPort d p) :
    withTable t (s.setPort d p) k' = (withTable t s k).withPort d p := by
  unfold withTable
  cases tableOfField t with
  | some tab => exact hk tab
  | none => rfl

theorem ite_withPort {P : Prop} [Decidable P] {r₁ r₂ r₁' r₂' : Res α} (h₁ : r₁' = r₁.withPort d p) (h₂ : r₂' = r₂.withPort d p) :
    (if P then r₁' else r₂') = (if P then r₁ else r₂).withPort d p := by
  split
  · exact h₁
  · exact h₂

theorem complete_withPort (i : Instr) (s : State) (r : Res Word) :
    complete i (s.setPort d p) (r.withPort d p) = (complete i s r).setPort d p := by
  cases r <;> rfl

theorem copyCells_setPort (dst src len i : Nat) (s : State) :
    copyCells dst src len i (s.setPort d p) = (copyCells dst src len i s).setPort d p := by
  induction len generalizing i s with
  | zero => rfl
  | succ len ih => exact ih (i + 1) (s.setPixel dst i (s.pixel src i))

theorem placeRun_setPort (cu : Cursor) (len : BitVec 10) (s : State) :
    placeRun cu len (s.setPort d p) = (placeRun cu len s).setPort d p := by
  unfold placeRun
  rw [copyCells_setPort]
  rfl

theorem setPort_comm (s : State) (p q : Port) (h : d ≠ c) :
    (s.setPort d p).setPort c q = (s.setPort c q).setPort d p := by
  have hne : d.toNat ≠ c.toNat := fun e => h (BitVec.eq_of_toNat_eq e)
  simp only [State.setPort]
  rw [Vector.set_comm _ _ hne]

section Other
variable (h : d ≠ c)
include h

/-- Port `c` is not the port that was replaced. -/
theorem port_beside : (s.setPort d p).port c = s.port c := port_setPort_ne s p h.symm

theorem closeChannel_beside : closeChannel c (s.setPort d p) = (closeChannel c s).setPort d p := by
  rw [closeChannel, port_beside h, setPort_comm s _ _ h, closeChannel]

theorem bitsAtHand_beside : bitsAtHand (s.setPort d p) c = bitsAtHand s c := by
  rw [bitsAtHand, port_beside h, bitsAtHand]

/-! ### The bit stream -/

theorem setWriter_beside (acc n : Nat) : setWriter c acc n (s.setPort d p) = (setWriter c acc n s).setPort d p := by
  rw [setWriter, port_beside h, setPort_comm s _ _ h, setWriter]

theorem setReader_beside (acc n : Nat) : setReader c acc n (s.setPort d p) = (setReader c acc n s).setPort d p := by
  rw [setReader, port_beside h, setPort_comm s _ _ h, setReader]

theorem emit_beside (w : Word) : emit c w (s.setPort d p) = (emit c w s).withPort d p := by
  unfold emit
  rw [port_beside h, closeChannel_beside h]
  exact ite_withPort rfl (congrArg (Res.done ()) (setPort_comm s _ _ h))

theorem write_beside (v : Word) (k : Nat) : write c v k (s.setPort d p) = (write c v k s).withPort d p := by
  have emitted : ∀ (w : Word) (acc n : Nat),
      ((emit c w (s.setPort d p)).andThen fun u => .done () (setWriter c acc n u)) =
        ((emit c w s).andThen fun u => .done () (setWriter c acc n u)).withPort d p := fun w acc n =>
    andThen_withPort (emit_beside h w) fun u _ => by rw [setWriter_beside h]; rfl
  unfold write
  rw [port_beside h]
  exact ite_withPort rfl <| ite_withPort (emitted _ _ _) <|
    ite_withPort (congrArg (Res.done ()) (setWriter_beside h _ _)) (emitted _ _ _)

theorem flush_beside : flush c (s.setPort d p) = (flush c s).withPort d p := by
  unfold flush
  rw [port_beside h]
  exact ite_withPort rfl (andThen_withPort (emit_beside h _) fun u _ => by rw [setWriter_beside h]; rfl)

theorem refill_beside : refill c (s.setPort d p) = (refill c s).withPort d p := by
  unfold refill
  simp only [port_beside h, closeChannel_beside h]
  cases (s.port c).tin with
  | nil => exact ite_withPort rfl rfl
  | cons w rest => exact congrArg (Res.done ()) (setPort_comm s _ _ h)

theorem readFrom_beside (k : Nat) : readFrom c k (s.setPort d p) = (readFrom c k s).withPort d p := by
  unfold readFrom
  rw [port_beside h]
  exact ite_withPort (congrArg (Res.done _) (setReader_beside h _ _)) <|
    andThen_withPort (refill_beside h) fun u _ => by
      simp only [port_beside h, setReader_beside h]
      rfl

theorem read_beside (k : Nat) : read c k (s.setPort d p) = (read c k s).withPort d p := by
  unfold read
  rw [port_beside h]
  exact ite_withPort rfl (ite_withPort (andThen_withPort (refill_beside h) fun u _ => readFrom_beside h k)
    (readFrom_beside h k))

/-! ### Symbols -/

theorem encodeSymbol_beside (t : TableId) (sym : Nat) :
    encodeSymbol c t sym (s.setPort d p) = (encodeSymbol c t sym s).withPort d p := by
  unfold encodeSymbol codeEntry
  rw [setPort_table, write_beside h]

theorem walk_beside (tree : List Node) (fuel i : Nat) (s : State) :
    walk c tree fuel i (s.setPort d p) = (walk c tree fuel i s).withPort d p := by
  induction fuel generalizing i s with
  | zero => rfl
  | succ fuel ih =>
    unfold walk
    cases tree.getD i (.leaf 0) with
    | leaf sym => rfl
    | node c0 c1 => exact bind_withPort (read_beside h 1) fun b u _ => ih _ u

theorem decodeSymbol_beside (t : TableId) : decodeSymbol c t (s.setPort d p) = (decodeSymbol c t s).withPort d p := by
  unfold decodeSymbol
  rw [setPort_table, bitsAtHand_beside h, walk_beside h]

theorem putError_beside (t : TableId) (e : Pixel) : putError c t e (s.setPort d p) = (putError c t e s).withPort d p :=
  ite_withPort (encodeSymbol_beside h t _)
    (andThen_withPort (encodeSymbol_beside h t _) fun _ _ => write_beside h _ _)

/-! ### Compressors -/

theorem intraPuts_beside (b w left q : Nat) (s : State) :
    intraPuts c b w left q (s.setPort d p) = (intraPuts c b w left q s).withPort d p := by
  induction left generalizing q s with
  | zero => rfl
  | succ left ih =>
    exact andThen_withPort (ite_withPort (write_beside h _ _) (putError_beside h _ _)) fun u _ => ih _ u

theorem intraCompress_beside (b w height : Nat) :
    intraCompress c b w height (s.setPort d p) = (intraCompress c b w height s).withPort d p :=
  andThen_withPort (intraPuts_beside h b w _ 0 s) fun _ _ => flush_beside h

theorem emitRun_beside (run : Nat) : emitRun c run (s.setPort d p) = (emitRun c run s).withPort d p :=
  ite_withPort rfl (encodeSymbol_beside h _ _)

theorem interPuts_beside (src ref left i run : Nat) (s : State) :
    interPuts c src ref left i run (s.setPort d p) = (interPuts c src ref left i run s).withPort d p := by
  induction left generalizing i run s with
  | zero => exact emitRun_beside h run
  | succ left ih =>
    exact ite_withPort
      (ite_withPort (andThen_withPort (encodeSymbol_beside h _ _) fun u _ => ih _ _ u) (ih _ _ s))
      (andThen_withPort (emitRun_beside h run) fun u _ =>
        andThen_withPort (putError_beside h _ _) fun u _ => ih _ _ u)

theorem interCompress_beside (b r n : Nat) :
    interCompress c b r n (s.setPort d p) = (interCompress c b r n s).withPort d p :=
  andThen_withPort (interPuts_beside h b r n 0 0 s) fun _ _ => flush_beside h

/-! ### Decompressors -/

theorem align_beside : align c (s.setPort d p) = (align c s).setPort d p := setReader_beside h 0 0

end Other

section Cursor
variable {cu : Cursor} (h : d ≠ cu.port)
include h

theorem runPastEnd_beside : runPastEnd cu (s.setPort d p) = (runPastEnd cu s).setPort d p := by
  unfold runPastEnd
  rw [closeChannel_beside h]
  split <;> rfl

theorem frameItem_beside : frameItem cu (s.setPort d p) = (frameItem cu s).withPort d p := by
  unfold frameItem
  cases cu.table with
  | intra =>
    exact ite_withPort (bind_withPort (read_beside h 16) fun _ _ _ => rfl)
      (bind_withPort (decodeSymbol_beside h _) fun sym _ _ =>
        ite_withPort rfl (bind_withPort (read_beside h 16) fun _ _ _ => rfl))
  | inter =>
    refine bind_withPort (decodeSymbol_beside h _) fun sym u _ =>
      ite_withPort rfl (ite_withPort (bind_withPort (read_beside h 16) fun _ _ _ => rfl) (ite_withPort ?_ ?_))
    · exact congrArg (Res.done ()) (placeRun_setPort cu _ u)
    · exact congrArg (Res.raise .runOverrun) (runPastEnd_beside h)

theorem frameItems_beside (rounds : Nat) (hcu : s.cursor = some cu) :
    frameItems rounds (s.setPort d p) = (frameItems rounds s).withPort d p := by
  induction rounds generalizing s cu with
  | zero => rfl
  | succ rounds ih =>
    simp only [frameItems, setPort_cursor, hcu]
    refine ite_withPort (andThen_withPort (frameItem_beside h) fun u hu => ?_) rfl
    obtain ⟨n, hn⟩ := frameItem_cursor hu
    exact ih (cu := { cu with pos := n }) h hn

theorem decompressFrame_beside : decompressFrame cu (s.setPort d p) = (decompressFrame cu s).withPort d p :=
  andThen_withPort (frameItems_beside (s := { s with cursor := some cu }) h cu.count rfl) fun u _ => by
    rw [align_beside h]; rfl

end Cursor

section Commands
variable (h : d ≠ c)
include h

theorem intraDecompress_beside (op : BitVec 8) (b w height : Nat) :
    intraDecompress op c b w height (s.setPort d p) = (intraDecompress op c b w height s).withPort d p :=
  decompressFrame_beside (cu := intraCursor op c b w height) h

theorem interDecompress_beside (op : BitVec 8) (b r n : Nat) :
    interDecompress op c b r n (s.setPort d p) = (interDecompress op c b r n s).withPort d p :=
  decompressFrame_beside (cu := interCursor op c b r n) h

/-! ### Triplets -/

theorem setChannelState_beside (st : ChState) :
    setChannelState c st (s.setPort d p) = (setChannelState c st s).setPort d p := by
  rw [setChannelState, port_beside h, setPort_comm s _ _ h, setChannelState]

theorem acknowledge_beside (swap : Bool) : acknowledge c swap (s.setPort d p) = (acknowledge c swap s).setPort d p := by
  rw [acknowledge, port_beside h, setPort_comm s _ _ h, acknowledge]

theorem sendPlane_beside (k : Nat) : sendPlane c k (s.setPort d p) = (sendPlane c k s).withPort d p := by
  unfold sendPlane
  rw [port_beside h]
  exact ite_withPort (intraCompress_beside h _ _ _) (interCompress_beside h _ _ _)

theorem recvPlane_beside (k : Nat) : recvPlane c k (s.setPort d p) = (recvPlane c k s).withPort d p := by
  unfold recvPlane
  rw [port_beside h]
  exact ite_withPort (intraDecompress_beside h _ _ _ _) (interDecompress_beside h _ _ _ _)

omit h in
theorem forPlanes_beside {frame : Nat → State → Res Unit}
    (hframe : ∀ (k : Nat) (s : State), frame k (s.setPort d p) = (frame k s).withPort d p) :
    forPlanes frame (s.setPort d p) = (forPlanes frame s).withPort d p :=
  andThen_withPort (hframe 0 s) fun u _ => andThen_withPort (hframe 1 u) fun u _ => hframe 2 u

theorem wordsEmitted_beside (u : State) : wordsEmitted c (s.setPort d p) (u.setPort d p) = wordsEmitted c s u := by
  rw [wordsEmitted, port_beside h, port_beside h, wordsEmitted]

theorem wordsConsumed_beside (u : State) : wordsConsumed c (s.setPort d p) (u.setPort d p) = wordsConsumed c s u := by
  rw [wordsConsumed, port_beside h, port_beside h, wordsConsumed]

/-! ### The commands -/

omit h in
theorem intraChecks_withPort {b : BitVec 8} {k k' : State → Res α} (hk : k' (s.setPort d p) = (k s).withPort d p) :
    (intraChecks c b (s.setPort d p)).andThen k' = ((intraChecks c b s).andThen k).withPort d p := by
  unfold intraChecks
  rw [andThen_andThen, andThen_andThen]
  refine check_withPort rfl ?_
  rw [andThen_andThen, andThen_andThen]
  exact check_withPort rfl (check_withPort rfl hk)

omit h in
theorem interChecks_withPort {b b' : BitVec 8} {k k' : State → Res α} (hk : k' (s.setPort d p) = (k s).withPort d p) :
    (interChecks c b b' (s.setPort d p)).andThen k' = ((interChecks c b b' s).andThen k).withPort d p := by
  unfold interChecks
  rw [andThen_andThen, andThen_andThen]
  refine check_withPort rfl ?_
  rw [andThen_andThen, andThen_andThen]
  exact check_withPort rfl (check_withPort rfl hk)

theorem neededTableValid_beside : neededTableValid (s.setPort d p) c = neededTableValid s c := by
  unfold neededTableValid
  rw [port_beside h]
  rfl

omit h in
theorem updateReference_setPort (k : Nat) (s : State) :
    updateReference c k (s.setPort d p) = (updateReference c k s).setPort d p := copyCells_setPort _ _ _ _ s

/-- The response data is the words emitted on the command's own port. -/
theorem emitted_beside {r r' : Res Unit} (hr : r' = r.withPort d p) :
    (r'.andThen fun u => .done (wordCount (wordsEmitted c (s.setPort d p) u)) u) =
      (r.andThen fun u => .done (wordCount (wordsEmitted c s u)) u).withPort d p :=
  andThen_withPort hr fun u _ => by rw [wordsEmitted_beside h]; rfl

/-- The response data is the words consumed on the command's own port. -/
theorem consumed_beside {r r' : Res Unit} (hr : r' = r.withPort d p) :
    (r'.andThen fun u => .done (wordCount (wordsConsumed c (s.setPort d p) u)) u) =
      (r.andThen fun u => .done (wordCount (wordsConsumed c s u)) u).withPort d p :=
  andThen_withPort hr fun u _ => by rw [wordsConsumed_beside h]; rfl

theorem runFsOpen_beside (role : BitVec 1) : runFsOpen c role (s.setPort d p) = (runFsOpen c role s).withPort d p :=
  check_withPort rfl (check_withPort (by rw [port_beside h])
    (congrArg (Res.done 0) (by rw [port_beside h, setPort_comm s _ _ h])))

theorem runFsAck_beside (v : Word) : runFsAck c v (s.setPort d p) = (runFsAck c v s).withPort d p :=
  check_withPort rfl <| check_withPort (by rw [port_beside h]) <|
    ite_withPort (congrArg (Res.done 0) (acknowledge_beside h false)) <|
      ite_withPort (congrArg (Res.done 0) (acknowledge_beside h true))
        (congrArg (Res.raise .protocol) (closeChannel_beside h))

theorem runFsMsg_beside (token : BitVec 16) : runFsMsg c token (s.setPort d p) = (runFsMsg c token s).withPort d p :=
  check_withPort rfl <| check_withPort (by rw [port_beside h]) <|
    ite_withPort rfl (congrArg (Res.raise .protocol) (closeChannel_beside h))

theorem runFsSend_beside : runFsSend c (s.setPort d p) = (runFsSend c s).withPort d p := by
  refine check_withPort rfl (check_withPort (by rw [port_beside h]) ?_)
  rw [port_beside h]
  refine ite_withPort rfl (check_withPort (neededTableValid_beside h) (check_withPort rfl ?_))
  refine andThen_withPort (forPlanes_beside fun k _ => sendPlane_beside h k) fun u _ => ?_
  rw [wordsEmitted_beside h, updateReference_setPort, updateReference_setPort, updateReference_setPort,
    setChannelState_beside h]
  rfl

theorem runFsRecv_beside : runFsRecv c (s.setPort d p) = (runFsRecv c s).withPort d p := by
  refine check_withPort rfl <| check_withPort (by rw [port_beside h]) <| check_withPort (neededTableValid_beside h) <|
    check_withPort rfl <| andThen_withPort (forPlanes_beside fun k _ => recvPlane_beside h k) fun u _ => ?_
  rw [wordsConsumed_beside h, setChannelState_beside h]
  rfl

end Commands

/-- The body of a command that names port `c` neither reads nor writes the record of another port. -/
theorem commandRun_beside {i : Instr} (hc : portOf i = some c) (h : d ≠ c) :
    commandRun (s.setPort d p) i = (commandRun s i).withPort d p := by
  cases i with
  | bwWrite c' k v =>
    obtain rfl := Option.some.inj hc
    exact check_withPort rfl (andThen_withPort (write_beside h v _) fun _ _ => rfl)
  | bwFlush c' =>
    obtain rfl := Option.some.inj hc
    exact check_withPort rfl (andThen_withPort (flush_beside h) fun _ _ => rfl)
  | brRead c' k =>
    obtain rfl := Option.some.inj hc
    exact check_withPort rfl (read_beside h _)
  | brReadbit c' =>
    obtain rfl := Option.some.inj hc
    exact check_withPort rfl (read_beside h 1)
  | brAlign c' =>
    obtain rfl := Option.some.inj hc
    exact check_withPort rfl (congrArg (Res.done 0) (align_beside h))
  | pcEncode c' n sym =>
    obtain rfl := Option.some.inj hc
    exact check_withPort rfl <| withTable_withPort fun tab => check_withPort rfl <|
      check_withPort (by rw [setPort_table]) (andThen_withPort (encodeSymbol_beside h tab _) fun _ _ => rfl)
  | pcDecode c' n =>
    obtain rfl := Option.some.inj hc
    exact check_withPort rfl <| withTable_withPort fun tab =>
      check_withPort (by rw [setPort_table]) (bind_withPort (decodeSymbol_beside h tab) fun _ _ _ => rfl)
  | icCompress c' src =>
    obtain rfl := Option.some.inj hc
    exact intraChecks_withPort (emitted_beside h (intraCompress_beside h _ _ _))
  | icDecompress c' dst =>
    obtain rfl := Option.some.inj hc
    exact intraChecks_withPort (consumed_beside h (intraDecompress_beside h _ _ _ _))
  | xcCompress c' src ref =>
    obtain rfl := Option.some.inj hc
    exact interChecks_withPort (emitted_beside h (interCompress_beside h _ _ _))
  | xcDecompress c' dst ref =>
    obtain rfl := Option.some.inj hc
    exact interChecks_withPort (consumed_beside h (interDecompress_beside h _ _ _ _))
  | fsOpen c' role =>
    obtain rfl := Option.some.inj hc
    exact runFsOpen_beside h role
  | fsAck c' v =>
    obtain rfl := Option.some.inj hc
    exact runFsAck_beside h v
  | fsMsg c' token =>
    obtain rfl := Option.some.inj hc
    exact runFsMsg_beside h token
  | fsSend c' =>
    obtain rfl := Option.some.inj hc
    exact runFsSend_beside h
  | fsRecv c' =>
    obtain rfl := Option.some.inj hc
    exact runFsRecv_beside h
  | fsClose c' =>
    obtain rfl := Option.some.inj hc
    exact check_withPort rfl (congrArg (Res.done 0) (closeChannel_beside h))
  | _ => cases hc

theorem isCommand_of_portOf {i : Instr} (hc : portOf i = some c) : i.isCommand = true := by
  cases i with
  | direct0 | esc0 | direct1 | esc1 | run => cases hc
  | _ => rfl

/-- A command that names port `c`, with another record at another port (44 R233). -/
theorem exec_beside {i : Instr} {t : State} (hc : portOf i = some c) (h : d ≠ c) (ht : exec i s = .next t) :
    exec i (s.setPort d p) = .next (t.setPort d p) := by
  have hi := isCommand_of_portOf hc
  rw [exec_command hi] at ht ⊢
  obtain rfl := Host.Outcome.next.inj ht
  rw [commandRun_beside hc h, complete_withPort]

/-- A command that names port `c` leaves the record of another port as it is (44 R233). -/
theorem exec_port_ne {i : Instr} {t : State} (hc : portOf i = some c) (h : d ≠ c) (ht : exec i s = .next t) :
    t.port d = s.port d := by
  have hsame := exec_beside (p := s.port d) hc h ht
  rw [setPort_port, ht] at hsame
  have hport := congrArg (State.port · d) (Host.Outcome.next.inj hsame)
  exact hport.trans (port_setPort_self t d _)

/-- Settles O46: with another record at port `d` the command does the same (`exec_beside`), so with its own record too
(`exec_port_ne`). -/
theorem portsAreIsolated : Obligations.PortsAreIsolated := fun _ _ _ _ _ _ hc h ht =>
  ⟨exec_port_ne hc h ht, exec_beside hc h ht⟩

end Sys2Proof.Machine
end

section
/-! SUPPORT. The moves of the channels (44_frame_sequencer.md rules R225, R234): what the body of every command makes of
`CHST`. -/

namespace Sys2Proof.Machine

variable {c : PortNo} {s t : State} {i : Instr} {α : Type}

/-! ### Moves that a command may make -/

/-- From `s` to `t` command `i` moved every channel as 44 R234 allows, from `INTRA` to `INTER` only by a triplet. -/
def ChannelsMove (i : Instr) (s t : State) : Prop :=
  ∀ d, channelMove (s.port d).chst (t.port d).chst ∧
    ((s.port d).chst = .intra → (t.port d).chst = .inter → i = .fsSend d ∨ i = .fsRecv d)

/-- Every channel stayed where it was or closed. -/
theorem channelsMove_of_kept (h : ∀ d, (t.port d).chst = (s.port d).chst ∨ (t.port d).chst = .closed) :
    ChannelsMove i s t := fun d => by
  rcases h d with hd | hd <;> rw [hd]
  · exact ⟨.inl rfl, fun h h' => nomatch h.symm.trans h'⟩
  · exact ⟨.inr (.inl rfl), fun _ h => nomatch h⟩

theorem ChannelsMove.of_ports (h : ∀ d, t.port d = s.port d) : ChannelsMove i s t :=
  channelsMove_of_kept fun d => .inl (congrArg Port.chst (h d))

theorem ChannelsMove.refl (i : Instr) (s : State) : ChannelsMove i s s := .of_ports fun _ => rfl

/-- Channel `c` alone moved. -/
theorem ChannelsMove.setPort {q : Port} (hmove : channelMove (s.port c).chst q.chst)
    (htriplet : (s.port c).chst = .intra → q.chst = .inter → i = .fsSend c ∨ i = .fsRecv c) :
    ChannelsMove i s (s.setPort c q) := fun d => by
  by_cases hd : d = c
  · subst hd
    rw [port_setPort_self]
    exact ⟨hmove, htriplet⟩
  · rw [port_setPort_ne s q hd]
    exact ChannelsMove.refl i s d

theorem ChannelsMove.close (i : Instr) (c : PortNo) (s : State) : ChannelsMove i s (closeChannel c s) :=
  .setPort (.inr (.inl rfl)) fun _ h => nomatch h

/-- A stretch on a port leaves its channel as it was or closes it. -/
theorem Ends.channelsMove {B : Nat → Nat → Prop} {es kills : List Status} {r : Res α} (h : Ends c B es kills s r) :
    r.EndsIn (ChannelsMove i s) := by
  have kept : ∀ {u : State}, Moves c B s u → (u.port c).chst = (s.port c).chst ∨ (u.port c).chst = .closed →
      ChannelsMove i s u := fun m hc => channelsMove_of_kept fun d => by
    by_cases hd : d = c
    · exact hd ▸ hc
    · exact .inl (congrArg Port.chst (m.port_ne hd))
  cases r with
  | done a u => exact kept h.1 (.inl h.2)
  | raise e u =>
    obtain ⟨-, m, hdead, hlive⟩ := h
    refine kept m ?_
    by_cases he : e ∈ kills
    · obtain ⟨-, -, -, -, hclosed⟩ := hdead he
      exact .inr hclosed
    · exact .inl (hlive he)
  | hold => trivial

/-- The end of a triplet takes its channel to `INTER` (44 R228, R230). -/
theorem channelsMove_inter {B : Nat → Nat → Prop} (m : Moves c B s t)
    (hstream : (s.port c).chst = .intra ∨ (s.port c).chst = .inter) (hi : i = .fsSend c ∨ i = .fsRecv c) :
    ChannelsMove i s (setChannelState c .inter t) := fun d => by
  by_cases hd : d = c
  · subst hd
    rw [setChannelState, port_setPort_self]
    refine ⟨?_, fun _ _ => hi⟩
    rcases hstream with h | h <;> rw [h]
    · exact .inr (.inr (.inr (.inr ⟨rfl, rfl⟩)))
    · exact .inl rfl
  · rw [setChannelState, port_setPort_ne _ _ hd, m.port_ne hd]
    exact ChannelsMove.refl i s d

/-! ### The commands -/

open ChannelsMove (refl of_ports)

theorem runFsOpen_channels (role : BitVec 1) : (runFsOpen c role s).EndsIn (ChannelsMove i s) :=
  endsIn_check (refl i s) fun _ => endsIn_check (refl i s) fun hclosed =>
    .setPort (.inr (.inr (.inl ⟨of_decide_eq_true hclosed, rfl⟩))) fun _ h => nomatch h

theorem runFsAck_channels (v : Word) : (runFsAck c v s).EndsIn (ChannelsMove i s) :=
  endsIn_check (refl i s) fun _ => endsIn_check (refl i s) fun hstart => by
    have hack : ∀ swap, ChannelsMove i s (acknowledge c swap s) := fun swap =>
      .setPort (.inr (.inr (.inr (.inl ⟨of_decide_eq_true hstart, rfl⟩)))) fun _ h => nomatch h
    split
    · exact hack false
    split
    · exact hack true
    · exact .close i c s

theorem runFsMsg_channels (token : BitVec 16) : (runFsMsg c token s).EndsIn (ChannelsMove i s) :=
  endsIn_check (refl i s) fun _ => endsIn_check (refl i s) fun _ => by
    split
    · exact refl i s
    · exact .close i c s

/-- The references updated after a triplet belong to no channel record (44 R228). -/
theorem moves_updateReferences {B : Nat → Nat → Prop} (m : Moves c B s t) :
    Moves c (fun _ _ => True) s (updateReference c 2 (updateReference c 1 (updateReference c 0 t))) :=
  have update : ∀ (k : Nat) (u : State), Moves c (fun _ _ => True) u (updateReference c k u) := fun k u =>
    (moves_updateReference c k u).mono fun _ _ _ => trivial
  (m.mono fun _ _ _ => trivial).trans <| (update 0 _).trans <| (update 1 _).trans (update 2 _)

/-- A channel that is open and past `START` is in one of its two streaming states. -/
theorem streaming_of_open {st : ChState} (hclosed : st ≠ .closed) (hstart : st ≠ .start) : st = .intra ∨ st = .inter := by
  cases st with
  | closed => exact absurd rfl hclosed
  | start => exact absurd rfl hstart
  | intra => exact .inl rfl
  | inter => exact .inr rfl

theorem runFsSend_channels (hf : CodesFit s) : (runFsSend c s).EndsIn (ChannelsMove (.fsSend c) s) :=
  endsIn_check (refl _ s) fun _ => endsIn_check (refl _ s) fun hok => by
    split
    · exact refl _ s
    rename_i hstart
    have hopen : (s.port c).chst ≠ .closed := of_decide_eq_true (Bool.and_eq_true_iff.mp hok).2
    have hstream := streaming_of_open hopen hstart
    have hplanes := ends_sendPlanes (c := c) noCell hf
    refine endsIn_check (refl _ s) fun _ => endsIn_check (refl _ s) fun _ => ?_
    cases hr : forPlanes (sendPlane c) s with
    | done a u =>
      rw [hr] at hplanes
      exact channelsMove_inter (moves_updateReferences hplanes.1) hstream (.inl rfl)
    | raise e u =>
      rw [hr] at hplanes
      exact hplanes.channelsMove
    | hold => trivial

theorem runFsRecv_channels : (runFsRecv c s).EndsIn (ChannelsMove (.fsRecv c) s) :=
  endsIn_check (refl _ s) fun _ => endsIn_check (refl _ s) fun hok => by
    have hstream : (s.port c).chst = .intra ∨ (s.port c).chst = .inter := by
      simpa [streaming] using (Bool.and_eq_true_iff.mp hok).2
    have hplanes := ends_recvPlanes (c := c) (s := s)
    refine endsIn_check (refl _ s) fun _ => endsIn_check (refl _ s) fun _ => ?_
    cases hr : forPlanes (recvPlane c) s with
    | done a u =>
      rw [hr] at hplanes
      exact channelsMove_inter hplanes.1 hstream (.inr rfl)
    | raise e u =>
      rw [hr] at hplanes
      exact hplanes.channelsMove
    | hold => trivial

/-- The body of every command moves the channels as 44 R234 allows. -/
theorem commandRun_channels (hf : CodesFit s) : (commandRun s i).EndsIn (ChannelsMove i s) := by
  have bits : ∀ {b : Bool} {k : BitVec 16}, (b && bitCountOk k) = true → k.toNat ≤ 32 := fun h =>
    of_decide_eq_true (Bool.and_eq_true_iff.mp h).2
  cases i with
  | nop => exact refl _ s
  | bwWrite c k v => exact endsIn_check (refl _ s) fun hok => (ends_write noCell v (bits hok)).channelsMove.respond
  | bwFlush c => exact endsIn_check (refl _ s) fun _ => (ends_flush noCell).channelsMove.respond
  | brRead c k => exact endsIn_check (refl _ s) fun hok => (ends_read noCell (bits hok)).channelsMove
  | brReadbit c => exact endsIn_check (refl _ s) fun _ => (ends_read noCell (by decide)).channelsMove
  | brAlign c => exact endsIn_check (refl _ s) fun _ => .setPort (.inl rfl) fun h h' => nomatch h.symm.trans h'
  | fqWr n sym f =>
    exact endsIn_withTable (refl _ s) fun tab => endsIn_check (refl _ s) fun _ => of_ports (setFreq_port s tab sym.toNat f)
  | pcBuild n =>
    refine endsIn_withTable (refl _ s) fun tab => ?_
    split
    · exact of_ports fun d => setTable_port s tab _ d
    · exact refl _ s
  | pcEncode c n sym =>
    exact endsIn_check (refl _ s) fun _ => endsIn_withTable (refl _ s) fun tab => endsIn_check (refl _ s) fun _ =>
      endsIn_check (refl _ s) fun _ => (ends_encode noCell hf tab _).channelsMove.respond
  | pcDecode c n =>
    exact endsIn_check (refl _ s) fun _ => endsIn_withTable (refl _ s) fun tab => endsIn_check (refl _ s) fun _ =>
      (ends_decode noCell tab).channelsMove.respond
  | pcQbits n sym | pcQlen n sym =>
    exact endsIn_withTable (refl _ s) fun _ => endsIn_check (refl _ s) fun _ => endsIn_check (refl _ s) fun _ => refl _ s
  | icCompress c src => exact endsIn_intraChecks (refl _ s) (ends_intraCompress noCell _ _ _ hf).channelsMove.respond
  | icDecompress c dst => exact endsIn_intraChecks (refl _ s) (ends_intraDecompress _ _ _ _).channelsMove.respond
  | xcCompress c src ref => exact endsIn_interChecks (refl _ s) (ends_interCompress noCell _ _ _ hf).channelsMove.respond
  | xcDecompress c dst ref => exact endsIn_interChecks (refl _ s) (ends_interDecompress _ _ _ _).channelsMove.respond
  | fsOpen c role => exact runFsOpen_channels role
  | fsAck c v => exact runFsAck_channels v
  | fsMsg c token => exact runFsMsg_channels token
  | fsSend c => exact runFsSend_channels hf
  | fsRecv c => exact runFsRecv_channels
  | fsClose c => exact endsIn_check (refl _ s) fun _ => .close _ c s
  | csrRd addr =>
    show (runCsrRd addr s).EndsIn _
    unfold runCsrRd
    split <;> exact refl _ s
  | csrWr addr value =>
    show (runCsrWr addr value s).EndsIn _
    unfold runCsrWr
    split
    · rename_i t ht
      obtain ⟨r, -, hw⟩ := Option.bind_eq_some_iff.mp ht
      exact of_ports (writeCsr_port hw)
    · exact refl _ s
  | pxWr b index pix => exact endsIn_check (refl _ s) fun _ => of_ports (setPixel_port s b.toNat index.toNat pix)
  | pxRd b index => exact endsIn_check (refl _ s) fun _ => refl _ s
  | reset => exact channelsMove_of_kept fun d => .inr (congrArg Port.chst (resetOf_port s.cfg (s.epoch + 1) d))
  | _ => trivial

/-- Settles O48: the body of the command moves the channels (`commandRun_channels`), and its end leaves the ports as they
are. -/
theorem channelsMoveForwardOrClose : Obligations.ChannelsMoveForwardOrClose := by
  intro i s t c hi h ht
  rw [exec_command hi] at ht
  obtain rfl := Host.Outcome.next.inj ht
  obtain ⟨u, hu, hport⟩ := (commandRun_channels h.inside.codesFit).complete (refl i s) i
  rw [hport]
  exact hu c

end Sys2Proof.Machine
end

section
/-! SUPPORT. `FS_SEND` (44_frame_sequencer.md rules R222, R228): its checks, the three frames, and the update of the
references. -/

namespace Sys2Proof.Machine

variable {c : PortNo} {s t : State} {k : Nat} {frame : Nat → List Bool}

/-! ### The planes of a triplet (44 R222) -/

/-- Legal dimensions leave every plane a pixel. -/
theorem planes_pos (h : tripletDims s = true) (k : Nat) : 0 < planeW s k * planeH s k := by
  obtain ⟨hw, hh, -⟩ := of_decide_eq_true h
  refine Nat.mul_pos ?_ ?_
  · unfold planeW
    split <;> omega
  · unfold planeH
    split <;> omega

/-! ### The update of the references (44 R228) -/

theorem updateReference_frame (c : PortNo) (k : Nat) (s : State) :
    updateReference c k s = { s with pix := (updateReference c k s).pix } := copyCells_frame _ _ _ _ s

theorem updateReference_pixel (c : PortNo) (k : Nat) (s : State) (b x : Nat) : (updateReference c k s).pixel b x =
    if b = refOf c k ∧ x < planeW s k * planeH s k then s.pixel k x else s.pixel b x := by
  have hcopy := copyCells_pixel (refBuffer c k) (curBuffer k) (planePixels s k) 0 s b x
  simp only [Nat.zero_le, true_and, Nat.zero_add] at hcopy
  exact hcopy

/-- The planes of the triplet are not among the references. -/
theorem refOf_ne (c : PortNo) {j k : Nat} (hj : j < 3) : j ≠ refOf c k := by
  unfold refOf
  omega

/-- The state after a triplet has gone out: the references updated, the channel in `INTER`. -/
def tripletSent (c : PortNo) (s : State) : State :=
  setChannelState c .inter (updateReference c 2 (updateReference c 1 (updateReference c 0 s)))

theorem tripletSent_frame (c : PortNo) (s : State) : tripletSent c s =
    { s.setPort c { s.port c with chst := .inter } with pix := (tripletSent c s).pix } := by
  unfold tripletSent setChannelState
  rw [updateReference_frame c 2, updateReference_frame c 1, updateReference_frame c 0]
  rfl

theorem tripletSent_pixel (c : PortNo) (s : State) (b x : Nat) : (tripletSent c s).pixel b x =
    if b = refOf c 0 ∧ x < planeW s 0 * planeH s 0 then s.pixel 0 x
    else if b = refOf c 1 ∧ x < planeW s 1 * planeH s 1 then s.pixel 1 x
    else if b = refOf c 2 ∧ x < planeW s 2 * planeH s 2 then s.pixel 2 x
    else s.pixel b x := by
  have hgrid : ∀ (u : State) (i j : Nat), planeW (updateReference c i u) j * planeH (updateReference c i u) j =
      planeW u j * planeH u j := fun u i j => by rw [updateReference_frame]; rfl
  have hsource : ∀ (u : State) (i : Nat) {j : Nat}, j < 3 → (updateReference c i u).pixel j x = u.pixel j x :=
    fun u i j hj => by rw [updateReference_pixel, if_neg fun h => refOf_ne c hj h.1]
  rw [tripletSent, setChannelState, setPort_pixel, updateReference_pixel, hsource _ _ (by decide), hsource _ _ (by decide), updateReference_pixel,
    hsource _ _ (by decide), updateReference_pixel]
  simp only [hgrid]
  have apart : ∀ {i j : Nat}, i ≠ j → b = refOf c i ∧ x < planeW s i * planeH s i →
      ¬ (b = refOf c j ∧ x < planeW s j * planeH s j) := fun hij hi hj => hij (refOf_injective (hi.1.symm.trans hj.1))
  by_cases h0 : b = refOf c 0 ∧ x < planeW s 0 * planeH s 0
  · rw [if_neg (apart (by decide) h0), if_neg (apart (by decide) h0), if_pos h0, if_pos h0]
  by_cases h1 : b = refOf c 1 ∧ x < planeW s 1 * planeH s 1
  · rw [if_neg (apart (by decide) h1), if_pos h1, if_neg h0, if_pos h1]
  · rw [if_neg h1, if_neg h0, if_neg h0, if_neg h1]

/-! ### The three frames (44 R228) -/

/-- The frame of each plane as channel `c` sends it: intra on the first cycle, inter later. -/
def SendsFrames (c : PortNo) (s : State) (frame : Nat → List Bool) : Prop :=
  ((s.port c).chst = .intra ∧ s.TableReady .intra ∧
      ∀ k, frame k = intraFrame (s.table .intra).contents (s.pixel k) (planeW s k) (planeH s k)) ∨
    ((s.port c).chst = .inter ∧ s.TableReady .inter ∧
      ∀ k, frame k = interFrame (s.table .inter).contents (s.pixel k) (s.pixel (refOf c k)) (planeW s k * planeH s k))

theorem SendsFrames.setPort {q : Port} (h : SendsFrames c s frame) (hq : q.chst = (s.port c).chst) :
    SendsFrames c (s.setPort c q) frame := by
  unfold SendsFrames State.TableReady
  rw [port_setPort_self, hq, setPort_table, setPort_table]
  exact h

theorem SendsFrames.streaming (h : SendsFrames c s frame) : (s.port c).chst = .intra ∨ (s.port c).chst = .inter :=
  h.imp And.left And.left

theorem sendPlane_intra (h : (s.port c).chst = .intra) (k : Nat) :
    sendPlane c k s = intraCompress c k (planeW s k) (planeH s k) s := if_pos h

theorem sendPlane_inter (h : (s.port c).chst = .inter) (k : Nat) :
    sendPlane c k s = interCompress c k (refOf c k) (planeW s k * planeH s k) s :=
  if_neg (by rw [h]; decide)

/-- From `p` to `q` frames went out: nothing of the port moved but the writer, now empty, and `TOUT`, now `out` in all. -/
structure Port.SentFrames (p q : Port) (out : List Bool) : Prop where
  same : q = { p with bwAcc := 0, bwN := 0, tout := q.tout }
  inv : q.Inv
  out : q.outBits = out
  kept : p.tout <+: q.tout

theorem Port.SentFrames.trans {p q r : Port} {out out' : List Bool} (h : p.SentFrames q out) (h' : q.SentFrames r out') :
    p.SentFrames r out' := ⟨by rw [h'.same, h.same], h'.inv, h'.out, h.kept.trans h'.kept⟩

/-- A plane on a working transport: its frame, padded to a word boundary. -/
theorem sendPlane_done (h : SendsFrames c s frame) (hp : (s.port c).Inv) (herr : (s.port c).toutErr = false)
    (hn : 0 < planeW s k * planeH s k) : ∃ q, sendPlane c k s = .done () (s.setPort c q) ∧
      (s.port c).SentFrames q (padToWord ((s.port c).outBits ++ frame k)) := by
  rcases h with ⟨hst, hready, hframe⟩ | ⟨hst, hready, hframe⟩
  · rw [sendPlane_intra hst, hframe]
    obtain ⟨q, hq, hsame, hi, hout, hkept⟩ := intraCompress_done hready hp herr hn
    exact ⟨q, hq, hsame, hi, hout, hkept⟩
  · rw [sendPlane_inter hst, hframe]
    obtain ⟨q, hq, hsame, hi, hout, hkept⟩ := interCompress_done hready hp herr
    exact ⟨q, hq, hsame, hi, hout, hkept⟩

/-- A plane on a failed transport kills the port. -/
theorem sendPlane_fails (h : SendsFrames c s frame) (hp : (s.port c).Inv) (herr : (s.port c).toutErr = true)
    (hn : 0 < planeW s k * planeH s k) : sendPlane c k s = .raise .transport (closeChannel c s) := by
  rcases h with ⟨hst, hready, -⟩ | ⟨hst, hready, -⟩
  · rw [sendPlane_intra hst, intraCompress_fails hready hp herr hn]
  · rw [sendPlane_inter hst, interCompress_fails hready hp herr hn]

/-- A plane after others, on a working transport. -/
theorem sendPlane_after {q : Port} {out : List Bool} (h : SendsFrames c s frame) (herr : (s.port c).toutErr = false)
    (hq : (s.port c).SentFrames q out) (hn : 0 < planeW s k * planeH s k) :
    ∃ r, sendPlane c k (s.setPort c q) = .done () (s.setPort c r) ∧
      (s.port c).SentFrames r (padToWord (out ++ frame k)) := by
  have hport := port_setPort_self s c q
  obtain ⟨r, hr, hsent⟩ := sendPlane_done (k := k) (h.setPort (q := q) (by rw [hq.same])) (hport.symm ▸ hq.inv)
    (by rw [hport, hq.same]; exact herr) hn
  rw [hport, hq.out] at hsent
  rw [setPort_setPort] at hr
  exact ⟨r, hr, hq.trans hsent⟩

/-- The three planes on a working transport. -/
theorem sendPlanes_done (h : SendsFrames c s frame) (hp : (s.port c).Inv) (herr : (s.port c).toutErr = false)
    (hn : ∀ k, 0 < planeW s k * planeH s k) : ∃ q, forPlanes (sendPlane c) s = .done () (s.setPort c q) ∧
      (s.port c).SentFrames q
        (padToWord (padToWord (padToWord ((s.port c).outBits ++ frame 0) ++ frame 1) ++ frame 2)) := by
  obtain ⟨q0, h0, hsent0⟩ := sendPlane_done h hp herr (hn 0)
  obtain ⟨q1, h1, hsent1⟩ := sendPlane_after h herr hsent0 (hn 1)
  obtain ⟨q2, h2, hsent2⟩ := sendPlane_after h herr hsent1 (hn 2)
  exact ⟨q2, by rw [forPlanes, h0, andThen_done, h1, andThen_done, h2], hsent2⟩

/-! ### The command -/

/-- What follows a check may rest on its success. -/
theorem check_guarded_of {ok : Bool} {e : Status} {checks : List (Bool × Status)} {r : Res Word} {k : State → Res Word}
    (h : ok = true → k s = guarded s checks r) : (check ok e s).andThen k = guarded s ((ok, e) :: checks) r := by
  cases ok with
  | true => exact h rfl
  | false => rfl

/-- The checks of `FS_SEND`: only a channel that streams has its table and its dimensions checked. -/
theorem runFsSend_guarded (s : State) (c : PortNo) : runFsSend c s = guarded s
    [(portExists s c, .badArg), ((s.port c).role == .encoder && (s.port c).chst != .closed, .badState),
      ((s.port c).chst == .start || streamTable s c, .noTable), ((s.port c).chst == .start || tripletDims s, .badDim)]
    (if (s.port c).chst = .start then .done 0 s else (forPlanes (sendPlane c) s).andThen fun u =>
      .done (wordCount (wordsEmitted c s u)) (tripletSent c u)) := by
  rw [show ((s.port c).chst != .closed) = decide ((s.port c).chst ≠ .closed) from decide_not.symm]
  refine check_guarded (check_guarded_of fun hok => ?_)
  by_cases hstart : (s.port c).chst = .start
  · have hfree : ∀ b : Bool, ((s.port c).chst == .start || b) = true := fun b => by rw [hstart]; rfl
    rw [hfree, hfree, if_pos hstart, if_pos hstart]
    rfl
  · have hbound : ∀ b : Bool, ((s.port c).chst == .start || b) = b := fun b => by simp [hstart]
    have hopen : (s.port c).chst ≠ .closed := of_decide_eq_true (Bool.and_eq_true_iff.mp hok).2
    rw [hbound, hbound, if_neg hstart, if_neg hstart, neededTableValid_eq (streaming_of_open hopen hstart), ← gridDimsOk_eq]
    exact check_guarded (check_guarded rfl)

/-- `FS_SEND` (44 R228). -/
theorem exec_fsSend (s : State) (c : PortNo) :
    (∀ e, firstFailure s (.fsSend c) = some e → Rejects (.fsSend c) s e) ∧
      (firstFailure s (.fsSend c) = none → exec (.fsSend c) s = .next (complete (.fsSend c) s
        (if (s.port c).chst = .start then .done 0 s else (forPlanes (sendPlane c) s).andThen fun u =>
          .done (wordCount (wordsEmitted c s u)) (tripletSent c u)))) :=
  exec_guarded (i := .fsSend c) rfl rfl (runFsSend_guarded s c)

/-- A streaming channel past the checks of `FS_SEND` sends planes that have a pixel each. -/
theorem planes_pos_of_send (hpass : firstFailure s (.fsSend c) = none) (hstart : (s.port c).chst ≠ .start) (k : Nat) :
    0 < planeW s k * planeH s k := by
  have hdims := check_of_pass (first := ((s.port c).chst == .start || tripletDims s, .badDim)) hpass (by simp)
  exact planes_pos (by simpa [hstart] using hdims) k

/-- Settles O39: in `START` nothing is sent; a streaming channel sends its three frames (`sendPlanes_done`) and updates its
references (`tripletSent_pixel`), or its first word cannot leave (`sendPlane_fails`). -/
theorem sendEmitsATriplet : Obligations.SendEmitsATriplet := by
  intro s c
  obtain ⟨hrej, hgo⟩ := exec_fsSend s c
  refine ⟨hrej, fun hpass hstart => ?_, fun frame hpass hp hframes => ?_⟩
  · have hexec := hgo hpass
    rw [if_pos hstart, complete_done] at hexec
    exact ⟨_, hexec, succeed_endsOk _ rfl, rfl⟩
  have hsends : SendsFrames c s frame := hframes
  have hstart : (s.port c).chst ≠ .start := fun h => by rcases hsends.streaming with h' | h' <;> cases h.symm.trans h'
  have hn := planes_pos_of_send hpass hstart
  have hexec := hgo hpass
  rw [if_neg hstart] at hexec
  refine ⟨fun herr => ?_, fun herr => ?_⟩
  · obtain ⟨q, hq, hsent⟩ := sendPlanes_done hsends hp herr hn
    rw [hq, andThen_done, complete_done, wordsEmitted, port_setPort_self] at hexec
    have hframe := tripletSent_frame c (s.setPort c q)
    rw [port_setPort_self, setPort_setPort] at hframe
    have hport := port_of_same hframe
    refine ⟨_, _, hexec, succeed_endsOk _ (by rw [hframe]; rfl), sameButPortPixels_succeed _ hframe, ?_⟩
    rw [succeed_port, hport]
    refine ⟨by rw [hsent.same], hsent.kept, counts_wordCount _, hsent.out, fun b x => ?_⟩
    rw [succeed_pixel, tripletSent_pixel]
    rfl
  · rw [forPlanes, sendPlane_fails hsends hp herr (hn 0), andThen_raise, andThen_raise] at hexec
    exact failsOutput_of hexec

end Sys2Proof.Machine
end

section
/-! SUPPORT. `FS_RECV` (44_frame_sequencer.md rules R222, R230, R232): its checks, and how what the planes come to ends the
command. -/

namespace Sys2Proof.Machine

variable {c : PortNo} {s t u : State} {k : Nat} {bits : List Bool}

/-! ### The command -/

/-- The three frames are the first three planes. -/
theorem forPlanes_recvPlane (c : PortNo) (s : State) : forPlanes (recvPlane c) s = recvPlanes c 3 s := by
  show _ = ((recvPlane c 0 s).andThen (recvPlane c 1)).andThen (recvPlane c 2)
  rw [andThen_andThen]
  rfl

/-- The checks of `FS_RECV`, which is for a streaming channel only. -/
theorem runFsRecv_guarded (s : State) (c : PortNo) : runFsRecv c s = guarded s
    [(portExists s c, .badArg), ((s.port c).role == .decoder && isStreaming s c, .badState), (streamTable s c, .noTable),
      (tripletDims s, .badDim)]
    ((forPlanes (recvPlane c) s).andThen fun u =>
      .done (wordCount (wordsConsumed c s u)) (setChannelState c .inter u)) := by
  refine check_guarded (check_guarded_of fun hok => ?_)
  have hstream : (s.port c).chst = .intra ∨ (s.port c).chst = .inter := by
    simpa [streaming] using (Bool.and_eq_true_iff.mp hok).2
  rw [neededTableValid_eq hstream, ← gridDimsOk_eq]
  exact check_guarded (check_guarded rfl)

/-- `FS_RECV` (44 R230). -/
theorem exec_fsRecv (s : State) (c : PortNo) :
    (∀ e, firstFailure s (.fsRecv c) = some e → Rejects (.fsRecv c) s e) ∧
      (firstFailure s (.fsRecv c) = none → exec (.fsRecv c) s = .next (complete (.fsRecv c) s
        ((forPlanes (recvPlane c) s).andThen fun u =>
          .done (wordCount (wordsConsumed c s u)) (setChannelState c .inter u)))) :=
  exec_guarded (i := .fsRecv c) rfl rfl (runFsRecv_guarded s c)

/-- Past its checks `FS_RECV` rebuilds planes that have a pixel each. -/
theorem planes_pos_of_recv (hpass : firstFailure s (.fsRecv c) = none) (k : Nat) : 0 < planeW s k * planeH s k :=
  planes_pos (check_of_pass (first := (tripletDims s, .badDim)) hpass (by simp)) k

/-! ### A triplet that ends -/

/-- A plane ends with the reader empty (40 R139). -/
theorem recvPlane_reader (h : recvPlane c k s = .done () u) : (u.port c).brAcc = 0 ∧ (u.port c).brN = 0 := by
  have aligned : ∀ {cu : Cursor}, cu.port = c → decompressFrame cu s = .done () u →
      (u.port c).brAcc = 0 ∧ (u.port c).brN = 0 := by
    rintro cu rfl hframe
    obtain ⟨_, v, -, hv⟩ := bind_eq_done hframe
    cases hv
    show ((align cu.port v).port cu.port).brAcc = 0 ∧ ((align cu.port v).port cu.port).brN = 0
    rw [align_eq, port_setPort_self]
    exact ⟨rfl, rfl⟩
  unfold recvPlane at h
  split at h
  · exact aligned rfl h
  · exact aligned rfl h

/-- The triplet has been received and `bits` stand after its last padding (44 R230). -/
theorem fsRecv_done (hpass : firstFailure s (.fsRecv c) = none) (hrun : recvPlanes c 3 s = .done () u)
    (m : Received c s u bits) : ∃ t data, exec (.fsRecv c) s = .next t ∧ EndsOk s t data ∧ SameButPortPixels c s t ∧
      t.port c = { s.port c with brAcc := 0, brN := 0, tin := (t.port c).tin, chst := .inter } ∧
      (t.port c).tin <:+ (s.port c).tin ∧ (t.port c).tin.flatMap wordBits = bits ∧
      Counts data ((s.port c).tin.length - (t.port c).tin.length) ∧ t.pixel = u.pixel := by
  obtain ⟨-, hgo⟩ := exec_fsRecv s c
  have hexec := hgo hpass
  obtain ⟨_, v, -, hlast⟩ := bind_eq_done hrun
  obtain ⟨hacc, hn⟩ := recvPlane_reader hlast
  rw [forPlanes_recvPlane, hrun, andThen_done, complete_done] at hexec
  have hsame : setChannelState c .inter u = { s.setPort c { u.port c with chst := .inter } with
      pix := u.pix, cursor := u.cursor } := m.trans (u := setChannelState c .inter u) rfl
  have hport : (setChannelState c .inter u).port c = { u.port c with chst := .inter } := port_of_same hsame
  have hbits := m.bits
  rw [Port.inBits_of_empty hn] at hbits
  refine ⟨_, _, hexec, succeed_endsOk _ (by rw [hsame]; rfl), sameButPortPixels_succeed _ hsame, ?_⟩
  rw [succeed_port, hport]
  refine ⟨?_, m.input, hbits, counts_wordCount _, rfl⟩
  rw [← hacc, ← hn, m.port]

/-- The bits at hand where plane `k` begins: what `align` leaves after the plane before it (44 R230). -/
def planeInput (first : List Bool) (rest : Nat → List Bool) : Nat → List Bool
  | 0 => first
  | k + 1 => afterAlign (rest k)

theorem planeInput_eq {first : List Bool} {frame rest : Nat → List Bool} (h0 : first = frame 0 ++ rest 0)
    (h1 : afterAlign (rest 0) = frame 1 ++ rest 1) (h2 : afterAlign (rest 1) = frame 2 ++ rest 2) {k : Nat} (hk : k < 3) :
    planeInput first rest k = frame k ++ rest k := by
  match k, hk with
  | 0, _ => exact h0
  | 1, _ => exact h1
  | 2, _ => exact h2

/-- The cells of a list of pixels and those outside it. -/
theorem getD_getElem?_cases {l : List Pixel} {n x : Nat} {v w : Pixel} (hlen : l.length = n) (hv : v = l[x]?.getD w) :
    (x < n → some v = l[x]?) ∧ (¬ x < n → v = w) := by
  subst hlen hv
  refine ⟨fun hx => ?_, fun hx => ?_⟩
  · rw [List.getElem?_eq_getElem hx, Option.getD_some]
  · rw [List.getElem?_eq_none (Nat.le_of_not_lt hx), Option.getD_none]

/-- Settles O40: the three planes are rebuilt (`recvPlanes_intra`, `recvPlanes_inter`), and the command ends behind the
padding of the third (`fsRecv_done`). -/
theorem receiveRebuildsATriplet : Obligations.ReceiveRebuildsATriplet := by
  intro s c
  refine ⟨(exec_fsRecv s c).1, fun raw items frame rest hpass hp h0 h1 h2 hframes => ?_⟩
  have hinput := fun {k : Nat} (hk : k < 3) => planeInput_eq h0 h1 h2 hk
  rcases hframes with ⟨hst, hready, hframe⟩ | ⟨hst, hready, hframe⟩
  · obtain ⟨u, hrun, m, hdone, hold⟩ := recvPlanes_intra (k := 3) (raw := raw) (items := items) (rest := rest)
      (input := planeInput (s.port c).inBits rest) hst hready hp rfl fun j hj => by
        obtain ⟨hok, hcount, hbits⟩ := hframe j hj
        exact ⟨hok, hcount, hbits ▸ hinput hj, rfl⟩
    obtain ⟨t, data, hexec, hends, hsame, hport, hsuffix, hbits, hcount, hpix⟩ := fsRecv_done hpass hrun m
    refine ⟨t, data, hexec, hends, hsame, hport, hsuffix, hbits, hcount, fun k hk => ⟨fun _ => ?_, fun hinter => ?_⟩,
      hpix ▸ hold⟩
    · exact hpix ▸ hdone k hk
    · cases hst.symm.trans hinter
  · obtain ⟨u, hrun, m, hdone, hold⟩ := recvPlanes_inter (k := 3) (items := items) (rest := rest)
      (input := planeInput (s.port c).inBits rest) (rebuilt := fun j => interRebuilt (s.pixel (refOf c j)) 0 (items j))
      hst hready hp rfl (fun _ => rfl) (planes_pos_of_recv hpass) fun j hj => by
        obtain ⟨hok, hcount, hbits⟩ := hframe j hj
        exact ⟨hok, hcount, hbits ▸ hinput hj, rfl⟩
    obtain ⟨t, data, hexec, hends, hsame, hport, hsuffix, hbits, hcount, hpix⟩ := fsRecv_done hpass hrun m
    have hcells : ∀ k x, k < 3 → _ := fun k x hk => getD_getElem?_cases (hframe k hk).2.1 (hdone k x hk)
    refine ⟨t, data, hexec, hends, hsame, hport, hsuffix, hbits, hcount, fun k hk => ⟨fun hintra => ?_, fun _ x hx => ?_⟩,
      fun b x hout => ?_⟩
    · cases hst.symm.trans hintra
    · rw [hpix]
      exact (hcells k x hk).1 hx
    · rw [hpix]
      by_cases hb : ∃ k, k < 3 ∧ b = refOf c k
      · obtain ⟨k, hk, rfl⟩ := hb
        exact (hcells k x hk).2 fun hx => hout k hk ⟨rfl, hx⟩
      · exact hold b x fun k hk he => hb ⟨k, hk, he⟩

/-! ### A triplet that does not end -/

/-- Plane `k` met the end of the input: `FS_RECV` closes its channel with every word consumed, or it waits. -/
theorem fsRecv_stops {v : State} (hpass : firstFailure s (.fsRecv c) = none) (hk : k < 3) (hrun : recvPlanes c k s = .done () t)
    (m : Received c s t bits) (hplane : recvPlane c k t = if (t.port c).tinEos then .raise .transport v else .hold)
    (hv : v = { t.setPort c (closedPort { t.port c with tin := [] }) with pix := v.pix, cursor := v.cursor }) :
    ∃ u, exec (.fsRecv c) s = .next u ∧
      ((s.port c).tinEos = true → ReceiveFails c s u .transport [] ∧ u.pixel = v.pixel) ∧
      ((s.port c).tinEos ≠ true → Waits (.fsRecv c) s u) := by
  obtain ⟨-, hgo⟩ := exec_fsRecv s c
  have hexec := hgo hpass
  have hclosed : closedPort { t.port c with tin := [] } = closedPort { s.port c with tin := [] } := by rw [m.port]; rfl
  rw [m.tinEos] at hplane
  rw [forPlanes_ends hk hrun hplane (by intro u; split <;> simp)] at hexec
  obtain ⟨u, hu, hended, hwaits⟩ := ends_at_endOfInput hexec (hclosed ▸ m.trans hv)
  refine ⟨u, hu, fun heos => ?_, hwaits⟩
  obtain ⟨hwith, hsame, hdead, hpix⟩ := hended heos
  exact ⟨⟨hwith, hsame, hdead⟩, hpix⟩

/-- Settles O59: the planes before plane `k` are rebuilt (`recvPlanes_intra`), and plane `k` stops where its input does
(`intraDecompress_stops`). -/
theorem firstTripletStopsWhereTheInputStops : Obligations.FirstTripletStopsWhereTheInputStops := by
  intro s c k raw items input rest got hpass hp hst hready hk hin hplanes hstop
  obtain ⟨t, hrun, m, hdone, hold⟩ := recvPlanes_intra hst hready hp hin hplanes
  rw [← m.bits, ← m.table] at hstop
  obtain ⟨v, hplane, hv, hstarts, hothers⟩ := intraDecompress_stops opFsRecv (b := refOf c k) (m.tableReady hready) m.inv
    (planes_pos_of_recv hpass k) hstop
  obtain ⟨u, hexec, hended, hwaits⟩ := fsRecv_stops hpass hk hrun m ((m.recvPlane_intra hst k).trans hplane) hv
  refine ⟨u, hexec, ?_⟩
  split_ifs with heos
  · obtain ⟨hfails, hpix⟩ := hended heos
    rw [hpix]
    refine ⟨hfails, fun j hj => ?_, ?_, fun b x hb hout => ?_⟩
    · have hne : refOf c j ≠ refOf c k := fun he => Nat.ne_of_lt hj (refOf_injective he)
      exact (hdone j hj).congr fun x _ => hothers _ x hne
    · have hbefore : t.pixel (refOf c k) = s.pixel (refOf c k) :=
        funext fun x => hold _ x fun j hj h => Nat.ne_of_gt hj (refOf_injective h.1)
      exact hbefore ▸ hstarts
    · rw [hothers b x hb, hold b x hout]
  · exact hwaits heos

/-- Plane `k` met a run that passes its end: `FS_RECV` closes its channel, and `TIN[c]` keeps the words behind the run. -/
theorem fsRecv_overruns {v : State} {q : Port} {n : Nat} {left : List Bool} (hpass : firstFailure s (.fsRecv c) = none)
    (hk : k < 3) (hrun : recvPlanes c k s = .done () t) (m : Received c s t bits)
    (hplane : recvPlane c k t = .raise .runOverrun v)
    (hv : v = { t.setPort c (closedPort q) with pix := v.pix, cursor := v.cursor })
    (hq : (t.port c).Consumes q n) (hn : 0 < n) (hlen : n ≤ (t.port c).inBits.length) (hleft : q.inBits = left) :
    ∃ u words, exec (.fsRecv c) s = .next u ∧ ReceiveFails c s u .runOverrun words ∧ words <:+ (s.port c).tin ∧
      words.flatMap wordBits = afterAlign left ∧ u.pixel = v.pixel := by
  obtain ⟨-, hgo⟩ := exec_fsRecv s c
  have hexec := hgo hpass
  rw [forPlanes_ends hk hrun hplane (by simp), andThen_raise, complete_raise] at hexec
  have hsame := m.trans hv
  refine ⟨_, q.tin, hexec, ⟨takeError_endsWith _ _ v, sameButPortPixels_takeError _ _ hsame, ?_⟩, ?_, ?_,
    funext fun b => funext fun x => takeError_pixel v _ _ b x⟩
  · rw [takeError_port, port_of_same hsame, hq.same, m.port]
    rfl
  · rw [hq.lazy]
    exact (List.drop_suffix _ _).trans m.input
  · have htake : ((t.port c).inBits.take n).length = n := List.length_take_of_le hlen
    have hne : (t.port c).inBits.take n ≠ [] := List.ne_nil_of_length_pos (htake.symm ▸ hn)
    have hdrop : left = (t.port c).inBits.drop n := hleft.symm.trans hq.bits
    have halign := tin_afterAlign m.inv (List.take_append_drop n _).symm hne
    rw [htake, ← hq.lazy, ← hdrop] at halign
    exact halign

/-- The planes before plane `k` are rebuilt, and so are the pixels of plane `k` that its items reached, all in place. -/
theorem rebuilt_upTo {v : State} {items : Nat → List Instr} {rebuilt : Nat → List Pixel}
    (hr : ∀ j, rebuilt j = interRebuilt (s.pixel (refOf c j)) 0 (items j))
    (hdone : ∀ j x, j < k → t.pixel (refOf c j) x = (rebuilt j)[x]?.getD (s.pixel (refOf c j) x))
    (hold : ∀ b x, (∀ j, j < k → b ≠ refOf c j) → t.pixel b x = s.pixel b x)
    (hv : ∀ b x, v.pixel b x = if b = refOf c k then
      ((interRebuilt (s.pixel (refOf c k)) 0 (items k))[x]?).getD (t.pixel b x) else t.pixel b x) :
    (∀ j x, j ≤ k → v.pixel (refOf c j) x = (rebuilt j)[x]?.getD (s.pixel (refOf c j) x)) ∧
      ∀ b x, (∀ j, j ≤ k → b ≠ refOf c j) → v.pixel b x = s.pixel b x := by
  have hother : ∀ {j}, j < k → refOf c j ≠ refOf c k := fun hj he => Nat.ne_of_lt hj (refOf_injective he)
  refine ⟨fun j x hj => ?_, fun b x hb => ?_⟩
  · rcases Nat.lt_or_eq_of_le hj with hlt | rfl
    · rw [hv, if_neg (hother hlt), hdone j x hlt]
    · rw [hv, if_pos rfl, ← hr, hold _ x fun i hi => (hother hi).symm]
  · rw [hv, if_neg (hb k (Nat.le_refl k)), hold b x fun j hj => hb j (Nat.le_of_lt hj)]

/-- Settles O60: the planes before plane `k` are rebuilt (`recvPlanes_inter`), and plane `k` stops where its input does
(`interDecompress_stops`) or at a run past its end (`interDecompress_overruns`). -/
theorem laterTripletStopsWhereItFails : Obligations.LaterTripletStopsWhereItFails := by
  intro s c k items input rest rebuilt hpass hp hst hready hk hin hr hplanes
  obtain ⟨t, hrun, m, hdone, hold⟩ := recvPlanes_inter hst hready hp hin hr (planes_pos_of_recv hpass) hplanes
  have hbefore : t.pixel (refOf c k) = s.pixel (refOf c k) :=
    funext fun x => hold _ x fun j hj he => Nat.ne_of_gt hj (refOf_injective he)
  refine ⟨fun hstop => ?_, fun left hover => ?_⟩
  · rw [← m.bits, ← m.table, ← hbefore] at hstop
    obtain ⟨v, hplane, hv, hpix⟩ := interDecompress_stops opFsRecv (b := refOf c k) (m.tableReady hready) m.inv hstop
    obtain ⟨u, hexec, hended, hwaits⟩ := fsRecv_stops hpass hk hrun m ((m.recvPlane_inter hst k).trans hplane) hv
    refine ⟨u, hexec, ?_⟩
    split_ifs with heos
    · obtain ⟨hfails, hsame⟩ := hended heos
      rw [hbefore] at hpix
      exact ⟨hfails, hsame ▸ rebuilt_upTo hr hdone hold hpix⟩
    · exact hwaits heos
  · rw [← m.bits, ← m.table, ← hbefore] at hover
    obtain ⟨q, v, hplane, hv, ⟨n, hn, hq, hlen⟩, hleft, -, hpix⟩ :=
      interDecompress_overruns opFsRecv (b := refOf c k) (m.tableReady hready) m.inv hover
    rw [if_pos rfl] at hv
    obtain ⟨u, words, hexec, hfails, hsuffix, hwords, hsame⟩ :=
      fsRecv_overruns hpass hk hrun m ((m.recvPlane_inter hst k).trans hplane) hv hq hn (by omega) hleft
    rw [hbefore] at hpix
    exact ⟨u, words, hexec, hfails, hsuffix, hwords, hsame ▸ rebuilt_upTo hr hdone hold hpix⟩

end Sys2Proof.Machine
end

section
/-! SUPPORT. One cycle of sending and receiving (44_frame_sequencer.md rule R230, 20_memory.md rule R78): the words of three
padded frames, read back frame by frame. -/

namespace Sys2Proof.Machine

variable {c c' : PortNo} {s s' t : State} {k : Nat} {frame : Nat → List Bool}

/-! ### Padding and alignment (20 R65, 40 R139) -/

/-- The zeros after a frame. -/
def padding (bits : List Bool) : List Bool := List.replicate ((32 - bits.length % 32) % 32) false

theorem padToWord_eq (bits : List Bool) : padToWord bits = bits ++ padding bits := rfl

theorem length_padToWord (bits : List Bool) : (padToWord bits).length % 32 = 0 := by
  rw [padToWord, List.length_append, List.length_replicate]
  omega

/-- `align` skips the padding of a frame that whole words follow. -/
theorem afterAlign_padding (bits : List Bool) {whole : List Bool} (h : whole.length % 32 = 0) :
    afterAlign (padding bits ++ whole) = whole := by
  have hlen : (padding bits ++ whole).length % 32 = (padding bits).length := by
    rw [List.length_append, padding, List.length_replicate]
    omega
  rw [afterAlign, hlen]
  exact List.drop_left

/-! ### The words of a triplet -/

/-- Three padded frames. -/
def tripletBits (frame : Nat → List Bool) : List Bool := padToWord (frame 0) ++ (padToWord (frame 1) ++ padToWord (frame 2))

/-- What follows the frame of plane `k` in three padded frames and `last`. -/
def tripletRest (frame : Nat → List Bool) (last : List Bool) : Nat → List Bool
  | 0 => padding (frame 0) ++ (padToWord (frame 1) ++ (padToWord (frame 2) ++ last))
  | 1 => padding (frame 1) ++ (padToWord (frame 2) ++ last)
  | _ => padding (frame 2) ++ last

theorem tripletBits_eq (frame : Nat → List Bool) (last : List Bool) :
    tripletBits frame ++ last = frame 0 ++ tripletRest frame last 0 := by
  simp only [tripletBits, tripletRest, padToWord_eq, List.append_assoc]

/-- Between the frames of a triplet `align` skips their padding. -/
theorem tripletRest_aligned (frame : Nat → List Bool) {last : List Bool} (h : last.length % 32 = 0) :
    afterAlign (tripletRest frame last 0) = frame 1 ++ tripletRest frame last 1 ∧
      afterAlign (tripletRest frame last 1) = frame 2 ++ tripletRest frame last 2 ∧
      afterAlign (tripletRest frame last 2) = last := by
  have h1 := length_padToWord (frame 1)
  have h2 := length_padToWord (frame 2)
  refine ⟨?_, ?_, afterAlign_padding _ h⟩
  · rw [tripletRest, afterAlign_padding _ (by simp only [List.length_append]; omega), padToWord_eq (frame 1), List.append_assoc]
    rfl
  · rw [tripletRest, afterAlign_padding _ (by simp only [List.length_append]; omega), padToWord_eq (frame 2), List.append_assoc]
    rfl

/-- Three frames sent behind whole words. -/
theorem padToWord_triplet (frame : Nat → List Bool) {out : List Bool} (h : out.length % 32 = 0) :
    padToWord (padToWord (padToWord (out ++ frame 0) ++ frame 1) ++ frame 2) = out ++ tripletBits frame := by
  have h0 := length_padToWord (frame 0)
  have h1 := length_padToWord (frame 1)
  have hout0 : (out ++ padToWord (frame 0)).length % 32 = 0 := by rw [List.length_append]; omega
  have hout1 : (out ++ padToWord (frame 0) ++ padToWord (frame 1)).length % 32 = 0 := by rw [List.length_append]; omega
  rw [padToWord_append _ h, padToWord_append _ hout0, padToWord_append _ hout1, tripletBits, List.append_assoc,
    List.append_assoc]

/-- The words emitted from an empty writer to an empty writer carry the three padded frames. -/
theorem words_of_triplet {p q : Port} {words : List Word} (hp : p.bwN = 0) (hq : q.bwN = 0)
    (hout : q.outBits = padToWord (padToWord (padToWord (p.outBits ++ frame 0) ++ frame 1) ++ frame 2))
    (hwords : q.tout = p.tout ++ words) : words.flatMap wordBits = tripletBits frame := by
  have hwhole : p.outBits.length % 32 = 0 := by rw [length_outBits, hp]; omega
  rw [padToWord_triplet frame hwhole, Port.outBits_of_empty hp, Port.outBits_of_empty hq, hwords, List.flatMap_append] at hout
  exact List.append_cancel_left hout

/-- What is left of a transport is the words that its bits are. -/
theorem tin_of_suffix {tin words rest : List Word} (hsuffix : tin <:+ words ++ rest)
    (hbits : tin.flatMap wordBits = rest.flatMap wordBits) : tin = rest := by
  have hlen := congrArg List.length hbits
  rw [length_flatMap_wordBits, length_flatMap_wordBits] at hlen
  have hrest : rest <:+ words ++ rest := List.suffix_append _ _
  exact (List.suffix_of_suffix_length_le hsuffix hrest (by omega)).eq_of_length (by omega)

/-! ### The grids of a triplet -/

/-- The items of an intra frame rebuild one grid. -/
theorem IntraRebuilds.unique {f g : Nat → Pixel} {w h : Nat} {raw : Pixel} {items : List Instr}
    (hok : ∀ item ∈ items, isIntraItem item = true) (hf : IntraRebuilds f w h raw items) (hg : IntraRebuilds g w h raw items)
    {x : Nat} (hx : x < w * h) : f x = g x := by
  have hw : 0 < w := Nat.pos_of_ne_zero (by rintro rfl; simp at hx)
  obtain ⟨q, hq, rfl⟩ := exists_scanCell hx
  induction q using Nat.strong_induction_on with
  | _ q ih =>
    rcases Nat.eq_zero_or_pos q with rfl | hpos
    · rw [scanCell_zero, hf.first, hg.first]
    · rw [(hf.step hok hpos hq).2, (hg.step hok hpos hq).2,
        predictAt_congr hw hpos fun j hj => ih j hj (by omega) (scanCell_lt (by omega))]

/-- After a triplet has gone out the references are the planes that were sent (44 R228). -/
theorem reference_of_sent (hpix : ∀ b x, t.pixel b x =
      if b = refOf c 0 ∧ x < planeW s 0 * planeH s 0 then s.pixel 0 x
      else if b = refOf c 1 ∧ x < planeW s 1 * planeH s 1 then s.pixel 1 x
      else if b = refOf c 2 ∧ x < planeW s 2 * planeH s 2 then s.pixel 2 x
      else s.pixel b x) {x : Nat} (hk : k < 3) (hx : x < planeW s k * planeH s k) : t.pixel (refOf c k) x = s.pixel k x := by
  have apart : ∀ {i j : Nat} {P : Prop}, i ≠ j → ¬ (refOf c i = refOf c j ∧ P) := fun hij h => hij (refOf_injective h.1)
  match k, hk with
  | 0, _ => rw [hpix, if_pos ⟨rfl, hx⟩]
  | 1, _ => rw [hpix, if_neg (apart (by decide)), if_pos ⟨rfl, hx⟩]
  | 2, _ => rw [hpix, if_neg (apart (by decide)), if_neg (apart (by decide)), if_pos ⟨rfl, hx⟩]

/-- The frames of a triplet that channel `c` receives, of any items (44 R230). -/
def ReceivesFrames (c : PortNo) (s : State) (frame : Nat → List Bool) (raw : Nat → Pixel) (items : Nat → List Instr) : Prop :=
  ((s.port c).chst = .intra ∧ s.TableReady .intra ∧ ∀ k, k < 3 →
      (∀ item ∈ items k, isIntraItem item = true) ∧ (items k).length + 1 = planeW s k * planeH s k ∧
      frame k = intraBits (s.table .intra).contents (raw k) (items k)) ∨
    ((s.port c).chst = .inter ∧ s.TableReady .inter ∧ ∀ k, k < 3 →
      (∀ item ∈ items k, isInterItem item = true) ∧
      (interRebuilt (s.pixel (refOf c k)) 0 (items k)).length = planeW s k * planeH s k ∧
      frame k = itemsBits (s.table .inter).contents (items k))

/-- Plane `k` is what channel `c` rebuilds from the items of its frame (44 R230). -/
def RebuildsPlane (c : PortNo) (s : State) (raw : Nat → Pixel) (items : Nat → List Instr) (k : Nat) (g : Nat → Pixel) : Prop :=
  ((s.port c).chst = .intra → IntraRebuilds g (planeW s k) (planeH s k) (raw k) (items k)) ∧
    ((s.port c).chst = .inter → ∀ x, x < planeW s k * planeH s k →
      some (g x) = (interRebuilt (s.pixel (refOf c k)) 0 (items k))[x]?)

/-- What channel `c` in `s` sends, channel `c'` in `s'` receives, and what it rebuilds are the planes that were sent. -/
structure Carries (c c' : PortNo) (s s' : State) (frame : Nat → List Bool) (raw : Nat → Pixel) (items : Nat → List Instr) :
    Prop where
  sends : SendsFrames c s frame
  receives : ReceivesFrames c' s' frame raw items
  rebuilds : ∀ k g x, k < 3 → RebuildsPlane c' s' raw items k g → x < planeW s k * planeH s k → g x = s.pixel k x

theorem planeW_congr (h : s'.gridW = s.gridW) : planeW s' k = planeW s k := by
  rw [planeW, h]
  rfl

theorem planeH_congr (h : s'.gridH = s.gridH) : planeH s' k = planeH s k := by
  rw [planeH, h]
  rfl

theorem State.TableReady.congr {tab : TableId} (hready : s.TableReady tab) (h : s'.table tab = s.table tab) :
    s'.TableReady tab := by
  unfold State.TableReady
  rw [h]
  exact hready

section Cycle
variable (hst : (s'.port c').chst = (s.port c).chst) (hw : s'.gridW = s.gridW) (hh : s'.gridH = s.gridH)
  (htab : ∀ tab, s'.table tab = s.table tab)
include hst hw hh htab

/-- The first cycle: the items of each grid rebuild it (`intraItems_rebuild`). -/
theorem carries_intra (hn : ∀ k, 0 < planeW s k * planeH s k) (hintra : (s.port c).chst = .intra)
    (hready : s.TableReady .intra) : ∃ frame raw items, Carries c c' s s' frame raw items := by
  have hrebuild := fun k => intraItems_rebuild (s.pixel k) (hn k)
  refine ⟨fun k => intraFrame (s.table .intra).contents (s.pixel k) (planeW s k) (planeH s k), fun k => s.pixel k 0,
    fun k => intraItems (s.pixel k) (planeW s k) (planeH s k), .inl ⟨hintra, hready, fun _ => rfl⟩,
    .inl ⟨hst.trans hintra, hready.congr (htab _), fun k _ => ?_⟩, fun k g x _ hg hx => ?_⟩
  · rw [planeW_congr hw, planeH_congr hh, htab]
    exact ⟨(hrebuild k).2, (hrebuild k).1.count, rfl⟩
  · have hthere := hg.1 (hst.trans hintra)
    rw [planeW_congr hw, planeH_congr hh] at hthere
    exact hthere.unique (hrebuild k).2 (hrebuild k).1 hx

/-- A later cycle: the items of the deltas rebuild the grid from an equal reference (`interRebuilt_deltas`). -/
theorem carries_inter (hinter : (s.port c).chst = .inter) (hready : s.TableReady .inter)
    (href : ∀ k x, k < 3 → x < planeW s k * planeH s k → s'.pixel (refOf c' k) x = s.pixel (refOf c k) x) :
    ∃ frame raw items, Carries c c' s s' frame raw items := by
  have hrebuilt : ∀ k, k < 3 → interRebuilt (s'.pixel (refOf c' k)) 0
      (interItems 0 (deltas (s.pixel k) (s.pixel (refOf c k)) (planeW s k * planeH s k))) =
        (List.range (planeW s k * planeH s k)).map (s.pixel k) := fun k hk => by
    rw [← deltas_congr (s.pixel k) (href k · hk), interRebuilt_deltas]
  refine ⟨fun k => interFrame (s.table .inter).contents (s.pixel k) (s.pixel (refOf c k)) (planeW s k * planeH s k),
    fun _ => 0, fun k => interItems 0 (deltas (s.pixel k) (s.pixel (refOf c k)) (planeW s k * planeH s k)),
    .inr ⟨hinter, hready, fun _ => rfl⟩,
    .inr ⟨hst.trans hinter, hready.congr (htab _), fun k hk => ⟨interItems_ok (by decide) _, ?_, ?_⟩⟩,
    fun k g x hk hg hx => ?_⟩
  · rw [hrebuilt k hk, List.length_map, List.length_range, planeW_congr hw, planeH_congr hh]
  · rw [htab]
    rfl
  · have hcell := hg.2 (hst.trans hinter) x (by rw [planeW_congr hw, planeH_congr hh]; exact hx)
    rw [hrebuilt k hk, List.getElem?_map, List.getElem?_range hx] at hcell
    exact Option.some.inj hcell

end Cycle

/-- Settles O42: the words carry three padded frames (`sendEmitsATriplet`, `words_of_triplet`), which the other channel
receives frame by frame (`tripletRest_aligned`, `receiveRebuildsATriplet`). -/
theorem tripletRoundTrip : Obligations.TripletRoundTrip := by
  intro s t s' c c' data words rest hp hempty hready hexec hends htout hp' hempty' htin hst hw hh htab href hpass'
  obtain ⟨hrej, -, hsend⟩ := sendEmitsATriplet s c
  have hpass := pass_of_endsOk rfl (by simp) hrej hexec hends
  have hstart : (s.port c).chst ≠ .start := fun h => by rcases hready with ⟨h', -⟩ | ⟨h', -⟩ <;> cases h.symm.trans h'
  obtain ⟨frame, raw, items, hcarries⟩ : ∃ frame raw items, Carries c c' s s' frame raw items := by
    rcases hready with ⟨hintra, hready⟩ | ⟨hinter, hready⟩
    · exact carries_intra hst hw hh htab (planes_pos_of_send hpass hstart) hintra hready
    · exact carries_inter hst hw hh htab hinter hready (href hinter)
  obtain ⟨hworks, hfails⟩ := hsend frame hpass hp hcarries.sends
  obtain ⟨t₀, -, hexec₀, -, -, hport, -, -, hout, hpix⟩ := hworks (working_of_endsOk hfails hexec hends)
  obtain rfl := Host.Outcome.next.inj (hexec.symm.trans hexec₀)
  have hwords := words_of_triplet hempty (congrArg Port.bwN hport) hout htout
  have hlast : (rest.flatMap wordBits).length % 32 = 0 := by rw [length_flatMap_wordBits]; omega
  obtain ⟨h1, h2, h3⟩ := tripletRest_aligned frame hlast
  have h0 : (s'.port c').inBits = frame 0 ++ tripletRest frame (rest.flatMap wordBits) 0 := by
    rw [Port.inBits_of_empty hempty', htin, List.flatMap_append, hwords, tripletBits_eq]
  obtain ⟨-, hrecv⟩ := receiveRebuildsATriplet s' c'
  obtain ⟨t', data', hexec', hends', -, hport', hsuffix, hbits, -, hplanes, -⟩ :=
    hrecv raw items frame _ hpass' hp' h0 h1 h2 hcarries.receives
  refine ⟨t', data', hexec', hends', tin_of_suffix (htin ▸ hsuffix) (hbits.trans h3), congrArg Port.brN hport',
    congrArg Port.bwN hport, congrArg Port.chst hport', congrArg Port.chst hport, fun k x hk hx => ⟨?_, ?_⟩⟩
  · exact hcarries.rebuilds k _ x hk (hplanes k hk) hx
  · exact reference_of_sent hpix hk hx

end Sys2Proof.Machine
end

section
/-! SUPPORT. The system commands (45_system.md rules R250 to R257): the register at each address, the one pixel that
`PX_WR` and `PX_RD` reach, and reset. -/

namespace Sys2Proof.Machine

variable {s : State} {i : Instr} {addr : BitVec 16} {value : Word} {b : BitVec 8} {index : Word}

/-! ### The words of a command without operands (45 R250, R257) -/

/-- No other command has the opcode byte of `NOP` (30 R92). -/
theorem eq_nop_of_opcodeOf {j : Instr} (hj : j.isCommand = true) (hop : opcodeOf j = 0) : j = .nop := by
  cases j with
  | nop => rfl
  | direct0 _ | esc0 _ | direct1 _ | esc1 _ | run _ => cases hj
  | _ => simp [opcodeOf, fieldsOf] at hop

/-- No other command has the opcode byte of `RESET` (30 R92). -/
theorem eq_reset_of_opcodeOf {j : Instr} (hop : opcodeOf j = 0x7F) : j = .reset := by
  cases j with
  | reset => rfl
  | _ => simp [opcodeOf, fieldsOf] at hop

/-- Where one command alone has its opcode byte and a word of its own, every other word with that byte is illegal
(30 R93 (b)). -/
theorem issue_otherWord {w own : CmdWord} (s : State) (hown : encode i = some own)
    (honly : ∀ j : Instr, j.isCommand = true → opcodeOf j = opcodeOf i → j = i) (hop : opcodeOfWord w = opcodeOf i)
    (hne : w ≠ own) : ∃ t, issue w s = .next t ∧ EndsWith (opcodeOf i) .badCmd t ∧ SameState s t := by
  rw [← hop]
  refine issue_illegal s ?_
  cases hw : decode w with
  | none => rfl
  | some j =>
    obtain ⟨hencode, hj, hopj⟩ := commandWordsRoundTrip.2 w j hw
    obtain rfl := honly j hj (hopj.trans hop)
    exact absurd (Option.some.inj (hencode.symm.trans hown)) hne

/-- Settles O1: `NOP` succeeds in the state it was issued in, and its word is the only one with opcode byte 0. -/
theorem nopDoesNothing : Obligations.NopDoesNothing :=
  ⟨by decide, fun _ => ⟨_, exec_command rfl _, succeed_endsOk 0 rfl, rfl⟩,
    fun _ s hop hne => issue_otherWord (i := .nop) s (by decide) (fun _ => eq_nop_of_opcodeOf) hop hne⟩

/-! ### Reading a control register (45 R251, R252) -/

theorem csrAt_high (h : 10 ≤ addr.toNat) :
    csrAt s addr = ((portCsr s .chstat 0x10 addr.toNat).or (portCsr s .bwacc 0x20 addr.toNat)).or
      (portCsr s .bracc 0x30 addr.toNat) := by
  rcases csrAt_cases s addr with ⟨k, rfl⟩ | ⟨-, hat⟩
  · have hk := k.isLt
    rw [BitVec.toNat_ofNat, Nat.mod_eq_of_lt (by omega)] at h
    omega
  · exact hat

theorem portCsr_at {make : PortNo → Csr} {base x : Nat} (hx : x < s.cfg.nCh) (hn : s.cfg.nCh ≤ 16) :
    portCsr s make base (base + x) = some (make (BitVec.ofNat 4 x)) := by
  rw [portCsr, if_pos (by omega), Nat.add_sub_cancel_left]

theorem portCsr_below {make : PortNo → Csr} {base a : Nat} (h : a < base) : portCsr s make base a = none :=
  if_neg (by omega)

theorem portCsr_above {make : PortNo → Csr} {base a : Nat} (h : base + 16 ≤ a) : portCsr s make base a = none :=
  if_neg (by omega)

/-- Each row of the table of registers is the register at its address, with the value that is read there. -/
theorem csrAt_of_row {v : Word} (hn : s.cfg.nCh ≤ 16) (h : (addr.toNat, v) ∈ csrValues s) :
    ∃ r, csrAt s addr = some r ∧ readCsr s r = v := by
  simp only [csrValues, List.mem_append, List.mem_map, List.mem_range, Prod.mk.injEq] at h
  rcases h with ((hlow | ⟨x, hx, ha, rfl⟩) | ⟨x, hx, ha, rfl⟩) | ⟨x, hx, ha, rfl⟩
  · simp only [List.mem_cons, List.not_mem_nil, or_false, Prod.mk.injEq] at hlow
    rcases hlow with h | h | h | h | h | h | h | h | h | h
    all_goals
      obtain ⟨ha, rfl⟩ := h
      obtain rfl := eq_ofNat_of_toNat ha
      exact ⟨_, rfl, rfl⟩
  · refine ⟨.chstat (BitVec.ofNat 4 x), ?_, rfl⟩
    rw [csrAt_high (by omega), ← ha, portCsr_at hx hn]
    rfl
  · refine ⟨.bwacc (BitVec.ofNat 4 x), ?_, rfl⟩
    rw [csrAt_high (by omega), ← ha, portCsr_above (by omega), portCsr_at hx hn]
    rfl
  · refine ⟨.bracc (BitVec.ofNat 4 x), ?_, rfl⟩
    rw [csrAt_high (by omega), ← ha, portCsr_above (by omega), portCsr_above (by omega), portCsr_at hx hn]
    rfl

/-- Settles O2: a row of the table is the register that is read (`csrAt_of_row`), and an address in no row fails the check
of `CSR_RD` (`csrValues_any`). -/
theorem csrReadReturnsTheRegister : Obligations.CsrReadReturnsTheRegister := by
  refine fun s addr hn => ⟨fun v hrow => ?_, fun hnone => ?_⟩
  · obtain ⟨r, hat, rfl⟩ := csrAt_of_row hn hrow
    exact ⟨_, exec_csrRd hat, succeed_endsOk _ rfl, rfl⟩
  · have habsent : (csrValues s).any (fun row => row.1 == addr.toNat) = false :=
      List.any_eq_false.mpr fun ⟨a, v⟩ hrow heq => hnone v (beq_iff_eq.mp heq ▸ hrow)
    obtain ⟨r, hrun, -⟩ := csrRd_checked s addr
    rw [← csrValues_any hn] at hrun
    refine (exec_guarded (i := .csrRd addr) rfl rfl hrun).1 .badArg ?_
    rw [firstFailure, habsent]
    rfl

/-! ### Writing a control register (45 R253) -/

theorem exec_csrWr {r : Csr} {u : State} (hat : csrAt s addr = some r) (hwrite : writeCsr value s r = some u) :
    exec (.csrWr addr value) s = .next (succeed 0 u) := by
  rw [exec_command rfl, commandRun, runCsrWr, hat, Option.bind_some, hwrite, complete_done]

theorem csrWr_rejects (h : addr.toNat ∉ [2, 3, 4, 5, 6, 9]) : Rejects (.csrWr addr value) s .badArg := by
  obtain ⟨r, hrun, -⟩ := csrWr_checked s addr value
  rw [← csrWr_writable] at hrun
  refine (exec_guarded (i := .csrWr addr value) rfl rfl hrun).1 .badArg ?_
  rw [firstFailure, Bool.eq_false_iff.mpr (mt List.contains_iff_mem.mp h)]
  rfl

/-- Settles O4: `writeCsr` at each address that has a register to write, and the check of the others. -/
theorem csrWriteStoresOrIsRejected : Obligations.CsrWriteStoresOrIsRejected := by
  refine fun s addr value => ⟨?lastErr, ?gridW, ?gridH, ?opW, ?opH, ?magic, csrWr_rejects⟩
  case lastErr =>
    rintro rfl
    exact ⟨_, exec_csrWr (r := .lastErr) rfl rfl, succeed_answers 0 _, ⟨rfl, rfl⟩, rfl, rfl⟩
  all_goals
    rintro rfl
    exact ⟨_, exec_csrWr rfl rfl, succeed_endsOk 0 rfl, rfl⟩

/-! ### One pixel (45 R255, R256) -/

theorem pixelExists_iff :
    pixelExists s b index = true ↔ b.toNat < 3 + 3 * s.cfg.nCh ∧ index.toNat < s.cfg.maxPix := by
  rw [pixelExists, bufferExists, Bool.and_eq_true, decide_eq_true_iff, decide_eq_true_iff]

/-- `PX_WR` (45 R255). -/
theorem exec_pxWr (s : State) (b : BitVec 8) (index : Word) (pix : Pixel) :
    (∀ e, firstFailure s (.pxWr b index pix) = some e → Rejects (.pxWr b index pix) s e) ∧
      (firstFailure s (.pxWr b index pix) = none →
        exec (.pxWr b index pix) s = .next (succeed 0 (s.setPixel b.toNat index.toNat pix))) :=
  exec_guarded (i := .pxWr b index pix) rfl rfl (check_guarded rfl)

/-- `PX_RD` (45 R256). -/
theorem exec_pxRd (s : State) (b : BitVec 8) (index : Word) :
    (∀ e, firstFailure s (.pxRd b index) = some e → Rejects (.pxRd b index) s e) ∧
      (firstFailure s (.pxRd b index) = none →
        exec (.pxRd b index) s = .next (succeed ((s.pixel b.toNat index.toNat).setWidth 32) s)) :=
  exec_guarded (i := .pxRd b index) rfl rfl (check_guarded rfl)

/-- Settles O5: both commands check that the pixel exists; what a pixel reads as after a write is `pixel_setPixel`. -/
theorem pixelCommandsReachOneCell : Obligations.PixelCommandsReachOneCell := by
  intro s b index pix
  obtain ⟨hrejWr, hwrite⟩ := exec_pxWr s b index pix
  obtain ⟨hrejRd, hread⟩ := exec_pxRd s b index
  refine ⟨fun hrange => ?_, fun hout => ?_⟩
  · have hpass : firstOf [(pixelExists s b index, Status.badArg)] = none := by
      rw [pixelExists_iff.mpr hrange]
      rfl
    exact ⟨⟨_, hwrite hpass, succeed_endsOk 0 rfl, rfl, fun b' x => pixel_setPixel s _ _ b' x pix⟩,
      _, _, hread hpass, succeed_endsOk _ rfl, rfl, BitVec.toNat_setWidth_of_le (by decide)⟩
  · have hfail : firstOf [(pixelExists s b index, Status.badArg)] = some .badArg := by
      rw [Bool.eq_false_iff.mpr (mt pixelExists_iff.mp (by omega))]
      rfl
    exact ⟨hrejWr _ hfail, hrejRd _ hfail⟩

/-! ### Reset (10 R55, 45 R257) -/

theorem resetOf_isReset (cfg : Config) (epoch : Nat) : IsReset (State.resetOf cfg epoch) where
  writers c := by rw [resetOf_port]; exact ⟨rfl, rfl⟩
  readers c := by rw [resetOf_port]; exact ⟨rfl, rfl⟩
  outputs c := by rw [resetOf_port]; exact ⟨rfl, rfl⟩
  inputs c := by rw [resetOf_port]; exact ⟨rfl, rfl⟩
  channels c := by rw [resetOf_port]; exact ⟨rfl, rfl, rfl⟩
  builtIn0 _ h := congrArg Table.ofInit h
  builtIn1 _ h := congrArg Table.ofInit h
  noTable0 h := congrArg (fun init => (Table.ofInit init).valid) h
  noTable1 h := congrArg (fun init => (Table.ofInit init).valid) h
  cells := ⟨rfl, rfl⟩
  lastErr := rfl
  dims := ⟨rfl, rfl, rfl, rfl⟩
  magic := rfl

/-- The host's coming acts and the response are no state of `IsReset`. -/
theorem IsReset.succeed (h : IsReset s) (host : List HostAct) (data : Word) :
    IsReset (Machine.succeed data { s with host := host }) :=
  { h with }

/-- Settles O6: `RESET` succeeds in the power-on state of the same parameters (`resetOf_isReset`), and its word is the only
one with its opcode byte. -/
theorem resetRestoresEveryValue : Obligations.ResetRestoresEveryValue :=
  ⟨fun s => ⟨_, exec_command rfl s, succeed_answers 0 _, ⟨rfl, rfl⟩, (resetOf_isReset s.cfg (s.epoch + 1)).succeed s.host 0,
      rfl, rfl⟩,
    fun cfg epoch => ⟨resetOf_isReset cfg epoch, rfl, rfl, rfl⟩,
    fun _ s hop hne => issue_otherWord (i := .reset) s (by decide) (fun _ _ => eq_reset_of_opcodeOf) hop hne⟩

end Sys2Proof.Machine
end

section
/-! SUPPORT. A command that waits (40_bitstream.md rule R137, 60_exceptions.md rule R285; log 2): how it came to wait, and the
step of the host's next act while it does. -/

namespace Sys2Proof.Machine

variable {c : PortNo} {s t : State} {i j : Instr} {act : HostAct} {rest : List HostAct}

/-- A command that leaves a command waiting held in its own body. -/
theorem waits_of_exec (hi : i.isCommand = true) (ht : exec i s = .next t) (hj : t.holding = some j) : Waits i s t := by
  rw [exec_command hi] at ht
  obtain rfl := Host.Outcome.next.inj ht
  cases hr : commandRun s i with
  | done data u =>
    rw [hr] at hj
    cases hj
  | raise e u =>
    rw [hr] at hj
    cases hj
  | hold => rfl

theorem step_actHolding (hhold : s.holding = some i) (hhost : s.host = act :: rest) :
    step s = takeActHolding i act s { s with host := rest } := by
  rw [step, hostStep, hhost, hhold]

theorem resume_present (i : Instr) (change : Port → Port) (h : c.toNat < s.cfg.nCh) :
    resume i (onTransport c change s) = exec i (s.setPort c (change (s.port c))) :=
  congrArg (resume i) (onTransport_present change h)

theorem resume_absent (i : Instr) (change : Port → Port) (h : s.cfg.nCh ≤ c.toNat) :
    resume i (onTransport c change s) = .refused .noSuchTransport :=
  congrArg (resume i) (onTransport_absent change h)

/-- Settles O51: only a hold in its body leaves a command waiting (`waits_of_exec`), and while one waits the step is an act
on a transport, after which the command is executed again. -/
theorem holdsWaitForTheHost : Obligations.HoldsWaitForTheHost := by
  refine ⟨fun i j s t => waits_of_exec, fun s i hhold => ⟨step_idle, fun w rest => step_actHolding hhold, fun c rest => ?_⟩⟩
  have hact : ∀ {act}, s.host = act :: rest → step s = takeActHolding i act s { s with host := rest } :=
    step_actHolding hhold
  refine ⟨fun hc => ?present, fun hc hhost => ?absent⟩
  case present =>
    exact ⟨fun w hhost => (hact hhost).trans (resume_present i (appendInput w) hc),
      fun hhost => (hact hhost).trans (resume_present i endInput hc),
      fun hhost => (hact hhost).trans (resume_present i failOutput hc)⟩
  case absent =>
    rcases hhost with ⟨w, hhost⟩ | hhost | hhost
    · exact (hact hhost).trans (resume_absent i (appendInput w) hc)
    · exact (hact hhost).trans (resume_absent i endInput hc)
    · exact (hact hhost).trans (resume_absent i failOutput hc)

end Sys2Proof.Machine
end

section
/-! SUPPORT. The statuses of the commands (60_exceptions.md rules R272, R274): the body of every command raises only what the
row of its command lists, and its end is a success, one of these errors, or a hold. -/

namespace Sys2Proof.Machine

variable {c : PortNo} {s : State} {i : Instr} {es : List Status} {α β : Type}

/-! ### The statuses a stretch of a command can raise -/

/-- What the stretch raises is one of `es`. The lemmas below find a status of a literal list, or of a command's row, by
themselves. -/
def Res.Raises (es : List Status) : Res α → Prop
  | .raise e _ => e ∈ es
  | .done _ _ => True
  | .hold => True

section Raises
variable {r : Res α}

theorem Res.Raises.mono {es' : List Status} (h : r.Raises es')
    (hsub : ∀ e ∈ es', e ∈ es := by simp [statusesOf]) : r.Raises es := by
  cases r with
  | done a t => trivial
  | raise e t => exact hsub e h
  | hold => trivial

theorem Res.Raises.bind {k : α → State → Res β} (h : r.Raises es) (hk : ∀ a t, r = .done a t → (k a t).Raises es) :
    (r.bind k).Raises es := by
  cases r with
  | done a t => exact hk a t rfl
  | raise e t => exact h
  | hold => trivial

/-- What follows a stretch and raises nothing. -/
theorem Res.Raises.respond {data : α → State → β} {next : α → State → State} (h : r.Raises es) :
    (r.bind fun a t => .done (data a t) (next a t)).Raises es := h.bind fun _ _ _ => trivial

theorem raises_check {ok : Bool} {e : Status} {k : State → Res α} (hk : ok = true → (k s).Raises es)
    (he : e ∈ es := by simp [statusesOf]) : ((check ok e s).andThen k).Raises es := by
  cases ok with
  | true => exact hk rfl
  | false => exact he

theorem raises_withTable {n : BitVec 4} {k : TableId → Res α} (hk : ∀ tab, (k tab).Raises es)
    (he : Status.badArg ∈ es := by simp [statusesOf]) : (withTable n s k).Raises es := by
  unfold withTable
  split
  · exact hk _
  · exact he

theorem Ends.raises {B : Nat → Nat → Prop} {raised kills : List Status} (h : Ends c B raised kills s r)
    (hsub : ∀ e ∈ raised, e ∈ es := by simp [statusesOf]) : r.Raises es := by
  cases r with
  | done a t => trivial
  | raise e t =>
    obtain ⟨hraised, -⟩ := h
    exact hsub e hraised
  | hold => trivial

theorem raises_intraChecks {b : BitVec 8} {k : State → Res α} (hk : (k s).Raises es)
    (hes : ∀ e ∈ [Status.badArg, .noTable, .badDim], e ∈ es := by simp [statusesOf]) :
    ((intraChecks c b s).andThen k).Raises es := by
  unfold intraChecks
  rw [andThen_andThen]
  refine raises_check (fun _ => ?_) (hes _ (by decide))
  rw [andThen_andThen]
  exact raises_check (fun _ => raises_check (fun _ => hk) (hes _ (by decide))) (hes _ (by decide))

theorem raises_interChecks {b b' : BitVec 8} {k : State → Res α} (hk : (k s).Raises es)
    (hes : ∀ e ∈ [Status.badArg, .noTable, .badDim], e ∈ es := by simp [statusesOf]) :
    ((interChecks c b b' s).andThen k).Raises es := by
  unfold interChecks
  rw [andThen_andThen]
  refine raises_check (fun _ => ?_) (hes _ (by decide))
  rw [andThen_andThen]
  exact raises_check (fun _ => raises_check (fun _ => hk) (hes _ (by decide))) (hes _ (by decide))

end Raises

/-! ### An intra frame has no runs (42 R188, R191) -/

theorem intraItem_raises (cu : Cursor) (s : State) : (intraItem cu s).Raises transportOnly := by
  unfold intraItem
  split
  · exact (ends_read noCell (by decide)).raises.respond
  · refine (ends_decode noCell _).raises.bind fun sym t _ => ?_
    split
    · trivial
    · exact (ends_read noCell (by decide)).raises.respond

theorem frameItems_intra_raises (rounds : Nat) {cu : Cursor} (hcu : s.cursor = some cu) (hintra : cu.table = .intra) :
    (frameItems rounds s).Raises transportOnly := by
  induction rounds generalizing s cu with
  | zero => trivial
  | succ rounds ih =>
    have hitem : (frameItem cu s).Raises transportOnly := by
      rw [frameItem, hintra]
      exact intraItem_raises cu s
    simp only [frameItems, hcu]
    split
    · refine hitem.bind fun _ t hdone => ?_
      obtain ⟨n, hn⟩ := frameItem_cursor hdone
      exact ih hn hintra
    · trivial

theorem intraDecompress_raises (op : BitVec 8) (c : PortNo) (b w h : Nat) (s : State) :
    (intraDecompress op c b w h s).Raises transportOnly :=
  (frameItems_intra_raises _ (s := { s with cursor := some (intraCursor op c b w h) }) rfl rfl).respond

/-! ### The commands -/

theorem runFsAck_raises (v : Word) : (runFsAck c v s).Raises [.badArg, .badState, .protocol] :=
  raises_check fun _ => raises_check fun _ => by
    split
    · trivial
    split
    · trivial
    · exact (by decide : Status.protocol ∈ [Status.badArg, .badState, .protocol])

theorem runFsMsg_raises (token : BitVec 16) : (runFsMsg c token s).Raises [.badArg, .badState, .protocol] :=
  raises_check fun _ => raises_check fun _ => by
    split
    · trivial
    · exact (by decide : Status.protocol ∈ [Status.badArg, .badState, .protocol])

theorem runFsSend_raises (hf : CodesFit s) :
    (runFsSend c s).Raises [.badArg, .badState, .noTable, .badDim, .transport] :=
  raises_check fun _ => raises_check fun _ => by
    split
    · trivial
    · exact raises_check fun _ => raises_check fun _ => (ends_sendPlanes noCell hf).raises.respond

theorem runFsRecv_raises : (runFsRecv c s).Raises [.badArg, .badState, .noTable, .badDim, .transport, .runOverrun] :=
  raises_check fun _ => raises_check fun _ => raises_check fun _ => raises_check fun _ => ends_recvPlanes.raises.respond

/-- The body of every command raises only statuses of its row (60 R272). -/
theorem commandRun_raises (hf : CodesFit s) : (commandRun s i).Raises (statusesOf i) := by
  have bits : ∀ {b : Bool} {k : BitVec 16}, (b && bitCountOk k) = true → k.toNat ≤ 32 := fun h =>
    of_decide_eq_true (Bool.and_eq_true_iff.mp h).2
  cases i with
  | bwWrite c k v => exact raises_check fun hok => (ends_write noCell v (bits hok)).raises.respond
  | bwFlush c => exact raises_check fun _ => (ends_flush noCell).raises.respond
  | brRead c k => exact raises_check fun hok => (ends_read noCell (bits hok)).raises
  | brReadbit c => exact raises_check fun _ => (ends_read noCell (by decide)).raises
  | brAlign c => exact raises_check fun _ => trivial
  | fqWr n sym f => exact raises_withTable fun _ => raises_check fun _ => trivial
  | pcBuild n =>
    refine raises_withTable fun tab => ?_
    split
    · trivial
    · exact (by decide : Status.codeTooLong ∈ [Status.ok, .badArg, .codeTooLong])
  | pcEncode c n sym =>
    exact raises_check fun _ => raises_withTable fun tab => raises_check fun _ => raises_check fun _ =>
      (ends_encode noCell hf tab _).raises.respond
  | pcDecode c n =>
    exact raises_check fun _ => raises_withTable fun tab => raises_check fun _ => (ends_decode noCell tab).raises.respond
  | pcQbits n sym | pcQlen n sym => exact raises_withTable fun _ => raises_check fun _ => raises_check fun _ => trivial
  | icCompress c src => exact raises_intraChecks (ends_intraCompress noCell _ _ _ hf).raises.respond
  | icDecompress c dst => exact raises_intraChecks (intraDecompress_raises _ c _ _ _ s).mono.respond
  | xcCompress c src ref => exact raises_interChecks (ends_interCompress noCell _ _ _ hf).raises.respond
  | xcDecompress c dst ref => exact raises_interChecks (ends_interDecompress _ _ _ _).raises.respond
  | fsOpen c role => exact raises_check fun _ => raises_check fun _ => trivial
  | fsAck c v => exact (runFsAck_raises v).mono
  | fsMsg c token => exact (runFsMsg_raises token).mono
  | fsSend c => exact (runFsSend_raises hf).mono
  | fsRecv c => exact runFsRecv_raises.mono
  | fsClose c => exact raises_check fun _ => trivial
  | csrRd addr =>
    show (runCsrRd addr s).Raises [.ok, .badArg]
    unfold runCsrRd
    split
    · trivial
    · exact (by decide : Status.badArg ∈ [Status.ok, .badArg])
  | csrWr addr value =>
    show (runCsrWr addr value s).Raises [.ok, .badArg]
    unfold runCsrWr
    split
    · trivial
    · exact (by decide : Status.badArg ∈ [Status.ok, .badArg])
  | pxWr b index pix => exact raises_check fun _ => trivial
  | pxRd b index => exact raises_check fun _ => trivial
  | _ => trivial

theorem ok_mem_statusesOf (hi : i.isCommand = true) : Status.ok ∈ statusesOf i := by
  cases i with
  | direct0 | esc0 | direct1 | esc1 | run => cases hi
  | _ => exact List.mem_cons_self

/-- Settles O44: the body of the command raises only statuses of its row (`commandRun_raises`), and its end is the answer
or, after a hold, the wait. -/
theorem commandsEndWithTheirStatuses : Obligations.CommandsEndWithTheirStatuses := by
  intro i s hi h
  refine ⟨_, exec_command hi s, ?_⟩
  have hraises : (commandRun s i).Raises (statusesOf i) := commandRun_raises h.inside.codesFit
  cases hr : commandRun s i with
  | done data t => exact .inr ⟨.ok, data, ok_mem_statusesOf hi, succeed_answers data t, fun hne => absurd rfl hne⟩
  | raise e t =>
    rw [hr] at hraises
    exact .inr ⟨e, 0, hraises, takeError_answers _ e t, fun _ => rfl⟩
  | hold => exact .inl rfl

end Sys2Proof.Machine
end

section
/-! SUPPORT. What a command changes outside the ports (70_reset_and_hazards.md rule R312, 20_memory.md rules R77, R78): each
table, frequency, control register and pixel has its own writers. -/

namespace Sys2Proof.Machine

variable {c : PortNo} {s t u : State} {i : Instr} {α : Type}

/-! ### Changes that a command names -/

/-- From `s` to `t` nothing changed outside the ports, `LAST_ERR` and the model's own fields but what command `i` names. -/
structure ChangesNamed (i : Instr) (s t : State) : Prop where
  cfg : t.cfg = s.cfg
  host : t.host = s.host
  epoch : t.epoch = s.epoch
  table : ∀ tab, (∀ n : BitVec 4, n.toNat = tableNumber tab → i ≠ .pcBuild n) → t.table tab = s.table tab
  freq : (∀ n sym f, i ≠ .fqWr n sym f) → t.freq = s.freq
  registers : (∀ addr value, i ≠ .csrWr addr value) →
    t.gridW = s.gridW ∧ t.gridH = s.gridH ∧ t.opW = s.opW ∧ t.opH = s.opH ∧ t.magic = s.magic
  pixels : ∀ b x, ¬ mayWrite s b x i → t.pixel b x = s.pixel b x

theorem ChangesNamed.refl (i : Instr) (s : State) : ChangesNamed i s s where
  cfg := rfl
  host := rfl
  epoch := rfl
  table _ _ := rfl
  freq _ := rfl
  registers _ := ⟨rfl, rfl, rfl, rfl, rfl⟩
  pixels _ _ _ := rfl

/-- The ports are no part of the relation. -/
theorem ChangesNamed.setPort (h : ChangesNamed i s t) (c : PortNo) (p : Port) : ChangesNamed i s (t.setPort c p) :=
  { h with table := fun tab htab => (setPort_table t c p tab).trans (h.table tab htab) }

/-- What moves only a port, the cursor and pixels that the command may write. -/
theorem Moves.changesNamed {B : Nat → Nat → Prop} (m : Moves c B s t) (hB : ∀ b x, B b x → mayWrite s b x i) :
    ChangesNamed i s t where
  cfg := m.cfg
  host := by rw [m.rest]; rfl
  epoch := by rw [m.rest]; rfl
  table tab _ := m.table tab
  freq _ := m.freq
  registers _ := by rw [m.rest]; exact ⟨rfl, rfl, rfl, rfl, rfl⟩
  pixels b x hx := m.pixels b x fun hb => hx (hB b x hb)

/-- A stretch on a port that writes no pixels but those its command may write. -/
theorem Ends.changesNamed {B : Nat → Nat → Prop} {es kills : List Status} {r : Res α} (h : Ends c B es kills s r)
    (hB : ∀ b x, B b x → mayWrite s b x i) : r.EndsIn (ChangesNamed i s) :=
  h.endsIn.mono fun _ m => m.changesNamed hB

/-- A stretch on a port that writes no pixel. -/
theorem Ends.changesNoCell {es kills : List Status} {r : Res α} (h : Ends c noCell es kills s r) :
    r.EndsIn (ChangesNamed i s) := h.changesNamed fun _ _ => False.elim

/-- The end of a command adds nothing to the changes of its body. -/
theorem Res.EndsIn.complete_changesNamed {r : Res Word} (h : r.EndsIn (ChangesNamed i s)) :
    ChangesNamed i s (Machine.complete i s r) := by
  cases r with
  | done data t => exact { h with table := fun tab htab => (succeed_table t data tab).trans (h.table tab htab) }
  | raise e t => exact { h with table := fun tab htab => (takeError_table t _ e tab).trans (h.table tab htab) }
  | hold => exact { ChangesNamed.refl i s with }

open ChangesNamed (refl)

/-! ### The commands that write tables, frequencies and registers (41 R162, R163, 45 R253) -/

theorem tableNumber_of_field {n : BitVec 4} {tab : TableId} (h : tableOfField n = some tab) : n.toNat = tableNumber tab := by
  revert h n
  cases tab <;> decide

/-- What follows the choice of a table may rest on the field that named it. -/
theorem endsIn_tableOfField {P : State → Prop} {n : BitVec 4} {k : TableId → Res α} (hs : P s)
    (hk : ∀ tab, tableOfField n = some tab → (k tab).EndsIn P) : (withTable n s k).EndsIn P := by
  unfold withTable
  split
  · rename_i tab htab
    exact hk tab htab
  · exact hs

theorem runFqWr_changes (n : BitVec 4) (sym : BitVec 16) (f : Word) (s : State) :
    (runFqWr n sym f s).EndsIn (ChangesNamed (.fqWr n sym f) s) :=
  endsIn_withTable (refl _ s) fun tab => endsIn_check (refl _ s) fun _ =>
    { refl _ s with
      table := fun u _ => setFreq_table s tab sym.toNat f u
      freq := fun hne => absurd rfl (hne n sym f) }

/-- Table `tab` alone was replaced, by the command that builds it. -/
theorem changesNamed_setTable {n : BitVec 4} {tab : TableId} (s : State) (code : Table) (h : n.toNat = tableNumber tab) :
    ChangesNamed (.pcBuild n) s (s.setTable tab code) where
  cfg := setTable_cfg s tab code
  host := setTable_host s tab code
  epoch := setTable_epoch s tab code
  table other hother := setTable_ne s code fun heq => hother n (heq ▸ h) rfl
  freq _ := setTable_freq s tab code
  registers _ := ⟨setTable_gridW s tab code, setTable_gridH s tab code, setTable_opW s tab code, setTable_opH s tab code,
    setTable_magic s tab code⟩
  pixels b x _ := by
    unfold State.pixel
    rw [setTable_pix, setTable_epoch]

theorem runPcBuild_changes (n : BitVec 4) (s : State) : (runPcBuild n s).EndsIn (ChangesNamed (.pcBuild n) s) :=
  endsIn_tableOfField (refl _ s) fun tab htab => by
    split
    · exact changesNamed_setTable s _ (tableNumber_of_field htab)
    · exact refl _ s

theorem writeCsr_changes {r : Csr} {addr : BitVec 16} {value : Word} (h : writeCsr value s r = some t) :
    ChangesNamed (.csrWr addr value) s t := by
  cases r with
  | lastErr | gridW | gridH | opW | opH | magic =>
    cases h
    exact { refl _ s with registers := fun hne => absurd rfl (hne addr value) }
  | _ => cases h

theorem runCsrWr_changes (addr : BitVec 16) (value : Word) (s : State) :
    (runCsrWr addr value s).EndsIn (ChangesNamed (.csrWr addr value) s) := by
  unfold runCsrWr
  split
  · rename_i t ht
    obtain ⟨r, -, hw⟩ := Option.bind_eq_some_iff.mp ht
    exact writeCsr_changes hw
  · exact refl _ s

theorem runCsrRd_changes (addr : BitVec 16) (s : State) : (runCsrRd addr s).EndsIn (ChangesNamed i s) := by
  unfold runCsrRd
  split <;> exact refl i s

/-- `PX_WR` writes one pixel (45 R255). -/
theorem runPxWr_changes (b : BitVec 8) (index : Word) (pix : Pixel) (s : State) :
    (runPxWr b index pix s).EndsIn (ChangesNamed (.pxWr b index pix) s) :=
  endsIn_check (refl _ s) fun _ =>
    { refl _ s with
      table := fun tab _ => setPixel_table s b.toNat index.toNat pix tab
      pixels := fun _ _ hother => pixel_setPixel_ne s pix (Decidable.not_and_iff_or_not.mp hother) }

/-! ### The channels (44 R223 to R231) -/

theorem runFsOpen_changes (role : BitVec 1) : (runFsOpen c role s).EndsIn (ChangesNamed i s) :=
  endsIn_check (refl i s) fun _ => endsIn_check (refl i s) fun _ => (refl i s).setPort c _

theorem runFsAck_changes (v : Word) : (runFsAck c v s).EndsIn (ChangesNamed i s) :=
  endsIn_check (refl i s) fun _ => endsIn_check (refl i s) fun _ => by
    split
    · exact (refl i s).setPort c _
    split <;> exact (refl i s).setPort c _

theorem runFsMsg_changes (token : BitVec 16) : (runFsMsg c token s).EndsIn (ChangesNamed i s) :=
  endsIn_check (refl i s) fun _ => endsIn_check (refl i s) fun _ => by
    split
    · exact refl i s
    · exact (refl i s).setPort c _

/-! ### Triplets (44 R228, R230) -/

/-- The cells of the references of channel `c` that a triplet covers. -/
def tripletCells (s : State) (c : PortNo) (b x : Nat) : Prop := ∃ k < 3, b = refBuffer c k ∧ x < planePixels s k

/-- Those are the cells that a command with a triplet may write. -/
theorem mayWrite_of_tripletCells (hi : i = .fsSend c ∨ i = .fsRecv c) {b x : Nat} (h : tripletCells s c b x) :
    mayWrite s b x i := by
  obtain ⟨k, hk, rfl, hx⟩ := h
  have hwrite : mayWrite s (refBuffer c k) x (.fsSend c) := by
    match k, hk with
    | 0, _ => exact .inl ⟨rfl, hx⟩
    | 1, _ => exact .inr ⟨.inl (by unfold refBuffer; omega), hx⟩
    | 2, _ => exact .inr ⟨.inr (by unfold refBuffer; omega), hx⟩
  rcases hi with rfl | rfl <;> exact hwrite

/-- A stretch on plane `k`, after a part of the triplet. -/
theorem planeCells {B : Nat → Nat → Prop} (m : Moves c B s u) {k : Nat} (hk : k < 3) :
    ∀ b x, b = refBuffer c k ∧ x < planePixels u k → tripletCells s c b x :=
  fun _ _ ⟨hb, hx⟩ => ⟨k, hk, hb, m.planePixels k ▸ hx⟩

theorem recvPlanes_onTriplet :
    Ends c (tripletCells s c) streamStatuses streamStatuses s (forPlanes (recvPlane c) s) := by
  have hplane : ∀ (u : State) (k : Nat), k < 3 → Moves c (tripletCells s c) s u →
      Ends c (tripletCells s c) streamStatuses streamStatuses u (recvPlane c k u) := fun u k hk m =>
    (ends_recvPlane k).mono (planeCells m hk) (fun _ => id) fun _ _ => Iff.rfl
  exact ends_forPlanes (hplane s 0 (by decide) (.refl _ _ s)) (fun u => hplane u 1 (by decide))
    fun u => hplane u 2 (by decide)

theorem updateReferences_onTriplet (m : Moves c noCell s u) :
    Moves c (tripletCells s c) s (updateReference c 2 (updateReference c 1 (updateReference c 0 u))) := by
  have update : ∀ (v : State) (k : Nat), k < 3 → Moves c (tripletCells s c) s v →
      Moves c (tripletCells s c) s (updateReference c k v) := fun v k hk m =>
    m.trans ((moves_updateReference c k v).mono (planeCells m hk))
  exact update _ 2 (by decide) <| update _ 1 (by decide) <| update u 0 (by decide) <| m.mono fun _ _ => False.elim

theorem runFsSend_changes (hf : CodesFit s) : (runFsSend c s).EndsIn (ChangesNamed (.fsSend c) s) :=
  endsIn_check (refl _ s) fun _ => endsIn_check (refl _ s) fun _ => by
    split
    · exact refl _ s
    refine endsIn_check (refl _ s) fun _ => endsIn_check (refl _ s) fun _ => ?_
    refine (ends_sendPlanes noCell hf).endsIn.bind (fun _ m => m.changesNamed fun _ _ => False.elim) fun _ u m => ?_
    exact ((updateReferences_onTriplet m).changesNamed fun _ _ => mayWrite_of_tripletCells (.inl rfl)).setPort c _

theorem runFsRecv_changes : (runFsRecv c s).EndsIn (ChangesNamed (.fsRecv c) s) :=
  endsIn_check (refl _ s) fun _ => endsIn_check (refl _ s) fun _ => endsIn_check (refl _ s) fun _ =>
    endsIn_check (refl _ s) fun _ =>
      (recvPlanes_onTriplet.changesNamed fun _ _ => mayWrite_of_tripletCells (.inr rfl)).bind (fun _ => id)
        fun _ _ h => h.setPort c _

/-! ### Every command -/

/-- The body of every command but `RESET` changes only what the command names. -/
theorem commandRun_changes (hf : CodesFit s) (hreset : i ≠ .reset) : (commandRun s i).EndsIn (ChangesNamed i s) := by
  have bits : ∀ {b : Bool} {k : BitVec 16}, (b && bitCountOk k) = true → k.toNat ≤ 32 := fun h =>
    of_decide_eq_true (Bool.and_eq_true_iff.mp h).2
  cases i with
  | nop => exact refl _ s
  | bwWrite c k v => exact endsIn_check (refl _ s) fun hok => (ends_write noCell v (bits hok)).changesNoCell.respond
  | bwFlush c => exact endsIn_check (refl _ s) fun _ => (ends_flush noCell).changesNoCell.respond
  | brRead c k => exact endsIn_check (refl _ s) fun hok => (ends_read noCell (bits hok)).changesNoCell
  | brReadbit c => exact endsIn_check (refl _ s) fun _ => (ends_read noCell (by decide)).changesNoCell
  | brAlign c => exact endsIn_check (refl _ s) fun _ => (refl _ s).setPort c _
  | fqWr n sym f => exact runFqWr_changes n sym f s
  | pcBuild n => exact runPcBuild_changes n s
  | pcEncode c n sym =>
    exact endsIn_check (refl _ s) fun _ => endsIn_withTable (refl _ s) fun tab => endsIn_check (refl _ s) fun _ =>
      endsIn_check (refl _ s) fun _ => (ends_encode noCell hf tab _).changesNoCell.respond
  | pcDecode c n =>
    exact endsIn_check (refl _ s) fun _ => endsIn_withTable (refl _ s) fun tab => endsIn_check (refl _ s) fun _ =>
      (ends_decode noCell tab).changesNoCell.respond
  | pcQbits n sym | pcQlen n sym =>
    exact endsIn_withTable (refl _ s) fun _ => endsIn_check (refl _ s) fun _ => endsIn_check (refl _ s) fun _ => refl _ s
  | icCompress c src => exact endsIn_intraChecks (refl _ s) (ends_intraCompress noCell _ _ _ hf).changesNoCell.respond
  | icDecompress c dst =>
    exact endsIn_intraChecks (refl _ s) ((ends_intraDecompress _ _ _ _).changesNamed fun _ _ => id).respond
  | xcCompress c src ref => exact endsIn_interChecks (refl _ s) (ends_interCompress noCell _ _ _ hf).changesNoCell.respond
  | xcDecompress c dst ref =>
    exact endsIn_interChecks (refl _ s) ((ends_interDecompress _ _ _ _).changesNamed fun _ _ => id).respond
  | fsOpen c role => exact runFsOpen_changes role
  | fsAck c v => exact runFsAck_changes v
  | fsMsg c token => exact runFsMsg_changes token
  | fsSend c => exact runFsSend_changes hf
  | fsRecv c => exact runFsRecv_changes
  | fsClose c => exact endsIn_check (refl _ s) fun _ => (refl _ s).setPort c _
  | csrRd addr => exact runCsrRd_changes addr s
  | csrWr addr value => exact runCsrWr_changes addr value s
  | pxWr b index pix => exact runPxWr_changes b index pix s
  | pxRd b index => exact endsIn_check (refl _ s) fun _ => refl _ s
  | reset => exact absurd rfl hreset
  | _ => trivial

/-- Settles O50: the body of every command but `RESET` changes only what the command names (`commandRun_changes`), and its
end adds no change (`Res.EndsIn.complete_changesNamed`). -/
theorem onlyTheNamedCommandsChangeState : Obligations.OnlyTheNamedCommandsChangeState := by
  intro i s t hi h ht hreset
  rw [exec_command hi] at ht
  obtain rfl := Host.Outcome.next.inj ht
  obtain ⟨hcfg, hhost, hepoch, htable, hfreq, hregs, hpixels⟩ :=
    (commandRun_changes h.inside.codesFit hreset).complete_changesNamed
  exact ⟨hcfg, hhost, hepoch, htable, hfreq, hregs, hpixels⟩

/-! ### The state after reset (70 R311) -/

/-- The parameters of `State.reset` are legal (00 R8, log 3). -/
theorem resetInstance_legal : LegalConfig resetInstance where
  channels := by decide
  pixels := by decide
  init0 := nofun
  init1 := nofun

/-- Settles O58: a reset state meets the invariant (`resetOf_inv`), and the parameters of `State.reset` are legal. -/
theorem resetSatisfiesTheInvariant : Obligations.ResetSatisfiesTheInvariant :=
  ⟨fun _ epoch hlegal => resetOf_inv epoch hlegal, resetOf_inv 0 resetInstance_legal⟩

end Sys2Proof.Machine
end
